-- ==== Sys2Proof/Word.lean ====
section
/-! DEFINITION. The word types: registers and header words are 64-bit vectors (R10), bytes are 8-bit vectors (R7). -/
namespace Sys2Proof

/-- A register, a header word or a tack register: 64 bits (R10, R219). -/
abbrev Word := BitVec 64

/-- One byte of memory or of a payload (R7). -/
abbrev Byte := BitVec 8

end Sys2Proof
end

