-- ==== Sys2Proof/Syntax.lean ====
section
/-! DEFINITION. The commands of the block: one constructor of `Instr` per row of spec/opcode_table.json, with the
operands the outside world gives it. Identifiers number from 0 (R6). -/
namespace Sys2Proof

/-- A region 0..3 (R6, R18). -/
abbrev Region := Fin 4
/-- A port 0..63; port p lies in region p div 16 (R6). -/
abbrev Port := Fin 64
/-- A lane 0..8; lane 8 is the spare (R6). -/
abbrev Lane := Fin 9
/-- A Lintel stack 0..7; stack s lies in region s div 2 (R6). -/
abbrev Stack := Fin 8
/-- A traffic class 0..7 (R130). -/
abbrev Tc := Fin 8
/-- A block's index within its region (R51). -/
abbrev BlockIx := Fin 16
/-- A logical cell (R201). -/
abbrev CellIx := Fin 8
/-- A host session (R390). -/
abbrev Sess := Fin 16

/-- A unit instance of Table REG-3. -/
inductive UnitId where
  | port (p : Port) | xbar (r : Region) | mortar (r : Region) | combine (r : Region) | sort (r : Region)
  | cobbler (r : Region) | bufbank (r : Region) (i : Fin 4) | memblk (s : Stack) | d2d (r i : Region)
  | cblk (r : Region) (b : BlockIx) | fabmem (r : Region) | region (r : Region)
  | chip | boot | fuse | security | course | plumb | hostbr | hostport | power | awl | repoint
  deriving DecidableEq, Repr

/-- An Evord packet: the four header words of Table FWD-1 and the `length` payload bytes (padding left out, R102). -/
structure Packet where
  w0 : Word
  w1 : Word
  w2 : Word
  w3 : Word
  payload : List Byte
  deriving DecidableEq, Repr, Inhabited

/-- The lane order the receiver sees in DESKEW (Table LINK-2). -/
inductive LaneOrder where
  | identity | reversed | other
  deriving DecidableEq, Repr

/-- An output of a region's crossbar slice: a port, or a region endpoint channel (R110). -/
inductive Outlet where
  | port (p : Port)
  | channel (r : Region) (k : Fin 4)
  deriving DecidableEq, Repr

/-- What the nine receivers saw with a flit: the codeword's index within its frame, the symbols that were wrong, and per
lane whose PRBS checker ran, its lock and new bit errors (R73, R74, R98). -/
structure Codeword where
  index : Fin 512
  errors : List (Fin 544)
  prbs : List (Lane × Bool × Nat)
  deriving DecidableEq, Repr

/-- The errors that a memory block's decoder meets in one line of a request: the line's place among the lines that the
request reads, the symbols of its RS(72,64) word that are wrong, and the failed pins of its pseudo-channel (R186). -/
structure EccSeen where
  line : Nat
  symbols : List (Fin 72)
  pins : List (Fin 36)
  deriving DecidableEq, Repr

/-- The memories of a cell and its block that carry SECDED (Table CELL-12). -/
inductive SramMem where
  | spad | tdm | bmem | imem | shadow
  deriving DecidableEq, Repr

/-- An error that a SECDED decoder meets in a 64-bit word: the memory, the word's number in it, and whether it is beyond
correction. -/
structure SramSeen where
  mem : SramMem
  word : Nat
  double : Bool
  deriving DecidableEq, Repr

/-- One element that the repointing engine can replace (Table FLT-4, Table FLT-12a). -/
inductive Element where
  | lane (p : Port) (l : Lane) (rx : Bool)
  | cell (r : Region) (b : BlockIx) (c : CellIx)
  | subbank (r : Region) (i : Fin 4) (sub : Fin 16)
  | row (s : Stack) (pc : Fin 64) (rank : Fin 4) (bank : Fin 32) (row : BitVec 13)
  | pc (s : Stack) (pc : Fin 64)
  | wire (src dst : Region) (w : Nat)
  deriving DecidableEq, Repr

/-- Where the overcurrent comparator sits: one compute die's rail or the 12 V input (Table PWR-4). -/
inductive Rail where
  | die (r : Region)
  | input
  deriving DecidableEq, Repr

/-- Which elastic buffer failed: a port lane's or a die-to-die wire's (R47). -/
inductive ElasticAt where
  | lane (p : Port) (l : Lane)
  | wire (src dst : Region) (w : Nat)
  deriving DecidableEq, Repr

/-- What a timed operation of the boot sequencer found at its end (R452, R484, R490). -/
inductive BootFound where
  | ok
  | failed
  deriving DecidableEq, Repr

/-- A received Ethernet frame after the MAC: destination and source address, the 802.1Q tag if any, the MACsec SecTAG
if any (SCI, AN, PN), and the octets after them (R385, R387). -/
structure Frame where
  dst : BitVec 48
  src : BitVec 48
  fcsOk : Bool
  vlan : Option (BitVec 12 × BitVec 3)
  stacked : Bool
  secTag : Option (BitVec 64 × Fin 4 × BitVec 64)
  ethertype : BitVec 16
  body : List Byte
  deriving DecidableEq, Repr

/-- The commands, one per row of spec/opcode_table.json, in its order. -/
inductive Instr where
  -- reset, power-up and JTAG
  | resetAssert
  | resetRelease (s1 s2 s3 : BitVec 9)
  | bootReady
  | pwrgdRise
  | pwrgdFall
  | clockFailure (aonclk : Bool)
  | idcode
  | bypass (tdi : Bool)
  -- registers
  | registerWrite (addr : BitVec 40) (value hwSet : Word)
  | rcRead (addr : BitVec 40) (hwUpdate : Word)
  | eventForceWrite (u : UnitId) (value : Word)
  | captureRelease (u : UnitId)
  | policyWrite (u : UnitId) (ceil : Bool) (value : Word)
  | epidMapWrite (value : Word)
  -- course
  | courseBoundary
  | tick (p : Port) (header : Word) (course : BitVec 48) (len : BitVec 2) (master : BitVec 6) (hops : BitVec 8)
      (launch : BitVec 16) (podId : BitVec 5) (arrival : BitVec 32)
  | markerTimeout
  | holdoverExhausted
  | rttMeasure (p : Port)
  | probe (p : Port) (header : Word) (echo : Bool) (sendTime arrival : Word) (hold : BitVec 32)
  | courseLenChange
  | courseNumberAdopt
  | masterTakeover
  | masterStartupTimeout
  | elasticBufferError (at_ : ElasticAt)
  | eventMessage (u : UnitId)
  | resync
  -- Evord link
  | enableWrite (p : Port) (on : Bool)
  | retrainWrite (p : Port)
  | quietDone (p : Port)
  | trainingFrame (p : Port) (lane : Lane) (control status : Word)
  | detectLock (p : Port)
  | detectTimeout (p : Port)
  | equaliseDone (p : Port) (good : BitVec 9)
  | eqTimeout (p : Port)
  | negotiate (p : Port) (word : BitVec 184)
  | negotiateTimeout (p : Port)
  | deskewLock (p : Port) (skewPs : Nat) (order : LaneOrder)
  | deskewTimeout (p : Port)
  | linkupDone (p : Port)
  | linkupTimeout (p : Port)
  | data (p : Port) (flit : List Byte) (cw : Codeword)
  | idle (p : Port) (header : Word)
  | nak (p : Port) (header : Word)
  | nakRepeatTimeout (p : Port)
  | replayTimeout (p : Port)
  | deadHoldExpiry (p : Port)
  | routeRestore
  | idleEntryTimeout (p : Port)
  | idleReq (p : Port) (header : Word)
  | idleAck (p : Port) (header : Word)
  | idleNak (p : Port) (header : Word)
  | elecIdleEntry (p : Port)
  | wakeBurst (p : Port)
  | wakeRelock (p : Port)
  | wakeTimeout (p : Port)
  | retrain (p : Port) (header : Word)
  | laneFailure (p : Port) (lane : Lane) (rx : Bool)
  | repointReq (p : Port) (header : Word) (lane : Lane)
  | laneSwitch (p : Port) (lane : Lane) (rx : Bool)
  | creditCfgWrite (p : Port) (upper : Bool) (value : Word)
  | linkInject (p : Port) (value : Word)
  | laneInject (p : Port) (lane : Lane) (value : Word)
  | continuousInjection (p : Port) (lane : Lane)
  -- switch core and traffic classes
  | packetStored (r : Region) (inp : Fin 20)
  | meterHoldRelease (p : Port) (tc : Tc)
  | cellSlotMatch (r : Region) (fixed : List (Fin 4 × Fin 16))
  | d2dCell (src dst : Region) (crcOk resendOk : Bool) (wire : Nat)
  | d2dWireFault (src dst : Region) (wire : Nat)
  | packetTransmitStart (out : Outlet)
  | bufferUe (r : Region) (pkt : Nat)
  | bufAllotWrite (r : Region) (value : Word)
  | multicastWordWrite (r : Region) (g : Fin 1024) (wordB : Bool) (value : Word)
  | wfqWeightWrite (p : Port) (value : Word)
  | meterWrite (p : Port) (tc : Tc) (burst : Bool) (value : Word)
  | gateTakeover (p : Port) (value : Word)
  | gateTakeoverApply (p : Port)
  | gateEntryWrite (p : Port) (i : Fin 64) (value : Word)
  | gateEntryExpiry (p : Port)
  | hostGateTakeover (value : Word)
  -- fabric memory
  | combineWindowClose (r : Region) (entry : Nat)
  | homeRequest (r : Region)
  | gapTimeout (r : Region) (src : BitVec 12) (tc : Tc) (seq : BitVec 20)
  | memRspNotice (r : Region)
  | combinedResponse (r : Region)
  | ledgerAckTimeout (r : Region) (entry : Nat)
  | sealReceived (r : Region)
  | fabricFence (r : Region)
  | fenceComplete (r : Region) (fence : Nat)
  | fenceTimeout (r : Region) (fence : Nat)
  | hotFilterExpiry (r : Region) (line : Nat)
  | teardown (r : Region)
  -- Lintel memory
  | memblkRequest (s : Stack) (seen : List EccSeen)
  | writeback (s : Stack) (line : Nat) (block : Fin 64)
  | refresh (s : Stack) (pc : Fin 64) (rank : Fin 4) (bank : Fin 32) (rowHits : Bool)
  | hotRefreshEntry (s : Stack) (temp : BitVec 8)
  | scrubRead (s : Stack) (seen : List EccSeen)
  | pcFailure (s : Stack) (pc : Fin 64)
  | sparingCopyDone (s : Stack)
  | memblkInitDone (s : Stack)
  -- compute
  | invokeReceived (r : Region)
  | invokeDispatch (r : Region)
  | invocationStart (r : Region) (b : BlockIx)
  | wqEntryFree (r : Region) (b : BlockIx)
  | cellFault (r : Region) (b : BlockIx) (c : CellIx)
  | cellRepointCopy (r : Region) (b : BlockIx) (c : CellIx)
  | blkAbort (r : Region) (b : BlockIx)
  | lcacheWrite (r : Region) (b : BlockIx) (value : Word)
  | bundleIssue (r : Region) (b : BlockIx) (c : CellIx) (seen : List SramSeen)
  | bundleCommit (r : Region) (b : BlockIx) (c : CellIx)
  | dmaDescriptorStart (r : Region) (b : BlockIx)
  | dmaComplete (r : Region) (b : BlockIx) (ix : Nat)
  | sparseWinWrite (r : Region) (b : BlockIx) (win : Fin 8) (wordB : Bool) (value : Word)
  | sparseCtlWrite (r : Region) (b : BlockIx) (value : Word)
  -- collectives
  | contrib (r : Region)
  | contribAdmit (r : Region)
  | regionPartial (r : Region)
  | lap1 (r : Region)
  | lap2 (r : Region)
  | abort (r : Region)
  | census (r : Region)
  | censusRoundStart (r : Region) (group : Fin 1024)
  | censusRelaunch (r : Region) (group : Fin 1024)
  | lapRelaunch (r : Region) (group : Fin 1024) (inst : BitVec 15) (piece : BitVec 16) (frag : Fin 8)
  | instanceTimeout (r : Region) (group : Fin 1024) (inst : BitVec 15)
  | xpodLapTimeout (r : Region) (group : Fin 1024) (inst : BitVec 15) (piece : BitVec 16) (frag : Fin 8)
  | xpod (peer : Fin 256)
  -- streams
  | stream (r : Region)
  | sortOutput (r : Region) (ctx : Nat)
  | streamTimeout (r : Region) (src : BitVec 12) (strm : BitVec 16)
  | tokenDispatch (r : Region)
  | batchInvoke (r : Region)
  | expertResult (r : Region)
  | batchTimeout (r : Region) (handle : Fin 1024)
  -- Cobbler
  | poolConfigWrite (r : Region) (k : Fin 4) (ring : Bool) (value : Word)
  | rebuildDone (r : Region)
  | reserveWrite (r : Region) (k : Fin 4) (value : Word)
  | poolAllocRead (r : Region) (k : Fin 4)
  | free (r : Region) (value : Word)
  | cacheRefill (r : Region) (k : Fin 4)
  -- Awl
  | awlStart (value : Word)
  | awlRecordStart
  | awlModeWrite (value : Word)
  | awlRecordWrite
  | awlGapRecord (r : Region)
  | awlStopCourse
  -- host port
  | frameReceived (f : Frame)
  | pfcFrame (enable : BitVec 8) (quanta : List (BitVec 16))
  | pfcPauseExpiry (prio : Fin 8)
  | pfcXon (prio : Fin 8)
  | open_ (s : Sess)
  | ack (s : Sess)
  | ackDelayTimeout (s : Sess)
  | weltResendTimeout (peer : Bool) (ix : Fin 256)
  | sessionValidWrite (s : Sess) (value : Word)
  | peerEntryWrite (n : Fin 256) (word : Fin 4) (value : Word)
  | regBatch (s : Sess)
  | scheduledBatch
  | memWrite (s : Sess)
  | memRead (s : Sess)
  | programLoad (s : Sess)
  | jobAssign (s : Sess)
  | jobRelease (s : Sess)
  | releaseComplete (job : BitVec 16)
  | jobTeardown (s : Sess)
  | fabricSend (s : Sess)
  | resultMessage (r : Region)
  | recv (r : Region)
  -- images and security
  | begin_ (s : Sess)
  | chunk (s : Sess)
  | commit (s : Sess)
  | imageAbort (s : Sess)
  | confirm (s : Sess)
  | imageStatus (s : Sess)
  | imageXferTimeout
  | attest (s : Sess)
  | challenge (s : Sess)
  | token (s : Sess)
  | relock (s : Sess)
  | nonceExpiry
  -- faults
  | logicUe (u : UnitId) (corrected : Bool)
  | failSilent
  | progressStall (u : UnitId)
  | resetNow (r : Region)
  | captureStreamCutoff (r : Region)
  | repointRequest (e : Element) (hard : Bool)
  | repointCommit
  | wearWindowEnd (rings : List (Fin 64 × Fin 9 × Nat))
  | subbankTakeover (r : Region) (i : Fin 4)
  | subbankSpareTimeout (r : Region) (i : Fin 4)
  -- Plumb
  | viewHoldExpiry (d : Fin 64)
  | report (p : Port) (header : Word) (payload : List Byte)
  | decideSend
  | decide (p : Port) (header : Word) (payload : List Byte)
  | coordinatorChange
  | plumbEpochApply
  | restore (value : Word)
  -- power
  | inputSample (mv dA w : BitVec 16)
  | sensorSample (compute base : List (Option (BitVec 8)))
  | tripOverrideEnd (r : Region)
  | overcurrent (at_ : Rail)
  | overcurrentEnd (at_ : Rail)
  | frequencyStep (r : Region)
  | voltageStep (r : Region) (margin : BitVec 16)
  | railFault (dom : Fin 157)
  | domainWrite (which : Fin 3) (value : Word)
  | domainRampDone (dom : Fin 157)
  | domainPowerDown (dom : Fin 157)
  | bankDrainDone (r : Region) (i : Fin 4)
  | hostLinkUp
  | hostLinkDown
  | hotRefreshExit (s : Stack) (temp : BitVec 8)
  | adaptAtLimit (p : Port) (lane : Lane) (value : Int) (setting : Fin 5)
  | cellCopyDone (r : Region) (b : BlockIx) (c : CellIx)
  | bootStateDone (found : BootFound)
  | partitionStepDone (r : Region)
  | flashPoll (done : Bool)
  | boundaryScan (ir : BitVec 8) (dr : List Bool)
  | tapReset
  | recall (r : Region) (b : BlockIx) (line : Nat) (invalidate : Bool)
  deriving DecidableEq, Repr

end Sys2Proof
end

