-- ==== Sys2Proof/Decode.lean ====
section
/-! DEFINITION. The decoder the host asks for. spec/opcode_table.json gives no row any bits: a command of this block comes
as a command with its operands, not as a word, so no word spells one. -/
namespace Sys2Proof

/-- The command that `nbits` bits `w` spell by the table's bits: none, because no row has any. -/
def decodeTableWord (_nbits _w : Nat) : Option Instr := none

end Sys2Proof
end

