-- ==== Sys2Proof/Config.lean ====
section
/-! DEFINITION. What an implementation fixes and the spec leaves open: opaque constants, with no body that a proof
could look at. Each is named in a row of the assumption log. -/
namespace Sys2Proof.Config

/-- A value the spec leaves open at one moment (log 5): applied to the counter State.free, which each use advances. -/
opaque freeValue : Nat → BitVec 64

/-- The fixed table-and-polynomial results of VEXP2 (0), VRCP (1) and VRSQRT (2) that R269 bounds by 1 ulp and does
not otherwise give (log 6): operation, format, operand bits; the model keeps the bound and takes the choice from here. -/
opaque transcendental : Nat → Nat → Nat → Nat

/-- UNIT_ID `unit_rev` of each unit type, which Table REG-4 leaves "per unit" (log 7). -/
opaque unitRev : Nat → BitVec 8

/-- The fixed function that R471 names and does not give: from the identity secret to the private number (log 8). -/
opaque identityScalar : (secret : BitVec 384) → BitVec 384

/-- The nonces that the hardware random source draws for signatures (R471, log 8). -/
opaque signNonce : (draw : Nat) → BitVec 384

/-- Does a MACsec frame's ICV verify under GCM-AES-XPN-256 with this SAK and salt (R387, log 9). -/
opaque icvValid : (sak : BitVec 256) → (salt : BitVec 96) → (frame : List Byte) → Bool

end Sys2Proof.Config
end

