-- ==== Sys2Proof/Machine/Access.lean ====
section
/-! DEFINITION. Bit fields, unit types and register addresses (R11, R49, Table REG-1, Table REG-3). -/
namespace Sys2Proof.Machine

/-- The access types of R11. -/
inductive Acc where
  | ro | rw | rwl | w1c | w1s | wo | rc
  deriving DecidableEq, Repr

/-- The unit types of Table REG-3. -/
inductive UnitType where
  | port | xbar | mortar | combine | sort | cobbler | bufbank | memblk | d2d | cblk | fabmem | region
  | chip | boot | fuse | security | course | plumb | hostbr | hostport | power | awl | repoint
  deriving DecidableEq, Repr

/-- A named field: its register's position (page * 4096 + offset) and its bits [hi:lo]. -/
structure Fld where
  pos : Nat
  hi : Nat
  lo : Nat
  deriving DecidableEq, Repr

/-- The same field of the array element `d` bytes further on. -/
def Fld.plus (f : Fld) (d : Nat) : Fld := ⟨f.pos + d, f.hi, f.lo⟩

/-- A field of a register's description: bits, access type, reset value. -/
structure FieldD where
  hi : Nat
  lo : Nat
  acc : Acc
  rst : Nat
  deriving DecidableEq, Repr

/-- A register, or a two-level array of registers, of a unit. -/
structure RegD where
  start : Nat
  stride : Nat
  count : Nat
  stride2 : Nat
  count2 : Nat
  fields : List FieldD
  deriving DecidableEq, Repr

/-- Does the descriptor cover position `pos`? -/
def RegD.covers (r : RegD) (pos : Nat) : Bool :=
  r.start ≤ pos && (pos - r.start) / r.stride < r.count
    && ((pos - r.start) % r.stride) / r.stride2 < r.count2
    && ((pos - r.start) % r.stride) % r.stride2 = 0

/-- Bits [hi:lo] of a word, as a number. -/
def getBits (w : Word) (hi lo : Nat) : Nat := (w.toNat >>> lo) % 2 ^ (hi + 1 - lo)

/-- The word with ones in [hi:lo]. -/
def maskBits (hi lo : Nat) : Word := BitVec.ofNat 64 ((2 ^ (hi + 1 - lo) - 1) <<< lo)

/-- The word with bits [hi:lo] replaced by the low bits of `v`. -/
def setBits (w : Word) (hi lo v : Nat) : Word :=
  (w &&& ~~~ maskBits hi lo) ||| BitVec.ofNat 64 ((v % 2 ^ (hi + 1 - lo)) <<< lo)

/-- One bit of a word. -/
def bitAt (w : Word) (i : Nat) : Bool := w.getLsbD i

/-- The bits of `a` where the mask is 0 and of `b` where it is 1. -/
def mux (mask a b : Word) : Word := (a &&& ~~~ mask) ||| (b &&& mask)

/-- A Boolean as a one-bit number. -/
def bit (b : Bool) : Nat := if b then 1 else 0

/-- The reset word of a register's fields. -/
def FieldD.resetWord (fs : List FieldD) : Word := fs.foldl (fun w f => setBits w f.hi f.lo f.rst) 0

/-- The mask of the fields with access type `a`. -/
def FieldD.mask (a : Acc) (fs : List FieldD) : Word :=
  fs.foldl (fun w f => if f.acc = a then w ||| maskBits f.hi f.lo else w) 0

/-- The type of a unit. -/
def unitType : UnitId → UnitType
  | .port _ => .port | .xbar _ => .xbar | .mortar _ => .mortar | .combine _ => .combine | .sort _ => .sort
  | .cobbler _ => .cobbler | .bufbank _ _ => .bufbank | .memblk _ => .memblk | .d2d _ _ => .d2d
  | .cblk _ _ => .cblk | .fabmem _ => .fabmem | .region _ => .region | .chip => .chip | .boot => .boot
  | .fuse => .fuse | .security => .security | .course => .course | .plumb => .plumb | .hostbr => .hostbr
  | .hostport => .hostport | .power => .power | .awl => .awl | .repoint => .repoint

/-- Table REG-3: the code of a unit type. -/
def UnitType.code : UnitType → Nat
  | .port => 0x01 | .xbar => 0x02 | .mortar => 0x03 | .combine => 0x04 | .sort => 0x05 | .cobbler => 0x06
  | .bufbank => 0x07 | .memblk => 0x08 | .d2d => 0x09 | .cblk => 0x0A | .fabmem => 0x0B | .region => 0x0C
  | .chip => 0x20 | .boot => 0x21 | .fuse => 0x22 | .security => 0x23 | .course => 0x24 | .plumb => 0x25
  | .hostbr => 0x26 | .hostport => 0x27 | .power => 0x28 | .awl => 0x29 | .repoint => 0x2A

/-- The scope of a unit: its region, or 4 for the chip (Table REG-1). -/
def unitScope : UnitId → Nat
  | .port p => p.val / 16
  | .memblk s => s.val / 2
  | .xbar r | .mortar r | .combine r | .sort r | .cobbler r | .bufbank r _ | .d2d r _ | .cblk r _ | .fabmem r
  | .region r => r.val
  | _ => 4

/-- The instance of a unit within its scope (Table REG-3). -/
def unitInstance : UnitId → Nat
  | .port p => p.val % 16
  | .memblk s => s.val % 2
  | .bufbank _ i | .d2d _ i => i.val
  | .cblk _ b => b.val
  | _ => 0

/-- R49, Table REG-1: the address of position `pos` (page * 4096 + offset) of a unit. -/
def regAddr (u : UnitId) (pos : Nat) : Nat :=
  unitScope u * 2 ^ 37 + (unitType u).code * 2 ^ 30 + unitInstance u * 2 ^ 22 + pos

/-- The unit that scope, type code and instance name, if Table REG-3 has it (grade apart). -/
def unitOf (scope code inst : Nat) : Option UnitId :=
  if h : scope < 4 then
    let r : Region := ⟨scope, h⟩
    match code with
    | 0x01 => if h : inst < 16 then some (.port ⟨16 * scope + inst, by omega⟩) else none
    | 0x02 => if inst = 0 then some (.xbar r) else none
    | 0x03 => if inst = 0 then some (.mortar r) else none
    | 0x04 => if inst = 0 then some (.combine r) else none
    | 0x05 => if inst = 0 then some (.sort r) else none
    | 0x06 => if inst = 0 then some (.cobbler r) else none
    | 0x07 => if h : inst < 4 then some (.bufbank r ⟨inst, h⟩) else none
    | 0x08 => if h : inst < 2 then some (.memblk ⟨2 * scope + inst, by omega⟩) else none
    | 0x09 => if h : inst < 4 then (if inst = scope then none else some (.d2d r ⟨inst, h⟩)) else none
    | 0x0A => if h : inst < 16 then some (.cblk r ⟨inst, h⟩) else none
    | 0x0B => if inst = 0 then some (.fabmem r) else none
    | 0x0C => if inst = 0 then some (.region r) else none
    | _ => none
  else if scope = 4 ∧ inst = 0 then
    match code with
    | 0x20 => some .chip | 0x21 => some .boot | 0x22 => some .fuse | 0x23 => some .security
    | 0x24 => some .course | 0x25 => some .plumb | 0x26 => some .hostbr | 0x27 => some .hostport
    | 0x28 => some .power | 0x29 => some .awl | 0x2A => some .repoint
    | _ => none
  else none

/-- UNIT_ID `last_page`: the highest page the owning chapter defines. -/
def lastPage : UnitType → Nat
  | .port => 3 | .xbar => 14 | .mortar => 191 | .sort => 2 | .cblk => 3 | .fabmem => 16 | .fuse => 1
  | .security => 1 | .plumb => 16 | .hostbr => 3 | .hostport => 2 | .repoint => 1
  | _ => 0

/-- UNIT_CAPS `has_progress`: the units with a progress watch (R415). -/
def hasProgress : UnitType → Bool
  | .memblk | .cblk | .mortar | .sort | .cobbler | .hostbr => true
  | _ => false

/-- UNIT_CAPS `has_policy`: the units with an adaptive loop's window (Tables LINK-10, COB-3, PWR-3). -/
def hasPolicy : UnitType → Bool
  | .port | .cobbler | .power => true
  | _ => false

/-- `f` applied to each of 0 … n-1 in turn. -/
def iter {α : Type} (n : Nat) (f : Nat → α → α) (a : α) : α :=
  match n with
  | 0 => a
  | n + 1 => f n (iter n f a)

/-- The first of n, n+1, … n+k-1 that satisfies `p`. -/
def firstFrom (k n : Nat) (p : Nat → Bool) : Option Nat :=
  match k with
  | 0 => none
  | k + 1 => if p n then some n else firstFrom k (n + 1) p

end Sys2Proof.Machine
end

