-- ==== Sys2Proof/Machine/Catalog.lean ====
section
/-! DEFINITION. The register catalogue: for every unit of Table REG-3 its registers from 0x100 and its further pages,
field by field with access type (R11) and reset value, transcribed from the register tables of spec/, and one named
field constant per field. Positions count page * 4096 + offset. -/
namespace Sys2Proof.Machine

/-- LINK-10: PORT POLICY_FLOOR `tx_post`. -/
abbrev PORT.POLICY_FLOOR_tx_post : Fld := ⟨0x90, 39, 32⟩
/-- LINK-10: PORT POLICY_FLOOR `tx_pre`. -/
abbrev PORT.POLICY_FLOOR_tx_pre : Fld := ⟨0x90, 31, 24⟩
/-- LINK-10: PORT POLICY_FLOOR `dfe1`. -/
abbrev PORT.POLICY_FLOOR_dfe1 : Fld := ⟨0x90, 23, 16⟩
/-- LINK-10: PORT POLICY_FLOOR `vga`. -/
abbrev PORT.POLICY_FLOOR_vga : Fld := ⟨0x90, 15, 8⟩
/-- LINK-10: PORT POLICY_FLOOR `ctle`. -/
abbrev PORT.POLICY_FLOOR_ctle : Fld := ⟨0x90, 7, 0⟩
/-- LINK-10: PORT POLICY_CEIL `tx_post`. -/
abbrev PORT.POLICY_CEIL_tx_post : Fld := ⟨0x98, 39, 32⟩
/-- LINK-10: PORT POLICY_CEIL `tx_pre`. -/
abbrev PORT.POLICY_CEIL_tx_pre : Fld := ⟨0x98, 31, 24⟩
/-- LINK-10: PORT POLICY_CEIL `dfe1`. -/
abbrev PORT.POLICY_CEIL_dfe1 : Fld := ⟨0x98, 23, 16⟩
/-- LINK-10: PORT POLICY_CEIL `vga`. -/
abbrev PORT.POLICY_CEIL_vga : Fld := ⟨0x98, 15, 8⟩
/-- LINK-10: PORT POLICY_CEIL `ctle`. -/
abbrev PORT.POLICY_CEIL_ctle : Fld := ⟨0x98, 7, 0⟩
/-- LINK-11: PORT PORT_CTL `idle_entry`. -/
abbrev PORT.PORT_CTL_idle_entry : Fld := ⟨0x100, 23, 16⟩
/-- LINK-11: PORT PORT_CTL `spare_hot`. -/
abbrev PORT.PORT_CTL_spare_hot : Fld := ⟨0x100, 13, 13⟩
/-- LINK-11: PORT PORT_CTL `retrain`. -/
abbrev PORT.PORT_CTL_retrain : Fld := ⟨0x100, 12, 12⟩
/-- LINK-11: PORT PORT_CTL `side`. -/
abbrev PORT.PORT_CTL_side : Fld := ⟨0x100, 11, 10⟩
/-- LINK-11: PORT PORT_CTL `loopback`. -/
abbrev PORT.PORT_CTL_loopback : Fld := ⟨0x100, 9, 8⟩
/-- LINK-11: PORT PORT_CTL `enable`. -/
abbrev PORT.PORT_CTL_enable : Fld := ⟨0x100, 0, 0⟩
/-- LINK-11: PORT PORT_STS `far_epid`. -/
abbrev PORT.PORT_STS_far_epid : Fld := ⟨0x108, 63, 52⟩
/-- LINK-11: PORT PORT_STS `far_pysum`. -/
abbrev PORT.PORT_STS_far_pysum : Fld := ⟨0x108, 51, 46⟩
/-- LINK-11: PORT PORT_STS `far_port`. -/
abbrev PORT.PORT_STS_far_port : Fld := ⟨0x108, 45, 40⟩
/-- LINK-11: PORT PORT_STS `far_pod_id`. -/
abbrev PORT.PORT_STS_far_pod_id : Fld := ⟨0x108, 39, 35⟩
/-- LINK-11: PORT PORT_STS `tx_spare_for`. -/
abbrev PORT.PORT_STS_tx_spare_for : Fld := ⟨0x108, 34, 31⟩
/-- LINK-11: PORT PORT_STS `rx_spare_for`. -/
abbrev PORT.PORT_STS_rx_spare_for : Fld := ⟨0x108, 30, 27⟩
/-- LINK-11: PORT PORT_STS `reversed`. -/
abbrev PORT.PORT_STS_reversed : Fld := ⟨0x108, 26, 26⟩
/-- LINK-11: PORT PORT_STS `role`. -/
abbrev PORT.PORT_STS_role : Fld := ⟨0x108, 25, 24⟩
/-- LINK-11: PORT PORT_STS `state`. -/
abbrev PORT.PORT_STS_state : Fld := ⟨0x108, 23, 20⟩
/-- LINK-11: PORT PORT_STS `attempts`. -/
abbrev PORT.PORT_STS_attempts : Fld := ⟨0x108, 3, 0⟩
/-- LINK-11: PORT PORT_RTT `rtt`. -/
abbrev PORT.PORT_RTT_rtt : Fld := ⟨0x110, 31, 0⟩
/-- LINK-11: PORT TRAIN_CTL `train_attempts`. -/
abbrev PORT.TRAIN_CTL_train_attempts : Fld := ⟨0x118, 31, 28⟩
/-- LINK-11: PORT TRAIN_CTL `eq_timeout`. -/
abbrev PORT.TRAIN_CTL_eq_timeout : Fld := ⟨0x118, 27, 20⟩
/-- LINK-11: PORT TRAIN_CTL `detect_timeout`. -/
abbrev PORT.TRAIN_CTL_detect_timeout : Fld := ⟨0x118, 19, 12⟩
/-- LINK-11: PORT REPLAY_CTL `replay_limit`. -/
abbrev PORT.REPLAY_CTL_replay_limit : Fld := ⟨0x120, 23, 20⟩
/-- LINK-11: PORT REPLAY_CTL `replay_timeout`. -/
abbrev PORT.REPLAY_CTL_replay_timeout : Fld := ⟨0x120, 15, 8⟩
/-- LINK-11: PORT REPLAY_CTL `ack_interval`. -/
abbrev PORT.REPLAY_CTL_ack_interval : Fld := ⟨0x120, 7, 0⟩
/-- LINK-11: PORT LINK_COUNT `replays`. -/
abbrev PORT.LINK_COUNT_replays : Fld := ⟨0x128, 63, 48⟩
/-- LINK-11: PORT LINK_COUNT `naks_sent`. -/
abbrev PORT.LINK_COUNT_naks_sent : Fld := ⟨0x128, 47, 32⟩
/-- LINK-11: PORT LINK_COUNT `crc_errors`. -/
abbrev PORT.LINK_COUNT_crc_errors : Fld := ⟨0x128, 31, 16⟩
/-- LINK-11: PORT LINK_COUNT `retrains`. -/
abbrev PORT.LINK_COUNT_retrains : Fld := ⟨0x128, 15, 0⟩
/-- LINK-11: PORT FEC_COUNT `cw_corrected`. -/
abbrev PORT.FEC_COUNT_cw_corrected : Fld := ⟨0x130, 63, 40⟩
/-- LINK-11: PORT FEC_COUNT `symbols_corrected`. -/
abbrev PORT.FEC_COUNT_symbols_corrected : Fld := ⟨0x130, 39, 16⟩
/-- LINK-11: PORT FEC_COUNT `cw_uncorrected`. -/
abbrev PORT.FEC_COUNT_cw_uncorrected : Fld := ⟨0x130, 15, 0⟩
/-- LINK-11: PORT CREDIT_CFG0 `tc0`. -/
abbrev PORT.CREDIT_CFG0_tc0 : Fld := ⟨0x138, 15, 0⟩
/-- LINK-11: PORT CREDIT_CFG0 `tc1`. -/
abbrev PORT.CREDIT_CFG0_tc1 : Fld := ⟨0x138, 31, 16⟩
/-- LINK-11: PORT CREDIT_CFG0 `tc2`. -/
abbrev PORT.CREDIT_CFG0_tc2 : Fld := ⟨0x138, 47, 32⟩
/-- LINK-11: PORT CREDIT_CFG0 `tc3`. -/
abbrev PORT.CREDIT_CFG0_tc3 : Fld := ⟨0x138, 63, 48⟩
/-- LINK-11: PORT CREDIT_CFG1 `tc4`. -/
abbrev PORT.CREDIT_CFG1_tc4 : Fld := ⟨0x140, 15, 0⟩
/-- LINK-11: PORT CREDIT_CFG1 `tc5`. -/
abbrev PORT.CREDIT_CFG1_tc5 : Fld := ⟨0x140, 31, 16⟩
/-- LINK-11: PORT CREDIT_CFG1 `tc6`. -/
abbrev PORT.CREDIT_CFG1_tc6 : Fld := ⟨0x140, 47, 32⟩
/-- LINK-11: PORT CREDIT_CFG1 `tc7`. -/
abbrev PORT.CREDIT_CFG1_tc7 : Fld := ⟨0x140, 63, 48⟩
/-- LINK-11: PORT TX_CREDIT0 `tc0`. -/
abbrev PORT.TX_CREDIT0_tc0 : Fld := ⟨0x148, 15, 0⟩
/-- LINK-11: PORT TX_CREDIT0 `tc1`. -/
abbrev PORT.TX_CREDIT0_tc1 : Fld := ⟨0x148, 31, 16⟩
/-- LINK-11: PORT TX_CREDIT0 `tc2`. -/
abbrev PORT.TX_CREDIT0_tc2 : Fld := ⟨0x148, 47, 32⟩
/-- LINK-11: PORT TX_CREDIT0 `tc3`. -/
abbrev PORT.TX_CREDIT0_tc3 : Fld := ⟨0x148, 63, 48⟩
/-- LINK-11: PORT TX_CREDIT1 `tc4`. -/
abbrev PORT.TX_CREDIT1_tc4 : Fld := ⟨0x150, 15, 0⟩
/-- LINK-11: PORT TX_CREDIT1 `tc5`. -/
abbrev PORT.TX_CREDIT1_tc5 : Fld := ⟨0x150, 31, 16⟩
/-- LINK-11: PORT TX_CREDIT1 `tc6`. -/
abbrev PORT.TX_CREDIT1_tc6 : Fld := ⟨0x150, 47, 32⟩
/-- LINK-11: PORT TX_CREDIT1 `tc7`. -/
abbrev PORT.TX_CREDIT1_tc7 : Fld := ⟨0x150, 63, 48⟩
/-- LINK-11: PORT LINK_INJECT `inject_now`. -/
abbrev PORT.LINK_INJECT_inject_now : Fld := ⟨0x158, 63, 63⟩
/-- LINK-11: PORT LINK_INJECT `kind`. -/
abbrev PORT.LINK_INJECT_kind : Fld := ⟨0x158, 57, 56⟩
/-- LINK-12: PORT LANE_STS `dfe1`. -/
abbrev PORT.LANE_STS_dfe1 : Fld := ⟨0x1000, 31, 24⟩
/-- LINK-12: PORT LANE_STS `vga`. -/
abbrev PORT.LANE_STS_vga : Fld := ⟨0x1000, 23, 16⟩
/-- LINK-12: PORT LANE_STS `ctle`. -/
abbrev PORT.LANE_STS_ctle : Fld := ⟨0x1000, 15, 8⟩
/-- LINK-12: PORT LANE_STS `in_use`. -/
abbrev PORT.LANE_STS_in_use : Fld := ⟨0x1000, 2, 2⟩
/-- LINK-12: PORT LANE_STS `marker_lock`. -/
abbrev PORT.LANE_STS_marker_lock : Fld := ⟨0x1000, 1, 1⟩
/-- LINK-12: PORT LANE_STS `cdr_lock`. -/
abbrev PORT.LANE_STS_cdr_lock : Fld := ⟨0x1000, 0, 0⟩
/-- LINK-12: PORT LANE_SER `symbol_errors`. -/
abbrev PORT.LANE_SER_symbol_errors : Fld := ⟨0x1008, 39, 0⟩
/-- LINK-12: PORT PRBS_CTL `chk_en`. -/
abbrev PORT.PRBS_CTL_chk_en : Fld := ⟨0x1010, 9, 9⟩
/-- LINK-12: PORT PRBS_CTL `gen_en`. -/
abbrev PORT.PRBS_CTL_gen_en : Fld := ⟨0x1010, 8, 8⟩
/-- LINK-12: PORT PRBS_CTL `chk_pattern`. -/
abbrev PORT.PRBS_CTL_chk_pattern : Fld := ⟨0x1010, 7, 4⟩
/-- LINK-12: PORT PRBS_CTL `gen_pattern`. -/
abbrev PORT.PRBS_CTL_gen_pattern : Fld := ⟨0x1010, 3, 0⟩
/-- LINK-12: PORT PRBS_USER `pattern`. -/
abbrev PORT.PRBS_USER_pattern : Fld := ⟨0x1018, 63, 0⟩
/-- LINK-12: PORT PRBS_STS `chk_lock`. -/
abbrev PORT.PRBS_STS_chk_lock : Fld := ⟨0x1020, 63, 63⟩
/-- LINK-12: PORT PRBS_STS `bit_errors`. -/
abbrev PORT.PRBS_STS_bit_errors : Fld := ⟨0x1020, 39, 0⟩
/-- LINK-12: PORT INJECT_CTL `inject_now`. -/
abbrev PORT.INJECT_CTL_inject_now : Fld := ⟨0x1028, 63, 63⟩
/-- LINK-12: PORT INJECT_CTL `continuous`. -/
abbrev PORT.INJECT_CTL_continuous : Fld := ⟨0x1028, 56, 56⟩
/-- LINK-12: PORT INJECT_CTL `burst_len`. -/
abbrev PORT.INJECT_CTL_burst_len : Fld := ⟨0x1028, 55, 48⟩
/-- LINK-12: PORT INJECT_CTL `interval`. -/
abbrev PORT.INJECT_CTL_interval : Fld := ⟨0x1028, 39, 0⟩
/-- TC-5: PORT SCHED_CTL `overhead`. -/
abbrev PORT.SCHED_CTL_overhead : Fld := ⟨0x2000, 47, 40⟩
/-- TC-5: PORT SCHED_CTL `sample_interval`. -/
abbrev PORT.SCHED_CTL_sample_interval : Fld := ⟨0x2000, 23, 16⟩
/-- TC-5: PORT SCHED_CTL `guard`. -/
abbrev PORT.SCHED_CTL_guard : Fld := ⟨0x2000, 0, 0⟩
/-- TC-5: PORT WFQ_WEIGHT `w1`. -/
abbrev PORT.WFQ_WEIGHT_w1 : Fld := ⟨0x2008, 15, 8⟩
/-- TC-5: PORT WFQ_WEIGHT `w2`. -/
abbrev PORT.WFQ_WEIGHT_w2 : Fld := ⟨0x2008, 23, 16⟩
/-- TC-5: PORT WFQ_WEIGHT `w3`. -/
abbrev PORT.WFQ_WEIGHT_w3 : Fld := ⟨0x2008, 31, 24⟩
/-- TC-5: PORT WFQ_WEIGHT `w4`. -/
abbrev PORT.WFQ_WEIGHT_w4 : Fld := ⟨0x2008, 39, 32⟩
/-- TC-5: PORT WFQ_WEIGHT `w5`. -/
abbrev PORT.WFQ_WEIGHT_w5 : Fld := ⟨0x2008, 47, 40⟩
/-- TC-5: PORT WFQ_WEIGHT `w6`. -/
abbrev PORT.WFQ_WEIGHT_w6 : Fld := ⟨0x2008, 55, 48⟩
/-- TC-5: PORT GATE_TAKEOVER `bank`. -/
abbrev PORT.GATE_TAKEOVER_bank : Fld := ⟨0x2010, 56, 56⟩
/-- TC-5: PORT GATE_TAKEOVER `count`. -/
abbrev PORT.GATE_TAKEOVER_count : Fld := ⟨0x2010, 53, 48⟩
/-- TC-5: PORT GATE_TAKEOVER `start_course`. -/
abbrev PORT.GATE_TAKEOVER_start_course : Fld := ⟨0x2010, 47, 0⟩
/-- TC-5: PORT GATE_STS `pending`. -/
abbrev PORT.GATE_STS_pending : Fld := ⟨0x2018, 63, 63⟩
/-- TC-5: PORT GATE_STS `active_bank`. -/
abbrev PORT.GATE_STS_active_bank : Fld := ⟨0x2018, 56, 56⟩
/-- TC-5: PORT GATE_STS `active_count`. -/
abbrev PORT.GATE_STS_active_count : Fld := ⟨0x2018, 53, 48⟩
/-- TC-5: PORT GATE_STS `since_course`. -/
abbrev PORT.GATE_STS_since_course : Fld := ⟨0x2018, 47, 0⟩
/-- TC-5: PORT METER_CTL `red_act`. -/
abbrev PORT.METER_CTL_red_act : Fld := ⟨0x2020, 39, 24⟩
/-- TC-5: PORT METER_CTL `yellow_act`. -/
abbrev PORT.METER_CTL_yellow_act : Fld := ⟨0x2020, 23, 8⟩
/-- TC-5: PORT METER_CTL `meter_en`. -/
abbrev PORT.METER_CTL_meter_en : Fld := ⟨0x2020, 7, 0⟩
/-- TC-5: PORT METER_COUNT `red_packets`. -/
abbrev PORT.METER_COUNT_red_packets : Fld := ⟨0x2028, 63, 32⟩
/-- TC-5: PORT METER_COUNT `yellow_packets`. -/
abbrev PORT.METER_COUNT_yellow_packets : Fld := ⟨0x2028, 31, 0⟩
/-- TC-5: PORT KEYSTONE_MON `excess_bytes`. -/
abbrev PORT.KEYSTONE_MON_excess_bytes : Fld := ⟨0x2030, 47, 0⟩
/-- TC-5: PORT GATE_COUNT `gate_overruns`. -/
abbrev PORT.GATE_COUNT_gate_overruns : Fld := ⟨0x2038, 31, 0⟩
/-- TC-5: PORT METER_RATE `pir`. -/
abbrev PORT.METER_RATE_pir : Fld := ⟨0x2040, 63, 32⟩
/-- TC-5: PORT METER_RATE `cir`. -/
abbrev PORT.METER_RATE_cir : Fld := ⟨0x2040, 31, 0⟩
/-- TC-5: PORT METER_BURST `pbs`. -/
abbrev PORT.METER_BURST_pbs : Fld := ⟨0x2048, 63, 32⟩
/-- TC-5: PORT METER_BURST `cbs`. -/
abbrev PORT.METER_BURST_cbs : Fld := ⟨0x2048, 31, 0⟩
/-- TC-5: PORT QDEPTH `depth_peak`. -/
abbrev PORT.QDEPTH_depth_peak : Fld := ⟨0x2100, 50, 32⟩
/-- TC-5: PORT QDEPTH `depth_sample`. -/
abbrev PORT.QDEPTH_depth_sample : Fld := ⟨0x2100, 18, 0⟩
/-- TC-5: PORT QDELAY `packets`. -/
abbrev PORT.QDELAY_packets : Fld := ⟨0x2108, 63, 40⟩
/-- TC-5: PORT QDELAY `delay_max`. -/
abbrev PORT.QDELAY_delay_max : Fld := ⟨0x2108, 39, 20⟩
/-- TC-5: PORT QDELAY_SUM `delay_sum`. -/
abbrev PORT.QDELAY_SUM_delay_sum : Fld := ⟨0x2110, 63, 0⟩
/-- TC-6: PORT GATE_ENTRY `slots`. -/
abbrev PORT.GATE_ENTRY_slots : Fld := ⟨0x3000, 27, 16⟩
/-- TC-6: PORT GATE_ENTRY `open`. -/
abbrev PORT.GATE_ENTRY_open : Fld := ⟨0x3000, 7, 0⟩
/-- EVENT bit `link_up` of PORT. -/
abbrev PORT.ev_link_up : Nat := 8
/-- EVENT bit `link_down` of PORT. -/
abbrev PORT.ev_link_down : Nat := 9
/-- EVENT bit `train_fail` of PORT. -/
abbrev PORT.ev_train_fail : Nat := 10
/-- EVENT bit `lane_repointed` of PORT. -/
abbrev PORT.ev_lane_repointed : Nat := 11
/-- EVENT bit `spare_exhausted` of PORT. -/
abbrev PORT.ev_spare_exhausted : Nat := 12
/-- EVENT bit `replay_limit` of PORT. -/
abbrev PORT.ev_replay_limit : Nat := 13
/-- EVENT bit `credit_error` of PORT. -/
abbrev PORT.ev_credit_error : Nat := 14
/-- EVENT bit `protocol_error` of PORT. -/
abbrev PORT.ev_protocol_error : Nat := 15
/-- EVENT bit `adapt_at_limit` of PORT. -/
abbrev PORT.ev_adapt_at_limit : Nat := 16
/-- EVENT bit `gate_refused` of PORT. -/
abbrev PORT.ev_gate_refused : Nat := 18
/-- EVENT bit `gate_blocked` of PORT. -/
abbrev PORT.ev_gate_blocked : Nat := 19
/-- EVENT bit `meter_hold` of PORT. -/
abbrev PORT.ev_meter_hold : Nat := 20
/-- EVENT bit `keystone_excess` of PORT. -/
abbrev PORT.ev_keystone_excess : Nat := 21
/-- EVENT bit `meter_reject` of PORT. -/
abbrev PORT.ev_meter_reject : Nat := 22
/-- EVENT bit `credit_cfg_reject` of PORT. -/
abbrev PORT.ev_credit_cfg_reject : Nat := 23
/-- The registers of unit PORT. -/
def PORT.regs : List RegD := [
  ⟨0x90, 8, 1, 8, 1, [⟨39, 32, .rw, 0⟩, ⟨31, 24, .rw, 0⟩, ⟨23, 16, .rw, 0⟩, ⟨15, 8, .rw, 0⟩, ⟨7, 0, .rw, 0⟩]⟩, -- POLICY_FLOOR
  ⟨0x98, 8, 1, 8, 1, [⟨39, 32, .rw, 0x1f⟩, ⟨31, 24, .rw, 0xf⟩, ⟨23, 16, .rw, 0x3f⟩, ⟨15, 8, .rw, 0x1f⟩, ⟨7, 0, .rw, 0x1f⟩]⟩, -- POLICY_CEIL
  ⟨0x100, 8, 1, 8, 1, [⟨23, 16, .rw, 0xa⟩, ⟨13, 13, .rwl, 1⟩, ⟨12, 12, .wo, 0⟩, ⟨11, 10, .rwl, 0⟩, ⟨9, 8, .rwl, 0⟩, ⟨0, 0, .rwl, 1⟩]⟩, -- PORT_CTL
  ⟨0x108, 8, 1, 8, 1, [⟨63, 52, .ro, 0⟩, ⟨51, 46, .ro, 0⟩, ⟨45, 40, .ro, 0⟩, ⟨39, 35, .ro, 0⟩, ⟨34, 31, .ro, 0xf⟩, ⟨30, 27, .ro, 0xf⟩, ⟨26, 26, .ro, 0⟩, ⟨25, 24, .ro, 0⟩, ⟨23, 20, .ro, 0⟩, ⟨3, 0, .ro, 0⟩]⟩, -- PORT_STS
  ⟨0x110, 8, 1, 8, 1, [⟨31, 0, .ro, 0⟩]⟩, -- PORT_RTT
  ⟨0x118, 8, 1, 8, 1, [⟨31, 28, .rw, 8⟩, ⟨27, 20, .rw, 0x64⟩, ⟨19, 12, .rw, 0xa⟩]⟩, -- TRAIN_CTL
  ⟨0x120, 8, 1, 8, 1, [⟨23, 20, .rw, 4⟩, ⟨15, 8, .rw, 8⟩, ⟨7, 0, .rw, 0x20⟩]⟩, -- REPLAY_CTL
  ⟨0x128, 8, 1, 8, 1, [⟨63, 48, .rc, 0⟩, ⟨47, 32, .rc, 0⟩, ⟨31, 16, .rc, 0⟩, ⟨15, 0, .rc, 0⟩]⟩, -- LINK_COUNT
  ⟨0x130, 8, 1, 8, 1, [⟨63, 40, .rc, 0⟩, ⟨39, 16, .rc, 0⟩, ⟨15, 0, .rc, 0⟩]⟩, -- FEC_COUNT
  ⟨0x138, 8, 1, 8, 1, [⟨15, 0, .rwl, 0x200⟩, ⟨31, 16, .rwl, 0x200⟩, ⟨47, 32, .rwl, 0x200⟩, ⟨63, 48, .rwl, 0x200⟩]⟩, -- CREDIT_CFG0
  ⟨0x140, 8, 1, 8, 1, [⟨15, 0, .rwl, 0x200⟩, ⟨31, 16, .rwl, 0x200⟩, ⟨47, 32, .rwl, 0x200⟩, ⟨63, 48, .rwl, 0x200⟩]⟩, -- CREDIT_CFG1
  ⟨0x148, 8, 1, 8, 1, [⟨15, 0, .ro, 0⟩, ⟨31, 16, .ro, 0⟩, ⟨47, 32, .ro, 0⟩, ⟨63, 48, .ro, 0⟩]⟩, -- TX_CREDIT0
  ⟨0x150, 8, 1, 8, 1, [⟨15, 0, .ro, 0⟩, ⟨31, 16, .ro, 0⟩, ⟨47, 32, .ro, 0⟩, ⟨63, 48, .ro, 0⟩]⟩, -- TX_CREDIT1
  ⟨0x158, 8, 1, 8, 1, [⟨63, 63, .wo, 0⟩, ⟨57, 56, .rw, 0⟩]⟩, -- LINK_INJECT
  ⟨0x1000, 64, 9, 8, 1, [⟨31, 24, .ro, 0⟩, ⟨23, 16, .ro, 0⟩, ⟨15, 8, .ro, 0⟩, ⟨2, 2, .ro, 0⟩, ⟨1, 1, .ro, 0⟩, ⟨0, 0, .ro, 0⟩]⟩, -- LANE_STS
  ⟨0x1008, 64, 9, 8, 1, [⟨39, 0, .rc, 0⟩]⟩, -- LANE_SER
  ⟨0x1010, 64, 9, 8, 1, [⟨9, 9, .rw, 0⟩, ⟨8, 8, .rw, 0⟩, ⟨7, 4, .rw, 0⟩, ⟨3, 0, .rw, 0⟩]⟩, -- PRBS_CTL
  ⟨0x1018, 64, 9, 8, 1, [⟨63, 0, .rw, 0⟩]⟩, -- PRBS_USER
  ⟨0x1020, 64, 9, 8, 1, [⟨63, 63, .ro, 0⟩, ⟨39, 0, .rc, 0⟩]⟩, -- PRBS_STS
  ⟨0x1028, 64, 9, 8, 1, [⟨63, 63, .wo, 0⟩, ⟨56, 56, .rw, 0⟩, ⟨55, 48, .rw, 1⟩, ⟨39, 0, .rw, 0⟩]⟩, -- INJECT_CTL
  ⟨0x2000, 8, 1, 8, 1, [⟨47, 40, .rwl, 0⟩, ⟨23, 16, .rw, 1⟩, ⟨0, 0, .rw, 1⟩]⟩, -- SCHED_CTL
  ⟨0x2008, 8, 1, 8, 1, [⟨15, 8, .rwl, 1⟩, ⟨23, 16, .rwl, 1⟩, ⟨31, 24, .rwl, 1⟩, ⟨39, 32, .rwl, 1⟩, ⟨47, 40, .rwl, 1⟩, ⟨55, 48, .rwl, 1⟩]⟩, -- WFQ_WEIGHT
  ⟨0x2010, 8, 1, 8, 1, [⟨56, 56, .rw, 1⟩, ⟨53, 48, .rw, 0⟩, ⟨47, 0, .rw, 0⟩]⟩, -- GATE_TAKEOVER
  ⟨0x2018, 8, 1, 8, 1, [⟨63, 63, .ro, 0⟩, ⟨56, 56, .ro, 0⟩, ⟨53, 48, .ro, 0⟩, ⟨47, 0, .ro, 0⟩]⟩, -- GATE_STS
  ⟨0x2020, 8, 1, 8, 1, [⟨39, 24, .rwl, 0xaaaa⟩, ⟨23, 8, .rwl, 0⟩, ⟨7, 0, .rwl, 0⟩]⟩, -- METER_CTL
  ⟨0x2028, 8, 1, 8, 1, [⟨63, 32, .rc, 0⟩, ⟨31, 0, .rc, 0⟩]⟩, -- METER_COUNT
  ⟨0x2030, 8, 1, 8, 1, [⟨47, 0, .rc, 0⟩]⟩, -- KEYSTONE_MON
  ⟨0x2038, 8, 1, 8, 1, [⟨31, 0, .rc, 0⟩]⟩, -- GATE_COUNT
  ⟨0x2040, 16, 8, 8, 1, [⟨63, 32, .rwl, 0x30d40⟩, ⟨31, 0, .rwl, 0x30d40⟩]⟩, -- METER_RATE
  ⟨0x2048, 16, 8, 8, 1, [⟨63, 32, .rwl, 0x10000⟩, ⟨31, 0, .rwl, 0x10000⟩]⟩, -- METER_BURST
  ⟨0x2100, 24, 8, 8, 1, [⟨50, 32, .rc, 0⟩, ⟨18, 0, .ro, 0⟩]⟩, -- QDEPTH
  ⟨0x2108, 24, 8, 8, 1, [⟨63, 40, .rc, 0⟩, ⟨39, 20, .rc, 0⟩]⟩, -- QDELAY
  ⟨0x2110, 24, 8, 8, 1, [⟨63, 0, .rc, 0⟩]⟩, -- QDELAY_SUM
  ⟨0x3000, 8, 64, 8, 1, [⟨27, 16, .rw, 0⟩, ⟨7, 0, .rw, 0⟩]⟩ -- GATE_ENTRY
]

/-- FWD-6: XBAR XBAR_CTL `dead_hold`. -/
abbrev XBAR.XBAR_CTL_dead_hold : Fld := ⟨0x100, 15, 8⟩
/-- FWD-6: XBAR XBAR_CTL `strict_src`. -/
abbrev XBAR.XBAR_CTL_strict_src : Fld := ⟨0x100, 0, 0⟩
/-- FWD-6: XBAR BUF_ALLOT `journal`. -/
abbrev XBAR.BUF_ALLOT_journal : Fld := ⟨0x108, 47, 32⟩
/-- FWD-6: XBAR BUF_ALLOT `endpoint`. -/
abbrev XBAR.BUF_ALLOT_endpoint : Fld := ⟨0x108, 31, 16⟩
/-- FWD-6: XBAR BUF_STS `peak_used`. -/
abbrev XBAR.BUF_STS_peak_used : Fld := ⟨0x110, 48, 32⟩
/-- FWD-6: XBAR BUF_STS `cells_used`. -/
abbrev XBAR.BUF_STS_cells_used : Fld := ⟨0x110, 16, 0⟩
/-- FWD-6: XBAR PORT_JOB `job0`. -/
abbrev XBAR.PORT_JOB_job0 : Fld := ⟨0x118, 15, 0⟩
/-- FWD-6: XBAR PORT_JOB `job1`. -/
abbrev XBAR.PORT_JOB_job1 : Fld := ⟨0x118, 31, 16⟩
/-- FWD-6: XBAR PORT_JOB `job2`. -/
abbrev XBAR.PORT_JOB_job2 : Fld := ⟨0x118, 47, 32⟩
/-- FWD-6: XBAR PORT_JOB `job3`. -/
abbrev XBAR.PORT_JOB_job3 : Fld := ⟨0x118, 63, 48⟩
/-- FWD-6: XBAR XBAR_COUNT `hdr_errors`. -/
abbrev XBAR.XBAR_COUNT_hdr_errors : Fld := ⟨0x138, 63, 48⟩
/-- FWD-6: XBAR XBAR_COUNT `crc_errors`. -/
abbrev XBAR.XBAR_COUNT_crc_errors : Fld := ⟨0x138, 47, 32⟩
/-- FWD-6: XBAR XBAR_COUNT `unroutable`. -/
abbrev XBAR.XBAR_COUNT_unroutable : Fld := ⟨0x138, 31, 16⟩
/-- FWD-6: XBAR XBAR_COUNT `policy_discards`. -/
abbrev XBAR.XBAR_COUNT_policy_discards : Fld := ⟨0x138, 15, 0⟩
/-- FWD-6: XBAR DETOUR_COUNT `dead_discards`. -/
abbrev XBAR.DETOUR_COUNT_dead_discards : Fld := ⟨0x140, 63, 48⟩
/-- FWD-6: XBAR DETOUR_COUNT `detours_taken`. -/
abbrev XBAR.DETOUR_COUNT_detours_taken : Fld := ⟨0x140, 47, 32⟩
/-- FWD-6: XBAR DETOUR_COUNT `seals_sent`. -/
abbrev XBAR.DETOUR_COUNT_seals_sent : Fld := ⟨0x140, 31, 16⟩
/-- FWD-6: XBAR DETOUR_COUNT `twin_moves`. -/
abbrev XBAR.DETOUR_COUNT_twin_moves : Fld := ⟨0x140, 15, 0⟩
/-- FWD-6: XBAR KEYSTONE_EP `excess_bytes`. -/
abbrev XBAR.KEYSTONE_EP_excess_bytes : Fld := ⟨0x148, 47, 0⟩
/-- FWD-7: XBAR ROUTE `valid`. -/
abbrev XBAR.ROUTE_valid : Fld := ⟨0x1000, 63, 63⟩
/-- FWD-7: XBAR ROUTE `target_pysum`. -/
abbrev XBAR.ROUTE_target_pysum : Fld := ⟨0x1000, 62, 57⟩
/-- FWD-7: XBAR ROUTE `target_out`. -/
abbrev XBAR.ROUTE_target_out : Fld := ⟨0x1000, 56, 50⟩
/-- FWD-7: XBAR ROUTE `first_dim`. -/
abbrev XBAR.ROUTE_first_dim : Fld := ⟨0x1000, 49, 49⟩
/-- FWD-7: XBAR MCAST_A `valid`. -/
abbrev XBAR.MCAST_A_valid : Fld := ⟨0x9000, 63, 63⟩
/-- FWD-7: XBAR MCAST_A `scope`. -/
abbrev XBAR.MCAST_A_scope : Fld := ⟨0x9000, 62, 61⟩
/-- FWD-7: XBAR MCAST_A `peer_mask`. -/
abbrev XBAR.MCAST_A_peer_mask : Fld := ⟨0x9000, 59, 52⟩
/-- FWD-7: XBAR MCAST_A `ep_mask`. -/
abbrev XBAR.MCAST_A_ep_mask : Fld := ⟨0x9000, 51, 48⟩
/-- FWD-7: XBAR MCAST_B `port_mask`. -/
abbrev XBAR.MCAST_B_port_mask : Fld := ⟨0x9008, 63, 0⟩
/-- FWD-7: XBAR DETOUR `valid`. -/
abbrev XBAR.DETOUR_valid : Fld := ⟨0xd000, 63, 63⟩
/-- FWD-7: XBAR DETOUR `via`. -/
abbrev XBAR.DETOUR_via : Fld := ⟨0xd000, 5, 0⟩
/-- FWD-7: XBAR PEER_MAP `valid`. -/
abbrev XBAR.PEER_MAP_valid : Fld := ⟨0xe000, 63, 63⟩
/-- FWD-7: XBAR PEER_MAP `port1`. -/
abbrev XBAR.PEER_MAP_port1 : Fld := ⟨0xe000, 13, 8⟩
/-- FWD-7: XBAR PEER_MAP `port0`. -/
abbrev XBAR.PEER_MAP_port0 : Fld := ⟨0xe000, 5, 0⟩
/-- EVENT bit `hdr_error` of XBAR. -/
abbrev XBAR.ev_hdr_error : Nat := 8
/-- EVENT bit `pkt_crc_error` of XBAR. -/
abbrev XBAR.ev_pkt_crc_error : Nat := 9
/-- EVENT bit `unroutable` of XBAR. -/
abbrev XBAR.ev_unroutable : Nat := 10
/-- EVENT bit `policy_violation` of XBAR. -/
abbrev XBAR.ev_policy_violation : Nat := 11
/-- EVENT bit `detour_taken` of XBAR. -/
abbrev XBAR.ev_detour_taken : Nat := 12
/-- EVENT bit `dead_discard` of XBAR. -/
abbrev XBAR.ev_dead_discard : Nat := 13
/-- EVENT bit `copy_pool_empty` of XBAR. -/
abbrev XBAR.ev_copy_pool_empty : Nat := 14
/-- EVENT bit `overcommit` of XBAR. -/
abbrev XBAR.ev_overcommit : Nat := 15
/-- EVENT bit `miswired` of XBAR. -/
abbrev XBAR.ev_miswired : Nat := 16
/-- EVENT bit `keystone_excess` of XBAR. -/
abbrev XBAR.ev_keystone_excess : Nat := 17
/-- The registers of unit XBAR. -/
def XBAR.regs : List RegD := [
  ⟨0x100, 8, 1, 8, 1, [⟨15, 8, .rw, 0x10⟩, ⟨0, 0, .rwl, 1⟩]⟩, -- XBAR_CTL
  ⟨0x108, 8, 1, 8, 1, [⟨47, 32, .rwl, 0x4000⟩, ⟨31, 16, .rwl, 0x2000⟩]⟩, -- BUF_ALLOT
  ⟨0x110, 8, 1, 8, 1, [⟨48, 32, .rc, 0⟩, ⟨16, 0, .ro, 0⟩]⟩, -- BUF_STS
  ⟨0x118, 8, 4, 8, 1, [⟨15, 0, .rwl, 0⟩, ⟨31, 16, .rwl, 0⟩, ⟨47, 32, .rwl, 0⟩, ⟨63, 48, .rwl, 0⟩]⟩, -- PORT_JOB
  ⟨0x138, 8, 1, 8, 1, [⟨63, 48, .rc, 0⟩, ⟨47, 32, .rc, 0⟩, ⟨31, 16, .rc, 0⟩, ⟨15, 0, .rc, 0⟩]⟩, -- XBAR_COUNT
  ⟨0x140, 8, 1, 8, 1, [⟨63, 48, .rc, 0⟩, ⟨47, 32, .rc, 0⟩, ⟨31, 16, .rc, 0⟩, ⟨15, 0, .rc, 0⟩]⟩, -- DETOUR_COUNT
  ⟨0x148, 8, 4, 8, 1, [⟨47, 0, .rc, 0⟩]⟩, -- KEYSTONE_EP
  ⟨0x1000, 8, 4096, 8, 1, [⟨63, 63, .rwl, 0⟩, ⟨62, 57, .rwl, 0⟩, ⟨56, 50, .rwl, 0⟩, ⟨49, 49, .rwl, 0⟩]⟩, -- ROUTE
  ⟨0x9000, 16, 1024, 8, 1, [⟨63, 63, .rwl, 0⟩, ⟨62, 61, .rwl, 0⟩, ⟨59, 52, .rwl, 0⟩, ⟨51, 48, .rwl, 0⟩]⟩, -- MCAST_A
  ⟨0x9008, 16, 1024, 8, 1, [⟨63, 0, .rwl, 0⟩]⟩, -- MCAST_B
  ⟨0xd000, 8, 64, 8, 1, [⟨63, 63, .rwl, 0⟩, ⟨5, 0, .rwl, 0⟩]⟩, -- DETOUR
  ⟨0xe000, 8, 64, 8, 1, [⟨63, 63, .rwl, 0⟩, ⟨13, 8, .rwl, 0⟩, ⟨5, 0, .rwl, 0⟩]⟩ -- PEER_MAP
]

/-- COLL-9: MORTAR MORTAR_CTL `inst_timeout`. -/
abbrev MORTAR.MORTAR_CTL_inst_timeout : Fld := ⟨0x100, 63, 48⟩
/-- COLL-9: MORTAR MORTAR_CTL `xpod_timeout`. -/
abbrev MORTAR.MORTAR_CTL_xpod_timeout : Fld := ⟨0x100, 47, 32⟩
/-- COLL-9: MORTAR MORTAR_CTL `replay_max`. -/
abbrev MORTAR.MORTAR_CTL_replay_max : Fld := ⟨0x100, 23, 20⟩
/-- COLL-9: MORTAR MORTAR_CTL `lap_timeout`. -/
abbrev MORTAR.MORTAR_CTL_lap_timeout : Fld := ⟨0x100, 15, 8⟩
/-- COLL-9: MORTAR MORTAR_STS `epoch`. -/
abbrev MORTAR.MORTAR_STS_epoch : Fld := ⟨0x108, 63, 32⟩
/-- COLL-9: MORTAR MORTAR_STS `frags_open`. -/
abbrev MORTAR.MORTAR_STS_frags_open : Fld := ⟨0x108, 28, 16⟩
/-- COLL-9: MORTAR MORTAR_STS `journal_used`. -/
abbrev MORTAR.MORTAR_STS_journal_used : Fld := ⟨0x108, 15, 0⟩
/-- COLL-9: MORTAR MORTAR_PEAK `journal_peak`. -/
abbrev MORTAR.MORTAR_PEAK_journal_peak : Fld := ⟨0x110, 15, 0⟩
/-- COLL-9: MORTAR MORTAR_COUNT `frags_done`. -/
abbrev MORTAR.MORTAR_COUNT_frags_done : Fld := ⟨0x118, 63, 32⟩
/-- COLL-9: MORTAR MORTAR_COUNT `relaunches`. -/
abbrev MORTAR.MORTAR_COUNT_relaunches : Fld := ⟨0x118, 31, 16⟩
/-- COLL-9: MORTAR MORTAR_COUNT `aborts`. -/
abbrev MORTAR.MORTAR_COUNT_aborts : Fld := ⟨0x118, 15, 0⟩
/-- COLL-9: MORTAR MORTAR_DISCARD `bad_contrib`. -/
abbrev MORTAR.MORTAR_DISCARD_bad_contrib : Fld := ⟨0x120, 63, 48⟩
/-- COLL-9: MORTAR MORTAR_DISCARD `late`. -/
abbrev MORTAR.MORTAR_DISCARD_late : Fld := ⟨0x120, 47, 32⟩
/-- COLL-9: MORTAR MORTAR_DISCARD `no_group`. -/
abbrev MORTAR.MORTAR_DISCARD_no_group : Fld := ⟨0x120, 31, 16⟩
/-- COLL-9: MORTAR MORTAR_DISCARD `duplicates`. -/
abbrev MORTAR.MORTAR_DISCARD_duplicates : Fld := ⟨0x120, 15, 0⟩
/-- COLL-9: MORTAR ABORT_LOG `valid`. -/
abbrev MORTAR.ABORT_LOG_valid : Fld := ⟨0x128, 63, 63⟩
/-- COLL-9: MORTAR ABORT_LOG `has_member`. -/
abbrev MORTAR.ABORT_LOG_has_member : Fld := ⟨0x128, 62, 62⟩
/-- COLL-9: MORTAR ABORT_LOG `status`. -/
abbrev MORTAR.ABORT_LOG_status : Fld := ⟨0x128, 61, 58⟩
/-- COLL-9: MORTAR ABORT_LOG `member`. -/
abbrev MORTAR.ABORT_LOG_member : Fld := ⟨0x128, 57, 46⟩
/-- COLL-9: MORTAR ABORT_LOG `stop_pysum`. -/
abbrev MORTAR.ABORT_LOG_stop_pysum : Fld := ⟨0x128, 45, 40⟩
/-- COLL-9: MORTAR ABORT_LOG `stop_region`. -/
abbrev MORTAR.ABORT_LOG_stop_region : Fld := ⟨0x128, 39, 38⟩
/-- COLL-9: MORTAR ABORT_LOG `group`. -/
abbrev MORTAR.ABORT_LOG_group : Fld := ⟨0x128, 37, 28⟩
/-- COLL-9: MORTAR ABORT_LOG `inst`. -/
abbrev MORTAR.ABORT_LOG_inst : Fld := ⟨0x128, 27, 13⟩
/-- STR-9: MORTAR STREAM_CTL `stream_timeout`. -/
abbrev MORTAR.STREAM_CTL_stream_timeout : Fld := ⟨0x130, 47, 32⟩
/-- STR-9: MORTAR STREAM_STS `contexts_used`. -/
abbrev MORTAR.STREAM_STS_contexts_used : Fld := ⟨0x138, 40, 32⟩
/-- STR-9: MORTAR STREAM_STS `table_used`. -/
abbrev MORTAR.STREAM_STS_table_used : Fld := ⟨0x138, 21, 0⟩
/-- STR-9: MORTAR STREAM_COUNT `streams_done`. -/
abbrev MORTAR.STREAM_COUNT_streams_done : Fld := ⟨0x140, 63, 32⟩
/-- STR-9: MORTAR STREAM_COUNT `stream_fails`. -/
abbrev MORTAR.STREAM_COUNT_stream_fails : Fld := ⟨0x140, 31, 16⟩
/-- STR-9: MORTAR STREAM_COUNT `stream_timeouts`. -/
abbrev MORTAR.STREAM_COUNT_stream_timeouts : Fld := ⟨0x140, 15, 0⟩
/-- STR-9: MORTAR STREAM_DISCARD `stream_discards`. -/
abbrev MORTAR.STREAM_DISCARD_stream_discards : Fld := ⟨0x148, 15, 0⟩
/-- DET-5: MORTAR ARITH_MODE `job_id`. -/
abbrev MORTAR.ARITH_MODE_job_id : Fld := ⟨0x150, 63, 48⟩
/-- DET-5: MORTAR ARITH_MODE `exact`. -/
abbrev MORTAR.ARITH_MODE_exact : Fld := ⟨0x150, 0, 0⟩
/-- DET-5: MORTAR ARITH_SEED `seed`. -/
abbrev MORTAR.ARITH_SEED_seed : Fld := ⟨0x158, 63, 0⟩
/-- COLL-9: MORTAR LOST_EP `lost`. -/
abbrev MORTAR.LOST_EP_lost : Fld := ⟨0x200, 63, 0⟩
/-- COLL-10: MORTAR GRP_A `valid`. -/
abbrev MORTAR.GRP_A_valid : Fld := ⟨0x1000, 63, 63⟩
/-- COLL-10: MORTAR GRP_A `job_id`. -/
abbrev MORTAR.GRP_A_job_id : Fld := ⟨0x1000, 62, 47⟩
/-- COLL-10: MORTAR GRP_A `tc`. -/
abbrev MORTAR.GRP_A_tc : Fld := ⟨0x1000, 46, 44⟩
/-- COLL-10: MORTAR GRP_A `anchor`. -/
abbrev MORTAR.GRP_A_anchor : Fld := ⟨0x1000, 43, 43⟩
/-- COLL-10: MORTAR GRP_A `region_mask`. -/
abbrev MORTAR.GRP_A_region_mask : Fld := ⟨0x1000, 42, 39⟩
/-- COLL-10: MORTAR GRP_A `course_step`. -/
abbrev MORTAR.GRP_A_course_step : Fld := ⟨0x1000, 38, 38⟩
/-- COLL-10: MORTAR GRP_A `depth`. -/
abbrev MORTAR.GRP_A_depth : Fld := ⟨0x1000, 37, 32⟩
/-- COLL-10: MORTAR GRP_A `own_pos`. -/
abbrev MORTAR.GRP_A_own_pos : Fld := ⟨0x1000, 31, 26⟩
/-- COLL-10: MORTAR GRP_A `stop_count`. -/
abbrev MORTAR.GRP_A_stop_count : Fld := ⟨0x1000, 25, 19⟩
/-- COLL-10: MORTAR GRP_A `member_count`. -/
abbrev MORTAR.GRP_A_member_count : Fld := ⟨0x1000, 12, 0⟩
/-- COLL-10: MORTAR GRP_B `anchor_epid`. -/
abbrev MORTAR.GRP_B_anchor_epid : Fld := ⟨0x1008, 63, 52⟩
/-- COLL-10: MORTAR GRP_B `xpod_count`. -/
abbrev MORTAR.GRP_B_xpod_count : Fld := ⟨0x1008, 51, 46⟩
/-- COLL-10: MORTAR GRP_B `xpod_pos`. -/
abbrev MORTAR.GRP_B_xpod_pos : Fld := ⟨0x1008, 45, 41⟩
/-- COLL-10: MORTAR GRP_B `xpod_next`. -/
abbrev MORTAR.GRP_B_xpod_next : Fld := ⟨0x1008, 40, 33⟩
/-- COLL-10: MORTAR GRP_MEMBER `valid0`. -/
abbrev MORTAR.GRP_MEMBER_valid0 : Fld := ⟨0x1020, 31, 31⟩
/-- COLL-10: MORTAR GRP_MEMBER `valid1`. -/
abbrev MORTAR.GRP_MEMBER_valid1 : Fld := ⟨0x1020, 63, 63⟩
/-- COLL-10: MORTAR GRP_MEMBER `member0`. -/
abbrev MORTAR.GRP_MEMBER_member0 : Fld := ⟨0x1020, 27, 16⟩
/-- COLL-10: MORTAR GRP_MEMBER `member1`. -/
abbrev MORTAR.GRP_MEMBER_member1 : Fld := ⟨0x1020, 59, 48⟩
/-- COLL-10: MORTAR GRP_MEMBER `epid0`. -/
abbrev MORTAR.GRP_MEMBER_epid0 : Fld := ⟨0x1020, 11, 0⟩
/-- COLL-10: MORTAR GRP_MEMBER `epid1`. -/
abbrev MORTAR.GRP_MEMBER_epid1 : Fld := ⟨0x1020, 43, 32⟩
/-- COLL-10: MORTAR GRP_STOP `pysum0`. -/
abbrev MORTAR.GRP_STOP_pysum0 : Fld := ⟨0x1060, 21, 16⟩
/-- COLL-10: MORTAR GRP_STOP `pysum1`. -/
abbrev MORTAR.GRP_STOP_pysum1 : Fld := ⟨0x1060, 53, 48⟩
/-- COLL-10: MORTAR GRP_STOP `anchor_epid0`. -/
abbrev MORTAR.GRP_STOP_anchor_epid0 : Fld := ⟨0x1060, 11, 0⟩
/-- COLL-10: MORTAR GRP_STOP `anchor_epid1`. -/
abbrev MORTAR.GRP_STOP_anchor_epid1 : Fld := ⟨0x1060, 43, 32⟩
/-- COLL-10: MORTAR GRP_STS `open_inst`. -/
abbrev MORTAR.GRP_STS_open_inst : Fld := ⟨0x1160, 63, 49⟩
/-- COLL-10: MORTAR GRP_STS `open`. -/
abbrev MORTAR.GRP_STS_open : Fld := ⟨0x1160, 48, 48⟩
/-- COLL-10: MORTAR GRP_STS `last_status`. -/
abbrev MORTAR.GRP_STS_last_status : Fld := ⟨0x1160, 47, 44⟩
/-- COLL-10: MORTAR GRP_STS `members_eff`. -/
abbrev MORTAR.GRP_STS_members_eff : Fld := ⟨0x1160, 43, 31⟩
/-- COLL-10: MORTAR GRP_STS `stops_eff`. -/
abbrev MORTAR.GRP_STS_stops_eff : Fld := ⟨0x1160, 30, 24⟩
/-- STR-3: MORTAR SLOT_H0 `valid`. -/
abbrev MORTAR.SLOT_H0_valid : Fld := ⟨0xa0000, 63, 63⟩
/-- STR-3: MORTAR SLOT_H0 `job_id`. -/
abbrev MORTAR.SLOT_H0_job_id : Fld := ⟨0xa0000, 62, 47⟩
/-- STR-3: MORTAR SLOT_H0 `kind`. -/
abbrev MORTAR.SLOT_H0_kind : Fld := ⟨0xa0000, 46, 44⟩
/-- STR-3: MORTAR SLOT_H0 `in_fmt`. -/
abbrev MORTAR.SLOT_H0_in_fmt : Fld := ⟨0xa0000, 43, 41⟩
/-- STR-3: MORTAR SLOT_H0 `out_fmt`. -/
abbrev MORTAR.SLOT_H0_out_fmt : Fld := ⟨0xa0000, 40, 38⟩
/-- STR-3: MORTAR SLOT_H0 `exact`. -/
abbrev MORTAR.SLOT_H0_exact : Fld := ⟨0xa0000, 37, 37⟩
/-- STR-3: MORTAR SLOT_H0 `rnd`. -/
abbrev MORTAR.SLOT_H0_rnd : Fld := ⟨0xa0000, 36, 36⟩
/-- STR-3: MORTAR SLOT_H0 `idx`. -/
abbrev MORTAR.SLOT_H0_idx : Fld := ⟨0xa0000, 35, 35⟩
/-- STR-3: MORTAR SLOT_H0 `descending`. -/
abbrev MORTAR.SLOT_H0_descending : Fld := ⟨0xa0000, 34, 34⟩
/-- STR-3: MORTAR SLOT_H0 `n_instr`. -/
abbrev MORTAR.SLOT_H0_n_instr : Fld := ⟨0xa0000, 33, 28⟩
/-- STR-3: MORTAR SLOT_H0 `out_slot`. -/
abbrev MORTAR.SLOT_H0_out_slot : Fld := ⟨0xa0000, 27, 20⟩
/-- STR-3: MORTAR SLOT_H0 `k_m1`. -/
abbrev MORTAR.SLOT_H0_k_m1 : Fld := ⟨0xa0000, 19, 14⟩
/-- STR-3: MORTAR SLOT_H0 `out_none`. -/
abbrev MORTAR.SLOT_H0_out_none : Fld := ⟨0xa0000, 13, 13⟩
/-- STR-3: MORTAR SLOT_H1 `row_len_m1`. -/
abbrev MORTAR.SLOT_H1_row_len_m1 : Fld := ⟨0xa0008, 63, 44⟩
/-- STR-3: MORTAR SLOT_H1 `out_len`. -/
abbrev MORTAR.SLOT_H1_out_len : Fld := ⟨0xa0008, 43, 30⟩
/-- STR-3: MORTAR SLOT_H2 `row_units`. -/
abbrev MORTAR.SLOT_H2_row_units : Fld := ⟨0xa0010, 63, 56⟩
/-- STR-3: MORTAR SLOT_H2 `out_elems`. -/
abbrev MORTAR.SLOT_H2_out_elems : Fld := ⟨0xa0010, 55, 42⟩
/-- STR-3: MORTAR SLOT_H2 `res_fmt`. -/
abbrev MORTAR.SLOT_H2_res_fmt : Fld := ⟨0xa0010, 41, 39⟩
/-- STR-3: MORTAR SLOT_H2 `reply_tc`. -/
abbrev MORTAR.SLOT_H2_reply_tc : Fld := ⟨0xa0010, 38, 36⟩
/-- STR-3: MORTAR SLOT_H2 `combine_epid`. -/
abbrev MORTAR.SLOT_H2_combine_epid : Fld := ⟨0xa0010, 35, 24⟩
/-- STR-3: MORTAR SLOT_H2 `max_choices`. -/
abbrev MORTAR.SLOT_H2_max_choices : Fld := ⟨0xa0010, 23, 20⟩
/-- R330: MORTAR SLOT_INSTR `word`. -/
abbrev MORTAR.SLOT_INSTR_word : Fld := ⟨0xa0040, 63, 0⟩
/-- R330: MORTAR SLOT_CONST `pair`. -/
abbrev MORTAR.SLOT_CONST_pair : Fld := ⟨0xa0140, 63, 0⟩
/-- EVENT bit `mismatch` of MORTAR. -/
abbrev MORTAR.ev_mismatch : Nat := 8
/-- EVENT bit `abort` of MORTAR. -/
abbrev MORTAR.ev_abort : Nat := 9
/-- EVENT bit `bad_contrib` of MORTAR. -/
abbrev MORTAR.ev_bad_contrib : Nat := 10
/-- EVENT bit `relaunch` of MORTAR. -/
abbrev MORTAR.ev_relaunch : Nat := 11
/-- EVENT bit `reformed` of MORTAR. -/
abbrev MORTAR.ev_reformed : Nat := 12
/-- EVENT bit `journal_full` of MORTAR. -/
abbrev MORTAR.ev_journal_full : Nat := 13
/-- EVENT bit `no_group` of MORTAR. -/
abbrev MORTAR.ev_no_group : Nat := 14
/-- EVENT bit `stream_fail` of MORTAR. -/
abbrev MORTAR.ev_stream_fail : Nat := 15
/-- EVENT bit `stream_timeout` of MORTAR. -/
abbrev MORTAR.ev_stream_timeout : Nat := 16
/-- EVENT bit `slot_invalid` of MORTAR. -/
abbrev MORTAR.ev_slot_invalid : Nat := 17
/-- The registers of unit MORTAR. -/
def MORTAR.regs : List RegD := [
  ⟨0x100, 8, 1, 8, 1, [⟨63, 48, .rw, 0x4000⟩, ⟨47, 32, .rw, 0x1000⟩, ⟨23, 20, .rw, 3⟩, ⟨15, 8, .rw, 8⟩]⟩, -- MORTAR_CTL
  ⟨0x108, 8, 1, 8, 1, [⟨63, 32, .ro, 0⟩, ⟨28, 16, .ro, 0⟩, ⟨15, 0, .ro, 0⟩]⟩, -- MORTAR_STS
  ⟨0x110, 8, 1, 8, 1, [⟨15, 0, .rc, 0⟩]⟩, -- MORTAR_PEAK
  ⟨0x118, 8, 1, 8, 1, [⟨63, 32, .rc, 0⟩, ⟨31, 16, .rc, 0⟩, ⟨15, 0, .rc, 0⟩]⟩, -- MORTAR_COUNT
  ⟨0x120, 8, 1, 8, 1, [⟨63, 48, .rc, 0⟩, ⟨47, 32, .rc, 0⟩, ⟨31, 16, .rc, 0⟩, ⟨15, 0, .rc, 0⟩]⟩, -- MORTAR_DISCARD
  ⟨0x128, 8, 1, 8, 1, [⟨63, 63, .w1c, 0⟩, ⟨62, 62, .ro, 0⟩, ⟨61, 58, .ro, 0⟩, ⟨57, 46, .ro, 0⟩, ⟨45, 40, .ro, 0⟩, ⟨39, 38, .ro, 0⟩, ⟨37, 28, .ro, 0⟩, ⟨27, 13, .ro, 0⟩]⟩, -- ABORT_LOG
  ⟨0x130, 8, 1, 8, 1, [⟨47, 32, .rw, 0x400⟩]⟩, -- STREAM_CTL
  ⟨0x138, 8, 1, 8, 1, [⟨40, 32, .ro, 0⟩, ⟨21, 0, .ro, 0⟩]⟩, -- STREAM_STS
  ⟨0x140, 8, 1, 8, 1, [⟨63, 32, .rc, 0⟩, ⟨31, 16, .rc, 0⟩, ⟨15, 0, .rc, 0⟩]⟩, -- STREAM_COUNT
  ⟨0x148, 8, 1, 8, 1, [⟨15, 0, .rc, 0⟩]⟩, -- STREAM_DISCARD
  ⟨0x150, 8, 1, 8, 1, [⟨63, 48, .ro, 0⟩, ⟨0, 0, .ro, 0⟩]⟩, -- ARITH_MODE
  ⟨0x158, 8, 1, 8, 1, [⟨63, 0, .ro, 0⟩]⟩, -- ARITH_SEED
  ⟨0x200, 8, 64, 8, 1, [⟨63, 0, .ro, 0⟩]⟩, -- LOST_EP
  ⟨0x1000, 512, 1024, 8, 1, [⟨63, 63, .rwl, 0⟩, ⟨62, 47, .rwl, 0⟩, ⟨46, 44, .rwl, 0⟩, ⟨43, 43, .rwl, 0⟩, ⟨42, 39, .rwl, 0⟩, ⟨38, 38, .rwl, 0⟩, ⟨37, 32, .rwl, 0⟩, ⟨31, 26, .rwl, 0⟩, ⟨25, 19, .rwl, 0⟩, ⟨12, 0, .rwl, 0⟩]⟩, -- GRP_A
  ⟨0x1008, 512, 1024, 8, 1, [⟨63, 52, .rwl, 0⟩, ⟨51, 46, .rwl, 0⟩, ⟨45, 41, .rwl, 0⟩, ⟨40, 33, .rwl, 0⟩]⟩, -- GRP_B
  ⟨0x1020, 512, 1024, 8, 8, [⟨31, 31, .rwl, 0⟩, ⟨63, 63, .rwl, 0⟩, ⟨27, 16, .rwl, 0⟩, ⟨59, 48, .rwl, 0⟩, ⟨11, 0, .rwl, 0⟩, ⟨43, 32, .rwl, 0⟩]⟩, -- GRP_MEMBER
  ⟨0x1060, 512, 1024, 8, 32, [⟨21, 16, .rwl, 0⟩, ⟨53, 48, .rwl, 0⟩, ⟨11, 0, .rwl, 0⟩, ⟨43, 32, .rwl, 0⟩]⟩, -- GRP_STOP
  ⟨0x1160, 512, 1024, 8, 1, [⟨63, 49, .ro, 0⟩, ⟨48, 48, .ro, 0⟩, ⟨47, 44, .ro, 0⟩, ⟨43, 31, .ro, 0⟩, ⟨30, 24, .ro, 0⟩]⟩, -- GRP_STS
  ⟨0xa0000, 512, 256, 8, 1, [⟨63, 63, .rwl, 0⟩, ⟨62, 47, .rwl, 0⟩, ⟨46, 44, .rwl, 0⟩, ⟨43, 41, .rwl, 0⟩, ⟨40, 38, .rwl, 0⟩, ⟨37, 37, .rwl, 0⟩, ⟨36, 36, .rwl, 0⟩, ⟨35, 35, .rwl, 0⟩, ⟨34, 34, .rwl, 0⟩, ⟨33, 28, .rwl, 0⟩, ⟨27, 20, .rwl, 0⟩, ⟨19, 14, .rwl, 0⟩, ⟨13, 13, .rwl, 0⟩]⟩, -- SLOT_H0
  ⟨0xa0008, 512, 256, 8, 1, [⟨63, 44, .rwl, 0⟩, ⟨43, 30, .rwl, 0⟩]⟩, -- SLOT_H1
  ⟨0xa0010, 512, 256, 8, 1, [⟨63, 56, .rwl, 0⟩, ⟨55, 42, .rwl, 0⟩, ⟨41, 39, .rwl, 0⟩, ⟨38, 36, .rwl, 0⟩, ⟨35, 24, .rwl, 0⟩, ⟨23, 20, .rwl, 0⟩]⟩, -- SLOT_H2
  ⟨0xa0040, 512, 256, 8, 32, [⟨63, 0, .rwl, 0⟩]⟩, -- SLOT_INSTR
  ⟨0xa0140, 512, 256, 8, 24, [⟨63, 0, .rwl, 0⟩]⟩ -- SLOT_CONST
]

/-- FAB-9: COMBINE COMB_CTL `combine_tc`. -/
abbrev COMBINE.COMB_CTL_combine_tc : Fld := ⟨0x100, 23, 16⟩
/-- FAB-9: COMBINE COMB_CTL `max_merge`. -/
abbrev COMBINE.COMB_CTL_max_merge : Fld := ⟨0x100, 13, 8⟩
/-- FAB-9: COMBINE COMB_CTL `window`. -/
abbrev COMBINE.COMB_CTL_window : Fld := ⟨0x100, 7, 0⟩
/-- FAB-9: COMBINE COMB_STS `entries_peak`. -/
abbrev COMBINE.COMB_STS_entries_peak : Fld := ⟨0x108, 24, 16⟩
/-- FAB-9: COMBINE COMB_STS `entries_used`. -/
abbrev COMBINE.COMB_STS_entries_used : Fld := ⟨0x108, 8, 0⟩
/-- FAB-9: COMBINE COMB_COUNT `merged`. -/
abbrev COMBINE.COMB_COUNT_merged : Fld := ⟨0x110, 63, 32⟩
/-- FAB-9: COMBINE COMB_COUNT `combined_sent`. -/
abbrev COMBINE.COMB_COUNT_combined_sent : Fld := ⟨0x110, 31, 0⟩
/-- FAB-9: COMBINE COMB_FULL `table_full`. -/
abbrev COMBINE.COMB_FULL_table_full : Fld := ⟨0x118, 31, 0⟩
/-- EVENT bit `table_full` of COMBINE. -/
abbrev COMBINE.ev_table_full : Nat := 8
/-- The registers of unit COMBINE. -/
def COMBINE.regs : List RegD := [
  ⟨0x100, 8, 1, 8, 1, [⟨23, 16, .rw, 0xfe⟩, ⟨13, 8, .rw, 0x20⟩, ⟨7, 0, .rw, 0x20⟩]⟩, -- COMB_CTL
  ⟨0x108, 8, 1, 8, 1, [⟨24, 16, .rc, 0⟩, ⟨8, 0, .ro, 0⟩]⟩, -- COMB_STS
  ⟨0x110, 8, 1, 8, 1, [⟨63, 32, .rc, 0⟩, ⟨31, 0, .rc, 0⟩]⟩, -- COMB_COUNT
  ⟨0x118, 8, 1, 8, 1, [⟨31, 0, .rc, 0⟩]⟩ -- COMB_FULL
]

/-- STR-10: SORT SORT_CTL `batch_timeout`. -/
abbrev SORT.SORT_CTL_batch_timeout : Fld := ⟨0x100, 63, 48⟩
/-- STR-10: SORT SORT_STS `dispatch_open`. -/
abbrev SORT.SORT_STS_dispatch_open : Fld := ⟨0x108, 51, 47⟩
/-- STR-10: SORT SORT_STS `batches_open`. -/
abbrev SORT.SORT_STS_batches_open : Fld := ⟨0x108, 46, 36⟩
/-- STR-10: SORT SORT_STS `sort_records`. -/
abbrev SORT.SORT_STS_sort_records : Fld := ⟨0x108, 19, 0⟩
/-- STR-10: SORT SORT_COUNT `records_sorted`. -/
abbrev SORT.SORT_COUNT_records_sorted : Fld := ⟨0x110, 63, 32⟩
/-- STR-10: SORT SORT_COUNT `rows_topk`. -/
abbrev SORT.SORT_COUNT_rows_topk : Fld := ⟨0x110, 31, 0⟩
/-- STR-10: SORT DISPATCH_COUNT `tokens_combined`. -/
abbrev SORT.DISPATCH_COUNT_tokens_combined : Fld := ⟨0x118, 63, 32⟩
/-- STR-10: SORT DISPATCH_COUNT `batches_invoked`. -/
abbrev SORT.DISPATCH_COUNT_batches_invoked : Fld := ⟨0x118, 31, 16⟩
/-- STR-10: SORT DISPATCH_COUNT `token_faults`. -/
abbrev SORT.DISPATCH_COUNT_token_faults : Fld := ⟨0x118, 15, 0⟩
/-- STR-10: SORT UNCLAIMED `unclaimed`. -/
abbrev SORT.UNCLAIMED_unclaimed : Fld := ⟨0x120, 15, 0⟩
/-- DET-5: SORT ARITH_MODE `job_id`. -/
abbrev SORT.ARITH_MODE_job_id : Fld := ⟨0x128, 63, 48⟩
/-- DET-5: SORT ARITH_MODE `exact`. -/
abbrev SORT.ARITH_MODE_exact : Fld := ⟨0x128, 0, 0⟩
/-- DET-5: SORT ARITH_SEED `seed`. -/
abbrev SORT.ARITH_SEED_seed : Fld := ⟨0x130, 63, 0⟩
/-- STR-6: SORT EXPERT_A `valid`. -/
abbrev SORT.EXPERT_A_valid : Fld := ⟨0x1000, 63, 63⟩
/-- STR-6: SORT EXPERT_A `epid`. -/
abbrev SORT.EXPERT_A_epid : Fld := ⟨0x1000, 62, 51⟩
/-- STR-6: SORT EXPERT_A `program`. -/
abbrev SORT.EXPERT_A_program : Fld := ⟨0x1000, 50, 45⟩
/-- STR-6: SORT EXPERT_A `block`. -/
abbrev SORT.EXPERT_A_block : Fld := ⟨0x1000, 44, 40⟩
/-- STR-6: SORT EXPERT_A `key`. -/
abbrev SORT.EXPERT_A_key : Fld := ⟨0x1000, 39, 16⟩
/-- STR-6: SORT EXPERT_A `buf_tokens`. -/
abbrev SORT.EXPERT_A_buf_tokens : Fld := ⟨0x1000, 12, 0⟩
/-- STR-6: SORT EXPERT_B `buf_base`. -/
abbrev SORT.EXPERT_B_buf_base : Fld := ⟨0x1008, 51, 0⟩
/-- EVENT bit `token_fault` of SORT. -/
abbrev SORT.ev_token_fault : Nat := 8
/-- EVENT bit `unclaimed` of SORT. -/
abbrev SORT.ev_unclaimed : Nat := 9
/-- EVENT bit `capacity` of SORT. -/
abbrev SORT.ev_capacity : Nat := 10
/-- The registers of unit SORT. -/
def SORT.regs : List RegD := [
  ⟨0x100, 8, 1, 8, 1, [⟨63, 48, .rw, 0x100⟩]⟩, -- SORT_CTL
  ⟨0x108, 8, 1, 8, 1, [⟨51, 47, .ro, 0⟩, ⟨46, 36, .ro, 0⟩, ⟨19, 0, .ro, 0⟩]⟩, -- SORT_STS
  ⟨0x110, 8, 1, 8, 1, [⟨63, 32, .rc, 0⟩, ⟨31, 0, .rc, 0⟩]⟩, -- SORT_COUNT
  ⟨0x118, 8, 1, 8, 1, [⟨63, 32, .rc, 0⟩, ⟨31, 16, .rc, 0⟩, ⟨15, 0, .rc, 0⟩]⟩, -- DISPATCH_COUNT
  ⟨0x120, 8, 1, 8, 1, [⟨15, 0, .rc, 0⟩]⟩, -- UNCLAIMED
  ⟨0x128, 8, 1, 8, 1, [⟨63, 48, .ro, 0⟩, ⟨0, 0, .ro, 0⟩]⟩, -- ARITH_MODE
  ⟨0x130, 8, 1, 8, 1, [⟨63, 0, .ro, 0⟩]⟩, -- ARITH_SEED
  ⟨0x1000, 16, 512, 8, 1, [⟨63, 63, .rwl, 0⟩, ⟨62, 51, .rwl, 0⟩, ⟨50, 45, .rwl, 0⟩, ⟨44, 40, .rwl, 0⟩, ⟨39, 16, .rwl, 0⟩, ⟨12, 0, .rwl, 0⟩]⟩, -- EXPERT_A
  ⟨0x1008, 16, 512, 8, 1, [⟨51, 0, .rwl, 0⟩]⟩ -- EXPERT_B
]

/-- COB-3: COBBLER POLICY_FLOOR `low3`. -/
abbrev COBBLER.POLICY_FLOOR_low3 : Fld := ⟨0x90, 53, 48⟩
/-- COB-3: COBBLER POLICY_FLOOR `low2`. -/
abbrev COBBLER.POLICY_FLOOR_low2 : Fld := ⟨0x90, 37, 32⟩
/-- COB-3: COBBLER POLICY_FLOOR `low1`. -/
abbrev COBBLER.POLICY_FLOOR_low1 : Fld := ⟨0x90, 21, 16⟩
/-- COB-3: COBBLER POLICY_FLOOR `low0`. -/
abbrev COBBLER.POLICY_FLOOR_low0 : Fld := ⟨0x90, 5, 0⟩
/-- COB-3: COBBLER POLICY_CEIL `low3`. -/
abbrev COBBLER.POLICY_CEIL_low3 : Fld := ⟨0x98, 53, 48⟩
/-- COB-3: COBBLER POLICY_CEIL `low2`. -/
abbrev COBBLER.POLICY_CEIL_low2 : Fld := ⟨0x98, 37, 32⟩
/-- COB-3: COBBLER POLICY_CEIL `low1`. -/
abbrev COBBLER.POLICY_CEIL_low1 : Fld := ⟨0x98, 21, 16⟩
/-- COB-3: COBBLER POLICY_CEIL `low0`. -/
abbrev COBBLER.POLICY_CEIL_low0 : Fld := ⟨0x98, 5, 0⟩
/-- COB-2: COBBLER COB_CTL `fit_up`. -/
abbrev COBBLER.COB_CTL_fit_up : Fld := ⟨0x100, 1, 1⟩
/-- COB-2: COBBLER COB_CTL `mode`. -/
abbrev COBBLER.COB_CTL_mode : Fld := ⟨0x100, 0, 0⟩
/-- COB-2: COBBLER FREE `offset`. -/
abbrev COBBLER.FREE_offset : Fld := ⟨0x108, 36, 0⟩
/-- COB-2: COBBLER COB_LOST `lost_buffers`. -/
abbrev COBBLER.COB_LOST_lost_buffers : Fld := ⟨0x110, 63, 32⟩
/-- COB-2: COBBLER COB_LOST `double_frees`. -/
abbrev COBBLER.COB_LOST_double_frees : Fld := ⟨0x110, 31, 16⟩
/-- COB-2: COBBLER COB_LOST `bad_frees`. -/
abbrev COBBLER.COB_LOST_bad_frees : Fld := ⟨0x110, 15, 0⟩
/-- COB-2: COBBLER POOL_CFG `count`. -/
abbrev COBBLER.POOL_CFG_count : Fld := ⟨0x120, 55, 37⟩
/-- COB-2: COBBLER POOL_CFG `base`. -/
abbrev COBBLER.POOL_CFG_base : Fld := ⟨0x120, 36, 0⟩
/-- COB-2: COBBLER POOL_RING `ring`. -/
abbrev COBBLER.POOL_RING_ring : Fld := ⟨0x128, 36, 0⟩
/-- COB-2: COBBLER POOL_STS `low_now`. -/
abbrev COBBLER.POOL_STS_low_now : Fld := ⟨0x130, 63, 58⟩
/-- COB-2: COBBLER POOL_STS `cache`. -/
abbrev COBBLER.POOL_STS_cache : Fld := ⟨0x130, 57, 51⟩
/-- COB-2: COBBLER POOL_STS `free_min`. -/
abbrev COBBLER.POOL_STS_free_min : Fld := ⟨0x130, 50, 32⟩
/-- COB-2: COBBLER POOL_STS `free`. -/
abbrev COBBLER.POOL_STS_free : Fld := ⟨0x130, 18, 0⟩
/-- COB-2: COBBLER POOL_COUNT `allocs`. -/
abbrev COBBLER.POOL_COUNT_allocs : Fld := ⟨0x138, 63, 32⟩
/-- COB-2: COBBLER POOL_COUNT `waits`. -/
abbrev COBBLER.POOL_COUNT_waits : Fld := ⟨0x138, 31, 16⟩
/-- COB-2: COBBLER POOL_COUNT `misses`. -/
abbrev COBBLER.POOL_COUNT_misses : Fld := ⟨0x138, 15, 0⟩
/-- COB-2: COBBLER POOL_ALLOC `valid`. -/
abbrev COBBLER.POOL_ALLOC_valid : Fld := ⟨0x140, 63, 63⟩
/-- COB-2: COBBLER POOL_ALLOC `offset`. -/
abbrev COBBLER.POOL_ALLOC_offset : Fld := ⟨0x140, 36, 0⟩
/-- COB-2: COBBLER RESERVE `host_min`. -/
abbrev COBBLER.RESERVE_host_min : Fld := ⟨0x1e0, 50, 32⟩
/-- COB-2: COBBLER RESERVE `block_min`. -/
abbrev COBBLER.RESERVE_block_min : Fld := ⟨0x1e0, 14, 0⟩
/-- EVENT bit `pool_empty` of COBBLER. -/
abbrev COBBLER.ev_pool_empty : Nat := 8
/-- EVENT bit `double_free` of COBBLER. -/
abbrev COBBLER.ev_double_free : Nat := 9
/-- EVENT bit `bad_free` of COBBLER. -/
abbrev COBBLER.ev_bad_free : Nat := 10
/-- EVENT bit `ring_error` of COBBLER. -/
abbrev COBBLER.ev_ring_error : Nat := 11
/-- EVENT bit `cfg_reject` of COBBLER. -/
abbrev COBBLER.ev_cfg_reject : Nat := 12
/-- The registers of unit COBBLER. -/
def COBBLER.regs : List RegD := [
  ⟨0x90, 8, 1, 8, 1, [⟨53, 48, .rw, 8⟩, ⟨37, 32, .rw, 8⟩, ⟨21, 16, .rw, 8⟩, ⟨5, 0, .rw, 8⟩]⟩, -- POLICY_FLOOR
  ⟨0x98, 8, 1, 8, 1, [⟨53, 48, .rw, 0x20⟩, ⟨37, 32, .rw, 0x20⟩, ⟨21, 16, .rw, 0x20⟩, ⟨5, 0, .rw, 0x20⟩]⟩, -- POLICY_CEIL
  ⟨0x100, 8, 1, 8, 1, [⟨1, 1, .rwl, 0⟩, ⟨0, 0, .rwl, 0⟩]⟩, -- COB_CTL
  ⟨0x108, 8, 1, 8, 1, [⟨36, 0, .wo, 0⟩]⟩, -- FREE
  ⟨0x110, 8, 1, 8, 1, [⟨63, 32, .rc, 0⟩, ⟨31, 16, .rc, 0⟩, ⟨15, 0, .rc, 0⟩]⟩, -- COB_LOST
  ⟨0x120, 48, 4, 8, 1, [⟨55, 37, .rwl, 0⟩, ⟨36, 0, .rwl, 0⟩]⟩, -- POOL_CFG
  ⟨0x128, 48, 4, 8, 1, [⟨36, 0, .rwl, 0⟩]⟩, -- POOL_RING
  ⟨0x130, 48, 4, 8, 1, [⟨63, 58, .ro, 0x10⟩, ⟨57, 51, .ro, 0⟩, ⟨50, 32, .rc, 0⟩, ⟨18, 0, .ro, 0⟩]⟩, -- POOL_STS
  ⟨0x138, 48, 4, 8, 1, [⟨63, 32, .rc, 0⟩, ⟨31, 16, .rc, 0⟩, ⟨15, 0, .rc, 0⟩]⟩, -- POOL_COUNT
  ⟨0x140, 48, 4, 8, 1, [⟨63, 63, .rc, 0⟩, ⟨36, 0, .rc, 0⟩]⟩, -- POOL_ALLOC
  ⟨0x1e0, 8, 4, 8, 1, [⟨50, 32, .rwl, 0⟩, ⟨14, 0, .rwl, 0⟩]⟩ -- RESERVE
]

/-- FWD-8: BUFBANK BANK_STS `spare_for`. -/
abbrev BUFBANK.BANK_STS_spare_for : Fld := ⟨0x100, 24, 20⟩
/-- FWD-8: BUFBANK BANK_STS `cells_used`. -/
abbrev BUFBANK.BANK_STS_cells_used : Fld := ⟨0x100, 14, 0⟩
/-- EVENT bit `spare_used` of BUFBANK. -/
abbrev BUFBANK.ev_spare_used : Nat := 8
/-- The registers of unit BUFBANK. -/
def BUFBANK.regs : List RegD := [
  ⟨0x100, 8, 1, 8, 1, [⟨24, 20, .ro, 0x1f⟩, ⟨14, 0, .ro, 0⟩]⟩ -- BANK_STS
]

/-- MEM-9: MEMBLK MEM_CTL `age_cap`. -/
abbrev MEMBLK.MEM_CTL_age_cap : Fld := ⟨0x100, 39, 32⟩
/-- MEM-9: MEMBLK MEM_CTL `scrub_hours`. -/
abbrev MEMBLK.MEM_CTL_scrub_hours : Fld := ⟨0x100, 31, 24⟩
/-- MEM-9: MEMBLK MEM_CTL `copy_share`. -/
abbrev MEMBLK.MEM_CTL_copy_share : Fld := ⟨0x100, 23, 16⟩
/-- MEM-9: MEMBLK MEM_CTL `row_ce_limit`. -/
abbrev MEMBLK.MEM_CTL_row_ce_limit : Fld := ⟨0x100, 15, 8⟩
/-- MEM-9: MEMBLK MEM_ARB `w_near`. -/
abbrev MEMBLK.MEM_ARB_w_near : Fld := ⟨0x108, 23, 16⟩
/-- MEM-9: MEMBLK MEM_ARB `w_block`. -/
abbrev MEMBLK.MEM_ARB_w_block : Fld := ⟨0x108, 15, 8⟩
/-- MEM-9: MEMBLK MEM_ARB `w_fabric`. -/
abbrev MEMBLK.MEM_ARB_w_fabric : Fld := ⟨0x108, 7, 0⟩
/-- MEM-9: MEMBLK MEM_STS `s1_for`. -/
abbrev MEMBLK.MEM_STS_s1_for : Fld := ⟨0x110, 47, 40⟩
/-- MEM-9: MEMBLK MEM_STS `s0_for`. -/
abbrev MEMBLK.MEM_STS_s0_for : Fld := ⟨0x110, 39, 32⟩
/-- MEM-9: MEMBLK MEM_STS `copy_pct`. -/
abbrev MEMBLK.MEM_STS_copy_pct : Fld := ⟨0x110, 31, 24⟩
/-- MEM-9: MEMBLK MEM_STS `die_temp`. -/
abbrev MEMBLK.MEM_STS_die_temp : Fld := ⟨0x110, 15, 8⟩
/-- MEM-9: MEMBLK MEM_STS `hot_refresh`. -/
abbrev MEMBLK.MEM_STS_hot_refresh : Fld := ⟨0x110, 1, 1⟩
/-- MEM-9: MEMBLK MEM_STS `ready`. -/
abbrev MEMBLK.MEM_STS_ready : Fld := ⟨0x110, 0, 0⟩
/-- MEM-9: MEMBLK ECC_COUNT `lines_corrected`. -/
abbrev MEMBLK.ECC_COUNT_lines_corrected : Fld := ⟨0x118, 63, 32⟩
/-- MEM-9: MEMBLK ECC_COUNT `uncorrected`. -/
abbrev MEMBLK.ECC_COUNT_uncorrected : Fld := ⟨0x118, 31, 16⟩
/-- MEM-9: MEMBLK ECC_COUNT `scrub_fixed`. -/
abbrev MEMBLK.ECC_COUNT_scrub_fixed : Fld := ⟨0x118, 15, 0⟩
/-- MEM-9: MEMBLK SPARE_STS `rows_used`. -/
abbrev MEMBLK.SPARE_STS_rows_used : Fld := ⟨0x120, 47, 32⟩
/-- MEM-9: MEMBLK SPARE_STS `row_requests`. -/
abbrev MEMBLK.SPARE_STS_row_requests : Fld := ⟨0x120, 31, 16⟩
/-- MEM-9: MEMBLK SPARE_STS `rows_free_min`. -/
abbrev MEMBLK.SPARE_STS_rows_free_min : Fld := ⟨0x120, 5, 0⟩
/-- MEM-9: MEMBLK SCRUB_STS `scrub_line`. -/
abbrev MEMBLK.SCRUB_STS_scrub_line : Fld := ⟨0x128, 29, 0⟩
/-- MEM-9: MEMBLK DIR_STS `entries_peak`. -/
abbrev MEMBLK.DIR_STS_entries_peak : Fld := ⟨0x130, 43, 22⟩
/-- MEM-9: MEMBLK DIR_STS `entries_used`. -/
abbrev MEMBLK.DIR_STS_entries_used : Fld := ⟨0x130, 21, 0⟩
/-- MEM-9: MEMBLK DIR_COUNT `back_invalidates`. -/
abbrev MEMBLK.DIR_COUNT_back_invalidates : Fld := ⟨0x138, 63, 32⟩
/-- MEM-9: MEMBLK DIR_COUNT `owned_lost`. -/
abbrev MEMBLK.DIR_COUNT_owned_lost : Fld := ⟨0x138, 31, 16⟩
/-- MEM-9: MEMBLK NEAR_COUNT `atomics`. -/
abbrev MEMBLK.NEAR_COUNT_atomics : Fld := ⟨0x140, 63, 32⟩
/-- MEM-9: MEMBLK NEAR_COUNT `near_ops`. -/
abbrev MEMBLK.NEAR_COUNT_near_ops : Fld := ⟨0x140, 31, 0⟩
/-- EVENT bit `row_spared` of MEMBLK. -/
abbrev MEMBLK.ev_row_spared : Nat := 8
/-- EVENT bit `pc_spared` of MEMBLK. -/
abbrev MEMBLK.ev_pc_spared : Nat := 9
/-- EVENT bit `dir_full` of MEMBLK. -/
abbrev MEMBLK.ev_dir_full : Nat := 10
/-- EVENT bit `hot_refresh` of MEMBLK. -/
abbrev MEMBLK.ev_hot_refresh : Nat := 11
/-- EVENT bit `spares_low` of MEMBLK. -/
abbrev MEMBLK.ev_spares_low : Nat := 12
/-- EVENT bit `spares_exhausted` of MEMBLK. -/
abbrev MEMBLK.ev_spares_exhausted : Nat := 13
/-- EVENT bit `near_fault` of MEMBLK. -/
abbrev MEMBLK.ev_near_fault : Nat := 14
/-- EVENT bit `owned_lost` of MEMBLK. -/
abbrev MEMBLK.ev_owned_lost : Nat := 15
/-- The registers of unit MEMBLK. -/
def MEMBLK.regs : List RegD := [
  ⟨0x100, 8, 1, 8, 1, [⟨39, 32, .rw, 0xa⟩, ⟨31, 24, .rw, 8⟩, ⟨23, 16, .rw, 0x40⟩, ⟨15, 8, .rw, 0x10⟩]⟩, -- MEM_CTL
  ⟨0x108, 8, 1, 8, 1, [⟨23, 16, .rwl, 2⟩, ⟨15, 8, .rwl, 4⟩, ⟨7, 0, .rwl, 4⟩]⟩, -- MEM_ARB
  ⟨0x110, 8, 1, 8, 1, [⟨47, 40, .ro, 0xff⟩, ⟨39, 32, .ro, 0xff⟩, ⟨31, 24, .ro, 0⟩, ⟨15, 8, .ro, 0⟩, ⟨1, 1, .ro, 0⟩, ⟨0, 0, .ro, 0⟩]⟩, -- MEM_STS
  ⟨0x118, 8, 1, 8, 1, [⟨63, 32, .rc, 0⟩, ⟨31, 16, .rc, 0⟩, ⟨15, 0, .rc, 0⟩]⟩, -- ECC_COUNT
  ⟨0x120, 8, 1, 8, 1, [⟨47, 32, .ro, 0⟩, ⟨31, 16, .rc, 0⟩, ⟨5, 0, .ro, 0x20⟩]⟩, -- SPARE_STS
  ⟨0x128, 8, 1, 8, 1, [⟨29, 0, .ro, 0⟩]⟩, -- SCRUB_STS
  ⟨0x130, 8, 1, 8, 1, [⟨43, 22, .rc, 0⟩, ⟨21, 0, .ro, 0⟩]⟩, -- DIR_STS
  ⟨0x138, 8, 1, 8, 1, [⟨63, 32, .rc, 0⟩, ⟨31, 16, .rc, 0⟩]⟩, -- DIR_COUNT
  ⟨0x140, 8, 1, 8, 1, [⟨63, 32, .rc, 0⟩, ⟨31, 0, .rc, 0⟩]⟩ -- NEAR_COUNT
]

/-- FWD-8: D2D D2D_STS `spares_free`. -/
abbrev D2D.D2D_STS_spares_free : Fld := ⟨0x100, 15, 8⟩
/-- FWD-8: D2D D2D_STS `fallback`. -/
abbrev D2D.D2D_STS_fallback : Fld := ⟨0x100, 1, 1⟩
/-- FWD-8: D2D D2D_STS `up`. -/
abbrev D2D.D2D_STS_up : Fld := ⟨0x100, 0, 0⟩
/-- FWD-8: D2D D2D_COUNT `cells_sent`. -/
abbrev D2D.D2D_COUNT_cells_sent : Fld := ⟨0x108, 63, 32⟩
/-- FWD-8: D2D D2D_COUNT `resends`. -/
abbrev D2D.D2D_COUNT_resends : Fld := ⟨0x108, 31, 16⟩
/-- FWD-8: D2D D2D_COUNT `wire_faults`. -/
abbrev D2D.D2D_COUNT_wire_faults : Fld := ⟨0x108, 15, 0⟩
/-- EVENT bit `fallback` of D2D. -/
abbrev D2D.ev_fallback : Nat := 8
/-- EVENT bit `wire_fault` of D2D. -/
abbrev D2D.ev_wire_fault : Nat := 9
/-- The registers of unit D2D. -/
def D2D.regs : List RegD := [
  ⟨0x100, 8, 1, 8, 1, [⟨15, 8, .ro, 0x10⟩, ⟨1, 1, .ro, 0⟩, ⟨0, 0, .ro, 0⟩]⟩, -- D2D_STS
  ⟨0x108, 8, 1, 8, 1, [⟨63, 32, .rc, 0⟩, ⟨31, 16, .rc, 0⟩, ⟨15, 0, .rc, 0⟩]⟩ -- D2D_COUNT
]

/-- CELL-13: CBLK BLK_CTL `wq_limit`. -/
abbrev CBLK.BLK_CTL_wq_limit : Fld := ⟨0x100, 31, 24⟩
/-- CELL-13: CBLK BLK_CTL `lcache`. -/
abbrev CBLK.BLK_CTL_lcache : Fld := ⟨0x100, 17, 16⟩
/-- CELL-13: CBLK BLK_CTL `abort`. -/
abbrev CBLK.BLK_CTL_abort : Fld := ⟨0x100, 8, 8⟩
/-- CELL-13: CBLK BLK_CTL `replay_en`. -/
abbrev CBLK.BLK_CTL_replay_en : Fld := ⟨0x100, 1, 1⟩
/-- CELL-13: CBLK BLK_CTL `enable`. -/
abbrev CBLK.BLK_CTL_enable : Fld := ⟨0x100, 0, 0⟩
/-- CELL-13: CBLK BLK_STS `state_lost`. -/
abbrev CBLK.BLK_STS_state_lost : Fld := ⟨0x108, 55, 48⟩
/-- CELL-13: CBLK BLK_STS `cells_busy`. -/
abbrev CBLK.BLK_STS_cells_busy : Fld := ⟨0x108, 47, 40⟩
/-- CELL-13: CBLK BLK_STS `wq_used`. -/
abbrev CBLK.BLK_STS_wq_used : Fld := ⟨0x108, 30, 24⟩
/-- CELL-13: CBLK BLK_STS `dma_queued`. -/
abbrev CBLK.BLK_STS_dma_queued : Fld := ⟨0x108, 6, 0⟩
/-- CELL-13: CBLK CELL_MAP `phys_bad`. -/
abbrev CBLK.CELL_MAP_phys_bad : Fld := ⟨0x110, 44, 36⟩
/-- CELL-13: CBLK CELL_MAP `map`. -/
abbrev CBLK.CELL_MAP_map : Fld := ⟨0x110, 31, 0⟩
/-- CELL-13: CBLK WQ_COUNT `invocations`. -/
abbrev CBLK.WQ_COUNT_invocations : Fld := ⟨0x118, 63, 32⟩
/-- CELL-13: CBLK WQ_COUNT `replays`. -/
abbrev CBLK.WQ_COUNT_replays : Fld := ⟨0x118, 31, 16⟩
/-- CELL-13: CBLK WQ_COUNT `rejected`. -/
abbrev CBLK.WQ_COUNT_rejected : Fld := ⟨0x118, 15, 0⟩
/-- CELL-13: CBLK DMA_COUNT `descriptors`. -/
abbrev CBLK.DMA_COUNT_descriptors : Fld := ⟨0x120, 63, 32⟩
/-- CELL-13: CBLK DMA_COUNT `dma_errors`. -/
abbrev CBLK.DMA_COUNT_dma_errors : Fld := ⟨0x120, 31, 16⟩
/-- CELL-13: CBLK DMA_COUNT `dma_stalls`. -/
abbrev CBLK.DMA_COUNT_dma_stalls : Fld := ⟨0x120, 15, 0⟩
/-- CELL-13: CBLK ECC_COUNT `spad_ce`. -/
abbrev CBLK.ECC_COUNT_spad_ce : Fld := ⟨0x128, 63, 48⟩
/-- CELL-13: CBLK ECC_COUNT `bmem_ce`. -/
abbrev CBLK.ECC_COUNT_bmem_ce : Fld := ⟨0x128, 47, 32⟩
/-- CELL-13: CBLK ECC_COUNT `imem_ce`. -/
abbrev CBLK.ECC_COUNT_imem_ce : Fld := ⟨0x128, 31, 16⟩
/-- CELL-13: CBLK ECC_COUNT `ue`. -/
abbrev CBLK.ECC_COUNT_ue : Fld := ⟨0x128, 15, 0⟩
/-- CELL-13: CBLK LATE `late_max`. -/
abbrev CBLK.LATE_late_max : Fld := ⟨0x130, 63, 32⟩
/-- CELL-13: CBLK LATE `slips`. -/
abbrev CBLK.LATE_slips : Fld := ⟨0x130, 31, 16⟩
/-- CELL-13: CBLK LATE `overruns`. -/
abbrev CBLK.LATE_overruns : Fld := ⟨0x130, 15, 0⟩
/-- SPR-6: CBLK SPARSE_CTL `dense_pct`. -/
abbrev CBLK.SPARSE_CTL_dense_pct : Fld := ⟨0x138, 31, 24⟩
/-- SPR-6: CBLK SPARSE_CTL `split_max`. -/
abbrev CBLK.SPARSE_CTL_split_max : Fld := ⟨0x138, 15, 12⟩
/-- SPR-6: CBLK SPARSE_CTL `split_min`. -/
abbrev CBLK.SPARSE_CTL_split_min : Fld := ⟨0x138, 11, 8⟩
/-- SPR-6: CBLK SPARSE_CTL `split_now`. -/
abbrev CBLK.SPARSE_CTL_split_now : Fld := ⟨0x138, 3, 0⟩
/-- SPR-6: CBLK AUDIT_CTL `audit_n`. -/
abbrev CBLK.AUDIT_CTL_audit_n : Fld := ⟨0x140, 47, 32⟩
/-- SPR-6: CBLK AUDIT_CTL `miss_thresh`. -/
abbrev CBLK.AUDIT_CTL_miss_thresh : Fld := ⟨0x140, 31, 0⟩
/-- SPR-6: CBLK SPARSE_COUNT `steals`. -/
abbrev CBLK.SPARSE_COUNT_steals : Fld := ⟨0x148, 63, 48⟩
/-- SPR-6: CBLK SPARSE_COUNT `split_rows`. -/
abbrev CBLK.SPARSE_COUNT_split_rows : Fld := ⟨0x148, 47, 32⟩
/-- SPR-6: CBLK SPARSE_COUNT `dropped`. -/
abbrev CBLK.SPARSE_COUNT_dropped : Fld := ⟨0x148, 31, 0⟩
/-- SPR-6: CBLK EXPAND_COUNT `tiles_expanded`. -/
abbrev CBLK.EXPAND_COUNT_tiles_expanded : Fld := ⟨0x150, 63, 32⟩
/-- SPR-6: CBLK EXPAND_COUNT `tiles_compressed`. -/
abbrev CBLK.EXPAND_COUNT_tiles_compressed : Fld := ⟨0x150, 31, 0⟩
/-- SPR-6: CBLK AUDIT_COUNT `audited`. -/
abbrev CBLK.AUDIT_COUNT_audited : Fld := ⟨0x158, 63, 32⟩
/-- SPR-6: CBLK AUDIT_COUNT `inactive`. -/
abbrev CBLK.AUDIT_COUNT_inactive : Fld := ⟨0x158, 31, 0⟩
/-- SPR-6: CBLK AUDIT_MISS `copies_audited`. -/
abbrev CBLK.AUDIT_MISS_copies_audited : Fld := ⟨0x160, 63, 32⟩
/-- SPR-6: CBLK AUDIT_MISS `misses`. -/
abbrev CBLK.AUDIT_MISS_misses : Fld := ⟨0x160, 31, 0⟩
/-- SPR-6: CBLK AUDIT_HIST `bin0`. -/
abbrev CBLK.AUDIT_HIST_bin0 : Fld := ⟨0x168, 15, 0⟩
/-- SPR-6: CBLK AUDIT_HIST `bin1`. -/
abbrev CBLK.AUDIT_HIST_bin1 : Fld := ⟨0x168, 31, 16⟩
/-- SPR-6: CBLK AUDIT_HIST `bin2`. -/
abbrev CBLK.AUDIT_HIST_bin2 : Fld := ⟨0x168, 47, 32⟩
/-- SPR-6: CBLK AUDIT_HIST `bin3`. -/
abbrev CBLK.AUDIT_HIST_bin3 : Fld := ⟨0x168, 63, 48⟩
/-- SPR-6: CBLK AUDIT_STS `held`. -/
abbrev CBLK.AUDIT_STS_held : Fld := ⟨0x188, 63, 63⟩
/-- SPR-6: CBLK AUDIT_STS `neurons`. -/
abbrev CBLK.AUDIT_STS_neurons : Fld := ⟨0x188, 44, 32⟩
/-- SPR-6: CBLK AUDIT_STS `first`. -/
abbrev CBLK.AUDIT_STS_first : Fld := ⟨0x188, 31, 0⟩
/-- SPR-7: CBLK SPARSE_WIN_A `kind`. -/
abbrev CBLK.SPARSE_WIN_A_kind : Fld := ⟨0x200, 63, 61⟩
/-- SPR-7: CBLK SPARSE_WIN_A `format`. -/
abbrev CBLK.SPARSE_WIN_A_format : Fld := ⟨0x200, 60, 59⟩
/-- SPR-7: CBLK SPARSE_WIN_A `elem`. -/
abbrev CBLK.SPARSE_WIN_A_elem : Fld := ⟨0x200, 58, 58⟩
/-- SPR-7: CBLK SPARSE_WIN_A `transposable`. -/
abbrev CBLK.SPARSE_WIN_A_transposable : Fld := ⟨0x200, 57, 57⟩
/-- SPR-7: CBLK SPARSE_WIN_A `keep_mask`. -/
abbrev CBLK.SPARSE_WIN_A_keep_mask : Fld := ⟨0x200, 56, 56⟩
/-- SPR-7: CBLK SPARSE_WIN_A `shape`. -/
abbrev CBLK.SPARSE_WIN_A_shape : Fld := ⟨0x200, 55, 47⟩
/-- SPR-7: CBLK SPARSE_WIN_A `base`. -/
abbrev CBLK.SPARSE_WIN_A_base : Fld := ⟨0x200, 39, 0⟩
/-- SPR-7: CBLK SPARSE_WIN_B `aux`. -/
abbrev CBLK.SPARSE_WIN_B_aux : Fld := ⟨0x208, 63, 38⟩
/-- SPR-7: CBLK SPARSE_WIN_B `size`. -/
abbrev CBLK.SPARSE_WIN_B_size : Fld := ⟨0x208, 37, 0⟩
/-- DET-5: CBLK ARITH_MODE `job_id`. -/
abbrev CBLK.ARITH_MODE_job_id : Fld := ⟨0x280, 63, 48⟩
/-- DET-5: CBLK ARITH_MODE `exact`. -/
abbrev CBLK.ARITH_MODE_exact : Fld := ⟨0x280, 0, 0⟩
/-- DET-5: CBLK ARITH_SEED `seed`. -/
abbrev CBLK.ARITH_SEED_seed : Fld := ⟨0x288, 63, 0⟩
/-- CELL-14: CBLK PROG_A `valid`. -/
abbrev CBLK.PROG_A_valid : Fld := ⟨0x1000, 63, 63⟩
/-- CELL-14: CBLK PROG_A `cell_mask`. -/
abbrev CBLK.PROG_A_cell_mask : Fld := ⟨0x1000, 62, 55⟩
/-- CELL-14: CBLK PROG_A `entry`. -/
abbrev CBLK.PROG_A_entry : Fld := ⟨0x1000, 12, 0⟩
/-- CELL-14: CBLK PROG_B `payload_max`. -/
abbrev CBLK.PROG_B_payload_max : Fld := ⟨0x1008, 13, 0⟩
/-- CELL-15: CBLK CELL_STS `late_last`. -/
abbrev CBLK.CELL_STS_late_last : Fld := ⟨0x2000, 63, 48⟩
/-- CELL-15: CBLK CELL_STS `trap`. -/
abbrev CBLK.CELL_STS_trap : Fld := ⟨0x2000, 35, 32⟩
/-- CELL-15: CBLK CELL_STS `state`. -/
abbrev CBLK.CELL_STS_state : Fld := ⟨0x2000, 18, 16⟩
/-- CELL-15: CBLK CELL_STS `pc`. -/
abbrev CBLK.CELL_STS_pc : Fld := ⟨0x2000, 12, 0⟩
/-- CELL-15: CBLK CELL_COUNT `bundles`. -/
abbrev CBLK.CELL_COUNT_bundles : Fld := ⟨0x2008, 63, 16⟩
/-- CELL-15: CBLK CELL_COUNT `dma_done`. -/
abbrev CBLK.CELL_COUNT_dma_done : Fld := ⟨0x2008, 15, 0⟩
/-- R230: CBLK BLK_MAILBOX `value`. -/
abbrev CBLK.BLK_MAILBOX_value : Fld := ⟨0x3000, 63, 0⟩
/-- EVENT bit `overrun` of CBLK. -/
abbrev CBLK.ev_overrun : Nat := 8
/-- EVENT bit `slip` of CBLK. -/
abbrev CBLK.ev_slip : Nat := 9
/-- EVENT bit `trap` of CBLK. -/
abbrev CBLK.ev_trap : Nat := 10
/-- EVENT bit `cell_fault` of CBLK. -/
abbrev CBLK.ev_cell_fault : Nat := 11
/-- EVENT bit `cell_repointed` of CBLK. -/
abbrev CBLK.ev_cell_repointed : Nat := 12
/-- EVENT bit `dma_error` of CBLK. -/
abbrev CBLK.ev_dma_error : Nat := 13
/-- EVENT bit `wq_reject` of CBLK. -/
abbrev CBLK.ev_wq_reject : Nat := 14
/-- EVENT bit `ready_lost` of CBLK. -/
abbrev CBLK.ev_ready_lost : Nat := 15
/-- EVENT bit `spare_exhausted` of CBLK. -/
abbrev CBLK.ev_spare_exhausted : Nat := 16
/-- EVENT bit `sparse_reject` of CBLK. -/
abbrev CBLK.ev_sparse_reject : Nat := 17
/-- EVENT bit `audit_miss` of CBLK. -/
abbrev CBLK.ev_audit_miss : Nat := 18
/-- The registers of unit CBLK. -/
def CBLK.regs : List RegD := [
  ⟨0x100, 8, 1, 8, 1, [⟨31, 24, .rw, 0x40⟩, ⟨17, 16, .rwl, 2⟩, ⟨8, 8, .wo, 0⟩, ⟨1, 1, .rw, 1⟩, ⟨0, 0, .rwl, 1⟩]⟩, -- BLK_CTL
  ⟨0x108, 8, 1, 8, 1, [⟨55, 48, .ro, 0⟩, ⟨47, 40, .ro, 0⟩, ⟨30, 24, .ro, 0⟩, ⟨6, 0, .ro, 0⟩]⟩, -- BLK_STS
  ⟨0x110, 8, 1, 8, 1, [⟨44, 36, .ro, 0⟩, ⟨31, 0, .ro, 0x76543210⟩]⟩, -- CELL_MAP
  ⟨0x118, 8, 1, 8, 1, [⟨63, 32, .rc, 0⟩, ⟨31, 16, .rc, 0⟩, ⟨15, 0, .rc, 0⟩]⟩, -- WQ_COUNT
  ⟨0x120, 8, 1, 8, 1, [⟨63, 32, .rc, 0⟩, ⟨31, 16, .rc, 0⟩, ⟨15, 0, .rc, 0⟩]⟩, -- DMA_COUNT
  ⟨0x128, 8, 1, 8, 1, [⟨63, 48, .rc, 0⟩, ⟨47, 32, .rc, 0⟩, ⟨31, 16, .rc, 0⟩, ⟨15, 0, .rc, 0⟩]⟩, -- ECC_COUNT
  ⟨0x130, 8, 1, 8, 1, [⟨63, 32, .rc, 0⟩, ⟨31, 16, .rc, 0⟩, ⟨15, 0, .rc, 0⟩]⟩, -- LATE
  ⟨0x138, 8, 1, 8, 1, [⟨31, 24, .rwl, 0x19⟩, ⟨15, 12, .rw, 4⟩, ⟨11, 8, .rw, 4⟩, ⟨3, 0, .ro, 4⟩]⟩, -- SPARSE_CTL
  ⟨0x140, 8, 1, 8, 1, [⟨47, 32, .rwl, 0⟩, ⟨31, 0, .rw, 0x3c000000⟩]⟩, -- AUDIT_CTL
  ⟨0x148, 8, 1, 8, 1, [⟨63, 48, .rc, 0⟩, ⟨47, 32, .rc, 0⟩, ⟨31, 0, .rc, 0⟩]⟩, -- SPARSE_COUNT
  ⟨0x150, 8, 1, 8, 1, [⟨63, 32, .rc, 0⟩, ⟨31, 0, .rc, 0⟩]⟩, -- EXPAND_COUNT
  ⟨0x158, 8, 1, 8, 1, [⟨63, 32, .rc, 0⟩, ⟨31, 0, .rc, 0⟩]⟩, -- AUDIT_COUNT
  ⟨0x160, 8, 1, 8, 1, [⟨63, 32, .rc, 0⟩, ⟨31, 0, .rc, 0⟩]⟩, -- AUDIT_MISS
  ⟨0x168, 8, 4, 8, 1, [⟨15, 0, .rc, 0⟩, ⟨31, 16, .rc, 0⟩, ⟨47, 32, .rc, 0⟩, ⟨63, 48, .rc, 0⟩]⟩, -- AUDIT_HIST
  ⟨0x188, 8, 1, 8, 1, [⟨63, 63, .ro, 0⟩, ⟨44, 32, .ro, 0⟩, ⟨31, 0, .ro, 0⟩]⟩, -- AUDIT_STS
  ⟨0x200, 16, 8, 8, 1, [⟨63, 61, .rwl, 0⟩, ⟨60, 59, .rwl, 0⟩, ⟨58, 58, .rwl, 0⟩, ⟨57, 57, .rwl, 0⟩, ⟨56, 56, .rwl, 0⟩, ⟨55, 47, .rwl, 0⟩, ⟨39, 0, .rwl, 0⟩]⟩, -- SPARSE_WIN_A
  ⟨0x208, 16, 8, 8, 1, [⟨63, 38, .rwl, 0⟩, ⟨37, 0, .rwl, 0⟩]⟩, -- SPARSE_WIN_B
  ⟨0x280, 8, 1, 8, 1, [⟨63, 48, .ro, 0⟩, ⟨0, 0, .ro, 0⟩]⟩, -- ARITH_MODE
  ⟨0x288, 8, 1, 8, 1, [⟨63, 0, .ro, 0⟩]⟩, -- ARITH_SEED
  ⟨0x1000, 16, 64, 8, 1, [⟨63, 63, .rwl, 0⟩, ⟨62, 55, .rwl, 0⟩, ⟨12, 0, .rwl, 0⟩]⟩, -- PROG_A
  ⟨0x1008, 16, 64, 8, 1, [⟨13, 0, .rwl, 0⟩]⟩, -- PROG_B
  ⟨0x2000, 16, 8, 8, 1, [⟨63, 48, .ro, 0⟩, ⟨35, 32, .ro, 0⟩, ⟨18, 16, .ro, 6⟩, ⟨12, 0, .ro, 0⟩]⟩, -- CELL_STS
  ⟨0x2008, 16, 8, 8, 1, [⟨63, 16, .rc, 0⟩, ⟨15, 0, .ro, 0⟩]⟩, -- CELL_COUNT
  ⟨0x3000, 8, 16, 8, 1, [⟨63, 0, .rw, 0⟩]⟩ -- BLK_MAILBOX
]

/-- FAB-8: FABMEM FAB_CTL `source_max`. -/
abbrev FABMEM.FAB_CTL_source_max : Fld := ⟨0x100, 42, 32⟩
/-- FAB-8: FABMEM FAB_CTL `fence_timeout`. -/
abbrev FABMEM.FAB_CTL_fence_timeout : Fld := ⟨0x100, 31, 24⟩
/-- FAB-8: FABMEM FAB_CTL `replay_max`. -/
abbrev FABMEM.FAB_CTL_replay_max : Fld := ⟨0x100, 15, 12⟩
/-- FAB-8: FABMEM FAB_CTL `ack_timeout`. -/
abbrev FABMEM.FAB_CTL_ack_timeout : Fld := ⟨0x100, 7, 0⟩
/-- FAB-8: FABMEM FAB_AREA `area`. -/
abbrev FABMEM.FAB_AREA_area : Fld := ⟨0x108, 8, 0⟩
/-- FAB-8: FABMEM HOT_CTL `hot_limit`. -/
abbrev FABMEM.HOT_CTL_hot_limit : Fld := ⟨0x110, 15, 8⟩
/-- FAB-8: FABMEM HOT_CTL `hot_threshold`. -/
abbrev FABMEM.HOT_CTL_hot_threshold : Fld := ⟨0x110, 7, 0⟩
/-- FAB-8: FABMEM LEDGER_STS `peak`. -/
abbrev FABMEM.LEDGER_STS_peak : Fld := ⟨0x118, 46, 32⟩
/-- FAB-8: FABMEM LEDGER_STS `in_use`. -/
abbrev FABMEM.LEDGER_STS_in_use : Fld := ⟨0x118, 14, 0⟩
/-- FAB-8: FABMEM LEDGER_COUNT `replays`. -/
abbrev FABMEM.LEDGER_COUNT_replays : Fld := ⟨0x120, 63, 48⟩
/-- FAB-8: FABMEM LEDGER_COUNT `lost`. -/
abbrev FABMEM.LEDGER_COUNT_lost : Fld := ⟨0x120, 47, 32⟩
/-- FAB-8: FABMEM LEDGER_COUNT `stale`. -/
abbrev FABMEM.LEDGER_COUNT_stale : Fld := ⟨0x120, 31, 16⟩
/-- FAB-8: FABMEM LEDGER_COUNT `seq_errors`. -/
abbrev FABMEM.LEDGER_COUNT_seq_errors : Fld := ⟨0x120, 15, 0⟩
/-- FAB-8: FABMEM HOME_COUNT `duplicates`. -/
abbrev FABMEM.HOME_COUNT_duplicates : Fld := ⟨0x128, 63, 48⟩
/-- FAB-8: FABMEM HOME_COUNT `gaps_held`. -/
abbrev FABMEM.HOME_COUNT_gaps_held : Fld := ⟨0x128, 47, 32⟩
/-- FAB-8: FABMEM HOME_COUNT `gap_discards`. -/
abbrev FABMEM.HOME_COUNT_gap_discards : Fld := ⟨0x128, 31, 16⟩
/-- FAB-8: FABMEM HOME_COUNT `key_faults`. -/
abbrev FABMEM.HOME_COUNT_key_faults : Fld := ⟨0x128, 15, 0⟩
/-- FAB-8: FABMEM HOT_LINE `valid`. -/
abbrev FABMEM.HOT_LINE_valid : Fld := ⟨0x130, 63, 63⟩
/-- FAB-8: FABMEM HOT_LINE `line`. -/
abbrev FABMEM.HOT_LINE_line : Fld := ⟨0x130, 45, 0⟩
/-- FAB-8: FABMEM HOT_COUNT `hot_events`. -/
abbrev FABMEM.HOT_COUNT_hot_events : Fld := ⟨0x138, 63, 32⟩
/-- FAB-8: FABMEM HOT_COUNT `hot_stores`. -/
abbrev FABMEM.HOT_COUNT_hot_stores : Fld := ⟨0x138, 31, 0⟩
/-- FAB-8: FABMEM LOST_MAP `lost`. -/
abbrev FABMEM.LOST_MAP_lost : Fld := ⟨0x140, 63, 0⟩
/-- FAB-8: FABMEM TEARDOWN_STS `active`. -/
abbrev FABMEM.TEARDOWN_STS_active : Fld := ⟨0x148, 63, 63⟩
/-- FAB-8: FABMEM TEARDOWN_STS `job_id`. -/
abbrev FABMEM.TEARDOWN_STS_job_id : Fld := ⟨0x148, 15, 0⟩
/-- FAB-1: FABMEM KEY_A `valid`. -/
abbrev FABMEM.KEY_A_valid : Fld := ⟨0x1000, 63, 63⟩
/-- FAB-1: FABMEM KEY_A `read`. -/
abbrev FABMEM.KEY_A_read : Fld := ⟨0x1000, 62, 62⟩
/-- FAB-1: FABMEM KEY_A `write`. -/
abbrev FABMEM.KEY_A_write : Fld := ⟨0x1000, 61, 61⟩
/-- FAB-1: FABMEM KEY_A `atomic`. -/
abbrev FABMEM.KEY_A_atomic : Fld := ⟨0x1000, 60, 60⟩
/-- FAB-1: FABMEM KEY_A `job_id`. -/
abbrev FABMEM.KEY_A_job_id : Fld := ⟨0x1000, 27, 12⟩
/-- FAB-1: FABMEM KEY_A `generation`. -/
abbrev FABMEM.KEY_A_generation : Fld := ⟨0x1000, 11, 0⟩
/-- FAB-1: FABMEM KEY_B `base`. -/
abbrev FABMEM.KEY_B_base : Fld := ⟨0x1008, 56, 32⟩
/-- FAB-1: FABMEM KEY_B `pages`. -/
abbrev FABMEM.KEY_B_pages : Fld := ⟨0x1008, 24, 0⟩
/-- EVENT bit `key_fault` of FABMEM. -/
abbrev FABMEM.ev_key_fault : Nat := 8
/-- EVENT bit `ledger_full` of FABMEM. -/
abbrev FABMEM.ev_ledger_full : Nat := 9
/-- EVENT bit `entry_lost` of FABMEM. -/
abbrev FABMEM.ev_entry_lost : Nat := 10
/-- EVENT bit `hot_line` of FABMEM. -/
abbrev FABMEM.ev_hot_line : Nat := 11
/-- EVENT bit `seq_error` of FABMEM. -/
abbrev FABMEM.ev_seq_error : Nat := 12
/-- EVENT bit `gap_discard` of FABMEM. -/
abbrev FABMEM.ev_gap_discard : Nat := 13
/-- EVENT bit `teardown_done` of FABMEM. -/
abbrev FABMEM.ev_teardown_done : Nat := 14
/-- EVENT bit `fence_timeout` of FABMEM. -/
abbrev FABMEM.ev_fence_timeout : Nat := 15
/-- The registers of unit FABMEM. -/
def FABMEM.regs : List RegD := [
  ⟨0x100, 8, 1, 8, 1, [⟨42, 32, .rwl, 0x400⟩, ⟨31, 24, .rw, 0x40⟩, ⟨15, 12, .rw, 3⟩, ⟨7, 0, .rw, 8⟩]⟩, -- FAB_CTL
  ⟨0x108, 8, 1, 8, 1, [⟨8, 0, .rwl, 0x17f⟩]⟩, -- FAB_AREA
  ⟨0x110, 8, 1, 8, 1, [⟨15, 8, .rw, 8⟩, ⟨7, 0, .rw, 0x10⟩]⟩, -- HOT_CTL
  ⟨0x118, 8, 1, 8, 1, [⟨46, 32, .rc, 0⟩, ⟨14, 0, .ro, 0⟩]⟩, -- LEDGER_STS
  ⟨0x120, 8, 1, 8, 1, [⟨63, 48, .rc, 0⟩, ⟨47, 32, .rc, 0⟩, ⟨31, 16, .rc, 0⟩, ⟨15, 0, .rc, 0⟩]⟩, -- LEDGER_COUNT
  ⟨0x128, 8, 1, 8, 1, [⟨63, 48, .rc, 0⟩, ⟨47, 32, .rc, 0⟩, ⟨31, 16, .rc, 0⟩, ⟨15, 0, .rc, 0⟩]⟩, -- HOME_COUNT
  ⟨0x130, 8, 1, 8, 1, [⟨63, 63, .w1c, 0⟩, ⟨45, 0, .ro, 0⟩]⟩, -- HOT_LINE
  ⟨0x138, 8, 1, 8, 1, [⟨63, 32, .rc, 0⟩, ⟨31, 0, .rc, 0⟩]⟩, -- HOT_COUNT
  ⟨0x140, 8, 1, 8, 1, [⟨63, 0, .ro, 0⟩]⟩, -- LOST_MAP
  ⟨0x148, 8, 1, 8, 1, [⟨63, 63, .ro, 0⟩, ⟨15, 0, .ro, 0⟩]⟩, -- TEARDOWN_STS
  ⟨0x1000, 16, 4096, 8, 1, [⟨63, 63, .rwl, 0⟩, ⟨62, 62, .rwl, 0⟩, ⟨61, 61, .rwl, 0⟩, ⟨60, 60, .rwl, 0⟩, ⟨27, 12, .rwl, 0⟩, ⟨11, 0, .rwl, 0⟩]⟩, -- KEY_A
  ⟨0x1008, 16, 4096, 8, 1, [⟨56, 32, .rwl, 0⟩, ⟨24, 0, .rwl, 0⟩]⟩ -- KEY_B
]

/-- REG-7: REGION REGION_EVT_MASK `mask`. -/
abbrev REGION.REGION_EVT_MASK_mask : Fld := ⟨0x108, 63, 0⟩
/-- FLT-11: REGION PART_CTL `spad_kib`. -/
abbrev REGION.PART_CTL_spad_kib : Fld := ⟨0x110, 20, 8⟩
/-- FLT-11: REGION PART_CTL `reset_now`. -/
abbrev REGION.PART_CTL_reset_now : Fld := ⟨0x110, 7, 7⟩
/-- FLT-11: REGION PART_CTL `capture_region`. -/
abbrev REGION.PART_CTL_capture_region : Fld := ⟨0x110, 5, 4⟩
/-- FLT-11: REGION PART_CTL `sample_tack`. -/
abbrev REGION.PART_CTL_sample_tack : Fld := ⟨0x110, 3, 3⟩
/-- FLT-11: REGION PART_CTL `sample_trace`. -/
abbrev REGION.PART_CTL_sample_trace : Fld := ⟨0x110, 2, 2⟩
/-- FLT-11: REGION PART_CTL `hang_action`. -/
abbrev REGION.PART_CTL_hang_action : Fld := ⟨0x110, 1, 0⟩
/-- FLT-11: REGION CAPTURE_BUF `cap_log2`. -/
abbrev REGION.CAPTURE_BUF_cap_log2 : Fld := ⟨0x118, 45, 41⟩
/-- FLT-11: REGION CAPTURE_BUF `cap_base`. -/
abbrev REGION.CAPTURE_BUF_cap_base : Fld := ⟨0x118, 36, 0⟩
/-- FLT-11: REGION BLOCK_MAP `phys`. -/
abbrev REGION.BLOCK_MAP_phys : Fld := ⟨0x120, 63, 0⟩
/-- EVENT bit `hang` of REGION. -/
abbrev REGION.ev_hang : Nat := 8
/-- EVENT bit `logic_ue` of REGION. -/
abbrev REGION.ev_logic_ue : Nat := 9
/-- The registers of unit REGION. -/
def REGION.regs : List RegD := [
  ⟨0x108, 8, 1, 8, 1, [⟨63, 0, .rw, 0⟩]⟩, -- REGION_EVT_MASK
  ⟨0x110, 8, 1, 8, 1, [⟨20, 8, .rw, 0x40⟩, ⟨7, 7, .wo, 0⟩, ⟨5, 4, .rw, 0⟩, ⟨3, 3, .rw, 1⟩, ⟨2, 2, .rw, 1⟩, ⟨1, 0, .rw, 2⟩]⟩, -- PART_CTL
  ⟨0x118, 8, 1, 8, 1, [⟨45, 41, .rw, 0⟩, ⟨36, 0, .rw, 0⟩]⟩, -- CAPTURE_BUF
  ⟨0x120, 8, 1, 8, 1, [⟨63, 0, .ro, 0⟩]⟩ -- BLOCK_MAP
]

/-- REG-8: CHIP CHIP_INFO `logical_blocks`. -/
abbrev CHIP.CHIP_INFO_logical_blocks : Fld := ⟨0x100, 47, 40⟩
/-- REG-8: CHIP CHIP_INFO `ports`. -/
abbrev CHIP.CHIP_INFO_ports : Fld := ⟨0x100, 39, 32⟩
/-- REG-8: CHIP CHIP_INFO `stacks`. -/
abbrev CHIP.CHIP_INFO_stacks : Fld := ⟨0x100, 31, 24⟩
/-- REG-8: CHIP CHIP_INFO `stepping`. -/
abbrev CHIP.CHIP_INFO_stepping : Fld := ⟨0x100, 15, 8⟩
/-- REG-8: CHIP CHIP_INFO `grade`. -/
abbrev CHIP.CHIP_INFO_grade : Fld := ⟨0x100, 7, 0⟩
/-- REG-8: CHIP ARITH_ID `arith_id`. -/
abbrev CHIP.ARITH_ID_arith_id : Fld := ⟨0x108, 31, 0⟩
/-- REG-8: CHIP CHIP_SERIAL `serial`. -/
abbrev CHIP.CHIP_SERIAL_serial : Fld := ⟨0x110, 63, 0⟩
/-- REG-8: CHIP POSITION `pod_id`. -/
abbrev CHIP.POSITION_pod_id : Fld := ⟨0x118, 12, 8⟩
/-- REG-8: CHIP POSITION `row`. -/
abbrev CHIP.POSITION_row : Fld := ⟨0x118, 5, 3⟩
/-- REG-8: CHIP POSITION `col`. -/
abbrev CHIP.POSITION_col : Fld := ⟨0x118, 2, 0⟩
/-- REG-8: CHIP EPID_MAP `epid3`. -/
abbrev CHIP.EPID_MAP_epid3 : Fld := ⟨0x120, 47, 36⟩
/-- REG-8: CHIP EPID_MAP `epid2`. -/
abbrev CHIP.EPID_MAP_epid2 : Fld := ⟨0x120, 35, 24⟩
/-- REG-8: CHIP EPID_MAP `epid1`. -/
abbrev CHIP.EPID_MAP_epid1 : Fld := ⟨0x120, 23, 12⟩
/-- REG-8: CHIP EPID_MAP `epid0`. -/
abbrev CHIP.EPID_MAP_epid0 : Fld := ⟨0x120, 11, 0⟩
/-- REG-7: CHIP CHIP_EVT_MASK `mask`. -/
abbrev CHIP.CHIP_EVT_MASK_mask : Fld := ⟨0x130, 63, 0⟩
/-- REG-8: CHIP ACCESS_FAULT `valid`. -/
abbrev CHIP.ACCESS_FAULT_valid : Fld := ⟨0x138, 63, 63⟩
/-- REG-8: CHIP ACCESS_FAULT `status`. -/
abbrev CHIP.ACCESS_FAULT_status : Fld := ⟨0x138, 42, 40⟩
/-- REG-8: CHIP ACCESS_FAULT `address`. -/
abbrev CHIP.ACCESS_FAULT_address : Fld := ⟨0x138, 39, 0⟩
/-- EVENT bit `absent_access` of CHIP. -/
abbrev CHIP.ev_absent_access : Nat := 8
/-- EVENT bit `epid_conflict` of CHIP. -/
abbrev CHIP.ev_epid_conflict : Nat := 9
/-- EVENT bit `event_queue_full` of CHIP. -/
abbrev CHIP.ev_event_queue_full : Nat := 10
/-- EVENT bit `debug_locked_access` of CHIP. -/
abbrev CHIP.ev_debug_locked_access : Nat := 11
/-- The registers of unit CHIP. -/
def CHIP.regs : List RegD := [
  ⟨0x100, 8, 1, 8, 1, [⟨47, 40, .ro, 0⟩, ⟨39, 32, .ro, 0x40⟩, ⟨31, 24, .ro, 8⟩, ⟨15, 8, .ro, 0⟩, ⟨7, 0, .ro, 0⟩]⟩, -- CHIP_INFO
  ⟨0x108, 8, 1, 8, 1, [⟨31, 0, .ro, 0⟩]⟩, -- ARITH_ID
  ⟨0x110, 8, 1, 8, 1, [⟨63, 0, .ro, 0⟩]⟩, -- CHIP_SERIAL
  ⟨0x118, 8, 1, 8, 1, [⟨12, 8, .rwl, 0⟩, ⟨5, 3, .ro, 0⟩, ⟨2, 0, .ro, 0⟩]⟩, -- POSITION
  ⟨0x120, 8, 1, 8, 1, [⟨47, 36, .rwl, 0⟩, ⟨35, 24, .rwl, 0⟩, ⟨23, 12, .rwl, 0⟩, ⟨11, 0, .rwl, 0⟩]⟩, -- EPID_MAP
  ⟨0x130, 8, 1, 8, 1, [⟨63, 0, .rw, 0⟩]⟩, -- CHIP_EVT_MASK
  ⟨0x138, 8, 1, 8, 1, [⟨63, 63, .w1c, 0⟩, ⟨42, 40, .ro, 0⟩, ⟨39, 0, .ro, 0⟩]⟩ -- ACCESS_FAULT
]

/-- BOOT-7: BOOT BOOT_STS `state`. -/
abbrev BOOT.BOOT_STS_state : Fld := ⟨0x100, 63, 60⟩
/-- BOOT-7: BOOT BOOT_STS `slot`. -/
abbrev BOOT.BOOT_STS_slot : Fld := ⟨0x100, 59, 59⟩
/-- BOOT-7: BOOT BOOT_STS `trial`. -/
abbrev BOOT.BOOT_STS_trial : Fld := ⟨0x100, 58, 58⟩
/-- BOOT-7: BOOT BOOT_STS `fail_code`. -/
abbrev BOOT.BOOT_STS_fail_code : Fld := ⟨0x100, 55, 48⟩
/-- BOOT-7: BOOT BOOT_STS `attempts`. -/
abbrev BOOT.BOOT_STS_attempts : Fld := ⟨0x100, 47, 44⟩
/-- BOOT-7: BOOT BOOT_STS `boot_us`. -/
abbrev BOOT.BOOT_STS_boot_us : Fld := ⟨0x100, 31, 0⟩
/-- BOOT-7: BOOT SLOT_STS `sstate`. -/
abbrev BOOT.SLOT_STS_sstate : Fld := ⟨0x108, 63, 62⟩
/-- BOOT-7: BOOT SLOT_STS `sec_version`. -/
abbrev BOOT.SLOT_STS_sec_version : Fld := ⟨0x108, 31, 0⟩
/-- BOOT-7: BOOT SLOT_DIGEST `digest`. -/
abbrev BOOT.SLOT_DIGEST_digest : Fld := ⟨0x118, 63, 0⟩
/-- BOOT-7: BOOT XFER_STS `open`. -/
abbrev BOOT.XFER_STS_open : Fld := ⟨0x178, 63, 63⟩
/-- BOOT-7: BOOT XFER_STS `delta`. -/
abbrev BOOT.XFER_STS_delta : Fld := ⟨0x178, 62, 62⟩
/-- BOOT-7: BOOT XFER_STS `target`. -/
abbrev BOOT.XFER_STS_target : Fld := ⟨0x178, 61, 61⟩
/-- BOOT-7: BOOT XFER_STS `session`. -/
abbrev BOOT.XFER_STS_session : Fld := ⟨0x178, 55, 52⟩
/-- BOOT-7: BOOT XFER_STS `received`. -/
abbrev BOOT.XFER_STS_received : Fld := ⟨0x178, 24, 0⟩
/-- BOOT-7: BOOT XFER_CTL `flash_timeout`. -/
abbrev BOOT.XFER_CTL_flash_timeout : Fld := ⟨0x180, 15, 8⟩
/-- BOOT-7: BOOT XFER_CTL `xfer_timeout`. -/
abbrev BOOT.XFER_CTL_xfer_timeout : Fld := ⟨0x180, 7, 0⟩
/-- BOOT-7: BOOT SCRIPT_COUNT `entries`. -/
abbrev BOOT.SCRIPT_COUNT_entries : Fld := ⟨0x188, 63, 32⟩
/-- BOOT-7: BOOT SCRIPT_COUNT `absent_skipped`. -/
abbrev BOOT.SCRIPT_COUNT_absent_skipped : Fld := ⟨0x188, 31, 16⟩
/-- BOOT-7: BOOT SCRIPT_COUNT `repairs_skipped`. -/
abbrev BOOT.SCRIPT_COUNT_repairs_skipped : Fld := ⟨0x188, 15, 0⟩
/-- EVENT bit `slot_fallback` of BOOT. -/
abbrev BOOT.ev_slot_fallback : Nat := 8
/-- EVENT bit `trial_failed` of BOOT. -/
abbrev BOOT.ev_trial_failed : Nat := 9
/-- EVENT bit `image_committed` of BOOT. -/
abbrev BOOT.ev_image_committed : Nat := 10
/-- EVENT bit `image_rejected` of BOOT. -/
abbrev BOOT.ev_image_rejected : Nat := 11
/-- EVENT bit `confirmed` of BOOT. -/
abbrev BOOT.ev_confirmed : Nat := 12
/-- EVENT bit `repairs_skipped` of BOOT. -/
abbrev BOOT.ev_repairs_skipped : Nat := 13
/-- The registers of unit BOOT. -/
def BOOT.regs : List RegD := [
  ⟨0x100, 8, 1, 8, 1, [⟨63, 60, .ro, 0⟩, ⟨59, 59, .ro, 0⟩, ⟨58, 58, .ro, 0⟩, ⟨55, 48, .ro, 0⟩, ⟨47, 44, .ro, 0⟩, ⟨31, 0, .ro, 0⟩]⟩, -- BOOT_STS
  ⟨0x108, 8, 2, 8, 1, [⟨63, 62, .ro, 0⟩, ⟨31, 0, .ro, 0⟩]⟩, -- SLOT_STS
  ⟨0x118, 48, 2, 8, 6, [⟨63, 0, .ro, 0⟩]⟩, -- SLOT_DIGEST
  ⟨0x178, 8, 1, 8, 1, [⟨63, 63, .ro, 0⟩, ⟨62, 62, .ro, 0⟩, ⟨61, 61, .ro, 0⟩, ⟨55, 52, .ro, 0⟩, ⟨24, 0, .ro, 0⟩]⟩, -- XFER_STS
  ⟨0x180, 8, 1, 8, 1, [⟨15, 8, .rw, 0x64⟩, ⟨7, 0, .rw, 0xa⟩]⟩, -- XFER_CTL
  ⟨0x188, 8, 1, 8, 1, [⟨63, 32, .ro, 0⟩, ⟨31, 16, .ro, 0⟩, ⟨15, 0, .ro, 0⟩]⟩ -- SCRIPT_COUNT
]

/-- BOOT-8: FUSE FUSE_STS `version_floor`. -/
abbrev FUSE.FUSE_STS_version_floor : Fld := ⟨0x100, 55, 48⟩
/-- BOOT-8: FUSE FUSE_STS `key_revoked`. -/
abbrev FUSE.FUSE_STS_key_revoked : Fld := ⟨0x100, 47, 44⟩
/-- BOOT-8: FUSE FUSE_STS `key_present`. -/
abbrev FUSE.FUSE_STS_key_present : Fld := ⟨0x100, 43, 40⟩
/-- BOOT-8: FUSE FUSE_STS `debug_key_present`. -/
abbrev FUSE.FUSE_STS_debug_key_present : Fld := ⟨0x100, 39, 38⟩
/-- BOOT-8: FUSE FUSE_REPAIRS `rows`. -/
abbrev FUSE.FUSE_REPAIRS_rows : Fld := ⟨0x108, 63, 48⟩
/-- BOOT-8: FUSE FUSE_REPAIRS `lanes`. -/
abbrev FUSE.FUSE_REPAIRS_lanes : Fld := ⟨0x108, 47, 32⟩
/-- BOOT-8: FUSE FUSE_REPAIRS `cells`. -/
abbrev FUSE.FUSE_REPAIRS_cells : Fld := ⟨0x108, 31, 24⟩
/-- BOOT-8: FUSE FUSE_REPAIRS `subbanks`. -/
abbrev FUSE.FUSE_REPAIRS_subbanks : Fld := ⟨0x108, 23, 16⟩
/-- BOOT-8: FUSE FUSE_REPAIRS `pcs`. -/
abbrev FUSE.FUSE_REPAIRS_pcs : Fld := ⟨0x108, 15, 8⟩
/-- BOOT-8: FUSE FUSE_REPAIRS `wires`. -/
abbrev FUSE.FUSE_REPAIRS_wires : Fld := ⟨0x108, 7, 0⟩
/-- R478: FUSE IMAGE_KEY_DIGEST `digest`. -/
abbrev FUSE.IMAGE_KEY_DIGEST_digest : Fld := ⟨0x1000, 63, 0⟩
/-- R478: FUSE DEBUG_KEY_DIGEST `digest`. -/
abbrev FUSE.DEBUG_KEY_DIGEST_digest : Fld := ⟨0x10c0, 63, 0⟩
/-- R478: FUSE FUSE_DIGEST `digest`. -/
abbrev FUSE.FUSE_DIGEST_digest : Fld := ⟨0x1120, 63, 0⟩
/-- The registers of unit FUSE. -/
def FUSE.regs : List RegD := [
  ⟨0x100, 8, 1, 8, 1, [⟨55, 48, .ro, 0⟩, ⟨47, 44, .ro, 0⟩, ⟨43, 40, .ro, 0⟩, ⟨39, 38, .ro, 0⟩]⟩, -- FUSE_STS
  ⟨0x108, 8, 1, 8, 1, [⟨63, 48, .ro, 0⟩, ⟨47, 32, .ro, 0⟩, ⟨31, 24, .ro, 0⟩, ⟨23, 16, .ro, 0⟩, ⟨15, 8, .ro, 0⟩, ⟨7, 0, .ro, 0⟩]⟩, -- FUSE_REPAIRS
  ⟨0x1000, 48, 4, 8, 6, [⟨63, 0, .ro, 0⟩]⟩, -- IMAGE_KEY_DIGEST
  ⟨0x10c0, 48, 2, 8, 6, [⟨63, 0, .ro, 0⟩]⟩, -- DEBUG_KEY_DIGEST
  ⟨0x1120, 48, 1, 8, 6, [⟨63, 0, .ro, 0⟩]⟩ -- FUSE_DIGEST
]

/-- BOOT-9: SECURITY SEC_STS `challenge`. -/
abbrev SECURITY.SEC_STS_challenge : Fld := ⟨0x100, 2, 2⟩
/-- BOOT-9: SECURITY SEC_STS `jtag_open`. -/
abbrev SECURITY.SEC_STS_jtag_open : Fld := ⟨0x100, 1, 1⟩
/-- BOOT-9: SECURITY SEC_STS `debug_open`. -/
abbrev SECURITY.SEC_STS_debug_open : Fld := ⟨0x100, 0, 0⟩
/-- BOOT-9: SECURITY SEC_COUNT `attestations`. -/
abbrev SECURITY.SEC_COUNT_attestations : Fld := ⟨0x108, 63, 32⟩
/-- BOOT-9: SECURITY SEC_COUNT `unlock_refused`. -/
abbrev SECURITY.SEC_COUNT_unlock_refused : Fld := ⟨0x108, 31, 16⟩
/-- BOOT-9: SECURITY SEC_COUNT `unlocks`. -/
abbrev SECURITY.SEC_COUNT_unlocks : Fld := ⟨0x108, 15, 0⟩
/-- R479: SECURITY ID_PUBKEY `word`. -/
abbrev SECURITY.ID_PUBKEY_word : Fld := ⟨0x1000, 63, 0⟩
/-- EVENT bit `debug_unlocked` of SECURITY. -/
abbrev SECURITY.ev_debug_unlocked : Nat := 8
/-- EVENT bit `unlock_refused` of SECURITY. -/
abbrev SECURITY.ev_unlock_refused : Nat := 9
/-- EVENT bit `relocked` of SECURITY. -/
abbrev SECURITY.ev_relocked : Nat := 10
/-- The registers of unit SECURITY. -/
def SECURITY.regs : List RegD := [
  ⟨0x100, 8, 1, 8, 1, [⟨2, 2, .ro, 0⟩, ⟨1, 1, .ro, 0⟩, ⟨0, 0, .ro, 0⟩]⟩, -- SEC_STS
  ⟨0x108, 8, 1, 8, 1, [⟨63, 32, .rc, 0⟩, ⟨31, 16, .rc, 0⟩, ⟨15, 0, .rc, 0⟩]⟩, -- SEC_COUNT
  ⟨0x1000, 8, 12, 8, 1, [⟨63, 0, .ro, 0⟩]⟩ -- ID_PUBKEY
]

/-- CLK-4: COURSE COURSE_CTL `overrun_stop`. -/
abbrev COURSE.COURSE_CTL_overrun_stop : Fld := ⟨0x100, 2, 2⟩
/-- CLK-4: COURSE COURSE_CTL `course_len`. -/
abbrev COURSE.COURSE_CTL_course_len : Fld := ⟨0x100, 1, 0⟩
/-- CLK-4: COURSE COURSE_NOW `course`. -/
abbrev COURSE.COURSE_NOW_course : Fld := ⟨0x108, 47, 0⟩
/-- CLK-4: COURSE COURSE_PHASE `s_offset`. -/
abbrev COURSE.COURSE_PHASE_s_offset : Fld := ⟨0x110, 13, 0⟩
/-- CLK-4: COURSE TICK_CTL `backup_master`. -/
abbrev COURSE.TICK_CTL_backup_master : Fld := ⟨0x118, 29, 24⟩
/-- CLK-4: COURSE TICK_CTL `holdover_limit`. -/
abbrev COURSE.TICK_CTL_holdover_limit : Fld := ⟨0x118, 23, 16⟩
/-- CLK-4: COURSE TICK_CTL `marker_timeout`. -/
abbrev COURSE.TICK_CTL_marker_timeout : Fld := ⟨0x118, 15, 8⟩
/-- CLK-4: COURSE TICK_CTL `role`. -/
abbrev COURSE.TICK_CTL_role : Fld := ⟨0x118, 1, 0⟩
/-- CLK-4: COURSE TICK_STS `hops`. -/
abbrev COURSE.TICK_STS_hops : Fld := ⟨0x120, 23, 21⟩
/-- CLK-4: COURSE TICK_STS `len_eff`. -/
abbrev COURSE.TICK_STS_len_eff : Fld := ⟨0x120, 20, 19⟩
/-- CLK-4: COURSE TICK_STS `backup_port`. -/
abbrev COURSE.TICK_STS_backup_port : Fld := ⟨0x120, 18, 13⟩
/-- CLK-4: COURSE TICK_STS `upstream_port`. -/
abbrev COURSE.TICK_STS_upstream_port : Fld := ⟨0x120, 12, 7⟩
/-- CLK-4: COURSE TICK_STS `acting_master`. -/
abbrev COURSE.TICK_STS_acting_master : Fld := ⟨0x120, 2, 2⟩
/-- CLK-4: COURSE TICK_STS `holdover`. -/
abbrev COURSE.TICK_STS_holdover : Fld := ⟨0x120, 1, 1⟩
/-- CLK-4: COURSE TICK_STS `locked`. -/
abbrev COURSE.TICK_STS_locked : Fld := ⟨0x120, 0, 0⟩
/-- CLK-4: COURSE TICK_OFFSET `offset_peak`. -/
abbrev COURSE.TICK_OFFSET_offset_peak : Fld := ⟨0x128, 31, 16⟩
/-- CLK-4: COURSE TICK_OFFSET `offset`. -/
abbrev COURSE.TICK_OFFSET_offset : Fld := ⟨0x128, 15, 0⟩
/-- CLK-4: COURSE OVERRUN_COUNT `slips`. -/
abbrev COURSE.OVERRUN_COUNT_slips : Fld := ⟨0x130, 63, 32⟩
/-- CLK-4: COURSE OVERRUN_COUNT `overruns`. -/
abbrev COURSE.OVERRUN_COUNT_overruns : Fld := ⟨0x130, 31, 0⟩
/-- EVENT bit `marker_lost` of COURSE. -/
abbrev COURSE.ev_marker_lost : Nat := 8
/-- EVENT bit `holdover_entered` of COURSE. -/
abbrev COURSE.ev_holdover_entered : Nat := 9
/-- EVENT bit `holdover_exhausted` of COURSE. -/
abbrev COURSE.ev_holdover_exhausted : Nat := 10
/-- EVENT bit `offset_exceeded` of COURSE. -/
abbrev COURSE.ev_offset_exceeded : Nat := 11
/-- EVENT bit `number_mismatch` of COURSE. -/
abbrev COURSE.ev_number_mismatch : Nat := 12
/-- EVENT bit `late_schedule` of COURSE. -/
abbrev COURSE.ev_late_schedule : Nat := 13
/-- EVENT bit `overrun` of COURSE. -/
abbrev COURSE.ev_overrun : Nat := 14
/-- EVENT bit `len_under_job` of COURSE. -/
abbrev COURSE.ev_len_under_job : Nat := 15
/-- The registers of unit COURSE. -/
def COURSE.regs : List RegD := [
  ⟨0x100, 8, 1, 8, 1, [⟨2, 2, .rw, 1⟩, ⟨1, 0, .rwl, 1⟩]⟩, -- COURSE_CTL
  ⟨0x108, 8, 1, 8, 1, [⟨47, 0, .ro, 0⟩]⟩, -- COURSE_NOW
  ⟨0x110, 8, 1, 8, 1, [⟨13, 0, .ro, 0⟩]⟩, -- COURSE_PHASE
  ⟨0x118, 8, 1, 8, 1, [⟨29, 24, .rw, 0⟩, ⟨23, 16, .rw, 0x40⟩, ⟨15, 8, .rw, 4⟩, ⟨1, 0, .ro, 0⟩]⟩, -- TICK_CTL
  ⟨0x120, 8, 1, 8, 1, [⟨23, 21, .ro, 0⟩, ⟨20, 19, .ro, 1⟩, ⟨18, 13, .ro, 0⟩, ⟨12, 7, .ro, 0⟩, ⟨2, 2, .ro, 0⟩, ⟨1, 1, .ro, 0⟩, ⟨0, 0, .ro, 0⟩]⟩, -- TICK_STS
  ⟨0x128, 8, 1, 8, 1, [⟨31, 16, .rc, 0⟩, ⟨15, 0, .ro, 0⟩]⟩, -- TICK_OFFSET
  ⟨0x130, 8, 1, 8, 1, [⟨63, 32, .rc, 0⟩, ⟨31, 0, .rc, 0⟩]⟩ -- OVERRUN_COUNT
]

/-- FLT-13: PLUMB PLUMB_CTL `decide_miss`. -/
abbrev PLUMB.PLUMB_CTL_decide_miss : Fld := ⟨0x100, 35, 32⟩
/-- FLT-13: PLUMB PLUMB_CTL `confirm`. -/
abbrev PLUMB.PLUMB_CTL_confirm : Fld := ⟨0x100, 27, 24⟩
/-- FLT-13: PLUMB PLUMB_CTL `hold`. -/
abbrev PLUMB.PLUMB_CTL_hold : Fld := ⟨0x100, 23, 8⟩
/-- FLT-13: PLUMB PLUMB_CTL `enable`. -/
abbrev PLUMB.PLUMB_CTL_enable : Fld := ⟨0x100, 0, 0⟩
/-- FLT-13: PLUMB PLUMB_PRESENT `present`. -/
abbrev PLUMB.PLUMB_PRESENT_present : Fld := ⟨0x108, 63, 0⟩
/-- FLT-13: PLUMB PLUMB_STS `epoch`. -/
abbrev PLUMB.PLUMB_STS_epoch : Fld := ⟨0x110, 63, 32⟩
/-- FLT-13: PLUMB PLUMB_STS `coordinator`. -/
abbrev PLUMB.PLUMB_STS_coordinator : Fld := ⟨0x110, 29, 24⟩
/-- FLT-13: PLUMB PLUMB_STS `active`. -/
abbrev PLUMB.PLUMB_STS_active : Fld := ⟨0x110, 0, 0⟩
/-- FLT-13: PLUMB DECLARED `domains`. -/
abbrev PLUMB.DECLARED_domains : Fld := ⟨0x118, 63, 0⟩
/-- FLT-13: PLUMB VIEW_LO `view`. -/
abbrev PLUMB.VIEW_LO_view : Fld := ⟨0x120, 63, 0⟩
/-- FLT-13: PLUMB VIEW_HI `view`. -/
abbrev PLUMB.VIEW_HI_view : Fld := ⟨0x128, 63, 0⟩
/-- FLT-13: PLUMB RESTORE `domains`. -/
abbrev PLUMB.RESTORE_domains : Fld := ⟨0x130, 63, 0⟩
/-- FLT-13: PLUMB PLUMB_COUNT `rounds`. -/
abbrev PLUMB.PLUMB_COUNT_rounds : Fld := ⟨0x138, 63, 32⟩
/-- FLT-13: PLUMB PLUMB_COUNT `decisions`. -/
abbrev PLUMB.PLUMB_COUNT_decisions : Fld := ⟨0x138, 31, 16⟩
/-- FLT-13: PLUMB PLUMB_COUNT `missed`. -/
abbrev PLUMB.PLUMB_COUNT_missed : Fld := ⟨0x138, 15, 0⟩
/-- FLT-13: PLUMB TABLE_DIGEST `digest`. -/
abbrev PLUMB.TABLE_DIGEST_digest : Fld := ⟨0x140, 31, 0⟩
/-- FLT-13: PLUMB POLICY_STOP `valid`. -/
abbrev PLUMB.POLICY_STOP_valid : Fld := ⟨0x148, 63, 63⟩
/-- FLT-13: PLUMB POLICY_STOP `job_id`. -/
abbrev PLUMB.POLICY_STOP_job_id : Fld := ⟨0x148, 15, 0⟩
/-- FLT-13: PLUMB DOM_CTL `valid`. -/
abbrev PLUMB.DOM_CTL_valid : Fld := ⟨0x1000, 63, 63⟩
/-- FLT-13: PLUMB DOM_CTL `kind`. -/
abbrev PLUMB.DOM_CTL_kind : Fld := ⟨0x1000, 62, 60⟩
/-- FLT-13: PLUMB DOM_PYSUMS `pysums`. -/
abbrev PLUMB.DOM_PYSUMS_pysums : Fld := ⟨0x1008, 63, 0⟩
/-- FLT-13: PLUMB DOM_HOSTS `hosts`. -/
abbrev PLUMB.DOM_HOSTS_hosts : Fld := ⟨0x1010, 63, 0⟩
/-- FLT-13: PLUMB DOM_EPID `epids`. -/
abbrev PLUMB.DOM_EPID_epids : Fld := ⟨0x1040, 63, 0⟩
/-- EVENT bit `declared` of PLUMB. -/
abbrev PLUMB.ev_declared : Nat := 8
/-- EVENT bit `restored` of PLUMB. -/
abbrev PLUMB.ev_restored : Nat := 9
/-- EVENT bit `table_mismatch` of PLUMB. -/
abbrev PLUMB.ev_table_mismatch : Nat := 10
/-- EVENT bit `coordinator_changed` of PLUMB. -/
abbrev PLUMB.ev_coordinator_changed : Nat := 11
/-- EVENT bit `split_view` of PLUMB. -/
abbrev PLUMB.ev_split_view : Nat := 12
/-- EVENT bit `policy_stop` of PLUMB. -/
abbrev PLUMB.ev_policy_stop : Nat := 13
/-- EVENT bit `self_declared` of PLUMB. -/
abbrev PLUMB.ev_self_declared : Nat := 14
/-- The registers of unit PLUMB. -/
def PLUMB.regs : List RegD := [
  ⟨0x100, 8, 1, 8, 1, [⟨35, 32, .rwl, 4⟩, ⟨27, 24, .rwl, 4⟩, ⟨23, 8, .rwl, 0x400⟩, ⟨0, 0, .rwl, 1⟩]⟩, -- PLUMB_CTL
  ⟨0x108, 8, 1, 8, 1, [⟨63, 0, .rwl, 0⟩]⟩, -- PLUMB_PRESENT
  ⟨0x110, 8, 1, 8, 1, [⟨63, 32, .ro, 0⟩, ⟨29, 24, .ro, 0⟩, ⟨0, 0, .ro, 0⟩]⟩, -- PLUMB_STS
  ⟨0x118, 8, 1, 8, 1, [⟨63, 0, .ro, 0⟩]⟩, -- DECLARED
  ⟨0x120, 8, 1, 8, 1, [⟨63, 0, .ro, 0⟩]⟩, -- VIEW_LO
  ⟨0x128, 8, 1, 8, 1, [⟨63, 0, .ro, 0⟩]⟩, -- VIEW_HI
  ⟨0x130, 8, 1, 8, 1, [⟨63, 0, .wo, 0⟩]⟩, -- RESTORE
  ⟨0x138, 8, 1, 8, 1, [⟨63, 32, .rc, 0⟩, ⟨31, 16, .rc, 0⟩, ⟨15, 0, .rc, 0⟩]⟩, -- PLUMB_COUNT
  ⟨0x140, 8, 1, 8, 1, [⟨31, 0, .ro, 0⟩]⟩, -- TABLE_DIGEST
  ⟨0x148, 8, 1, 8, 1, [⟨63, 63, .w1c, 0⟩, ⟨15, 0, .ro, 0⟩]⟩, -- POLICY_STOP
  ⟨0x1000, 1024, 64, 8, 1, [⟨63, 63, .rwl, 0⟩, ⟨62, 60, .rwl, 0⟩]⟩, -- DOM_CTL
  ⟨0x1008, 1024, 64, 8, 1, [⟨63, 0, .rwl, 0⟩]⟩, -- DOM_PYSUMS
  ⟨0x1010, 1024, 64, 8, 1, [⟨63, 0, .rwl, 0⟩]⟩, -- DOM_HOSTS
  ⟨0x1040, 1024, 64, 8, 64, [⟨63, 0, .rwl, 0⟩]⟩ -- DOM_EPID
]

/-- WELT-9: HOSTBR HOSTBR_CTL `rto`. -/
abbrev HOSTBR.HOSTBR_CTL_rto : Fld := ⟨0x100, 47, 32⟩
/-- WELT-9: HOSTBR HOSTBR_CTL `retry_max`. -/
abbrev HOSTBR.HOSTBR_CTL_retry_max : Fld := ⟨0x100, 31, 28⟩
/-- WELT-9: HOSTBR HOSTBR_CTL `ack_delay`. -/
abbrev HOSTBR.HOSTBR_CTL_ack_delay : Fld := ⟨0x100, 27, 20⟩
/-- WELT-9: HOSTBR HOSTBR_CTL `event_session`. -/
abbrev HOSTBR.HOSTBR_CTL_event_session : Fld := ⟨0x100, 19, 16⟩
/-- WELT-9: HOSTBR HOSTBR_CTL `udp_port`. -/
abbrev HOSTBR.HOSTBR_CTL_udp_port : Fld := ⟨0x100, 15, 0⟩
/-- WELT-9: HOSTBR HOSTBR_STS `sessions_open`. -/
abbrev HOSTBR.HOSTBR_STS_sessions_open : Fld := ⟨0x108, 47, 32⟩
/-- WELT-9: HOSTBR HOSTBR_STS `sched_pending`. -/
abbrev HOSTBR.HOSTBR_STS_sched_pending : Fld := ⟨0x108, 20, 16⟩
/-- WELT-9: HOSTBR HOSTBR_STS `event_queued`. -/
abbrev HOSTBR.HOSTBR_STS_event_queued : Fld := ⟨0x108, 10, 0⟩
/-- WELT-9: HOSTBR WELT_COUNT `bad_crc`. -/
abbrev HOSTBR.WELT_COUNT_bad_crc : Fld := ⟨0x110, 63, 48⟩
/-- WELT-9: HOSTBR WELT_COUNT `bad_source`. -/
abbrev HOSTBR.WELT_COUNT_bad_source : Fld := ⟨0x110, 47, 32⟩
/-- WELT-9: HOSTBR WELT_COUNT `out_of_window`. -/
abbrev HOSTBR.WELT_COUNT_out_of_window : Fld := ⟨0x110, 31, 16⟩
/-- WELT-9: HOSTBR WELT_COUNT `recv_discards`. -/
abbrev HOSTBR.WELT_COUNT_recv_discards : Fld := ⟨0x110, 15, 0⟩
/-- WELT-9: HOSTBR WELT_RESEND `resends`. -/
abbrev HOSTBR.WELT_RESEND_resends : Fld := ⟨0x118, 31, 0⟩
/-- WELT-10: HOSTBR SESS_CTL `valid`. -/
abbrev HOSTBR.SESS_CTL_valid : Fld := ⟨0x1000, 63, 63⟩
/-- WELT-10: HOSTBR SESS_CTL `v6`. -/
abbrev HOSTBR.SESS_CTL_v6 : Fld := ⟨0x1000, 62, 62⟩
/-- WELT-10: HOSTBR SESS_CTL `pcp`. -/
abbrev HOSTBR.SESS_CTL_pcp : Fld := ⟨0x1000, 61, 59⟩
/-- WELT-10: HOSTBR SESS_CTL `state`. -/
abbrev HOSTBR.SESS_CTL_state : Fld := ⟨0x1000, 55, 54⟩
/-- WELT-10: HOSTBR SESS_CTL `udp_port`. -/
abbrev HOSTBR.SESS_CTL_udp_port : Fld := ⟨0x1000, 15, 0⟩
/-- WELT-10: HOSTBR SESS_MAC `mac`. -/
abbrev HOSTBR.SESS_MAC_mac : Fld := ⟨0x1008, 47, 0⟩
/-- WELT-10: HOSTBR SESS_IP_HI `ip_hi`. -/
abbrev HOSTBR.SESS_IP_HI_ip_hi : Fld := ⟨0x1010, 63, 0⟩
/-- WELT-10: HOSTBR SESS_IP_LO `ip_lo`. -/
abbrev HOSTBR.SESS_IP_LO_ip_lo : Fld := ⟨0x1018, 63, 0⟩
/-- WELT-10: HOSTBR SESS_SEQ `tx_next`. -/
abbrev HOSTBR.SESS_SEQ_tx_next : Fld := ⟨0x1020, 63, 32⟩
/-- WELT-10: HOSTBR SESS_SEQ `rx_next`. -/
abbrev HOSTBR.SESS_SEQ_rx_next : Fld := ⟨0x1020, 31, 0⟩
/-- WELT-10: HOSTBR PEER_CTL `valid`. -/
abbrev HOSTBR.PEER_CTL_valid : Fld := ⟨0x2000, 63, 63⟩
/-- WELT-10: HOSTBR PEER_CTL `v6`. -/
abbrev HOSTBR.PEER_CTL_v6 : Fld := ⟨0x2000, 62, 62⟩
/-- WELT-10: HOSTBR PEER_CTL `pcp`. -/
abbrev HOSTBR.PEER_CTL_pcp : Fld := ⟨0x2000, 61, 59⟩
/-- WELT-10: HOSTBR PEER_CTL `state`. -/
abbrev HOSTBR.PEER_CTL_state : Fld := ⟨0x2000, 55, 54⟩
/-- WELT-10: HOSTBR PEER_CTL `udp_port`. -/
abbrev HOSTBR.PEER_CTL_udp_port : Fld := ⟨0x2000, 15, 0⟩
/-- WELT-10: HOSTBR PEER_MAC `mac`. -/
abbrev HOSTBR.PEER_MAC_mac : Fld := ⟨0x2008, 47, 0⟩
/-- WELT-10: HOSTBR PEER_IP_HI `ip_hi`. -/
abbrev HOSTBR.PEER_IP_HI_ip_hi : Fld := ⟨0x2010, 63, 0⟩
/-- WELT-10: HOSTBR PEER_IP_LO `ip_lo`. -/
abbrev HOSTBR.PEER_IP_LO_ip_lo : Fld := ⟨0x2018, 63, 0⟩
/-- EVENT bit `session_lost` of HOSTBR. -/
abbrev HOSTBR.ev_session_lost : Nat := 8
/-- EVENT bit `session_opened` of HOSTBR. -/
abbrev HOSTBR.ev_session_opened : Nat := 9
/-- EVENT bit `peer_lost` of HOSTBR. -/
abbrev HOSTBR.ev_peer_lost : Nat := 10
/-- EVENT bit `bad_message` of HOSTBR. -/
abbrev HOSTBR.ev_bad_message : Nat := 11
/-- EVENT bit `recv_discard` of HOSTBR. -/
abbrev HOSTBR.ev_recv_discard : Nat := 12
/-- The registers of unit HOSTBR. -/
def HOSTBR.regs : List RegD := [
  ⟨0x100, 8, 1, 8, 1, [⟨47, 32, .rw, 0x14⟩, ⟨31, 28, .rw, 8⟩, ⟨27, 20, .rw, 0x64⟩, ⟨19, 16, .rw, 0⟩, ⟨15, 0, .rw, 0x5745⟩]⟩, -- HOSTBR_CTL
  ⟨0x108, 8, 1, 8, 1, [⟨47, 32, .ro, 0⟩, ⟨20, 16, .ro, 0⟩, ⟨10, 0, .ro, 0⟩]⟩, -- HOSTBR_STS
  ⟨0x110, 8, 1, 8, 1, [⟨63, 48, .rc, 0⟩, ⟨47, 32, .rc, 0⟩, ⟨31, 16, .rc, 0⟩, ⟨15, 0, .rc, 0⟩]⟩, -- WELT_COUNT
  ⟨0x118, 8, 1, 8, 1, [⟨31, 0, .rc, 0⟩]⟩, -- WELT_RESEND
  ⟨0x1000, 64, 16, 8, 1, [⟨63, 63, .rw, 0⟩, ⟨62, 62, .rw, 0⟩, ⟨61, 59, .rw, 0⟩, ⟨55, 54, .ro, 0⟩, ⟨15, 0, .rw, 0⟩]⟩, -- SESS_CTL
  ⟨0x1008, 64, 16, 8, 1, [⟨47, 0, .rw, 0⟩]⟩, -- SESS_MAC
  ⟨0x1010, 64, 16, 8, 1, [⟨63, 0, .rw, 0⟩]⟩, -- SESS_IP_HI
  ⟨0x1018, 64, 16, 8, 1, [⟨63, 0, .rw, 0⟩]⟩, -- SESS_IP_LO
  ⟨0x1020, 64, 16, 8, 1, [⟨63, 32, .ro, 0⟩, ⟨31, 0, .ro, 0⟩]⟩, -- SESS_SEQ
  ⟨0x2000, 32, 256, 8, 1, [⟨63, 63, .rw, 0⟩, ⟨62, 62, .rw, 0⟩, ⟨61, 59, .rw, 0⟩, ⟨55, 54, .ro, 0⟩, ⟨15, 0, .rw, 0⟩]⟩, -- PEER_CTL
  ⟨0x2008, 32, 256, 8, 1, [⟨47, 0, .rw, 0⟩]⟩, -- PEER_MAC
  ⟨0x2010, 32, 256, 8, 1, [⟨63, 0, .rw, 0⟩]⟩, -- PEER_IP_HI
  ⟨0x2018, 32, 256, 8, 1, [⟨63, 0, .rw, 0⟩]⟩ -- PEER_IP_LO
]

/-- WELT-11: HOSTPORT HP_CTL `vid`. -/
abbrev HOSTPORT.HP_CTL_vid : Fld := ⟨0x100, 27, 16⟩
/-- WELT-11: HOSTPORT HP_CTL `macsec_en`. -/
abbrev HOSTPORT.HP_CTL_macsec_en : Fld := ⟨0x100, 11, 11⟩
/-- WELT-11: HOSTPORT HP_CTL `pfc_en`. -/
abbrev HOSTPORT.HP_CTL_pfc_en : Fld := ⟨0x100, 10, 10⟩
/-- WELT-11: HOSTPORT HP_CTL `pmd`. -/
abbrev HOSTPORT.HP_CTL_pmd : Fld := ⟨0x100, 9, 8⟩
/-- WELT-11: HOSTPORT HP_CTL `enable`. -/
abbrev HOSTPORT.HP_CTL_enable : Fld := ⟨0x100, 0, 0⟩
/-- WELT-11: HOSTPORT HP_STS `link_up`. -/
abbrev HOSTPORT.HP_STS_link_up : Fld := ⟨0x108, 1, 1⟩
/-- WELT-11: HOSTPORT HP_STS `an_done`. -/
abbrev HOSTPORT.HP_STS_an_done : Fld := ⟨0x108, 0, 0⟩
/-- WELT-11: HOSTPORT MAC_ADDR `mac`. -/
abbrev HOSTPORT.MAC_ADDR_mac : Fld := ⟨0x110, 47, 0⟩
/-- WELT-11: HOSTPORT IPV4_ADDR `ipv4`. -/
abbrev HOSTPORT.IPV4_ADDR_ipv4 : Fld := ⟨0x118, 31, 0⟩
/-- WELT-11: HOSTPORT IPV6_HI `ipv6_hi`. -/
abbrev HOSTPORT.IPV6_HI_ipv6_hi : Fld := ⟨0x120, 63, 0⟩
/-- WELT-11: HOSTPORT IPV6_LO `ipv6_lo`. -/
abbrev HOSTPORT.IPV6_LO_ipv6_lo : Fld := ⟨0x128, 63, 0⟩
/-- WELT-11: HOSTPORT PFC_CTL `pfc_xoff`. -/
abbrev HOSTPORT.PFC_CTL_pfc_xoff : Fld := ⟨0x130, 47, 32⟩
/-- WELT-11: HOSTPORT PFC_CTL `pfc_xon`. -/
abbrev HOSTPORT.PFC_CTL_pfc_xon : Fld := ⟨0x130, 31, 16⟩
/-- WELT-11: HOSTPORT PFC_CTL `pfc_prio`. -/
abbrev HOSTPORT.PFC_CTL_pfc_prio : Fld := ⟨0x130, 7, 0⟩
/-- WELT-11: HOSTPORT HP_COUNT `fcs_errors`. -/
abbrev HOSTPORT.HP_COUNT_fcs_errors : Fld := ⟨0x138, 63, 48⟩
/-- WELT-11: HOSTPORT HP_COUNT `macsec_discards`. -/
abbrev HOSTPORT.HP_COUNT_macsec_discards : Fld := ⟨0x138, 47, 32⟩
/-- WELT-11: HOSTPORT HP_COUNT `hdr_discards`. -/
abbrev HOSTPORT.HP_COUNT_hdr_discards : Fld := ⟨0x138, 31, 16⟩
/-- WELT-11: HOSTPORT HP_COUNT `rx_overflow`. -/
abbrev HOSTPORT.HP_COUNT_rx_overflow : Fld := ⟨0x138, 15, 0⟩
/-- R388: HOSTPORT HP_TAKEOVER `bank`. -/
abbrev HOSTPORT.HP_TAKEOVER_bank : Fld := ⟨0x148, 56, 56⟩
/-- R388: HOSTPORT HP_TAKEOVER `count`. -/
abbrev HOSTPORT.HP_TAKEOVER_count : Fld := ⟨0x148, 53, 48⟩
/-- R388: HOSTPORT HP_TAKEOVER `start_course`. -/
abbrev HOSTPORT.HP_TAKEOVER_start_course : Fld := ⟨0x148, 47, 0⟩
/-- R388: HOSTPORT HP_GATE_STS `pending`. -/
abbrev HOSTPORT.HP_GATE_STS_pending : Fld := ⟨0x150, 63, 63⟩
/-- R388: HOSTPORT HP_GATE_STS `active_bank`. -/
abbrev HOSTPORT.HP_GATE_STS_active_bank : Fld := ⟨0x150, 56, 56⟩
/-- R388: HOSTPORT HP_GATE_STS `active_count`. -/
abbrev HOSTPORT.HP_GATE_STS_active_count : Fld := ⟨0x150, 53, 48⟩
/-- R388: HOSTPORT HP_GATE_STS `since_course`. -/
abbrev HOSTPORT.HP_GATE_STS_since_course : Fld := ⟨0x150, 47, 0⟩
/-- WELT-11: HOSTPORT MACSEC_CTL `tx_an`. -/
abbrev HOSTPORT.MACSEC_CTL_tx_an : Fld := ⟨0x158, 1, 0⟩
/-- WELT-11: HOSTPORT RX_SCI `sci`. -/
abbrev HOSTPORT.RX_SCI_sci : Fld := ⟨0x160, 63, 0⟩
/-- WELT-11: HOSTPORT REPLAY_WIN `replay_window`. -/
abbrev HOSTPORT.REPLAY_WIN_replay_window : Fld := ⟨0x168, 31, 0⟩
/-- R403: HOSTPORT SAK `word`. -/
abbrev HOSTPORT.SAK_word : Fld := ⟨0x1000, 63, 0⟩
/-- R403: HOSTPORT SALT_HI `salt`. -/
abbrev HOSTPORT.SALT_HI_salt : Fld := ⟨0x1020, 31, 0⟩
/-- R403: HOSTPORT SALT_LO `salt`. -/
abbrev HOSTPORT.SALT_LO_salt : Fld := ⟨0x1028, 63, 0⟩
/-- R403: HOSTPORT SA_CTL `valid`. -/
abbrev HOSTPORT.SA_CTL_valid : Fld := ⟨0x1030, 63, 63⟩
/-- R403: HOSTPORT SA_CTL `ssci`. -/
abbrev HOSTPORT.SA_CTL_ssci : Fld := ⟨0x1030, 31, 0⟩
/-- R403: HOSTPORT SA_PN `pn`. -/
abbrev HOSTPORT.SA_PN_pn : Fld := ⟨0x1038, 63, 0⟩
/-- R403: HOSTPORT HP_GATE `units`. -/
abbrev HOSTPORT.HP_GATE_units : Fld := ⟨0x2000, 31, 8⟩
/-- R403: HOSTPORT HP_GATE `open`. -/
abbrev HOSTPORT.HP_GATE_open : Fld := ⟨0x2000, 7, 0⟩
/-- EVENT bit `link_up` of HOSTPORT. -/
abbrev HOSTPORT.ev_link_up : Nat := 8
/-- EVENT bit `link_down` of HOSTPORT. -/
abbrev HOSTPORT.ev_link_down : Nat := 9
/-- EVENT bit `pn_high` of HOSTPORT. -/
abbrev HOSTPORT.ev_pn_high : Nat := 10
/-- EVENT bit `gate_refused` of HOSTPORT. -/
abbrev HOSTPORT.ev_gate_refused : Nat := 11
/-- EVENT bit `rx_overflow` of HOSTPORT. -/
abbrev HOSTPORT.ev_rx_overflow : Nat := 12
/-- The registers of unit HOSTPORT. -/
def HOSTPORT.regs : List RegD := [
  ⟨0x100, 8, 1, 8, 1, [⟨27, 16, .rw, 0⟩, ⟨11, 11, .rw, 0⟩, ⟨10, 10, .rw, 1⟩, ⟨9, 8, .rw, 0⟩, ⟨0, 0, .rw, 1⟩]⟩, -- HP_CTL
  ⟨0x108, 8, 1, 8, 1, [⟨1, 1, .ro, 0⟩, ⟨0, 0, .ro, 0⟩]⟩, -- HP_STS
  ⟨0x110, 8, 1, 8, 1, [⟨47, 0, .rw, 0⟩]⟩, -- MAC_ADDR
  ⟨0x118, 8, 1, 8, 1, [⟨31, 0, .rw, 0⟩]⟩, -- IPV4_ADDR
  ⟨0x120, 8, 1, 8, 1, [⟨63, 0, .rw, 0⟩]⟩, -- IPV6_HI
  ⟨0x128, 8, 1, 8, 1, [⟨63, 0, .rw, 0⟩]⟩, -- IPV6_LO
  ⟨0x130, 8, 1, 8, 1, [⟨47, 32, .rw, 0x80⟩, ⟨31, 16, .rw, 0x40⟩, ⟨7, 0, .rw, 0xff⟩]⟩, -- PFC_CTL
  ⟨0x138, 8, 1, 8, 1, [⟨63, 48, .rc, 0⟩, ⟨47, 32, .rc, 0⟩, ⟨31, 16, .rc, 0⟩, ⟨15, 0, .rc, 0⟩]⟩, -- HP_COUNT
  ⟨0x148, 8, 1, 8, 1, [⟨56, 56, .rw, 0⟩, ⟨53, 48, .rw, 0⟩, ⟨47, 0, .rw, 0⟩]⟩, -- HP_TAKEOVER
  ⟨0x150, 8, 1, 8, 1, [⟨63, 63, .ro, 0⟩, ⟨56, 56, .ro, 0⟩, ⟨53, 48, .ro, 0⟩, ⟨47, 0, .ro, 0⟩]⟩, -- HP_GATE_STS
  ⟨0x158, 8, 1, 8, 1, [⟨1, 0, .rw, 0⟩]⟩, -- MACSEC_CTL
  ⟨0x160, 8, 1, 8, 1, [⟨63, 0, .rw, 0⟩]⟩, -- RX_SCI
  ⟨0x168, 8, 1, 8, 1, [⟨31, 0, .rw, 0x400⟩]⟩, -- REPLAY_WIN
  ⟨0x1000, 256, 8, 8, 4, [⟨63, 0, .wo, 0⟩]⟩, -- SAK
  ⟨0x1020, 256, 8, 8, 1, [⟨31, 0, .wo, 0⟩]⟩, -- SALT_HI
  ⟨0x1028, 256, 8, 8, 1, [⟨63, 0, .wo, 0⟩]⟩, -- SALT_LO
  ⟨0x1030, 256, 8, 8, 1, [⟨63, 63, .rw, 0⟩, ⟨31, 0, .rw, 0⟩]⟩, -- SA_CTL
  ⟨0x1038, 256, 8, 8, 1, [⟨63, 0, .ro, 0⟩]⟩, -- SA_PN
  ⟨0x2000, 8, 32, 8, 1, [⟨31, 8, .rw, 0⟩, ⟨7, 0, .rw, 0⟩]⟩ -- HP_GATE
]

/-- PWR-3: POWER POLICY_FLOOR `mv_r0`. -/
abbrev POWER.POLICY_FLOOR_mv_r0 : Fld := ⟨0x90, 15, 8⟩
/-- PWR-3: POWER POLICY_FLOOR `mv_r1`. -/
abbrev POWER.POLICY_FLOOR_mv_r1 : Fld := ⟨0x90, 31, 24⟩
/-- PWR-3: POWER POLICY_FLOOR `mv_r2`. -/
abbrev POWER.POLICY_FLOOR_mv_r2 : Fld := ⟨0x90, 47, 40⟩
/-- PWR-3: POWER POLICY_FLOOR `mv_r3`. -/
abbrev POWER.POLICY_FLOOR_mv_r3 : Fld := ⟨0x90, 63, 56⟩
/-- PWR-3: POWER POLICY_FLOOR `fq_r0`. -/
abbrev POWER.POLICY_FLOOR_fq_r0 : Fld := ⟨0x90, 7, 0⟩
/-- PWR-3: POWER POLICY_FLOOR `fq_r1`. -/
abbrev POWER.POLICY_FLOOR_fq_r1 : Fld := ⟨0x90, 23, 16⟩
/-- PWR-3: POWER POLICY_FLOOR `fq_r2`. -/
abbrev POWER.POLICY_FLOOR_fq_r2 : Fld := ⟨0x90, 39, 32⟩
/-- PWR-3: POWER POLICY_FLOOR `fq_r3`. -/
abbrev POWER.POLICY_FLOOR_fq_r3 : Fld := ⟨0x90, 55, 48⟩
/-- PWR-3: POWER POLICY_CEIL `mv_r0`. -/
abbrev POWER.POLICY_CEIL_mv_r0 : Fld := ⟨0x98, 15, 8⟩
/-- PWR-3: POWER POLICY_CEIL `mv_r1`. -/
abbrev POWER.POLICY_CEIL_mv_r1 : Fld := ⟨0x98, 31, 24⟩
/-- PWR-3: POWER POLICY_CEIL `mv_r2`. -/
abbrev POWER.POLICY_CEIL_mv_r2 : Fld := ⟨0x98, 47, 40⟩
/-- PWR-3: POWER POLICY_CEIL `mv_r3`. -/
abbrev POWER.POLICY_CEIL_mv_r3 : Fld := ⟨0x98, 63, 56⟩
/-- PWR-3: POWER POLICY_CEIL `fq_r0`. -/
abbrev POWER.POLICY_CEIL_fq_r0 : Fld := ⟨0x98, 7, 0⟩
/-- PWR-3: POWER POLICY_CEIL `fq_r1`. -/
abbrev POWER.POLICY_CEIL_fq_r1 : Fld := ⟨0x98, 23, 16⟩
/-- PWR-3: POWER POLICY_CEIL `fq_r2`. -/
abbrev POWER.POLICY_CEIL_fq_r2 : Fld := ⟨0x98, 39, 32⟩
/-- PWR-3: POWER POLICY_CEIL `fq_r3`. -/
abbrev POWER.POLICY_CEIL_fq_r3 : Fld := ⟨0x98, 55, 48⟩
/-- PWR-6: POWER PWR_CTL `power_cap`. -/
abbrev POWER.PWR_CTL_power_cap : Fld := ⟨0x100, 47, 32⟩
/-- PWR-6: POWER PWR_CTL `throttle_c`. -/
abbrev POWER.PWR_CTL_throttle_c : Fld := ⟨0x100, 31, 24⟩
/-- PWR-6: POWER PWR_CTL `trip_c`. -/
abbrev POWER.PWR_CTL_trip_c : Fld := ⟨0x100, 23, 16⟩
/-- PWR-6: POWER PWR_STS `vin_mv`. -/
abbrev POWER.PWR_STS_vin_mv : Fld := ⟨0x108, 63, 48⟩
/-- PWR-6: POWER PWR_STS `iin`. -/
abbrev POWER.PWR_STS_iin : Fld := ⟨0x108, 47, 32⟩
/-- PWR-6: POWER PWR_STS `pin_w`. -/
abbrev POWER.PWR_STS_pin_w : Fld := ⟨0x108, 31, 16⟩
/-- PWR-6: POWER ACLK_STS `mv_now0`. -/
abbrev POWER.ACLK_STS_mv_now0 : Fld := ⟨0x110, 15, 8⟩
/-- PWR-6: POWER ACLK_STS `mv_now1`. -/
abbrev POWER.ACLK_STS_mv_now1 : Fld := ⟨0x110, 31, 24⟩
/-- PWR-6: POWER ACLK_STS `mv_now2`. -/
abbrev POWER.ACLK_STS_mv_now2 : Fld := ⟨0x110, 47, 40⟩
/-- PWR-6: POWER ACLK_STS `mv_now3`. -/
abbrev POWER.ACLK_STS_mv_now3 : Fld := ⟨0x110, 63, 56⟩
/-- PWR-6: POWER ACLK_STS `fq_now0`. -/
abbrev POWER.ACLK_STS_fq_now0 : Fld := ⟨0x110, 7, 0⟩
/-- PWR-6: POWER ACLK_STS `fq_now1`. -/
abbrev POWER.ACLK_STS_fq_now1 : Fld := ⟨0x110, 23, 16⟩
/-- PWR-6: POWER ACLK_STS `fq_now2`. -/
abbrev POWER.ACLK_STS_fq_now2 : Fld := ⟨0x110, 39, 32⟩
/-- PWR-6: POWER ACLK_STS `fq_now3`. -/
abbrev POWER.ACLK_STS_fq_now3 : Fld := ⟨0x110, 55, 48⟩
/-- PWR-6: POWER TEMP_STS `base_c0`. -/
abbrev POWER.TEMP_STS_base_c0 : Fld := ⟨0x118, 39, 32⟩
/-- PWR-6: POWER TEMP_STS `base_c1`. -/
abbrev POWER.TEMP_STS_base_c1 : Fld := ⟨0x118, 47, 40⟩
/-- PWR-6: POWER TEMP_STS `base_c2`. -/
abbrev POWER.TEMP_STS_base_c2 : Fld := ⟨0x118, 55, 48⟩
/-- PWR-6: POWER TEMP_STS `base_c3`. -/
abbrev POWER.TEMP_STS_base_c3 : Fld := ⟨0x118, 63, 56⟩
/-- PWR-6: POWER TEMP_STS `compute_c0`. -/
abbrev POWER.TEMP_STS_compute_c0 : Fld := ⟨0x118, 7, 0⟩
/-- PWR-6: POWER TEMP_STS `compute_c1`. -/
abbrev POWER.TEMP_STS_compute_c1 : Fld := ⟨0x118, 15, 8⟩
/-- PWR-6: POWER TEMP_STS `compute_c2`. -/
abbrev POWER.TEMP_STS_compute_c2 : Fld := ⟨0x118, 23, 16⟩
/-- PWR-6: POWER TEMP_STS `compute_c3`. -/
abbrev POWER.TEMP_STS_compute_c3 : Fld := ⟨0x118, 31, 24⟩
/-- PWR-6: POWER TEMP_PEAK `peak_c`. -/
abbrev POWER.TEMP_PEAK_peak_c : Fld := ⟨0x120, 7, 0⟩
/-- PWR-6: POWER OVERRIDE_COUNT `trip_overrides`. -/
abbrev POWER.OVERRIDE_COUNT_trip_overrides : Fld := ⟨0x128, 63, 48⟩
/-- PWR-6: POWER OVERRIDE_COUNT `ocp_overrides`. -/
abbrev POWER.OVERRIDE_COUNT_ocp_overrides : Fld := ⟨0x128, 47, 32⟩
/-- PWR-6: POWER OVERRIDE_COUNT `throttled_us`. -/
abbrev POWER.OVERRIDE_COUNT_throttled_us : Fld := ⟨0x128, 31, 0⟩
/-- PWR-6: POWER ENERGY `energy_mj`. -/
abbrev POWER.ENERGY_energy_mj : Fld := ⟨0x130, 63, 0⟩
/-- PWR-6: POWER DOM_CB `cb`. -/
abbrev POWER.DOM_CB_cb : Fld := ⟨0x138, 63, 0⟩
/-- PWR-6: POWER DOM_PORT `port`. -/
abbrev POWER.DOM_PORT_port : Fld := ⟨0x140, 63, 0⟩
/-- PWR-6: POWER DOM_MISC `host`. -/
abbrev POWER.DOM_MISC_host : Fld := ⟨0x148, 28, 28⟩
/-- PWR-6: POWER DOM_MISC `mtr`. -/
abbrev POWER.DOM_MISC_mtr : Fld := ⟨0x148, 27, 24⟩
/-- PWR-6: POWER DOM_MISC `buf`. -/
abbrev POWER.DOM_MISC_buf : Fld := ⟨0x148, 23, 8⟩
/-- PWR-6: POWER DOM_MISC `stk`. -/
abbrev POWER.DOM_MISC_stk : Fld := ⟨0x148, 7, 0⟩
/-- PWR-6: POWER DOM_STS `on`. -/
abbrev POWER.DOM_STS_on : Fld := ⟨0x150, 63, 0⟩
/-- PWR-6: POWER DOM_REFUSED `valid`. -/
abbrev POWER.DOM_REFUSED_valid : Fld := ⟨0x168, 63, 63⟩
/-- PWR-6: POWER DOM_REFUSED `domain`. -/
abbrev POWER.DOM_REFUSED_domain : Fld := ⟨0x168, 7, 0⟩
/-- PWR-6: POWER LAST_SHUTDOWN `fault_code`. -/
abbrev POWER.LAST_SHUTDOWN_fault_code : Fld := ⟨0x170, 63, 56⟩
/-- EVENT bit `domain_refused` of POWER. -/
abbrev POWER.ev_domain_refused : Nat := 8
/-- EVENT bit `throttling` of POWER. -/
abbrev POWER.ev_throttling : Nat := 9
/-- EVENT bit `trip_override` of POWER. -/
abbrev POWER.ev_trip_override : Nat := 10
/-- EVENT bit `ocp_override` of POWER. -/
abbrev POWER.ev_ocp_override : Nat := 11
/-- EVENT bit `rail_fault` of POWER. -/
abbrev POWER.ev_rail_fault : Nat := 12
/-- EVENT bit `vin_range` of POWER. -/
abbrev POWER.ev_vin_range : Nat := 13
/-- EVENT bit `sensor_fail` of POWER. -/
abbrev POWER.ev_sensor_fail : Nat := 14
/-- The registers of unit POWER. -/
def POWER.regs : List RegD := [
  ⟨0x90, 8, 1, 8, 1, [⟨15, 8, .rw, 0x82⟩, ⟨31, 24, .rw, 0x82⟩, ⟨47, 40, .rw, 0x82⟩, ⟨63, 56, .rw, 0x82⟩, ⟨7, 0, .rw, 0x48⟩, ⟨23, 16, .rw, 0x48⟩, ⟨39, 32, .rw, 0x48⟩, ⟨55, 48, .rw, 0x48⟩]⟩, -- POLICY_FLOOR
  ⟨0x98, 8, 1, 8, 1, [⟨15, 8, .rw, 0xb4⟩, ⟨31, 24, .rw, 0xb4⟩, ⟨47, 40, .rw, 0xb4⟩, ⟨63, 56, .rw, 0xb4⟩, ⟨7, 0, .rw, 0x5a⟩, ⟨23, 16, .rw, 0x5a⟩, ⟨39, 32, .rw, 0x5a⟩, ⟨55, 48, .rw, 0x5a⟩]⟩, -- POLICY_CEIL
  ⟨0x100, 8, 1, 8, 1, [⟨47, 32, .rw, 0x672⟩, ⟨31, 24, .rw, 0x5f⟩, ⟨23, 16, .rw, 0x69⟩]⟩, -- PWR_CTL
  ⟨0x108, 8, 1, 8, 1, [⟨63, 48, .ro, 0⟩, ⟨47, 32, .ro, 0⟩, ⟨31, 16, .ro, 0⟩]⟩, -- PWR_STS
  ⟨0x110, 8, 1, 8, 1, [⟨15, 8, .ro, 0⟩, ⟨31, 24, .ro, 0⟩, ⟨47, 40, .ro, 0⟩, ⟨63, 56, .ro, 0⟩, ⟨7, 0, .ro, 0⟩, ⟨23, 16, .ro, 0⟩, ⟨39, 32, .ro, 0⟩, ⟨55, 48, .ro, 0⟩]⟩, -- ACLK_STS
  ⟨0x118, 8, 1, 8, 1, [⟨39, 32, .ro, 0⟩, ⟨47, 40, .ro, 0⟩, ⟨55, 48, .ro, 0⟩, ⟨63, 56, .ro, 0⟩, ⟨7, 0, .ro, 0⟩, ⟨15, 8, .ro, 0⟩, ⟨23, 16, .ro, 0⟩, ⟨31, 24, .ro, 0⟩]⟩, -- TEMP_STS
  ⟨0x120, 8, 1, 8, 1, [⟨7, 0, .rc, 0⟩]⟩, -- TEMP_PEAK
  ⟨0x128, 8, 1, 8, 1, [⟨63, 48, .rc, 0⟩, ⟨47, 32, .rc, 0⟩, ⟨31, 0, .rc, 0⟩]⟩, -- OVERRIDE_COUNT
  ⟨0x130, 8, 1, 8, 1, [⟨63, 0, .ro, 0⟩]⟩, -- ENERGY
  ⟨0x138, 8, 1, 8, 1, [⟨63, 0, .rw, 0⟩]⟩, -- DOM_CB
  ⟨0x140, 8, 1, 8, 1, [⟨63, 0, .rw, 0xffffffffffffffff⟩]⟩, -- DOM_PORT
  ⟨0x148, 8, 1, 8, 1, [⟨28, 28, .ro, 1⟩, ⟨27, 24, .rw, 0xf⟩, ⟨23, 8, .rw, 0xffff⟩, ⟨7, 0, .rw, 0xff⟩]⟩, -- DOM_MISC
  ⟨0x150, 8, 3, 8, 1, [⟨63, 0, .ro, 0⟩]⟩, -- DOM_STS
  ⟨0x168, 8, 1, 8, 1, [⟨63, 63, .w1c, 0⟩, ⟨7, 0, .ro, 0⟩]⟩, -- DOM_REFUSED
  ⟨0x170, 8, 1, 8, 1, [⟨63, 56, .ro, 0⟩]⟩ -- LAST_SHUTDOWN
]

/-- DET-6: AWL AWL_CTL `tolerance`. -/
abbrev AWL.AWL_CTL_tolerance : Fld := ⟨0x100, 39, 24⟩
/-- DET-6: AWL AWL_CTL `stop_on_diverge`. -/
abbrev AWL.AWL_CTL_stop_on_diverge : Fld := ⟨0x100, 5, 5⟩
/-- DET-6: AWL AWL_CTL `wrap`. -/
abbrev AWL.AWL_CTL_wrap : Fld := ⟨0x100, 4, 4⟩
/-- DET-6: AWL AWL_CTL `mode`. -/
abbrev AWL.AWL_CTL_mode : Fld := ⟨0x100, 1, 0⟩
/-- DET-6: AWL AWL_START `start_course`. -/
abbrev AWL.AWL_START_start_course : Fld := ⟨0x108, 47, 0⟩
/-- DET-6: AWL AWL_STOP `stop_course`. -/
abbrev AWL.AWL_STOP_stop_course : Fld := ⟨0x110, 47, 0⟩
/-- DET-6: AWL AWL_SEL `tc_mask`. -/
abbrev AWL.AWL_SEL_tc_mask : Fld := ⟨0x118, 63, 56⟩
/-- DET-6: AWL AWL_SEL `kind_mask`. -/
abbrev AWL.AWL_SEL_kind_mask : Fld := ⟨0x118, 55, 40⟩
/-- DET-6: AWL AWL_SEL `sources`. -/
abbrev AWL.AWL_SEL_sources : Fld := ⟨0x118, 4, 0⟩
/-- DET-6: AWL AWL_PORTS `ports`. -/
abbrev AWL.AWL_PORTS_ports : Fld := ⟨0x120, 63, 0⟩
/-- DET-6: AWL AWL_JOB `job_filter`. -/
abbrev AWL.AWL_JOB_job_filter : Fld := ⟨0x128, 16, 16⟩
/-- DET-6: AWL AWL_JOB `job_id`. -/
abbrev AWL.AWL_JOB_job_id : Fld := ⟨0x128, 15, 0⟩
/-- DET-6: AWL AWL_RING `ring_region`. -/
abbrev AWL.AWL_RING_ring_region : Fld := ⟨0x130, 45, 44⟩
/-- DET-6: AWL AWL_RING `size_log2`. -/
abbrev AWL.AWL_RING_size_log2 : Fld := ⟨0x130, 42, 37⟩
/-- DET-6: AWL AWL_RING `base`. -/
abbrev AWL.AWL_RING_base : Fld := ⟨0x130, 36, 0⟩
/-- DET-6: AWL AWL_REF `ref_region`. -/
abbrev AWL.AWL_REF_ref_region : Fld := ⟨0x138, 45, 44⟩
/-- DET-6: AWL AWL_REF `ref_base`. -/
abbrev AWL.AWL_REF_ref_base : Fld := ⟨0x138, 36, 0⟩
/-- DET-6: AWL AWL_REF_LEN `ref_records`. -/
abbrev AWL.AWL_REF_LEN_ref_records : Fld := ⟨0x140, 47, 0⟩
/-- DET-6: AWL AWL_REF_COURSE `ref_course`. -/
abbrev AWL.AWL_REF_COURSE_ref_course : Fld := ⟨0x148, 47, 0⟩
/-- DET-6: AWL AWL_WPTR `written`. -/
abbrev AWL.AWL_WPTR_written : Fld := ⟨0x150, 47, 0⟩
/-- DET-6: AWL AWL_RPTR `matched`. -/
abbrev AWL.AWL_RPTR_matched : Fld := ⟨0x158, 47, 0⟩
/-- DET-6: AWL AWL_COUNT `lost`. -/
abbrev AWL.AWL_COUNT_lost : Fld := ⟨0x160, 63, 32⟩
/-- DET-6: AWL AWL_COUNT `timing_diffs`. -/
abbrev AWL.AWL_COUNT_timing_diffs : Fld := ⟨0x160, 31, 0⟩
/-- DET-6: AWL AWL_DIVERGE `valid`. -/
abbrev AWL.AWL_DIVERGE_valid : Fld := ⟨0x168, 63, 63⟩
/-- DET-6: AWL AWL_DIVERGE `ref_index`. -/
abbrev AWL.AWL_DIVERGE_ref_index : Fld := ⟨0x168, 47, 0⟩
/-- DET-6: AWL AWL_DIVERGE_NEW `new_index`. -/
abbrev AWL.AWL_DIVERGE_NEW_new_index : Fld := ⟨0x170, 47, 0⟩
/-- EVENT bit `stopped` of AWL. -/
abbrev AWL.ev_stopped : Nat := 8
/-- EVENT bit `lost_records` of AWL. -/
abbrev AWL.ev_lost_records : Nat := 9
/-- EVENT bit `ring_full` of AWL. -/
abbrev AWL.ev_ring_full : Nat := 10
/-- EVENT bit `diverged` of AWL. -/
abbrev AWL.ev_diverged : Nat := 11
/-- EVENT bit `timing_diff` of AWL. -/
abbrev AWL.ev_timing_diff : Nat := 12
/-- EVENT bit `start_refused` of AWL. -/
abbrev AWL.ev_start_refused : Nat := 13
/-- EVENT bit `ring_lost` of AWL. -/
abbrev AWL.ev_ring_lost : Nat := 14
/-- EVENT bit `window_exceeded` of AWL. -/
abbrev AWL.ev_window_exceeded : Nat := 15
/-- The registers of unit AWL. -/
def AWL.regs : List RegD := [
  ⟨0x100, 8, 1, 8, 1, [⟨39, 24, .rw, 0x40⟩, ⟨5, 5, .rw, 1⟩, ⟨4, 4, .rw, 0⟩, ⟨1, 0, .rw, 0⟩]⟩, -- AWL_CTL
  ⟨0x108, 8, 1, 8, 1, [⟨47, 0, .rw, 0⟩]⟩, -- AWL_START
  ⟨0x110, 8, 1, 8, 1, [⟨47, 0, .rw, 0⟩]⟩, -- AWL_STOP
  ⟨0x118, 8, 1, 8, 1, [⟨63, 56, .rw, 0xff⟩, ⟨55, 40, .rw, 0xffff⟩, ⟨4, 0, .rw, 0⟩]⟩, -- AWL_SEL
  ⟨0x120, 8, 1, 8, 1, [⟨63, 0, .rw, 0⟩]⟩, -- AWL_PORTS
  ⟨0x128, 8, 1, 8, 1, [⟨16, 16, .rw, 0⟩, ⟨15, 0, .rw, 0⟩]⟩, -- AWL_JOB
  ⟨0x130, 8, 1, 8, 1, [⟨45, 44, .rw, 0⟩, ⟨42, 37, .rw, 0x10⟩, ⟨36, 0, .rw, 0⟩]⟩, -- AWL_RING
  ⟨0x138, 8, 1, 8, 1, [⟨45, 44, .rw, 0⟩, ⟨36, 0, .rw, 0⟩]⟩, -- AWL_REF
  ⟨0x140, 8, 1, 8, 1, [⟨47, 0, .rw, 0⟩]⟩, -- AWL_REF_LEN
  ⟨0x148, 8, 1, 8, 1, [⟨47, 0, .rw, 0⟩]⟩, -- AWL_REF_COURSE
  ⟨0x150, 8, 1, 8, 1, [⟨47, 0, .ro, 0⟩]⟩, -- AWL_WPTR
  ⟨0x158, 8, 1, 8, 1, [⟨47, 0, .ro, 0⟩]⟩, -- AWL_RPTR
  ⟨0x160, 8, 1, 8, 1, [⟨63, 32, .rc, 0⟩, ⟨31, 0, .rc, 0⟩]⟩, -- AWL_COUNT
  ⟨0x168, 8, 1, 8, 1, [⟨63, 63, .w1c, 0⟩, ⟨47, 0, .ro, 0⟩]⟩, -- AWL_DIVERGE
  ⟨0x170, 8, 1, 8, 1, [⟨47, 0, .ro, 0⟩]⟩ -- AWL_DIVERGE_NEW
]

/-- FLT-12: REPOINT RP_CTL `proactive_en`. -/
abbrev REPOINT.RP_CTL_proactive_en : Fld := ⟨0x100, 0, 0⟩
/-- FLT-12: REPOINT WEAR_LIMIT `wire_limit`. -/
abbrev REPOINT.WEAR_LIMIT_wire_limit : Fld := ⟨0x108, 39, 32⟩
/-- FLT-12: REPOINT WEAR_LIMIT `bank_limit`. -/
abbrev REPOINT.WEAR_LIMIT_bank_limit : Fld := ⟨0x108, 31, 24⟩
/-- FLT-12: REPOINT WEAR_LIMIT `pc_limit`. -/
abbrev REPOINT.WEAR_LIMIT_pc_limit : Fld := ⟨0x108, 23, 16⟩
/-- FLT-12: REPOINT WEAR_LIMIT `age_limit`. -/
abbrev REPOINT.WEAR_LIMIT_age_limit : Fld := ⟨0x108, 15, 8⟩
/-- FLT-12: REPOINT WEAR_LIMIT `lane_limit`. -/
abbrev REPOINT.WEAR_LIMIT_lane_limit : Fld := ⟨0x108, 7, 0⟩
/-- FLT-12: REPOINT RP_STS `queued`. -/
abbrev REPOINT.RP_STS_queued : Fld := ⟨0x110, 54, 48⟩
/-- FLT-12: REPOINT RP_STS `last_course`. -/
abbrev REPOINT.RP_STS_last_course : Fld := ⟨0x110, 47, 0⟩
/-- FLT-12: REPOINT RP_COUNT `hard`. -/
abbrev REPOINT.RP_COUNT_hard : Fld := ⟨0x118, 63, 48⟩
/-- FLT-12: REPOINT RP_COUNT `proactive`. -/
abbrev REPOINT.RP_COUNT_proactive : Fld := ⟨0x118, 47, 32⟩
/-- FLT-12: REPOINT RP_COUNT `refused`. -/
abbrev REPOINT.RP_COUNT_refused : Fld := ⟨0x118, 31, 16⟩
/-- FLT-12: REPOINT RP_COUNT `dropped`. -/
abbrev REPOINT.RP_COUNT_dropped : Fld := ⟨0x118, 15, 0⟩
/-- FLT-12: REPOINT PART_STS `in_reset0`. -/
abbrev REPOINT.PART_STS_in_reset0 : Fld := ⟨0x120, 15, 15⟩
/-- FLT-12: REPOINT PART_STS `in_reset1`. -/
abbrev REPOINT.PART_STS_in_reset1 : Fld := ⟨0x120, 31, 31⟩
/-- FLT-12: REPOINT PART_STS `in_reset2`. -/
abbrev REPOINT.PART_STS_in_reset2 : Fld := ⟨0x120, 47, 47⟩
/-- FLT-12: REPOINT PART_STS `in_reset3`. -/
abbrev REPOINT.PART_STS_in_reset3 : Fld := ⟨0x120, 63, 63⟩
/-- FLT-12: REPOINT PART_STS `step0`. -/
abbrev REPOINT.PART_STS_step0 : Fld := ⟨0x120, 14, 12⟩
/-- FLT-12: REPOINT PART_STS `step1`. -/
abbrev REPOINT.PART_STS_step1 : Fld := ⟨0x120, 30, 28⟩
/-- FLT-12: REPOINT PART_STS `step2`. -/
abbrev REPOINT.PART_STS_step2 : Fld := ⟨0x120, 46, 44⟩
/-- FLT-12: REPOINT PART_STS `step3`. -/
abbrev REPOINT.PART_STS_step3 : Fld := ⟨0x120, 62, 60⟩
/-- FLT-12: REPOINT PART_STS `resets0`. -/
abbrev REPOINT.PART_STS_resets0 : Fld := ⟨0x120, 11, 0⟩
/-- FLT-12: REPOINT PART_STS `resets1`. -/
abbrev REPOINT.PART_STS_resets1 : Fld := ⟨0x120, 27, 16⟩
/-- FLT-12: REPOINT PART_STS `resets2`. -/
abbrev REPOINT.PART_STS_resets2 : Fld := ⟨0x120, 43, 32⟩
/-- FLT-12: REPOINT PART_STS `resets3`. -/
abbrev REPOINT.PART_STS_resets3 : Fld := ⟨0x120, 59, 48⟩
/-- FLT-12: REPOINT LAST_HANG `fault_code`. -/
abbrev REPOINT.LAST_HANG_fault_code : Fld := ⟨0x128, 63, 56⟩
/-- FLT-12: REPOINT LAST_HANG `region`. -/
abbrev REPOINT.LAST_HANG_region : Fld := ⟨0x128, 55, 54⟩
/-- FLT-12: REPOINT LAST_HANG `course`. -/
abbrev REPOINT.LAST_HANG_course : Fld := ⟨0x128, 47, 0⟩
/-- FLT-12: REPOINT LAST_CAPTURE `sample_bytes`. -/
abbrev REPOINT.LAST_CAPTURE_sample_bytes : Fld := ⟨0x130, 63, 32⟩
/-- FLT-12: REPOINT LAST_CAPTURE `stored_bytes`. -/
abbrev REPOINT.LAST_CAPTURE_stored_bytes : Fld := ⟨0x130, 31, 0⟩
/-- FLT-12: REPOINT LOG_STS `entries`. -/
abbrev REPOINT.LOG_STS_entries : Fld := ⟨0x138, 9, 0⟩
/-- FLT-12a: REPOINT REPAIR_LOG `kind`. -/
abbrev REPOINT.REPAIR_LOG_kind : Fld := ⟨0x1000, 63, 60⟩
/-- FLT-12a: REPOINT REPAIR_LOG `region`. -/
abbrev REPOINT.REPAIR_LOG_region : Fld := ⟨0x1000, 59, 58⟩
/-- FLT-12a: REPOINT REPAIR_LOG `unit`. -/
abbrev REPOINT.REPAIR_LOG_unit : Fld := ⟨0x1000, 57, 52⟩
/-- FLT-12a: REPOINT REPAIR_LOG `hard`. -/
abbrev REPOINT.REPAIR_LOG_hard : Fld := ⟨0x1000, 51, 51⟩
/-- FLT-12a: REPOINT REPAIR_LOG `rx`. -/
abbrev REPOINT.REPAIR_LOG_rx : Fld := ⟨0x1000, 48, 48⟩
/-- FLT-12a: REPOINT REPAIR_LOG `element`. -/
abbrev REPOINT.REPAIR_LOG_element : Fld := ⟨0x1000, 47, 0⟩
/-- EVENT bit `repointed` of REPOINT. -/
abbrev REPOINT.ev_repointed : Nat := 8
/-- EVENT bit `spare_exhausted` of REPOINT. -/
abbrev REPOINT.ev_spare_exhausted : Nat := 9
/-- EVENT bit `log_full` of REPOINT. -/
abbrev REPOINT.ev_log_full : Nat := 10
/-- EVENT bit `wear_alarm` of REPOINT. -/
abbrev REPOINT.ev_wear_alarm : Nat := 11
/-- EVENT bit `partition_reset` of REPOINT. -/
abbrev REPOINT.ev_partition_reset : Nat := 12
/-- EVENT bit `capture_done` of REPOINT. -/
abbrev REPOINT.ev_capture_done : Nat := 13
/-- EVENT bit `capture_truncated` of REPOINT. -/
abbrev REPOINT.ev_capture_truncated : Nat := 14
/-- The registers of unit REPOINT. -/
def REPOINT.regs : List RegD := [
  ⟨0x100, 8, 1, 8, 1, [⟨0, 0, .rw, 1⟩]⟩, -- RP_CTL
  ⟨0x108, 8, 1, 8, 1, [⟨39, 32, .rw, 8⟩, ⟨31, 24, .rw, 0x10⟩, ⟨23, 16, .rw, 0x40⟩, ⟨15, 8, .rw, 0x32⟩, ⟨7, 0, .rw, 0x40⟩]⟩, -- WEAR_LIMIT
  ⟨0x110, 8, 1, 8, 1, [⟨54, 48, .ro, 0⟩, ⟨47, 0, .ro, 0⟩]⟩, -- RP_STS
  ⟨0x118, 8, 1, 8, 1, [⟨63, 48, .rc, 0⟩, ⟨47, 32, .rc, 0⟩, ⟨31, 16, .rc, 0⟩, ⟨15, 0, .rc, 0⟩]⟩, -- RP_COUNT
  ⟨0x120, 8, 1, 8, 1, [⟨15, 15, .ro, 0⟩, ⟨31, 31, .ro, 0⟩, ⟨47, 47, .ro, 0⟩, ⟨63, 63, .ro, 0⟩, ⟨14, 12, .ro, 0⟩, ⟨30, 28, .ro, 0⟩, ⟨46, 44, .ro, 0⟩, ⟨62, 60, .ro, 0⟩, ⟨11, 0, .ro, 0⟩, ⟨27, 16, .ro, 0⟩, ⟨43, 32, .ro, 0⟩, ⟨59, 48, .ro, 0⟩]⟩, -- PART_STS
  ⟨0x128, 8, 1, 8, 1, [⟨63, 56, .ro, 0⟩, ⟨55, 54, .ro, 0⟩, ⟨47, 0, .ro, 0⟩]⟩, -- LAST_HANG
  ⟨0x130, 8, 1, 8, 1, [⟨63, 32, .ro, 0⟩, ⟨31, 0, .ro, 0⟩]⟩, -- LAST_CAPTURE
  ⟨0x138, 8, 1, 8, 1, [⟨9, 0, .ro, 0⟩]⟩, -- LOG_STS
  ⟨0x1000, 8, 512, 8, 1, [⟨63, 60, .ro, 0⟩, ⟨59, 58, .ro, 0⟩, ⟨57, 52, .ro, 0⟩, ⟨51, 51, .ro, 0⟩, ⟨48, 48, .ro, 0⟩, ⟨47, 0, .ro, 0⟩]⟩ -- REPAIR_LOG
]

/-- EVENT bits that exist on a unit's page: the common events [6:0] (Table REG-5) and the unit's own. -/
def eventBits : UnitType → Nat
  | .port => 0xfdff7f
  | .xbar => 0x3ff7f
  | .mortar => 0x3ff7f
  | .combine => 0x17f
  | .sort => 0x77f
  | .cobbler => 0x1f7f
  | .bufbank => 0x17f
  | .memblk => 0xff7f
  | .d2d => 0x37f
  | .cblk => 0x7ff7f
  | .fabmem => 0xff7f
  | .region => 0x37f
  | .chip => 0xf7f
  | .boot => 0x3f7f
  | .fuse => 0x7f
  | .security => 0x77f
  | .course => 0xff7f
  | .plumb => 0x7f7f
  | .hostbr => 0x1f7f
  | .hostport => 0x1f7f
  | .power => 0x7f7f
  | .awl => 0xff7f
  | .repoint => 0x7f7f

/-- The registers from 0x100 and the further pages of each unit type. -/
def unitRegs : UnitType → List RegD
  | .port => PORT.regs
  | .xbar => XBAR.regs
  | .mortar => MORTAR.regs
  | .combine => COMBINE.regs
  | .sort => SORT.regs
  | .cobbler => COBBLER.regs
  | .bufbank => BUFBANK.regs
  | .memblk => MEMBLK.regs
  | .d2d => D2D.regs
  | .cblk => CBLK.regs
  | .fabmem => FABMEM.regs
  | .region => REGION.regs
  | .chip => CHIP.regs
  | .boot => BOOT.regs
  | .fuse => FUSE.regs
  | .security => SECURITY.regs
  | .course => COURSE.regs
  | .plumb => PLUMB.regs
  | .hostbr => HOSTBR.regs
  | .hostport => HOSTPORT.regs
  | .power => POWER.regs
  | .awl => AWL.regs
  | .repoint => REPOINT.regs

end Sys2Proof.Machine
end

