-- ==== Sys2Proof/Machine/State.lean ====
section
/-! DEFINITION. The state of the Pysum as plain data: the queue of waiting commands and the chip. Registers live in one
sparse register file, memories in one sparse byte map; state that the spec gives a unit and no register shows is held in
one structure per unit kind. -/
namespace Sys2Proof.Machine

/-- A sparse map: keys strictly rising; a key that is not listed has the reset value. -/
abbrev Tab (α : Type) := List (Nat × α)

/-- Why the machine stops. -/
inductive Fault where
  /-- Raised by a register access to an unlocked debug page (R474): such a page exists and the spec does not lay it out.
  Safe: the model stops where the hardware goes on. -/
  | debugPageLayout
  deriving DecidableEq, Repr

/-- Why the model has no meaning for a command. -/
inductive Refusal where
  /-- Raised by `exec` for a command that is not modelled. Safe. -/
  | notModelled (mnemonic : String)
  deriving DecidableEq, Repr

/-! ### Identity, fuses, straps and pins -/

/-- The grades of Table SCOPE-1. -/
inductive Grade where
  | a | b
  deriving DecidableEq, Repr, Inhabited

/-- The steppings of R3. -/
inductive Stepping where
  | a1 | b0
  deriving DecidableEq, Repr, Inhabited

/-- Fuse contents (Table BOOT-4), written only at manufacture. -/
structure Fuses where
  grade : Grade := .a
  stepping : Stepping := .b0
  serial : BitVec 64 := 0
  identitySecret : BitVec 384 := 0
  imageKeys : List (BitVec 384) := [0, 0, 0, 0]
  keyPresent : BitVec 4 := 0
  keyRevoked : BitVec 4 := 0
  debugKeys : List (BitVec 384) := [0, 0]
  debugKeyPresent : BitVec 2 := 0
  versionFloor : BitVec 8 := 0
  /-- Fused repairs, in the layout of Table FLT-12a. -/
  repairs : List (BitVec 64) := []
  /-- Physical block of each logical block of each region, 4 bits a block (BLOCK_MAP). -/
  blockMap : List (BitVec 64) := [0xFEDCBA9876543210, 0xFEDCBA9876543210, 0xFEDCBA9876543210, 0xFEDCBA9876543210]
  /-- Ageing oscillator baselines, per physical cell 9 * block + cell, and voltage margin targets, per die and frequency step
  256 * die + step (Table BOOT-4). -/
  ringBase : Tab Nat := []
  marginTarget : Tab Nat := []
  /-- Did every fuse row's CRC check (R452)? -/
  crcOk : Bool := true
  deriving DecidableEq, Repr, Inhabited

/-- The strap pins (R483, R484): their level now, and the three samples of the STRAPS state so far. -/
structure Straps where
  mode : BitVec 3 := 0
  pos : BitVec 6 := 0
  samples : List (BitVec 9) := []
  deriving DecidableEq, Repr, Inhabited

/-- The TAP (R474, R495, R496): instruction register, the bypass bit, the boundary register and what TDO last gave. -/
structure Tap where
  ir : BitVec 8 := 0xFE
  bypass : Bool := false
  boundary : List Bool := []
  tdo : List Bool := []
  deriving DecidableEq, Repr, Inhabited

/-- A SCRIPT entry still to perform: control word and data (R460). -/
abbrev ScriptEntry := BitVec 64 × BitVec 64

/-- One flash operation that waits on the part's status (R494). -/
inductive FlashOp where
  | erase (base bytes : Nat)
  | program (base : Nat) (bytes : List Byte)
  deriving DecidableEq, Repr

/-- The boot sequencer and the pins around it. -/
structure BootS where
  /-- RESET_N is seen low through its filter (R486). -/
  resetLow : Bool := true
  pwrgd : Bool := false
  /-- The slots SELECT has still to try, first first; slot A is false. -/
  candidates : List Bool := []
  /-- Does a candidate's success write it as CONFIRMED (R456, no valid record)? -/
  unrecorded : Bool := false
  script : List ScriptEntry := []
  /-- The SCRIPT sections are still being read and hashed (R452). -/
  reading : Bool := false
  /-- Every transmitter is silent until RESET_N (R406). -/
  failSilent : Bool := false
  /-- A shutdown of R446 has powered the switched domains and region cores down. -/
  shut : Bool := false
  thermtrip : Bool := false
  coresUp : Bool := false
  startedAt : Nat := 0
  /-- Header of the booted image, held in PD_AON (R468). -/
  header : List Byte := []
  /-- REPAIR and EQ sections held in PD_AON (R452). -/
  repair : List (BitVec 64) := []
  eq : List (BitVec 64) := []
  deriving DecidableEq, Repr, Inhabited

/-- An image transfer (R463 to R466). -/
structure Xfer where
  session : Nat
  /-- The target slot: true is B. -/
  target : Bool
  delta : Bool
  header : List Byte
  /-- Bytes of the image received after the header. -/
  received : Nat := 0
  /-- The target's first 4,096 bytes, held until COMMIT (R466). -/
  head : List Byte := []
  /-- A delta's section bytes so far, and how many of them its finished operations took. -/
  raw : List Byte := []
  taken : Nat := 0
  /-- Bytes of output a delta has produced. -/
  output : Nat := 0
  deriving DecidableEq, Repr, Inhabited

/-- The security block's hidden state (R472, R473). -/
structure SecS where
  nonce : Option (BitVec 384) := none
  draws : Nat := 0
  deriving DecidableEq, Repr, Inhabited

/-! ### The course unit -/

/-- Follower tick states (Table CLK-3); card and acting master are Locked on their own timer. -/
inductive TickState where
  | acquire | locked | holdover | free
  deriving DecidableEq, Repr, Inhabited

/-- What the course unit remembers of the last marker of one peer port. -/
structure Marker where
  hops : Nat
  course : Nat
  master : Nat
  len : Nat
  deriving DecidableEq, Repr, Inhabited

/-- The course unit (R27 to R43). -/
structure CourseS where
  /-- Has the first boundary been placed (R29)? -/
  running : Bool := false
  started : Bool := false
  /-- Boundaries that have passed: windows and time-outs count them, whatever number a boundary bears (log 247). -/
  boundaries : Nat := 0
  /-- s-cycle of the last boundary. -/
  boundaryAt : Nat := 0
  /-- Offset of the boundary step being performed (Table CLK-5); 0 outside a boundary -/
  stepAt : Nat := 0
  tick : TickState := .acquire
  /-- Last marker per peer port, with the boundary count at which it came. -/
  markers : Tab (Marker × Nat) := []
  /-- Boundary count when the last marker from the upstream came, and at entry to Holdover. -/
  lastMarker : Nat := 0
  holdoverFrom : Nat := 0
  /-- Boundary count at the last round-trip measurement of each peer port (R31). -/
  rttAt : Tab Nat := []
  /-- A course length written, and the boundary count at the write. -/
  newLen : Option (Nat × Nat) := none
  /-- Phase still to correct, in 40 ps units (R32). -/
  phase : Int := 0
  /-- The Pysum strapped as pod master, as far as this one knows (R37, log 248). -/
  strapMaster : Option Nat := none
  /-- How far the marker's number lies ahead of the local one, to adopt at a later boundary when no job holds a unit (R36);
  and the boundary count when it was seen. -/
  adopt : Option (Nat × Nat) := none
  /-- The Pysum that the choice of R37 names, to act from the next boundary; and the boundary count at the choice. -/
  chosen : Option (Nat × Nat) := none
  /-- A strapped master's wait for a foreign marker: boundary count at which it began. -/
  startup : Option Nat := none
  startupOver : Bool := false
  deriving DecidableEq, Repr, Inhabited

/-! ### Evord ports -/

/-- A flit without its CRC, which R81 computes from the other bytes. -/
structure Flit where
  header : BitVec 64
  payload : List Byte
  deriving DecidableEq, Repr, Inhabited

/-- A flit put on the wire, and what injection broke of it: its CRC, or the codeword that carries it (R99). -/
structure Sent where
  flit : Flit
  crcBad : Bool := false
  cwBad : Bool := false
  deriving DecidableEq, Repr, Inhabited

/-- Training of one lane (R77): the codes of this transmitter's pre, main and post taps; its responses for the next frame;
the pre and post codes this receiver has reached at the far end, whether their last request is answered and awaits its
hold, and frames sent with a request and no response. -/
structure LaneTrain where
  pre : Nat := 0
  main : Nat := 0
  post : Nat := 0
  responses : Nat := 0
  havePre : Nat := 0
  havePost : Nat := 0
  toldPre : Bool := false
  toldPost : Bool := false
  unanswered : Nat := 0
  deriving DecidableEq, Repr, Inhabited

/-- A two-rate meter of one class: bucket contents in 1/25,000 byte (R136). -/
structure MeterS where
  tc : Nat := 0
  tp : Nat := 0
  filledAt : Nat := 0
  deriving DecidableEq, Repr, Inhabited

/-- One weighted-fair output scheduler (R133): vtime, the finish tags of TC1 to TC6 and whether each head has its tag. -/
structure WfqS where
  vtime : BitVec 48 := 0
  finish : List (BitVec 48) := [0, 0, 0, 0, 0, 0]
  tagged : List Bool := [false, false, false, false, false, false]
  /-- Keystone monitor bucket, bytes (R144), and the s-cycle of its last refill. -/
  bucket : Nat := 65536
  bucketAt : Nat := 0
  deriving DecidableEq, Repr, Inhabited

/-- The state of a port that its registers do not show. -/
structure PortS where
  /-- Transmit side (R83): next sequence number; replay buffer, oldest first; flits a replay has still to send again; CONTROL
  and PLUMB flits that wait, type and payload; DATA flits that wait, `pkt_start` and payload. -/
  txSeq : BitVec 12 := 0
  replay : List Flit := []
  replayQ : List Flit := []
  ctlWait : List (Nat × List Byte) := []
  txWait : List (Nat × List Byte) := []
  /-- A marker to send, by the s-cycle of the boundary it marks (R91); a NAK; probes, echo or request, with the send time
  of the request and the arrival that an echo answers. -/
  tickDue : Option Nat := none
  nakDue : Bool := false
  probesDue : List (Bool × Word × Word) := []
  /-- Symbols corrected in the wear window, per lane (R412). -/
  laneWear : Tab Nat := []
  /-- Flit slots since the last IDLE flit (R84). -/
  sinceIdle : Nat := 0
  replaysInRow : Nat := 0
  /-- The first sequence number of the replay under way (R87). -/
  replayFrom : Option Nat := none
  /-- Receive side: last accepted sequence number, discarding after an error (R86). -/
  rxLast : BitVec 12 := 0xFFF
  rxAny : Bool := false
  discarding : Bool := false
  sinceAck : Nat := 0
  rxPart : List Byte := []
  /-- Skipping to the next packet start after a framing failure (check 1). -/
  rxBad : Bool := false
  /-- LINKUP: a good flit has come; a probe is complete (Table LINK-2). -/
  goodFlit : Bool := false
  probed : Bool := false
  /-- The negotiation word: slices seen with their repeat counts, and the accepted far word. -/
  slices : Tab (Nat × Nat) := []
  far : BitVec 184 := 0
  /-- Credits: cumulative counts last seen, counts returned to the far end, order of their changes. -/
  seen : List (BitVec 16) := [0, 0, 0, 0, 0, 0, 0, 0]
  returned : List (BitVec 16) := [0, 0, 0, 0, 0, 0, 0, 0]
  creditOrder : List Nat := [0, 1, 2, 3, 4, 5, 6, 7]
  /-- Credits withheld while the region is frozen (R416): class and cells. -/
  owed : List (Nat × Nat) := []
  /-- Grants in force since the last LINKUP (R90); none before the first. -/
  grants : Option (List Nat) := none
  /-- Last flit of each type put on the wire (R83). -/
  lastOut : Tab Sent := []
  /-- The codeword being filled: its index in the frame and its bytes so far; and the last one sent, 544 symbols (R73). -/
  cwIndex : Nat := 0
  cwBytes : List Byte := []
  cwOut : List Nat := []
  /-- Idle handshake (R95): IDLE_REQ sent; entry agreed. -/
  idleAsked : Bool := false
  idleEntering : Bool := false
  /-- Boundary count at which the port went down, for dead_hold (R125); discarding at once. -/
  deadFrom : Option Nat := none
  dead : Bool := false
  /-- Lane moves committed and waiting for a frame start, and lanes that failed and have not moved: lane, receive
  direction. -/
  laneMove : List (Nat × Bool) := []
  deadLane : List (Nat × Bool) := []
  /-- s-cycle at which the training burst of an idle lane 8 began (R92). -/
  burstAt : Option Nat := none
  /-- A link injection armed by inject_now (R99), its kind; symbol errors put on each lane. -/
  inject : Option Nat := none
  injected : Tab Nat := []
  /-- Training (R77): s-cycle at which it began to send frames; lanes with frame lock here, and as the far end reports its
  lock and readiness; lanes that answered no request in 256 frames; the last frame sent on each lane, `control` and
  `status`. -/
  trainAt : Nat := 0
  frameLock : BitVec 9 := 0
  farLocked : BitVec 9 := 0
  farReady : BitVec 9 := 0
  mute : BitVec 9 := 0
  lanes : Tab LaneTrain := []
  frameOut : Tab (Word × Word) := []
  /-- Requested pre-cursor and post-cursor codes (R97): keys 16 * lane + 3 and 16 * lane + 4. -/
  coeff : Tab Nat := []
  meters : Tab MeterS := []
  wfq : WfqS := {}
  /-- Gate list: index of the entry in force, s-cycle at which it started, pending takeover (bank, count, course). -/
  gateIx : Nat := 0
  gateAt : Nat := 0
  takeover : Option (Nat × Nat × Nat) := none
  /-- Classes whose head has waited for its gate alone: boundary count since which, and whether told (R142). -/
  blocked : Tab (Nat × Bool) := []
  deriving DecidableEq, Repr, Inhabited

/-! ### The switch -/

/-- A packet stored whole in a region's buffer. -/
structure Stored where
  pkt : Packet
  /-- Input 0 to 19 of the region that holds it (R110). -/
  inp : Nat
  tc : Nat
  cells : Nat
  /-- Descriptors that have not crossed. -/
  copies : Nat
  /-- The s-cycle in which its storage was complete (R145). -/
  storedAt : Nat
  /-- Bank * 16 + sub-bank of each of its cells. -/
  places : List Nat := []
  /-- An uncorrectable word met it while it crossed: it is sent with its pkt_crc inverted (R409). -/
  damaged : Bool := false
  deriving DecidableEq, Repr, Inhabited

/-- A descriptor in a virtual output queue: packet, final output 0 to 67, its outgoing W0, whether it took a copy
descriptor, and the peer Pysum it travels to (64 for a local output). -/
structure QEnt where
  id : Nat
  inp : Nat
  out : Nat
  tc : Nat
  w0 : BitVec 64
  copy : Bool
  next : Nat
  deriving DecidableEq, Repr, Inhabited

/-- A packet in the egress staging of an output: cells landed so far of all its cells. -/
structure Staged where
  pkt : Packet
  tc : Nat
  cells : Nat
  landed : Nat
  storedAt : Nat
  /-- Where its remaining cells lie: region and packet id. -/
  src : Nat
  id : Nat
  damaged : Bool := false
  /-- The scheduler has chosen it: it leaves as its cells come, and the output starts no other meanwhile (R131). -/
  started : Bool := false
  deriving DecidableEq, Repr, Inhabited

/-- A cell on a die-to-die link: the region and local output it is for, and the packet, by the region that stores it. -/
structure Crossing where
  dst : Nat
  out : Nat
  src : Nat
  id : Nat
  deriving DecidableEq, Repr, Inhabited

/-- A pair of packet mode: source region and input, local output, packet and cells still to cross. -/
structure Pair where
  src : Nat
  inp : Nat
  out : Nat
  ent : QEnt
  left : Nat
  deriving DecidableEq, Repr, Inhabited

/-- A received Welt message, or one sent and not acknowledged: its four header words and payload. -/
structure Welt where
  w0 : BitVec 64
  w1 : BitVec 64
  w2 : BitVec 64
  w3 : BitVec 64
  payload : List Byte
  deriving DecidableEq, Repr, Inhabited

/-- An arrival at an input that PACKET_STORED will check. -/
structure Arrival where
  pkt : Packet
  /-- Framing failed (Table FWD-3, check 1). -/
  badFrame : Bool := false
  /-- A FABRIC_SEND's reply waits on this packet: session, epoch and the command (R399). -/
  reply : Option (Nat × Nat × Welt) := none
  /-- The region's ledger built it: no source, ledger or combining unit looks at it again (R170, R171). -/
  settled : Bool := false
  deriving DecidableEq, Repr, Inhabited

/-- A stored packet that has not joined a queue: it holds its cells and blocks its input and class (R109, R137, R169, R170,
R173). -/
structure Held where
  /-- The packet in the region's store. -/
  id : Nat
  /-- It has met its meter. -/
  checked : Bool := false
  /-- Its hold, or its wait for copy descriptors, is counted and reported (R109, R137). -/
  told : Bool := false
  settled : Bool := false
  /-- Outputs of a multicast packet that still lack a copy descriptor: output, next Pysum, port left. -/
  rest : Option (List (Nat × Nat × Option Nat)) := none
  deriving DecidableEq, Repr, Inhabited

/-- A region's switch slice. -/
structure XbarS where
  /-- Arrivals per input 0 to 19, oldest first. -/
  arrivals : Tab (List Arrival) := []
  /-- Stored packets that wait before their queue, per input and class (8 * input + class), oldest first. -/
  held : Tab (List Held) := []
  store : Tab Stored := []
  nextId : Nat := 0
  /-- Descriptors of all virtual output queues in order of completed storage. -/
  queue : List QEnt := []
  /-- Egress staging per local output 0 to 19. -/
  staging : Tab (List Staged) := []
  pairs : List Pair := []
  /-- Input and class pointers per local output; output pointers per input of this region (R111). -/
  inPtr : Tab Nat := []
  classPtr : Tab Nat := []
  outPtr : Tab Nat := []
  /-- Output at which this region's grants to the inputs of region i start (R113). -/
  grantPtr : Tab Nat := []
  /-- Changes of route, newest first: target Pysum and the port left, or 128 + the next Pysum a detour avoids (R121 to
  R123). -/
  moved : List (Nat × Nat) := []
  /-- Held multicast words B (R124). -/
  wordB : Tab (BitVec 64) := []
  /-- Ports on which this region routes no traffic (R120). -/
  miswired : List Nat := []
  /-- Schedulers of the four region endpoint channels (R135). -/
  chans : Tab WfqS := []
  /-- Die-to-die direction towards region i: wires failed without a committed spare, cells resent once. -/
  wireDown : Tab (List Nat) := []
  /-- Packets for the region's units, by kind, oldest first: diverted ones and those its endpoint received. -/
  inbox : Tab (List Packet) := []
  /-- Sub-banks lost with no spare left, per bank: bits of the 16 sub-banks (R413). -/
  subLost : Tab Nat := []
  /-- Cells on the link to region i, oldest first, as the 64-cell retry buffer holds them. -/
  cells : Tab (List Crossing) := []
  /-- Cells sent on the link to region i in its present cell slot (R113). -/
  sent : Tab Nat := []
  /-- Words corrected in the wear window, per sub-bank 16 * bank + sub-bank (R412). -/
  bankWear : Tab Nat := []
  deriving DecidableEq, Repr, Inhabited

/-! ### The host bridge and host port -/

/-- One session, or one peer (R390 to R392, R400). -/
structure SessS where
  /-- Accepted commands not yet begun, oldest first, each with the OPEN it came under and its frame's priority. -/
  cmds : List (Welt × Nat × Nat) := []
  /-- OPEN messages received and not yet taken. -/
  opens : List Welt := []
  /-- Sent and not acknowledged, oldest first; and replies waiting for window room. -/
  unacked : List Welt := []
  waiting : List Welt := []
  retries : Nat := 0
  /-- The s-cycle from which `rto` runs: `ack` last advanced, a message entered an empty window, or all were sent again. -/
  ackAt : Nat := 0
  /-- Last acknowledgement the far end gave. -/
  acked : BitVec 32 := 0
  /-- Messages accepted since the last header was sent, and their payload bytes: an ACK is due while there are any. -/
  unsaid : Nat := 0
  unsaidBytes : Nat := 0
  /-- The last ACK message sent. -/
  ackOut : Option Welt := none
  /-- Peer sequence spaces; a session's stand in SESS_SEQ. -/
  txNext : BitVec 32 := 1
  rxNext : BitVec 32 := 1
  lost : Bool := false
  /-- ACK messages received and not yet taken. -/
  acks : List Welt := []
  /-- Counts OPENs: replies to commands of an earlier OPEN are dropped. -/
  epoch : Nat := 0
  deriving DecidableEq, Repr, Inhabited

/-- An entry of the event message queue (R63). -/
inductive EvMsg where
  | event (addr : Nat) (words : List (BitVec 64))
  | resync
  deriving DecidableEq, Repr

/-- A job known to this Pysum (R398, R429). -/
structure Job where
  id : Nat
  exact : Bool
  policy : Nat
  seed : BitVec 64
  /-- A release in progress: the session, seq and epoch to answer. -/
  releasing : Option (Nat × Nat × Nat) := none
  /-- Its Cobblers' rebuild has been started (R398, step 4). -/
  rebuilt : Bool := false
  /-- A teardown in progress to answer, and the regions it covers. -/
  tearing : Option (Nat × Nat × Nat) := none
  halted : Bool := false
  deriving DecidableEq, Repr, Inhabited

/-- A scheduled register batch (R395). -/
structure Sched where
  session : Nat
  epoch : Nat
  course : Nat
  msg : Welt
  deriving DecidableEq, Repr, Inhabited

/-- The host bridge. -/
structure BridgeS where
  sessions : Tab SessS := []
  /-- The session served last (R393). -/
  served : Nat := 15
  peers : Tab SessS := []
  events : List EvMsg := []
  /-- CAPTURE messages not yet handed to the event session (R417): region, offset, sample size, bytes. -/
  captures : List (Nat × Nat × Nat × List Byte) := []
  /-- Events were dropped for want of room: a resynchronise message is due at 512 (R63). -/
  resyncDue : Bool := false
  /-- Units whose present pending state has been told, and the course of each unit's last message. -/
  told : List UnitId := []
  toldAt : Tab Nat := []
  scheds : List Sched := []
  jobs : List Job := []
  /-- Unit base address → holding job (R60). -/
  holds : Tab Nat := []
  deriving DecidableEq, Repr, Inhabited

/-- An Ethernet frame of the Pysum's own that is not a Welt message: ARP reply, neighbour advertisement, PFC frame. -/
inductive OutFrame where
  | arpReply (mac : BitVec 48) (ip : BitVec 32)
  | neighbourAdvert (mac : BitVec 48) (ip : BitVec 128)
  | pfc (prio : Nat) (xoff : Bool)
  deriving DecidableEq, Repr

/-- The host Ethernet port. -/
structure HostS where
  /-- The s-cycle up to which a received PFC frame stops a priority. -/
  paused : Tab Nat := []
  xoffSent : List Nat := []
  /-- Last frame of the port's own. -/
  lastOut : Option OutFrame := none
  gateAt : Nat := 0
  takeover : Option (Nat × Nat × Nat) := none
  deriving DecidableEq, Repr, Inhabited


/-! ### The Awl recorder -/

/-- A record that waits in a region's queue or for its reference: stamp, type, port, and its 64 bytes (Table DET-4). -/
structure AwlRec where
  region : Nat
  course : Nat
  off : Nat
  type : Nat
  port : Nat
  bytes : List Byte
  /-- The s-cycle in which it was made. -/
  made : Nat
  deriving DecidableEq, Repr, Inhabited

/-- The Awl (R376 to R382). -/
structure AwlS where
  /-- An accepted start whose course has not begun. -/
  armed : Option Nat := none
  recording : Bool := false
  comparing : Bool := false
  /-- start_course of the recording under way. -/
  start : Nat := 0
  /-- Per region: queued records, oldest first; and records lost since the queue filled, with the first one's stamp. -/
  queues : Tab (List AwlRec) := []
  lost : Tab (Nat × Nat × Nat) := []
  /-- Reference records matched beyond AWL_RPTR, the streams followed, and records that wait for a reference record
  beyond the look-ahead, with their ring index. -/
  done : List Nat := []
  streams : List (List Byte) := []
  waiting : List (Nat × AwlRec) := []
  deriving DecidableEq, Repr, Inhabited


/-! ### Memory blocks -/

/-- What a request in a memory block's queue asks (R183). -/
inductive MemKind where
  /-- A MEM_REQ that passed the home's checks; a duplicate is only answered again (R160). -/
  | fabric (r : Nat) (pkt : Packet) (dup : Bool)
  /-- A line for a block's line cache, to share or to own (R207), asked for by a cell in the invocation of a work queue
  entry; `whole` when all of it is to be written (R188). -/
  | fill (block cell entry key : Nat) (own whole : Bool)
  /-- A tack atomic on a Lintel address: the cell and its work queue entry, operation, width, key, operand and new value
  (R219). -/
  | atomic (block cell entry op : Nat) (wide : Bool) (key : Nat) (operand swap : BitVec 64)
  /-- One line for a descriptor: of block DMA (Table CELL-9), or of a near-memory operation (R197). It is read, or takes
  bytes at an offset within it; `part` names the request of a FAB_READ whose data they are. -/
  | line (block ix part key : Nat) (put : Option (Nat × List Byte))
  /-- Write-back of a corrected line (R187). -/
  | fix (key : Nat)
  /-- The scrubber's read of a line (R189). -/
  | scrub (key : Nat)
  /-- One line of a proactive pseudo-channel copy (Table MEM-3). -/
  | spare (key : Nat)
  deriving DecidableEq, Repr

/-- A request in a client queue: 0 fabric, 1 coherent, 2 near, 3 maintenance. -/
structure MemReq where
  client : Nat
  kind : MemKind
  tc : Nat
  at_ : Nat
  /-- Order of admission at the home region. -/
  n : Nat
  /-- The directory has begun its transaction: it waits for recalled copies. -/
  begun : Bool := false
  /-- When it passed the directory into a scheduler queue (R184). -/
  passed : Nat := 0
  deriving DecidableEq, Repr

/-- A directory entry (Table MEM-4): an owner, or sharers; and its order of allocation. -/
structure DirE where
  owner : Option Nat := none
  sharers : List Nat := []
  n : Nat := 0
  deriving DecidableEq, Repr, Inhabited

/-- A memory block and its Plinth. Lines are named by their key in the memory map. -/
structure MemS where
  queue : List MemReq := []
  /-- Requests that passed the directory, in the scheduler queues of their pseudo-channels (R184). -/
  sched : List MemReq := []
  /-- Per bank of rowKey 0: the open row and when it was last hit (R184); until when a refresh keeps it busy (R185). -/
  rows : Tab (Nat × Nat) := []
  busy : Tab Nat := []
  /-- 256ths of a slot that maintenance may still claim while a sparing copy runs (R183). -/
  share : Nat := 0
  /-- Lines of the proactive pseudo-channel copy done; corrected lines whose write-back waits for room (R183, R187). -/
  copied : Nat := 0
  fixes : List Nat := []
  /-- Weighted round robin: the client whose turn it is and how many it took. -/
  turn : Nat := 0
  took : Nat := 0
  dir : Tab DirE := []
  dirNext : Nat := 0
  /-- Recalls sent and not answered: block, line, invalidating. -/
  recalls : List (Nat × Nat × Bool) := []
  /-- Correction tally per row, and the spare row that serves a row: keys of rowKey. -/
  tally : Tab Nat := []
  rowMap : Tab Nat := []
  /-- Lines corrected in the wear window, per pseudo-channel. -/
  pcWear : Tab Nat := []
  /-- Refresh: row pointer and postponements per bank of rowKey 0. -/
  refreshRow : Tab Nat := []
  postponed : Tab Nat := []
  /-- Pseudo-channels that stopped answering; those with no spare left. -/
  failed : List Nat := []
  noSpare : List Nat := []
  /-- Pseudo-channels remapped after a hard failure: their lines are lost but for those written whole since. -/
  lost : Tab (List Nat) := []
  deriving DecidableEq, Repr, Inhabited

/-! ### Fabric memory -/

/-- A ledger entry that is not FREE (Table FAB-6): the request's header words; its payload lies in its slot. -/
structure LedgerE where
  slot : Nat
  ord : Nat
  inp : Nat
  w0 : BitVec 64
  w1 : BitVec 64
  w2 : BitVec 64
  w3 : BitVec 64
  /-- The Pysum whose combining unit took it (TAKEN). -/
  taken : Option Nat := none
  sentAt : Nat
  replays : Nat := 0
  deriving DecidableEq, Repr, Inhabited

/-- An open fence (R173). -/
structure FenceE where
  id : Nat
  pkt : Packet
  inp : Nat
  covers : List Nat
  /-- The failing entry recorded earliest, and its status. -/
  worst : Option (Nat × Nat) := none
  openedAt : Nat
  deriving DecidableEq, Repr, Inhabited

/-- An entry of the combining table (R164). -/
structure CombE where
  id : Nat
  /-- Constituents in their order of arrival: the stored packet that holds the cells, and the request. -/
  parts : List (Nat × Packet)
  openedAt : Nat
  /-- `window` as the entry opened (R180). -/
  window : Nat
  deriving DecidableEq, Repr, Inhabited

/-- Which unit of the region waits for a response to a request of its own. -/
inductive ReqOwner where
  | dma (block ix part : Nat)
  | batch (handle : Nat)
  deriving DecidableEq, Repr

/-- A region's FABMEM and COMBINE. Sequence spaces are keyed src * 8 + tc. -/
structure FabS where
  ledger : List LedgerE := []
  nextOrd : Nat := 0
  lastSeq : Tab Nat := []
  /-- Source and class that complete at once with this status (R171). -/
  dead : Tab Nat := []
  fences : List FenceE := []
  nextFence : Nat := 0
  /-- The hot-line filter, learned first first: line address and course of its last notice (R162). -/
  filter : List (Nat × Nat) := []
  /-- Last `seq` given to the region's own requests, per class; who waits for each (tc * 2^20 + seq). -/
  ownSeq : Tab Nat := []
  owners : Tab ReqOwner := []
  combining : List CombE := []
  nextComb : Nat := 0
  combined : Tab (List Packet) := []
  /-- Home: highest admitted `seq`, the gap store with the course of arrival, hot lines, order of admission. -/
  upto : Tab Nat := []
  gaps : List (Packet × Nat) := []
  hot : List Nat := []
  nextReq : Nat := 0
  /-- A teardown: job, the course it starts, and whether it is done; new requests stay TORN_DOWN until the release (R177). -/
  tearing : Option (Nat × Nat × Bool) := none
  deriving DecidableEq, Repr, Inhabited

/-! ### Repointing and partition sequences -/

/-- A request in the repointing queue (R411). -/
structure RepointReq where
  elem : Element
  hard : Bool
  /-- s-cycle and course of the request. -/
  at_ : Nat
  course : Nat
  /-- A proactive cell or pseudo-channel copy has finished. -/
  copied : Bool := false
  deriving DecidableEq, Repr

/-- What the partition sequence of a region needs beyond PART_STS. -/
structure PartS where
  code : Nat := 0
  /-- All steps, or only 1 and 2; with step 2, or without (R416). -/
  full : Bool := true
  capture : Bool := true
  /-- Address of the unit that stalled, and its PROGRESS. -/
  stalled : Nat := 0
  stalledProgress : BitVec 64 := 0
  /-- Script entries of the region still to perform in step 4, and whether a re-read section missed its hash (R468). -/
  script : List ScriptEntry := []
  unread : Bool := false
  deriving DecidableEq, Repr, Inhabited

/-- The repointing engine (R411 to R414), the progress watch (R415) and the partition sequences (R416). -/
structure RepointS where
  queue : List RepointReq := []
  /-- Hard requests that wait in their units for room. -/
  waiting : List Element := []
  log : List (BitVec 64) := []
  /-- Progress watch: last count seen and the tally, and whether the episode was told, per unit address. -/
  watch : Tab (Nat × Nat × Bool) := []
  parts : Tab PartS := []
  /-- Course at which the wear window began (R412). -/
  windowAt : Nat := 0
  /-- Spare wires committed per die-to-die direction 4 * src + dst: wires replaced; directions beyond their spares. -/
  wires : Tab (List Nat) := []
  wiresLost : List Nat := []
  /-- Parity errors of the wear window, per die-to-die direction: wire and count (R412). -/
  wireWear : Tab (Tab Nat) := []
  /-- Unit instances whose action of the present boundary has committed (R411). -/
  acted : List UnitId := []
  deriving DecidableEq, Repr, Inhabited


/-! ### Compute blocks -/

/-- A line of a block's line cache, by its key in the memory map (R207). -/
structure LcLine where
  owned : Bool
  data : List Byte
  /-- Owned for a store of the whole line that has not committed, over a line that cannot be read (R188): no data. -/
  void : Bool := false
  deriving DecidableEq, Repr, Inhabited

/-- A loop level (R252 to R255). -/
structure LoopL where
  active : Bool := false
  start : Nat := 0
  exit : Nat := 0
  count : Nat := 0
  idx : Nat := 0
  deriving DecidableEq, Repr, Inhabited

/-- An address generator (R249). -/
structure AddrGen where
  base : BitVec 64 := 0
  inc : List (BitVec 32) := [0, 0, 0, 0]
  modLog2 : Nat := 0
  deriving DecidableEq, Repr, Inhabited

/-- The registers of a cell that an invocation's start clears (R219, R236, R242, R245, R249, R252). -/
structure Core where
  tack : List (BitVec 64) := List.replicate 32 0
  /-- Vector registers of 256 bytes, masks m1 to m7, weight buffers of 2 KiB, accumulator rows of 256 FP32 lanes; an
  unlisted one is 0. -/
  vregs : Tab (List Byte) := []
  masks : Tab (BitVec 128) := []
  wbufs : Tab (List Byte) := []
  acc : Tab (List Nat) := []
  amax : Nat := 0
  ags : Tab AddrGen := []
  lc : List Nat := [0, 0, 0, 0]
  loops : List LoopL := [{}, {}, {}, {}]
  /-- Operations so far on which stochastic rounding acted (R268). -/
  stoch : Nat := 0
  deriving DecidableEq, Repr, Inhabited

/-- What an issued bundle does when it commits (R239). -/
structure Flight where
  core : Core
  next : Nat
  /-- Writes to the block address map, in order: the tack store before the store slot (R238). -/
  stores : List (Nat × List Byte) := []
  /-- A vector store's address, bytes and lane mask, for the audit windows (R297). -/
  audit : Option (Nat × List Byte × List Bool) := none
  regWrite : Option (Nat × BitVec 64) := none
  /-- SIGB: block, flag, value. -/
  signal : Option (Nat × Nat × Nat) := none
  /-- DMAQ: the descriptor. -/
  descriptor : Option (List Byte) := none
  /-- A tack atomic: operation, wide, address, operand, new value, destination. -/
  amo : Option (Nat × Bool × Nat × BitVec 64 × BitVec 64 × Nat) := none
  /-- An external effect of R215. -/
  external : Bool := false
  ended : Bool := false
  deriving DecidableEq, Repr, Inhabited

/-- A logical cell; its state and bundle address stand in CELL_STS. -/
structure CellS where
  core : Core := {}
  flight : Option Flight := none
  startedAt : Nat := 0
  /-- The due boundary (R256). -/
  due : Nat := 0
  /-- Boundaries passed since the cell last reached a course wait; 1 at the start of its invocation (R39, R41). -/
  missed : Nat := 0
  /-- The cause of the last overrun: an override held the clock below its floor (R39). -/
  throttled : Bool := false
  /-- BARs issued per id, and whether the waiting one is counted. -/
  bars : List Nat := [0, 0, 0, 0]
  barIn : Bool := false
  /-- A tack atomic at a home Plinth: sent, and its old value. -/
  amoSent : Bool := false
  amoDone : Option (BitVec 64) := none
  /-- A coherent request of the cell met an uncorrectable line: its block address (R222). -/
  ue : Option Nat := none
  stalled : Bool := false
  /-- Has this cell executed END in its invocation? -/
  ended : Bool := false
  /-- Last 256 bundles issued, oldest first (Table FLT-6). -/
  trace : List (BitVec 32) := []
  /-- Number of its invocation's work queue entry. -/
  entry : Nat := 0
  /-- The next bundle address is 8,192, one beyond the memory (R234). -/
  beyond : Bool := false
  /-- The wait of the bundle at hand is over. -/
  passed : Bool := false
  deriving DecidableEq, Repr, Inhabited

/-- The states of a work queue entry but FREE (Table CELL-7). -/
inductive WqState where
  | queued | running | committed | done
  deriving DecidableEq, Repr

/-- A work queue entry. -/
structure WqE where
  n : Nat
  state : WqState
  pkt : Packet
  mask : Nat
  entry : Nat
  /-- Cobbler buffer: pool and index, and its offset. -/
  pool : Nat
  buffer : Nat
  offset : Nat
  replay : Bool := false
  /-- The logical cell whose hard repointing the replay waits for. -/
  awaits : Option Nat := none
  status : Nat := 0
  value : BitVec 64 := 0
  /-- Data RESULTs sent. -/
  sent : Nat := 0
  /-- The completion RESULT, once it has been handed to the switch. -/
  answer : Option Packet := none
  deriving DecidableEq, Repr

/-- A sparse window's fields (Table SPR-7). -/
structure Win where
  kind : Nat
  format : Nat
  elem : Nat
  transposable : Bool
  keepMask : Bool
  shape : Nat
  base : Nat
  aux : Nat
  size : Nat
  deriving DecidableEq, Repr, Inhabited

/-- How a descriptor that moves data line by line cuts it into units: COPY through the windows of R280 (`trans` is the
transpose target), the near-memory operations (Table MEM-6), and the sources of FAB_WRITE and SEND. -/
inductive DmaPlan where
  | raw | tiles (trans : Win)
  | expand (w : Win) (trans : Option Win) | panels (w : Win) (trans : Option Win)
  | compress (w : Win) | build (w : Win) | predicted (w : Win) (trans : Option Win)
  | zero | ncopy | gather | dequant
  | fabWrite | send
  deriving DecidableEq, Repr

/-- What a unit changes besides memory once it is written: the completion count, the block's counters, the expander's
pass over a panel (row counts of a sparse one), where the next unit lies, and a status that ends the descriptor. -/
structure DmaUnit where
  count : Nat
  expanded : Nat := 0
  compressed : Nat := 0
  dropped : Nat := 0
  panel : Option (Option (List Nat)) := none
  next : Nat := 0
  stop : Option Nat := none
  /-- FAB_WRITE and SEND: what was read. -/
  data : List Byte := []
  deriving DecidableEq, Repr

/-- A descriptor under way: units done, its count, the place of the next panel and whether its boundary is still being
looked for, active neurons left, lines read for the unit at hand (none: uncorrectable), the unit whose writes are out,
lines of it written, and the status of a write that failed. -/
structure DmaRun where
  plan : DmaPlan
  i : Nat := 0
  count : Nat := 0
  pos : Nat := 0
  walk : Bool := false
  take : List Nat := []
  got : Tab (Option (List Byte)) := []
  unit : Option DmaUnit := none
  wrote : Nat := 0
  bad : Option Nat := none
  deriving DecidableEq, Repr

/-- A DMA descriptor that is queued or running (R217, R218). -/
structure DmaE where
  ix : Nat
  cell : Nat
  words : List (BitVec 64)
  started : Bool := false
  /-- Fabric requests: offset, bytes, and the status once known. -/
  parts : List (Nat × Nat × Option Nat) := []
  /-- Result once known: status and count or old value. -/
  result : Option (Nat × Nat) := none
  /-- An audited predicted COPY: its first neuron and the bitmap bits (R296). -/
  snapshot : Option (Nat × List Bool) := none
  /-- The units still to do. -/
  run : Option DmaRun := none
  /-- Lines it has yet to ask for, in order: part, line, bytes to write; is the first one's request at its stack? -/
  wants : List (Nat × Nat × Option (Nat × List Byte)) := []
  out : Bool := false
  deriving DecidableEq, Repr

/-- A compute block. -/
structure BlockS where
  lines : Tab LcLine := []
  cells : Tab CellS := []
  wq : List WqE := []
  nextWq : Nat := 0
  dma : List DmaE := []
  nextDma : Nat := 0
  flags : Tab Nat := []
  /-- 16-byte units of instruction memory marked loaded: logical cell, first unit, number of units (R397). -/
  loaded : List (Nat × Nat × Nat) := []
  /-- Course of the last cell fault of each physical cell. -/
  faults : Tab Nat := []
  /-- The logical cell that a proactive repointing waits to copy. -/
  copying : Option Nat := none
  /-- Predicted COPYs started since the job took the block; bitmap of the audit snapshot. -/
  predicted : Nat := 0
  snapshot : List Bool := []
  deriving DecidableEq, Repr, Inhabited

/-! ### Cobbler -/

/-- A request that waits for a buffer: the INVOKE that wants it and its block, or the reload of POOL_ALLOC (no INVOKE, the host,
16); has it counted a miss (R363)? -/
structure PoolAsk where
  invoke : Option Packet
  owner : Nat
  missed : Bool := false
  deriving DecidableEq, Repr, Inhabited

/-- A buffer pool (R355 to R366): cached indices from the top, ring positions, owners of the allocated buffers (0 to 15 a
block, 16 the host, 17 the host offer). -/
structure PoolS where
  cache : List Nat := []
  head : Nat := 0
  tail : Nat := 0
  inRing : Nat := 0
  owners : Tab Nat := []
  sinceMiss : Nat := 0
  disabled : Bool := false
  /-- Requests that wait, first first (R361). -/
  queue : List PoolAsk := []
  /-- Free buffers when `free_min` was last read, until a change gives the field a value (R365). -/
  minFrom : Option Nat := none
  deriving DecidableEq, Repr, Inhabited

/-- A region's Cobbler: the four pools, and those being rebuilt. -/
structure CobS where
  pools : Tab PoolS := []
  rebuilding : List Nat := []
  deriving DecidableEq, Repr, Inhabited


/-! ### Mortar and sort unit -/

/-- An exact partial element (R313): A and its flags. -/
structure ExactE where
  a : BitVec 320 := 0
  nan : Bool := false
  pinf : Bool := false
  ninf : Bool := false
  negz : Bool := true
  deriving DecidableEq, Repr, Inhabited

/-- A partial of one fragment: FP32 or I32 words, or exact elements. -/
inductive Part where
  | words (l : List Nat)
  | exact (l : List ExactE)
  deriving DecidableEq, Repr

/-- One fragment of a piece at one Mortar (Table COLL-5). -/
structure FragS where
  /-- CONTRIB payloads by member index; the region partial is formed. -/
  contribs : Tab (List Byte) := []
  regionDone : Bool := false
  /-- Anchor: region partials by region number. -/
  parts : Tab Part := []
  /-- Exact packets whose escape packets are still to come, per phase and source: records, values so far. -/
  building : Tab (List (BitVec 64) × List (BitVec 320)) := []
  /-- The stop partial. -/
  mine : Option Part := none
  /-- The running partial that came in: at a stop, of the last LAP1; at a cross-pod stop, of the last cross-lap 1. -/
  lapIn : Option Part := none
  crossIn : Option Part := none
  /-- The lap under way at the head, 0 for none; course of its launch, relaunches. The same of the cross-lap at the global
  head. -/
  lap : Nat := 0
  sentAt : Nat := 0
  relaunches : Nat := 0
  cross : Nat := 0
  crossAt : Nat := 0
  crossTries : Nat := 0
  /-- Head: the partial of this pod, back from lap 1; the partial that the final stage rounds. -/
  back : Option Part := none
  whole : Option Part := none
  /-- The result in `out_fmt`, and whether it has been delivered here. -/
  result : Option (List Byte) := none
  delivered : Bool := false
  /-- LAP2 has passed, or returned; cross-lap 2 has passed or returned. -/
  passed : Bool := false
  crossPassed : Bool := false
  /-- Journal cells it holds. -/
  cells : Nat := 0
  deriving DecidableEq, Repr, Inhabited

/-- An open instance. -/
structure InstS where
  d : BitVec 64
  digest : Nat
  openedAt : Nat
  /-- EPIDs that have contributed. -/
  members : List Nat := []
  /-- Fragments by 8 * piece + frag; pieces released. -/
  frags : Tab FragS := []
  released : List Nat := []
  deriving DecidableEq, Repr, Inhabited

/-- A census round at the anchor that started it: lap 1 or 2, its bitmap, course of its launch, relaunches. -/
structure RoundS where
  lap : Nat
  bits : Nat
  sentAt : Nat
  relaunches : Nat := 0
  deriving DecidableEq, Repr, Inhabited

/-- What a Mortar keeps of a group. -/
structure GroupS where
  /-- Lowest instance not completed; completed ones above it; status of the last completed. -/
  low : Nat := 0
  done : List Nat := []
  last : Nat := 0
  insts : Tab InstS := []
  /-- The stored census, whether it is of the current round, and the round's first lap as it last passed here: its bitmap and
  course. -/
  census : Nat := 0
  censusOk : Bool := false
  lapOne : Option (Nat × Nat) := none
  /-- The event that the current round answers: its course, when it was not the job's taking of the unit; and whether the
  round has been started. -/
  dueFrom : Option Nat := none
  started : Bool := false
  round : Option RoundS := none
  deriving DecidableEq, Repr, Inhabited

/-- A choice of a dispatched token (R345, R350). -/
structure ChoiceS where
  expert : Nat
  gate : Nat
  /-- Generation * 1024 + handle of its batch, and its position there. -/
  batch : Nat
  pos : Nat
  /-- Widened results, and a data RESULT that failed its form. -/
  data : Option (List Nat) := none
  badForm : Bool := false
  /-- Status and cause once its batch has ended. -/
  outcome : Option (Nat × Nat) := none
  deriving DecidableEq, Repr, Inhabited

/-- A token whose record has not been sent. -/
structure TokenS where
  n : Nat
  token : Nat
  choices : List ChoiceS
  /-- The route record failed. -/
  route : Bool := false
  deriving DecidableEq, Repr, Inhabited

/-- A packet of a dispatch stream whose bytes are not all dispatched. -/
structure SegS where
  store : Option Nat
  /-- Bytes of the stream's waiting bytes up to its end. -/
  upto : Nat
  flush : Bool
  last : Bool
  deriving DecidableEq, Repr, Inhabited

/-- A stream context (R327). -/
structure CtxS where
  src : Nat
  stream : Nat
  slot : Nat
  kind : Nat
  dst : Nat
  tc : Nat
  job : Nat
  failed : Bool := false
  /-- Header words of its last packet, and the course it came. -/
  w1 : BitVec 64 := 0
  w2 : BitVec 64 := 0
  w3 : BitVec 64 := 0
  at_ : Nat := 0
  /-- Has a data packet come? Units received; the gather table. -/
  data : Bool := false
  units : Nat := 0
  table : List Nat := []
  /-- Output bytes not yet sent, output units sent. -/
  out : List Byte := []
  sent : Nat := 0
  amax : Nat := 0
  /-- Sort records, or the open top-k row: bits and index. -/
  recs : List (Nat × Nat) := []
  ended : Bool := false
  /-- Dispatch: waiting bytes, their packets, tokens not yet sent, number of the next. -/
  bytes : List Byte := []
  segs : List SegS := []
  tokens : List TokenS := []
  nextTok : Nat := 0
  deriving DecidableEq, Repr, Inhabited

/-- An expert batch (R347, R349); its key is generation * 1024 + handle. -/
structure BatchS where
  /-- Key of its context, the expert, and the batch number. -/
  ctx : Nat
  expert : Nat
  number : Nat
  epid : Nat
  count : Nat := 0
  /-- Fabric requests not yet answered; the first status other than OK. -/
  writes : Nat := 0
  bad : Option Nat := none
  /-- The closing it took part in, and the course of its INVOKE. -/
  closed : Option Nat := none
  invokedAt : Option Nat := none
  deriving DecidableEq, Repr, Inhabited

/-- A region's Mortar, with the stream and dispatch state of its sort unit. -/
structure MortS where
  /-- PIECE and STREAM packets that reached the unit, oldest first, with the buffer entry that holds each; CONTRIBs that
  wait, and whether each was told. -/
  queue : List (Packet × Option Nat) := []
  waiting : List (Packet × Option Nat × Bool) := []
  /-- The round robin of collective fragments and STREAM packets: is a STREAM packet next (R337)? -/
  streamTurn : Bool := false
  groups : Tab GroupS := []
  /-- The course at which the job took the unit. -/
  takenAt : Nat := 0
  /-- Stream contexts by 65,536 * source + stream. -/
  ctxs : Tab CtxS := []
  batches : Tab BatchS := []
  /-- Generation of each handle, next batch number of each expert, closings so far. -/
  gens : Tab Nat := []
  numbers : Tab Nat := []
  closings : Nat := 0
  deriving DecidableEq, Repr, Inhabited

/-! ### Plumb and power -/

/-- A REPORT of the current round as the coordinator keeps it. -/
structure ReportS where
  digest : Nat
  view : BitVec 128
  restore : BitVec 64
  deriving DecidableEq, Repr, Inhabited

/-- The Plumb engine (R420 to R428). -/
structure PlumbS where
  /-- Links that count, per domain: port numbers, 64 for the host port. -/
  seen : Tab (List Nat) := []
  /-- Course from which every observable link of a domain has been down. -/
  downFrom : Tab Nat := []
  /-- Course that opened the round; whether a DECIDE of it has been accepted or sent; rounds in a row without one. -/
  round : Nat := 0
  opened : Bool := false
  decided : Bool := false
  misses : Nat := 0
  /-- Coordinator: REPORTs of the round by origin, rounds in a row each domain was down, domains in a split episode. -/
  reports : Tab ReportS := []
  down : Tab Nat := []
  split : List Nat := []
  /-- Lost and silent: Pysums whose REPORT has been missing since a course. -/
  silent : Tab Nat := []
  /-- The coordinator in force after `decide_miss` steps, if it is not the first of its order. -/
  moved : Option Nat := none
  /-- An accepted DECIDE to apply at the next boundary: epoch, mask, and the boundaries counted as it was accepted. -/
  next : Option (Nat × BitVec 64 × Nat) := none
  /-- Restore requests not yet effective. -/
  restore : BitVec 64 := 0
  deriving DecidableEq, Repr, Inhabited

/-- The power unit's state that no register shows. -/
structure PowerS where
  /-- Domains that ramp, and those that wait for a ramp slot, in order; domains turned off and not yet down. -/
  ramping : List Nat := []
  rampWait : List Nat := []
  falling : List Nat := []
  /-- Domains off after a rail fault. -/
  faulted : List Nat := []
  /-- The last input sample lay below 10.8 V; the one before it out of range. -/
  vinLow : Bool := false
  /-- Thermal trips in force: compute die r is r, base die r is 4 + r. Overcurrent: die r, 4 the input. -/
  trips : List Nat := []
  ocps : List Nat := []
  /-- PWR_CTL as a trip began, per trip, and POLICY_CEIL as a die's override began: later writes wait for its end (R445). -/
  tripCtl : Tab (BitVec 64) := []
  ceilHeld : Tab (BitVec 64) := []
  /-- Dies whose last frequency step went down; dies whose margin cannot be kept at the voltage ceiling. -/
  throttling : List Nat := []
  short : List Nat := []
  /-- s-cycle from which some ACLK has been below its floor; s-cycles not yet counted as µs; energy not yet counted as mJ,
  in units of 10 µJ. -/
  belowFrom : Option Nat := none
  belowGiven : Nat := 0
  energyRest : Nat := 0
  /-- Dies held below their floor in the present course (R39). -/
  heldBelow : List Nat := []
  deriving DecidableEq, Repr, Inhabited
/-! ### The chip -/

/-- Everything of the Pysum but the queue of waiting commands. -/
structure Chip where
  /-- s-cycles since the model's start; a step on an empty queue passes one. -/
  now : Nat := 0
  /-- The model's own counter behind Config.freeValue (log 5). -/
  free : Nat := 0
  fuses : Fuses := {}
  straps : Straps := {}
  tap : Tap := {}
  boot : BootS := {}
  /-- Flash contents (Table BOOT-2); an unlisted byte is erased, 0xFF. -/
  flash : List Host.Cell := []
  flashOps : List FlashOp := []
  /-- The reply that waits on the flash operation: session, epoch and message. -/
  flashReply : Option (Nat × Nat × Welt) := none
  xfer : Option Xfer := none
  sec : SecS := {}
  /-- The register file: 40-bit address → word; an unlisted register holds its reset value. -/
  regs : Tab (BitVec 64) := []
  /-- All addressed memories, one byte each, keyed by space and address; an unlisted byte reads 0. -/
  mem : List Host.Cell := []
  /-- Lines and words that no decoder could correct, by the same keys. -/
  bad : List Nat := []
  /-- Status, value and locked-write flag of the last direct register access (R50, R60). -/
  access : Nat × BitVec 64 × Bool := (0, 0, false)
  course : CourseS := {}
  ports : Tab PortS := []
  xbars : Tab XbarS := []
  bridge : BridgeS := {}
  host : HostS := {}

  awl : AwlS := {}
  mems : Tab MemS := []
  fabs : Tab FabS := []
  repoint : RepointS := {}
  /-- Compute blocks by 16 * region + block. -/
  blocks : Tab BlockS := []
  cobs : Tab CobS := []
  morts : Tab MortS := []
  plumb : PlumbS := {}
  pwr : PowerS := {}
  deriving DecidableEq, Repr, Inhabited

/-- The state of the machine: the commands that wait, first in first out, and the chip. -/
structure State where
  pending : List Instr
  chip : Chip
  deriving DecidableEq, Repr

/-- The machine right after reset: RESET_N low, every register at its reset value, no command waiting. -/
def State.reset : State := ⟨[], {}⟩

end Sys2Proof.Machine
end

