-- ==== Sys2Proof/Machine/Ops.lean ====
section
/-! DEFINITION. The named operations every command is written with: sparse maps, bytes and words, the register file
(R10, R11, R14), holds (R60), memories and their spaces. -/
namespace Sys2Proof.Machine

/-! ### Sparse maps -/

/-- The value at a key. -/
def Tab.find {α : Type} : Tab α → Nat → Option α
  | [], _ => none
  | (k, v) :: t, q => if q = k then some v else Tab.find t q

/-- The map with `q` bound to `v`; a rising list stays rising. -/
def Tab.put {α : Type} : Tab α → Nat → α → Tab α
  | [], q, v => [(q, v)]
  | (k, w) :: t, q, v =>
    if q < k then (q, v) :: (k, w) :: t else if q = k then (k, v) :: t else (k, w) :: Tab.put t q v

/-- The map without the key. -/
def Tab.del {α : Type} (t : Tab α) (q : Nat) : Tab α := t.filter (fun e => e.1 ≠ q)

/-- The value at a key, or the default. -/
def Tab.get {α : Type} (t : Tab α) (q : Nat) (d : α) : α := (Tab.find t q).getD d

/-- Are the keys strictly rising? -/
def Tab.rising {α : Type} : Tab α → Bool
  | [] => true
  | [_] => true
  | a :: b :: t => a.1 < b.1 && Tab.rising (b :: t)

/-- The list with element `i` replaced. -/
def putAt {α : Type} (l : List α) (i : Nat) (v : α) : List α := l.set i v

/-! ### Bytes and words -/

/-- The little-endian bytes of a number (R7). -/
def leBytes (n v : Nat) : List Byte :=
  match n with
  | 0 => []
  | n + 1 => BitVec.ofNat 8 v :: leBytes n (v / 256)

/-- The number that little-endian bytes spell (R7). -/
def leNat : List Byte → Nat
  | [] => 0
  | b :: t => b.toNat + 256 * leNat t

/-- The number that big-endian bytes spell (keys and signatures, R458). -/
def beNat (l : List Byte) : Nat := leNat l.reverse

/-- Bytes i … i+n-1 of a list, zero beyond its end. -/
def slice (l : List Byte) (i n : Nat) : List Byte := (l.drop i).take n ++ List.replicate (n - (l.length - i)) 0

/-- The little-endian number in bytes i … i+n-1. -/
def leAt (l : List Byte) (i n : Nat) : Nat := leNat (slice l i n)

/-- The word in bytes i … i+7. -/
def wordAt (l : List Byte) (i : Nat) : Word := BitVec.ofNat 64 (leAt l i 8)

/-- The bytes of a word. -/
def wordBytes (w : Word) : List Byte := leBytes 8 w.toNat

/-- Round up to a multiple of `m`. -/
def roundUp (n m : Nat) : Nat := (n + m - 1) / m * m

/-- Ceiling of a quotient. -/
def ceilDiv (n m : Nat) : Nat := (n + m - 1) / m

/-- One step of a reflected CRC-32C over a bit (R104). -/
def crc32cBit (c : Nat) (b : Bool) : Nat :=
  let x := (c % 2 = 1) != b
  if x then (c / 2) ^^^ 0x82F63B78 else c / 2

/-- CRC-32C state after one byte, least significant bit first. -/
def crc32cByte (c : Nat) (b : Byte) : Nat :=
  (List.range 8).foldl (fun c i => crc32cBit c (b.getLsbD i)) c

/-- CRC-32C (R104): polynomial 0x1EDC6F41 reflected, initial value all ones, inverted at the end. -/
def crc32c (l : List Byte) : Nat := (l.foldl crc32cByte 0xFFFFFFFF) ^^^ 0xFFFFFFFF

/-- CRC-64 state after one byte, most significant bit first. -/
def crc64Byte (c : Nat) (b : Byte) : Nat :=
  (List.range 8).foldl (fun c i =>
    let x := (c / 2 ^ 63 % 2 = 1) != b.getLsbD (7 - i)
    let c := (c * 2) % 2 ^ 64
    if x then c ^^^ 0x42F0E1EBA9EA3693 else c) c

/-- The flit CRC of R81: ECMA-182 polynomial, initial value all ones, no reflection, inverted at the end. -/
def crc64 (l : List Byte) : Nat := (l.foldl crc64Byte (2 ^ 64 - 1)) ^^^ (2 ^ 64 - 1)

/-- CRC-16/CCITT over bytes, initial value all ones (R77). -/
def crc16 (l : List Byte) : Nat :=
  l.foldl (fun c b => (List.range 8).foldl (fun c i =>
    let x := (c / 2 ^ 15 % 2 = 1) != b.getLsbD (7 - i)
    let c := (c * 2) % 2 ^ 16
    if x then c ^^^ 0x1021 else c) c) 0xFFFF

/-! ### The register file -/

/-- The fields of the common header's registers that software can write or that clear on a read (Table REG-4). -/
def headerFields (t : UnitType) (pos : Nat) : List FieldD :=
  match pos with
  | 0x28 => [⟨63, 0, .rw, 0⟩]
  | 0x38 => [⟨63, 56, .ro, 0⟩, ⟨31, 0, .rc, 0⟩]
  | 0x40 => [⟨63, 63, .w1c, 0⟩, ⟨62, 0, .ro, 0⟩]
  | 0x88 => if hasProgress t then [⟨63, 63, .rw, 1⟩, ⟨12, 0, .rw, 32⟩] else []
  | _ => []

/-- The fields of the register at a unit's position; none where the offset is reserved (R14). -/
def fieldsOf (t : UnitType) (pos : Nat) : List FieldD :=
  if pos < 0x90 then headerFields t pos
  else match (unitRegs t).find? (fun r => r.covers pos) with
    | some r => r.fields
    | none => []

/-- The word a register holds after reset. -/
def resetWord (u : UnitId) (pos : Nat) : Word :=
  match u with
  | .region r => if pos = 0x110 then setBits (FieldD.resetWord (fieldsOf .region pos)) REGION.PART_CTL_capture_region.hi
      REGION.PART_CTL_capture_region.lo ((r.val + 1) % 4) else FieldD.resetWord (fieldsOf .region pos)
  | _ => FieldD.resetWord (fieldsOf (unitType u) pos)

/-- The mask of the fields of one access type; EVENT is write-1-to-clear on the bits that exist. -/
def accMask (t : UnitType) (pos : Nat) (a : Acc) : Word :=
  if pos = 0x20 then (if a = .w1c then BitVec.ofNat 64 (eventBits t) else 0)
  else FieldD.mask a (fieldsOf t pos)

/-- The stored word of a register. -/
def Chip.reg (c : Chip) (u : UnitId) (pos : Nat) : Word :=
  (Tab.find c.regs (regAddr u pos)).getD (resetWord u pos)

/-- Store a register's word, keeping the file canonical: a register at its reset value is not listed. -/
def Chip.setReg (c : Chip) (u : UnitId) (pos : Nat) (w : Word) : Chip :=
  { c with regs := if w = resetWord u pos then Tab.del c.regs (regAddr u pos)
                   else Tab.put c.regs (regAddr u pos) w }

/-- The value of a field. -/
def Chip.fld (c : Chip) (u : UnitId) (f : Fld) : Nat := getBits (c.reg u f.pos) f.hi f.lo

/-- Set a field. -/
def Chip.setFld (c : Chip) (u : UnitId) (f : Fld) (v : Nat) : Chip :=
  c.setReg u f.pos (setBits (c.reg u f.pos) f.hi f.lo v)

/-- Is a one-bit field 1? -/
def Chip.flag (c : Chip) (u : UnitId) (f : Fld) : Bool := c.fld u f = 1

/-- Add to a saturating counter. -/
def Chip.bump (c : Chip) (u : UnitId) (f : Fld) (n : Nat := 1) : Chip :=
  c.setFld u f (min (c.fld u f + n) (2 ^ (f.hi + 1 - f.lo) - 1))

/-- Add to a wrapping counter. -/
def Chip.wrap (c : Chip) (u : UnitId) (f : Fld) (n : Nat := 1) : Chip := c.setFld u f (c.fld u f + n)

/-- Raise a peak-value field. -/
def Chip.peak (c : Chip) (u : UnitId) (f : Fld) (n : Nat) : Chip :=
  if c.fld u f < n then c.setFld u f (min n (2 ^ (f.hi + 1 - f.lo) - 1)) else c

/-! ### Course number, identity -/

/-- The course in progress (R30). -/
def Chip.courseNow (c : Chip) : Nat := c.fld .course COURSE.COURSE_NOW_course

/-- Boundaries that have passed: windows and time-outs count them, whatever number a boundary bears (R29, R36). -/
def Chip.courseCount (c : Chip) : Nat := c.course.boundaries

/-- Courses since the boundary count was `n`. -/
def Chip.since (c : Chip) (n : Nat) : Nat := c.courseCount - n

/-- COURSE_PHASE: s-cycles since the last boundary, in its 14 bits. -/
def Chip.phase (c : Chip) : Nat := min (c.now - c.course.boundaryAt + c.course.stepAt) 12799

/-- The Pysum number: row * 8 + column (R6). -/
def Chip.pysum (c : Chip) : Nat := c.fld .chip CHIP.POSITION_row * 8 + c.fld .chip CHIP.POSITION_col

/-- The role the MODE straps gave: 0 card, 1 pod master, 2 follower. -/
def Chip.role (c : Chip) : Nat := c.fld .course COURSE.TICK_CTL_role

/-- Card mode (R483). -/
def Chip.card (c : Chip) : Bool := c.role = 0

/-- The EPID of a region (EPID_MAP). -/
def Chip.epid (c : Chip) (r : Region) : Nat := getBits (c.reg .chip 0x120) (12 * r.val + 11) (12 * r.val)

/-- The region whose EPID this is. -/
def Chip.regionOfEpid (c : Chip) (e : Nat) : Option Region :=
  if e = c.epid 0 then some 0 else if e = c.epid 1 then some 1 else if e = c.epid 2 then some 2
  else if e = c.epid 3 then some 3 else none

/-- Course a schedule may name: at least two after the present one, in the modular order of 48 bits (R43). -/
def Chip.lateFor (c : Chip) (n : Nat) : Bool :=
  let d := (n + 2 ^ 48 - c.courseNow) % 2 ^ 48
  d < 2 || 2 ^ 47 ≤ d

/-! ### Holds, presence, access status -/

/-- Does the grade have this unit (R2)? -/
def Chip.present (c : Chip) (u : UnitId) : Bool :=
  match u with
  | .cblk _ b => c.fuses.grade = .a || b.val < 12
  | _ => true

/-- The job that holds a unit, 0 when none (R60). -/
def Chip.holder (c : Chip) (u : UnitId) : Nat :=
  if unitScope u < 4 then (Tab.get c.bridge.holds (regAddr u 0) 0) else 0

/-- Is the unit held? A chip unit counts as held while any job holds any unit (R60). -/
def Chip.held (c : Chip) (u : UnitId) : Bool :=
  if unitScope u < 4 then (Tab.find c.bridge.holds (regAddr u 0)).isSome else !c.bridge.holds.isEmpty

/-- Does any job hold a unit of this Pysum? -/
def Chip.anyHeld (c : Chip) : Bool := !c.bridge.holds.isEmpty

/-- PART_STS `step` of a region (Table FLT-5). -/
def Chip.partStep (c : Chip) (r : Region) : Nat :=
  getBits (c.reg .repoint 0x120) (16 * r.val + 14) (16 * r.val + 12)

/-- A region returns IN_RESET from step 3 until ready (R418). -/
def Chip.inReset (c : Chip) (r : Region) : Bool := 3 ≤ c.partStep r

/-- A switched domain's STS bit, by the number of Table PWR-1. -/
def Chip.domOn (c : Chip) (d : Nat) : Bool :=
  if d < 64 then bitAt (c.reg .power 0x150) d
  else if d < 128 then bitAt (c.reg .power 0x158) (d - 64)
  else if d < 136 then bitAt (c.reg .power 0x160) (d - 128)
  else if d < 152 then bitAt (c.reg .power 0x160) (d - 136 + 8)
  else if d < 156 then bitAt (c.reg .power 0x160) (d - 152 + 24)
  else bitAt (c.reg .power 0x160) 28

/-- The switched domain of a unit (Table PWR-1, R436): none for region cores and chip units. -/
def unitDomain : UnitId → Option Nat
  | .cblk r b => some (16 * r.val + b.val)
  | .port p => some (64 + p.val)
  | .bufbank r i => some (136 + 4 * r.val + i.val)
  | .mortar r => some (152 + r.val)
  | .hostport => some 156
  | _ => none

/-- Is the power of a unit on (R437)? Region cores are on from CORES until a shutdown (R436). -/
def Chip.powered (c : Chip) (u : UnitId) : Bool :=
  match unitDomain u with
  | some d => c.domOn d
  | none => unitScope u = 4 || (c.boot.coresUp && !c.boot.shut)

/-- The region of a region-scope unit. -/
def unitRegion (u : UnitId) : Option Region :=
  if h : unitScope u < 4 then some ⟨unitScope u, h⟩ else none

/-- The unit and position a 40-bit address names. -/
def addrUnit (a : Nat) : Option UnitId := unitOf (a / 2 ^ 37 % 8) (a / 2 ^ 30 % 128) (a / 2 ^ 22 % 256)

/-- Table REG-2: status of an access, before the path's own limits (R65). -/
def Chip.accessStatus (c : Chip) (a : Nat) : Nat :=
  let pos := a % 2 ^ 22
  match addrUnit a with
  | none => 1
  | some u =>
    let page := pos / 4096
    if !c.present u then 1
    else if page < 512 && lastPage (unitType u) < page then 1
    else if pos % 8 ≠ 0 then 2
    else if !c.powered u then 3
    else if (match unitRegion u with | some r => c.inReset r | none => false) then 4
    else if 512 ≤ page && !c.flag .security SECURITY.SEC_STS_debug_open then 5
    else 0

/-! ### Free values -/

/-- A value the spec leaves open at this moment, in the low `w` bits (log 5). -/
def Chip.freeVal (c : Chip) (w : Nat) : Nat := (Config.freeValue c.free).toNat % 2 ^ w

/-- The free value just read is used up. -/
def Chip.freeNext (c : Chip) : Chip := { c with free := c.free + 1 }

/-! ### Memories -/

/-- The memory spaces of the model's one byte map. -/
inductive Space where
  /-- Fabric memory of a region endpoint: 96 GiB (R19). -/
  | lintel (r : Nat)
  /-- Block memory, 8 MiB (R205). -/
  | bmem (r b : Nat)
  /-- Memories of a physical cell: scratchpad, tack data memory, instruction memory (R203, R204). -/
  | spad (r b p : Nat)
  | tdm (r b p : Nat)
  | imem (r b p : Nat)
  /-- The instruction shadow of a logical cell (R203). -/
  | shadow (r b l : Nat)
  deriving DecidableEq, Repr

/-- The key of byte 0 of a space; each space has 2^40 keys. -/
def Space.base : Space → Nat
  | .lintel r => r * 2 ^ 40
  | .bmem r b => (0x100 + 16 * r + b) * 2 ^ 40
  | .spad r b p => (0x1000 + 256 * r + 16 * b + p) * 2 ^ 40
  | .tdm r b p => (0x2000 + 256 * r + 16 * b + p) * 2 ^ 40
  | .imem r b p => (0x3000 + 256 * r + 16 * b + p) * 2 ^ 40
  | .shadow r b l => (0x4000 + 256 * r + 16 * b + l) * 2 ^ 40

/-- What a byte that is not listed reads as: memories come up cleared (R193, R437). -/
def memDefault : Byte := 0

/-- The byte at a key. -/
def memRead (m : List Host.Cell) (k : Nat) : Byte := (Tab.find m k).getD memDefault

/-- Store a byte, keeping the canonical form. -/
def memWrite (m : List Host.Cell) (k : Nat) (v : Byte) : List Host.Cell :=
  if v = memDefault then Tab.del m k else Tab.put m k v

/-- The canonical form: keys strictly rising, no entry equal to what an unlisted key reads as. -/
def Memory.wf (m : List Host.Cell) : Bool := Tab.rising m && m.all (fun e => e.2 ≠ memDefault)

/-- Bytes k … k+n-1. -/
def memReadN (m : List Host.Cell) (k n : Nat) : List Byte := (List.range n).map (fun i => memRead m (k + i))

/-- Store bytes from key k on. -/
def memWriteN (m : List Host.Cell) (k : Nat) : List Byte → List Host.Cell
  | [] => m
  | b :: t => memWriteN (memWrite m k b) (k + 1) t

/-- Bytes of a space. -/
def Chip.load (c : Chip) (s : Space) (a n : Nat) : List Byte := memReadN c.mem (s.base + a) n

/-- Store bytes in a space. -/
def Chip.store (c : Chip) (s : Space) (a : Nat) (l : List Byte) : Chip :=
  { c with mem := memWriteN c.mem (s.base + a) l }

/-- Clear every byte of a space. -/
def Chip.clearSpace (c : Chip) (s : Space) : Chip :=
  { c with mem := c.mem.filter (fun e => e.1 / 2 ^ 40 ≠ s.base / 2 ^ 40)
           bad := c.bad.filter (fun k => k / 2 ^ 40 ≠ s.base / 2 ^ 40) }

/-- Is any key of [a, a+n) of a space marked uncorrectable? Marks stand at the granule's first byte. -/
def Chip.badIn (c : Chip) (s : Space) (a n : Nat) : Bool :=
  c.bad.any (fun k => s.base + a ≤ k && k < s.base + a + n)

/-- Mark, or unmark, a granule as uncorrectable. -/
def Chip.markBad (c : Chip) (s : Space) (a : Nat) : Chip :=
  if c.bad.contains (s.base + a) then c else { c with bad := (s.base + a) :: c.bad }

def Chip.clearBad (c : Chip) (s : Space) (a n : Nat) : Chip :=
  { c with bad := c.bad.filter (fun k => k < s.base + a || s.base + a + n ≤ k) }

/-- Drop every register of a region's units: they read their reset values again. -/
def Chip.resetRegs (c : Chip) (p : UnitId → Bool) : Chip :=
  { c with regs := c.regs.filter (fun e => match addrUnit e.1 with | some u => !p u | none => true) }

/-! ### Sub-states -/

def Chip.port (c : Chip) (p : Port) : PortS := Tab.get c.ports p.val {}
def Chip.setPort (c : Chip) (p : Port) (s : PortS) : Chip := { c with ports := Tab.put c.ports p.val s }
def Chip.xbar (c : Chip) (r : Region) : XbarS := Tab.get c.xbars r.val {}
def Chip.setXbar (c : Chip) (r : Region) (s : XbarS) : Chip := { c with xbars := Tab.put c.xbars r.val s }
def Chip.sess (c : Chip) (k : Nat) : SessS := Tab.get c.bridge.sessions k {}
def Chip.setSess (c : Chip) (k : Nat) (s : SessS) : Chip :=
  { c with bridge := { c.bridge with sessions := Tab.put c.bridge.sessions k s } }
def Chip.setCourse (c : Chip) (s : CourseS) : Chip := { c with course := s }

/-- The answer of a direct register access goes back: status, value, and whether a locked field was refused (R50, R60). -/
def Chip.accessed (c : Chip) (st : Nat) (w : Word) (no : Bool) : Chip := { c with access := (st, w, no) }

/-- The region of a port (R6). -/
def portRegion (p : Port) : Region := ⟨p.val / 16, by omega⟩

/-- Port number from a Nat, modulo 64. -/
def portOf (n : Nat) : Port := ⟨n % 64, Nat.mod_lt _ (by decide)⟩
/-- Region number from a Nat, modulo 4. -/
def regionOf (n : Nat) : Region := ⟨n % 4, Nat.mod_lt _ (by decide)⟩

/-- Stack i of region r (R6). -/
def regionStack (r : Region) (i : Fin 2) : Stack := ⟨2 * r.val + i.val, by omega⟩

/-- Is a region's memory filled and ready (R193)? -/
def Chip.memReady (c : Chip) (s : Stack) : Bool := c.flag (.memblk s) MEMBLK.MEM_STS_ready

/-- Apply an operation for each region. -/
def Chip.forRegions (c : Chip) (f : Chip → Region → Chip) : Chip := (List.finRange 4).foldl f c
/-- Apply an operation for each port. -/
def Chip.forPorts (c : Chip) (f : Chip → Port → Chip) : Chip := (List.finRange 64).foldl f c

end Sys2Proof.Machine
end

