-- ==== Sys2Proof/Machine/Flags.lean ====
section
/-! DEFINITION. Every flag the spec gives the block: EVENT bits and their counts (R54 to R57), error captures (R58), the
pending summaries (R62), and the software write of a register with its access types (R11, R60). -/
namespace Sys2Proof.Machine


/-- A unit's base key. -/
def unitKey (u : UnitId) : Nat := regAddr u 0

/-- Set one EVENT bit: R56 counts the set and keeps the bit number. -/
def Chip.raise (c : Chip) (u : UnitId) (b : Nat) : Chip :=
  let n := getBits (c.reg u 0x38) 31 0
  let c := c.setReg u 0x20 (c.reg u 0x20 ||| BitVec.ofNat 64 (2 ^ b))
  let c := c.setReg u 0x38 (setBits (setBits 0 63 56 b) 31 0 (min (n + 1) 0xFFFFFFFF))
  { c with bridge := { c.bridge with told := c.bridge.told.erase u } }

/-- Set every EVENT bit of a mask, lowest first, so that the highest is `last_bit` (R56). -/
def Chip.raiseAll (c : Chip) (u : UnitId) (m : Word) : Chip :=
  (List.range 64).foldl (fun c b => if bitAt m b then c.raise u b else c) c

/-- Raise when a condition holds. -/
def Chip.raiseIf (c : Chip) (p : Bool) (u : UnitId) (b : Nat) : Chip := if p then c.raise u b else c

/-- The common events of Table REG-5. -/
abbrev evLockedWrite : Nat := 0
abbrev evErrCorrected : Nat := 1
abbrev evErrUncorrected : Nat := 2
abbrev evProgressStall : Nat := 3
abbrev evCaptureLost : Nat := 4
abbrev evOverride : Nat := 5
abbrev evPolicyReject : Nat := 6

/-- Load ERR_CAPTURE0 to 7 (R58). -/
def Chip.loadCapture (c : Chip) (u : UnitId) (b code : Nat) (multiple : Bool) (detail : List Word) : Chip :=
  let w0 := setBits (setBits (setBits (setBits (setBits 0 63 63 1) 62 62 (bit multiple)) 61 56 b) 55 48 code)
    47 0 c.courseNow
  let w1 := setBits (setBits 0 47 32 (c.holder u)) 13 0 c.phase
  let c := (c.setReg u 0x40 w0).setReg u 0x48 w1
  (List.range 6).foldl (fun c i => c.setReg u (0x50 + 8 * i) (detail.getD i 0)) c

/-- Does an error with event bit `b` leave a held capture as it is (R58)? -/
def Chip.captureKept (c : Chip) (u : UnitId) (b : Nat) : Bool :=
  let w := c.reg u 0x40
  bitAt w 63 && !(getBits w 61 56 = evErrCorrected && b ≠ evErrCorrected)

/-- An error's capture registers: loaded, or `multiple` of the one that is held (R58). -/
def Chip.takeCapture (c : Chip) (u : UnitId) (b code : Nat) (detail : List Word) : Chip :=
  if c.captureKept u b then c.setReg u 0x40 (setBits (c.reg u 0x40) 62 62 1)
  else c.loadCapture u b code (bitAt (c.reg u 0x40) 63) detail

/-- An error arrives at a unit's capture registers (R58). -/
def Chip.capture (c : Chip) (u : UnitId) (b code : Nat) (detail : List Word := []) : Chip :=
  (c.raiseIf (c.captureKept u b) u evCaptureLost).takeCapture u b code detail

/-- An error: its event, with `capture_lost` in the same cycle where the capture is kept, and its capture. The lower bit is set
first, so that `last_bit` is the higher (R56). -/
def Chip.error (c : Chip) (u : UnitId) (b code : Nat) (detail : List Word := []) : Chip :=
  let lost := c.captureKept u b
  let c := ((c.raiseIf (lost && decide (evCaptureLost < b)) u evCaptureLost).raise u b).raiseIf
    (lost && decide (b < evCaptureLost)) u evCaptureLost
  c.takeCapture u b code detail

/-- Release the capture: ERR_CAPTURE0 to 7 read 0 (R58). -/
def Chip.releaseCapture (c : Chip) (u : UnitId) : Chip :=
  (List.range 8).foldl (fun c i => c.setReg u (0x40 + 8 * i) 0) c

/-- R62: (EVENT AND NOT EVENT_MASK) ≠ 0. -/
def Chip.unitPending (c : Chip) (u : UnitId) : Bool := (c.reg u 0x20 &&& ~~~ c.reg u 0x28) ≠ 0

/-- The bit of a region unit in REGION_EVT_SUM (Table REG-7). -/
def sumBit : UnitId → Nat
  | .region _ => 48 | .fabmem _ => 47 | .cobbler _ => 46 | .sort _ => 45 | .combine _ => 44 | .mortar _ => 43
  | .xbar _ => 42 | .d2d _ i => 38 + i.val | .memblk s => 36 + s.val % 2 | .bufbank _ i => 32 + i.val
  | .cblk _ b => 16 + b.val | .port p => p.val % 16
  | u => 16 + ((unitType u).code - 0x20)

/-- The units of a region in ascending bit order of REGION_EVT_SUM. -/
def regionUnits (r : Region) : List UnitId :=
  (List.finRange 16).map (fun i => UnitId.port ⟨16 * r.val + i.val, by omega⟩)
    ++ (List.finRange 16).map (fun b => UnitId.cblk r b)
    ++ (List.finRange 4).map (fun i => UnitId.bufbank r i)
    ++ (List.finRange 2).map (fun i => UnitId.memblk ⟨2 * r.val + i.val, by omega⟩)
    ++ ((List.finRange 4).filter (fun i => i ≠ r)).map (fun i => UnitId.d2d r i)
    ++ [.xbar r, .mortar r, .combine r, .sort r, .cobbler r, .fabmem r, .region r]

/-- The chip-scope units in code order. -/
def chipUnits : List UnitId :=
  [.chip, .boot, .fuse, .security, .course, .plumb, .hostbr, .hostport, .power, .awl, .repoint]

/-- REGION_EVT_SUM (R62). -/
def Chip.regionSum (c : Chip) (r : Region) : Word :=
  (regionUnits r).foldl (fun w u => if c.present u && c.unitPending u then w ||| BitVec.ofNat 64 (2 ^ sumBit u) else w) 0

/-- R62: is region r pending at chip level? -/
def Chip.regionPending (c : Chip) (r : Region) : Bool :=
  (c.regionSum r &&& ~~~ c.reg (.region r) 0x108) ≠ 0

/-- CHIP_EVT_SUM (R62). -/
def Chip.chipSum (c : Chip) : Word :=
  let w := chipUnits.foldl (fun w u => if c.unitPending u then w ||| BitVec.ofNat 64 (2 ^ sumBit u) else w) (0 : Word)
  (List.finRange 4).foldl (fun w r => if c.regionPending r then w ||| BitVec.ofNat 64 (2 ^ r.val) else w) w

/-- Is a unit pending with no mask hiding it on the path to chip level (R62, R63)? -/
def Chip.pendingAtChip (c : Chip) (u : UnitId) : Bool :=
  c.present u && c.unitPending u &&
  (match unitRegion u with
   | some r => !bitAt (c.reg (.region r) 0x108) (sumBit u) && !bitAt (c.reg .chip 0x130) r.val
   | none => !bitAt (c.reg .chip 0x130) (sumBit u))

/-- After a write that may have cleared or masked events: a unit no longer pending at chip level may be told again. -/
def Chip.settle (c : Chip) : Chip :=
  { c with bridge := { c.bridge with told := c.bridge.told.filter (fun u => c.pendingAtChip u) } }

/-- R54: PROGRESS of a unit: `count` advances by `n`, `pending` follows. -/
def Chip.progress (c : Chip) (u : UnitId) (pending : Bool) (n : Nat := 1) : Chip :=
  c.setReg u 0x80 (setBits (setBits 0 63 63 (bit pending)) 47 0 (getBits (c.reg u 0x80) 47 0 + n))

/-! ### A software write -/

/-- The word a write leaves (R11): RW takes the value; RWL takes it unless the unit is held; W1C clears; WO keeps its
write-only contents; the rest stays. -/
def writeWord (t : UnitType) (pos : Nat) (held : Bool) (old new : Word) : Word :=
  let w := mux (accMask t pos .rw) old new
  let w := if held then w else mux (accMask t pos .rwl) w new
  let w := w &&& ~~~ (new &&& accMask t pos .w1c)
  if t = .hostport then mux (accMask t pos .wo) w new else w

/-- Would the write change an RWL field of a held unit (R60)? -/
def writeRefused (t : UnitType) (pos : Nat) (held : Bool) (old new : Word) : Bool :=
  held && ((old ^^^ new) &&& accMask t pos .rwl) ≠ 0

/-- A write with the plain effect of its access types, and whether an RWL field was refused (R60). -/
def Chip.plainWrite (c : Chip) (u : UnitId) (pos : Nat) (v : Word) : Chip × Bool :=
  let t := unitType u
  let old := c.reg u pos
  let no := writeRefused t pos (c.held u) old v
  let c := c.setReg u pos (writeWord t pos (c.held u) old v)
  (if no then c.raise u evLockedWrite else c, no)

end Sys2Proof.Machine
end

