-- ==== Sys2Proof/Machine/Operands.lean ====
section
/-! DEFINITION. The operand forms: fields of packet headers (Table FWD-1), flit headers (Table LINK-6) and Welt headers
(Table WELT-2), and how a command's answer is made. -/
namespace Sys2Proof.Machine

/-- The state after a command that leaves the chip as `c`. The queue stays; no command writes the fuses (R470), and none
takes time (log 1). -/
def State.put (s : State) (c : Chip) : State := ⟨s.pending, { c with fuses := s.chip.fuses, now := s.chip.now }⟩

/-- A command whose whole effect is a change of the chip. -/
def State.on (s : State) (f : Chip → Chip) : Host.Outcome State Fault Refusal := .next (s.put (f s.chip))

/-- The same for a command of region r's units: while its partition sequence runs they issue nothing new (R416). -/
def State.onLive (r : Region) (s : State) (f : Chip → Chip) : Host.Outcome State Fault Refusal :=
  s.on (fun c => if c.partStep r = 0 then f c else c)

/-- R50, Table REG-8: an access of the host bridge that returned ABSENT, MISALIGNED or DEBUG_LOCKED. -/
def Chip.accessFault (c : Chip) (a st : Nat) : Chip :=
  if st = 1 || st = 2 || st = 5 then
    let c := c.error .chip (if st = 5 then CHIP.ev_debug_locked_access else CHIP.ev_absent_access) 0x86 [BitVec.ofNat 64 a]
    if bitAt (c.reg .chip 0x138) 63 then c
    else c.setReg .chip 0x138 (setBits (setBits (setBits 0 63 63 1) 42 40 st) 39 0 a)
  else c

/-- A write to position `pos` of a unit: only status OK performs it (R50); the status and the refusal of R60 go back. An absent
unit is the host bridge's alone to name, and its access is recorded. -/
def State.onReg (u : UnitId) (s : State) (f : Chip → Chip × Bool) (pos : Nat) : Host.Outcome State Fault Refusal :=
  s.on (fun c =>
    let st := c.accessStatus (regAddr u pos)
    if st = 0 then (f c).1.accessed 0 0 (f c).2 else (c.accessFault (regAddr u pos) st).accessed st 0 false)

/-! ### Packets -/

end Sys2Proof.Machine

namespace Sys2Proof
open Sys2Proof.Machine

def Packet.version (p : Packet) : Nat := getBits p.w0 63 60
def Packet.kind (p : Packet) : Nat := getBits p.w0 59 56
def Packet.tc (p : Packet) : Nat := getBits p.w0 55 53
def Packet.mcast (p : Packet) : Bool := bitAt p.w0 52
def Packet.hops (p : Packet) : Nat := getBits p.w0 51 50
def Packet.detoured (p : Packet) : Bool := bitAt p.w0 49
def Packet.dst (p : Packet) : Nat := getBits p.w0 48 37
def Packet.src (p : Packet) : Nat := getBits p.w0 36 25
def Packet.len (p : Packet) : Nat := getBits p.w0 24 11
def Packet.job (p : Packet) : Nat := getBits p.w1 63 48
def Packet.crc (p : Packet) : Nat := getBits p.w3 63 32

/-- The header bytes that pkt_crc covers: W3 [63:32] counts as 0 (R104). -/
def Packet.crcBytes (p : Packet) : List Byte :=
  wordBytes p.w0 ++ wordBytes p.w1 ++ wordBytes p.w2 ++ wordBytes (setBits p.w3 63 32 0) ++ p.payload

/-- The CRC of R104. -/
def Packet.crcOf (p : Packet) : Nat := crc32c p.crcBytes

/-- The packet with its CRC set. -/
def Packet.seal (p : Packet) : Packet := { p with w3 := setBits p.w3 63 32 p.crcOf }

/-- The packet's header and payload bytes. -/
def Packet.bytes (p : Packet) : List Byte :=
  wordBytes p.w0 ++ wordBytes p.w1 ++ wordBytes p.w2 ++ wordBytes p.w3 ++ p.payload

/-- The bytes on a link: padded with zeros to a multiple of 16 (R82). -/
def Packet.wire (p : Packet) : List Byte :=
  p.bytes ++ List.replicate (roundUp p.bytes.length 16 - p.bytes.length) 0

/-- A packet from its bytes; the payload is what follows the header. -/
def Packet.ofBytes (l : List Byte) : Packet :=
  ⟨wordAt l 0, wordAt l 8, wordAt l 16, wordAt l 24, l.drop 32⟩

/-- ceil((32 + length) / 512): the cells and credits a packet takes (R89, R107). -/
def Packet.cells (p : Packet) : Nat := ceilDiv (32 + p.len) 512

/-- 32 + round_up(length, 16): the size that meters and monitors use (R136, R144). -/
def Packet.size (p : Packet) : Nat := 32 + roundUp p.len 16

end Sys2Proof

namespace Sys2Proof.Machine

/-- A packet header's first word (Table FWD-1). -/
def packW0 (kind tc : Nat) (mcast : Bool) (dst src len : Nat) : Word :=
  setBits (setBits (setBits (setBits (setBits (setBits (setBits 0 63 60 2) 59 56 kind) 55 53 tc) 52 52 (bit mcast))
    48 37 dst) 36 25 src) 24 11 len

/-- A packet of a region endpoint, with its CRC. -/
def mkPacket (kind tc : Nat) (mcast : Bool) (dst src job : Nat) (w1 w2 : Word) (w3 : Nat) (payload : List Byte) :
    Packet :=
  Packet.seal ⟨packW0 kind tc mcast dst src payload.length, setBits w1 63 48 job, w2, setBits 0 31 0 w3, payload⟩

/-! ### Flits -/

def Flit.type (f : Flit) : Nat := getBits f.header 63 60
def Flit.seq (f : Flit) : Nat := getBits f.header 59 48
def hdrType (h : Word) : Nat := getBits h 63 60
def hdrSeq (h : Word) : Nat := getBits h 59 48
def hdrAck (h : Word) : Nat := getBits h 47 36
def hdrAckValid (h : Word) : Bool := bitAt h 35
def hdrCreditTc (h : Word) : Nat := getBits h 34 32
def hdrCredit (h : Word) : Nat := getBits h 31 16
def hdrPktStart (h : Word) : Nat := getBits h 15 12

/-! ### Welt messages -/

def Welt.version (m : Welt) : Nat := getBits m.w0 63 60
def Welt.type (m : Welt) : Nat := getBits m.w0 59 52
def Welt.session (m : Welt) : Nat := getBits m.w0 51 48
def Welt.job (m : Welt) : Nat := getBits m.w0 47 32
def Welt.seq (m : Welt) : Nat := getBits m.w0 31 0
def Welt.ack (m : Welt) : Nat := getBits m.w1 63 32
def Welt.len (m : Welt) : Nat := getBits m.w1 31 18
def Welt.at (m : Welt) : Bool := bitAt m.w1 13
def Welt.stopOnError (m : Welt) : Bool := bitAt m.w1 12
def Welt.nak (m : Welt) : Bool := bitAt m.w1 9
def Welt.argA (m : Welt) : Word := m.w2
def Welt.argB (m : Welt) : Nat := getBits m.w3 31 0
def Welt.crc (m : Welt) : Nat := getBits m.w3 63 32

/-- The CRC of R389 over the header, W3 [63:32] taken as 0, and the payload. -/
def Welt.crcOf (m : Welt) : Nat :=
  crc32c (wordBytes m.w0 ++ wordBytes m.w1 ++ wordBytes m.w2 ++ wordBytes (setBits m.w3 63 32 0) ++ m.payload)

/-- A message from a UDP payload. -/
def Welt.ofBytes (l : List Byte) : Welt := ⟨wordAt l 0, wordAt l 8, wordAt l 16, wordAt l 24, l.drop 32⟩

end Sys2Proof.Machine
end

