-- ==== Sys2Proof/Machine/Switch.lean ====
section
/-! DEFINITION. The switch slice: cells and allotments (R107, R108), routes, twins, detours and SEALs (R118 to R123),
multicast expansion (R117), the virtual output queues (R109) and a port that goes down (R125). -/
namespace Sys2Proof.Machine

def Chip.modPort (c : Chip) (p : Port) (f : PortS → PortS) : Chip := c.setPort p (f (c.port p))
def Chip.modXbar (c : Chip) (r : Region) (f : XbarS → XbarS) : Chip := c.setXbar r (f (c.xbar r))

/-- Table LINK-2: the state in force, 0 to 10. -/
def Chip.portState (c : Chip) (p : Port) : Nat := c.fld (.port p) PORT.PORT_STS_state
/-- PORT_STS `role`: 0 endpoint, 1 switch, 2 peer, 3 loop-back. -/
def Chip.portRole (c : Chip) (p : Port) : Nat := c.fld (.port p) PORT.PORT_STS_role
def Chip.portActive (c : Chip) (p : Port) : Bool := c.portState p = 7

/-- The course length in force, in s-cycles (Table CLK-1). -/
def Chip.courseCycles (c : Chip) : Nat := 1600 * 2 ^ c.fld .course COURSE.TICK_STS_len_eff

/-- Does the s-cycle in which the last boundary was placed still last? -/
def Chip.atBoundary (c : Chip) : Bool := c.course.running && c.now = c.course.boundaryAt

/-! ### Cells -/

/-- The grant of a port's class that R108 counts: the larger of the one in force and the one written. -/
def Chip.grantOf (c : Chip) (p : Port) (tc : Nat) : Nat :=
  let written := if tc < 4 then getBits (c.reg (.port p) 0x138) (16 * tc + 15) (16 * tc)
    else getBits (c.reg (.port p) 0x140) (16 * (tc - 4) + 15) (16 * (tc - 4))
  match (c.port p).grants with
  | some g => max written (g.getD tc 0)
  | none => written

/-- Cells of the stored packets that satisfy a test; a packet that waits before its queue is one of them (R108, R137). -/
def XbarS.cellsOf (x : XbarS) (p : Stored → Bool) : Nat := x.store.foldl (fun n e => if p e.2 then n + e.2.cells else n) 0

/-- Cells of one input and class in the buffer. -/
def XbarS.usedBy (x : XbarS) (inp tc : Nat) : Nat := x.cellsOf (fun s => s.inp = inp && s.tc = tc)

/-- Cells of the four region endpoint inputs. -/
def XbarS.endpointUsed (x : XbarS) : Nat := x.cellsOf (fun s => 16 ≤ s.inp)

/-- All cells in use. -/
def XbarS.used (x : XbarS) : Nat := x.cellsOf (fun _ => true)

/-- Cells whose place, bank * 16 + sub-bank, satisfies a test. -/
def XbarS.placed (x : XbarS) (p : Nat → Bool) : Nat :=
  x.store.foldl (fun n e => n + (e.2.places.filter p).length) 0

/-- Cells in one bank. -/
def XbarS.bankUsed (x : XbarS) (i : Nat) : Nat := x.placed (fun k => k / 16 = i)

/-- A count in use and its peak: the most since the last read covers the count before this change (R13). -/
def Chip.follow (c : Chip) (u : UnitId) (used peak : Fld) (n : Nat) : Chip :=
  ((c.peak u peak (c.fld u used)).setFld u used n).peak u peak n

/-- BUF_STS and BANK_STS follow the buffer. -/
def Chip.recount (c : Chip) (r : Region) : Chip :=
  let c := c.follow (.xbar r) XBAR.BUF_STS_cells_used XBAR.BUF_STS_peak_used (c.xbar r).used
  (List.finRange 4).foldl
    (fun c i => c.setFld (.bufbank r i) BUFBANK.BANK_STS_cells_used ((c.xbar r).bankUsed i.val)) c

/-- Is a buffer bank in service: its domain on and not requested off (R108)? -/
def Chip.bankServes (c : Chip) (r i : Nat) : Bool :=
  c.domOn (136 + 4 * r + i) && bitAt (c.reg .power 0x148) (8 + 4 * r + i)

/-- Sub-banks of a bank lost with no spare left (R413). -/
def Chip.banksLost (c : Chip) (r : Region) (i : Nat) : Nat :=
  (List.range 16).foldl (fun n s => if (Tab.get (c.xbar r).subLost i 0) / 2 ^ s % 2 = 1 then n + 1 else n) 0

/-- Capacity with the banks that `serves` keeps in service (R108, R439). -/
def Chip.capacityWith (c : Chip) (r : Region) (serves : Nat → Bool) : Nat :=
  (List.range 4).foldl (fun n i => if serves i then n + (24576 - 1536 * c.banksLost r i) else n) 0

/-- The region's capacity in cells (R108). -/
def Chip.capacity (c : Chip) (r : Region) : Nat := c.capacityWith r (fun i => c.bankServes r.val i)

/-- All grants of a port. -/
def Chip.portGrants (c : Chip) (p : Port) : Nat := (List.range 8).foldl (fun n t => n + c.grantOf p t) 0

/-- The region's total commitment (R108). -/
def Chip.commitment (c : Chip) (r : Region) : Nat :=
  (List.range 16).foldl (fun n k => n + c.portGrants (portOf (16 * r.val + k))) 0
    + c.fld (.xbar r) XBAR.BUF_ALLOT_endpoint + c.fld (.xbar r) XBAR.BUF_ALLOT_journal

/-- Does a changed state raise the commitment above the capacity (R108)? -/
def overcommits (before after : Chip) (r : Region) : Bool :=
  before.commitment r < after.commitment r && after.capacity r < after.commitment r

/-- The cumulative count of a class grows by `n` cells (R89). -/
def PortS.giveBack (s : PortS) (tc n : Nat) : PortS :=
  { s with
    returned := s.returned.set tc ((s.returned.getD tc 0) + BitVec.ofNat 16 n)
    creditOrder := s.creditOrder.filter (· ≠ tc) ++ [tc] }

/-- Freed cells return as credits to the port they came from (R89, R105); a frozen region withholds them (R416). -/
def Chip.returnCredits (c : Chip) (r : Region) (inp tc n : Nat) : Chip :=
  if inp < 16 then
    c.modPort (portOf (16 * r.val + inp)) (fun s =>
      if c.partStep r = 0 then s.giveBack tc n else { s with owed := s.owed ++ [(tc, n)] })
  else c

/-- The packet leaves the buffer: its cells are free (R114, R116). -/
def Chip.freePacket (c : Chip) (r : Region) (id : Nat) : Chip :=
  match Tab.find (c.xbar r).store id with
  | none => c
  | some st =>
    let c := c.modXbar r (fun x => { x with store := Tab.del x.store id })
    (c.returnCredits r st.inp st.tc st.cells).recount r

/-- One descriptor is done; with the last one the cells are free (R116). -/
def Chip.descDone (c : Chip) (r : Region) (id : Nat) : Chip :=
  match Tab.find (c.xbar r).store id with
  | none => c
  | some st =>
    if st.copies ≤ 1 then c.freePacket r id
    else c.modXbar r (fun x => { x with store := Tab.put x.store id { st with copies := st.copies - 1 } })

/-- Copy descriptors of a region in use of the 16,384: those in its queues, and those whose packet crosses to an output of
any region (R109). -/
def Chip.copiesUsed (c : Chip) (r : Region) : Nat :=
  (List.finRange 4).foldl (fun n q => n + ((c.xbar q).pairs.filter (fun p => p.ent.copy && p.src = r.val)).length)
    ((c.xbar r).queue.filter (·.copy)).length

/-! ### Depth (R145) -/

/-- The packet an entry stands for. -/
def Chip.entPacket (c : Chip) (r : Region) (e : QEnt) : Option Packet := (Tab.find (c.xbar r).store e.id).map (·.pkt)

/-- Cells that staging keeps for a class, whole packets counted. -/
def stagedCells (l : List Staged) (tc : Nat) : Nat := l.foldl (fun n s => if s.tc = tc then n + s.cells else n) 0

/-- Cells queued toward a port in a class, in all regions and its staging (R145). -/
def Chip.depthOf (c : Chip) (p : Port) (tc : Nat) : Nat :=
  let inQueues := (List.finRange 4).foldl (fun n r => (c.xbar r).queue.foldl (fun n e =>
    if e.out = p.val && e.tc = tc then n + ((c.entPacket r e).map Packet.cells).getD 0 else n) n) 0
  inQueues + stagedCells (Tab.get (c.xbar (portRegion p)).staging (p.val % 16) []) tc

/-- `depth_peak` follows a change of an output's depth. -/
def Chip.notePeak (c : Chip) (out tc : Nat) : Chip :=
  if out < 64 then c.peak (.port (portOf out)) (PORT.QDEPTH_depth_peak.plus (24 * tc)) (c.depthOf (portOf out) tc) else c

/-! ### Routes -/

/-- The parity that chooses a port of a pair (R119). -/
def oddParity (n : Nat) : Bool := (List.range 12).foldl (fun b i => b != (n / 2 ^ i % 2 = 1)) false

/-- Does region r route traffic on this peer port: ACTIVE and not miswired for it (R119, R120)? -/
def Chip.peerUsable (c : Chip) (r : Region) (p : Nat) : Bool :=
  p < 64 && c.portActive (portOf p) && c.portRole (portOf p) = 2 && !(c.xbar r).miswired.contains p

/-- The two ports that PEER_MAP lists for a Pysum. -/
def Chip.peerPair (c : Chip) (r : Region) (n : Nat) : Option (Nat × Nat) :=
  let w := c.reg (.xbar r) (0xE000 + 8 * n)
  if bitAt w 63 then some (getBits w 5 0, getBits w 13 8) else none

/-- Where a unicast packet goes: final output, next Pysum (64 for local delivery), the port it moved off, and, when it
takes the detour, the next Pysum of its primary route. -/
structure Way where
  out : Nat
  next : Nat
  left : Option Nat
  avoids : Option Nat
  deriving DecidableEq, Repr

/-- How recently the traffic for t left a port: 0 for the newest change of route; none when no change in force left it. -/
def XbarS.leftAt (x : XbarS) (t p : Nat) : Option Nat :=
  let k := x.moved.findIdx (· = (t, p))
  if k < x.moved.length then some k else none

/-- The ports of a pair in the order of a packet's parity (R119). -/
def byParity (pair : Nat × Nat) (src dst : Nat) : Nat × Nat :=
  if oddParity (src ^^^ dst) then (pair.2, pair.1) else pair

/-- The port towards the next Pysum n for target t, and the port the traffic has left: the parity's port, or its twin
(R119). A port that a change of route in force has left is taken again only when the twin no longer serves, or was left
later (R123). -/
def Chip.wayTo (c : Chip) (r : Region) (t n src dst : Nat) : Option (Nat × Option Nat) :=
  match c.peerPair r n with
  | none => none
  | some pair =>
    let (a, b) := byParity pair src dst
    let x := c.xbar r
    let newer := match x.leftAt t a, x.leftAt t b with
      | some i, some j => decide (i < j)
      | some _, none => true
      | none, _ => false
    let (p, q) := if newer then (b, a) else (a, b)
    let moved := fun k => if (x.leftAt t k).isSome then some k else none
    if c.peerUsable r p then some (p, if p = b then some a else moved b)
    else if c.peerUsable r q then some (q, some p)
    else none

/-- Do two Pysums share a row or a column of the pod? -/
def sameLine (a b : Nat) : Bool := a / 8 = b / 8 || a % 8 = b % 8

/-- The route entry of an EPID: valid, target Pysum, target output, first dimension. -/
def Chip.routeEntry (c : Chip) (r : Region) (e : Nat) : Bool × Nat × Nat × Nat :=
  let w := c.reg (.xbar r) (0x1000 + 8 * e)
  (bitAt w 63, getBits w 62 57, getBits w 56 50, getBits w 49 49)

/-- Is a Pysum in LOST_MAP of a region (R425)? -/
def Chip.lost (c : Chip) (r : Region) (t : Nat) : Bool := bitAt (c.reg (.fabmem r) 0x140) t

/-- The next Pysum on the way from s to t (R118). -/
def nextHop (s t firstDim : Nat) : Nat :=
  if sameLine s t then t else if firstDim = 0 then s / 8 * 8 + t % 8 else t / 8 * 8 + s % 8

/-- R121: the detour of traffic for t whose next Pysum is n: the port that leads to `via`, and the port left. A next Pysum
without a valid PEER_MAP entry counts as a pair with no ACTIVE port (DESIGN CHOICE, log 256). -/
def Chip.detourOf (c : Chip) (r : Region) (t n src dst hops : Nat) : Option Way :=
  let w := c.reg (.xbar r) (0xD000 + 8 * t)
  let via := getBits w 5 0
  if hops ≤ 1 && bitAt w 63 && via ≠ c.pysum && sameLine c.pysum via then
    (c.wayTo r t via src dst).map (fun e =>
      let left := match c.peerPair r n with
        | some pair =>
          let (a, b) := byParity pair src dst
          if ((c.xbar r).leftAt t a).isSome && ((c.xbar r).leftAt t b).isNone then b else a
        | none => 64
      ⟨e.1, via, some left, some n⟩)
  else none

/-- R118 to R121: the way of a unicast packet that arrived with `hops`. A detour in force goes on while it serves (R123). -/
def Chip.wayOf (c : Chip) (r : Region) (src dst hops : Nat) : Option Way :=
  let (valid, t, tout, fd) := c.routeEntry r dst
  let s := c.pysum
  if !valid then none
  else if t = s then (if tout < 68 then some ⟨tout, 64, none, none⟩ else none)
  else if c.card || hops = 3 then none
  else
    let n := nextHop s t fd
    let pair := (c.wayTo r t n src dst).map (fun e => (⟨e.1, n, e.2, none⟩ : Way))
    let round := c.detourOf r t n src dst hops
    if (c.xbar r).moved.contains (t, 128 + n) then round.or pair else pair.or round

/-- The first word of a packet that leaves for `next`: a peer link adds one to `hops` (Table FWD-1), a move sets
`detoured` (R121). -/
def outW0 (w0 : Word) (next : Nat) (moved : Bool) : Word :=
  let w := if next < 64 then setBits w0 51 50 (getBits w0 51 50 + 1) else w0
  if moved then setBits w 49 49 1 else w

/-- Is a sub-bank under sparing: from the request on it takes no cell (R413)? -/
def Chip.subDraining (c : Chip) (r bank sub : Nat) : Bool :=
  let mine := fun (e : Element) => match e with | .subbank r' i s => r'.val = r && i.val = bank && s.val = sub | _ => false
  c.repoint.queue.any (fun q => mine q.elem) || c.repoint.waiting.any mine

/-- Sub-banks that take cells, bank * 16 + sub-bank, each with its free cells of 1,536: in service (R108), not lost and not
draining (R413). -/
def Chip.freeSubs (c : Chip) (r : Region) : List (Nat × Nat) :=
  let x := c.xbar r
  (List.range 64).filterMap (fun k =>
    let room := 1536 - x.placed (· = k)
    if c.bankServes r.val (k / 16) && (Tab.get x.subLost (k / 16) 0) / 2 ^ (k % 16) % 2 = 0
        && !c.subDraining r.val (k / 16) (k % 16) && 0 < room then some (k, room) else none)

/-- Has the buffer n free cells? -/
def Chip.roomFor (c : Chip) (r : Region) (n : Nat) : Bool := n ≤ (c.freeSubs r).foldl (fun k e => k + e.2) 0

/-- Places of n cells, each in one of the sub-banks that still have room; the k-th takes free value `from_` + k. -/
def placeCells (from_ : Nat) : Nat → List (Nat × Nat) → List Nat
  | 0, _ => []
  | n + 1, l =>
    let i := (Config.freeValue (from_ + n)).toNat % l.length
    match l[i]? with
    | none => []
    | some (k, room) => k :: placeCells from_ n (if room ≤ 1 then l.eraseIdx i else l.set i (k, room - 1))

/-- Store a packet in a region's buffer. The spec leaves open which banks and sub-banks take its cells: free values among
those in service with room (R107, log 5). -/
def Chip.keep (c : Chip) (r : Region) (inp : Nat) (pkt : Packet) : Chip × Nat :=
  let x := c.xbar r
  let st : Stored := ⟨pkt, inp, pkt.tc, pkt.cells, 1, c.now, placeCells c.free pkt.cells (c.freeSubs r), false⟩
  let c := { c with free := c.free + pkt.cells }.setXbar r { x with store := Tab.put x.store x.nextId st, nextId := x.nextId + 1 }
  (c.recount r, x.nextId)

/-- A packet of the region's own units waits at a region endpoint input to be stored (R110). Units share input 16 but for
the host bridge, which uses 19 (DESIGN CHOICE, log 31). -/
def Chip.arrive (c : Chip) (r : Region) (inp : Nat) (a : Arrival) : Chip :=
  c.modXbar r (fun x => { x with arrivals := Tab.put x.arrivals inp (Tab.get x.arrivals inp [] ++ [a]) })

/-- The SEAL that marks traffic leaving a port for the target that entry `dst` names (R122). -/
def Chip.sealPacket (c : Chip) (r : Region) (left dst : Nat) : Packet :=
  Packet.seal ⟨packW0 7 0 false dst (c.epid r) 0, setBits (setBits 0 47 42 c.pysum) 41 0 c.courseNow,
    BitVec.ofNat 64 left, 0, []⟩

/-- Is an entry of the queue a SEAL that the region built: it stands at input 16 with no copy descriptor. -/
def Chip.isSeal (c : Chip) (r : Region) (e : QEnt) : Bool :=
  e.inp = 16 && match c.entPacket r e with | some p => p.kind = 7 && p.src = c.epid r | none => false

/-- R122: the SEAL goes, at the head of their queues, to the ACTIVE ports of the pair left and to the new path. Its one cell
is taken whatever the endpoint allotment holds: moved traffic waits for it (DESIGN CHOICE, log 257). -/
def Chip.sendSeal (c : Chip) (r : Region) (pkt : Packet) (pair : List Nat) (out next : Nat) : Chip :=
  let outs := (pair.filter (fun p => c.portActive (portOf p)) ++ [out]).eraseDups
  let (c, id) := c.keep r 16 pkt
  let ents := outs.map (fun o => (⟨id, 16, o, 0, outW0 pkt.w0 next false, false, next⟩ : QEnt))
  let c := c.modXbar r (fun x =>
    { x with
      queue := ents ++ x.queue
      store := x.store.map (fun e => if e.1 = id then (id, { e.2 with copies := outs.length }) else e) })
  outs.foldl (fun c o => c.notePeak o 0) (c.bump (.xbar r) XBAR.DETOUR_COUNT_seals_sent)

/-- R122, R123: traffic for t leaves a port for an output: the change of route is noted, and with the first packet one SEAL
goes ahead. Nothing is new while the noted change stands. -/
def Chip.noteMove (c : Chip) (r : Region) (t n left out next : Nat) (avoids : Option Nat) : Chip :=
  let x := c.xbar r
  let standing := match avoids with
    | some n => x.moved.contains (t, 128 + n) && (left ≥ 64 || x.moved.contains (t, left))
    | none => match x.leftAt t left, x.leftAt t out with
      | some i, some j => decide (i < j)
      | some _, none => true
      | none, _ => false
  if standing then c
  else
    let fresh := (match avoids with | some n => [(t, 128 + n)] | none => []) ++ (if left < 64 then [(t, left)] else [])
    let c := c.modXbar r (fun x => { x with moved := fresh ++ x.moved.filter (fun m => !fresh.contains m) })
    if left ≥ 64 then c
    else match firstFrom 4096 0 (fun e => let en := c.routeEntry r e; en.1 && en.2.1 = t) with
      | none => c
      | some e =>
        let pair := match c.peerPair r n with | some (a, b) => [a, b] | none => []
        c.sendSeal r (c.sealPacket r left e) pair out next

/-- Counting of a move at the Pysum that first makes it (R121). -/
def Chip.countMove (c : Chip) (r : Region) (already detour : Bool) : Chip :=
  if already then c
  else if detour then (c.bump (.xbar r) XBAR.DETOUR_COUNT_detours_taken).raise (.xbar r) XBAR.ev_detour_taken
  else c.bump (.xbar r) XBAR.DETOUR_COUNT_twin_moves

/-- R121, R122: a packet whose way has left a port: the change of route is noted and the move counted. -/
def Chip.moveOff (c : Chip) (r : Region) (pkt : Packet) (w : Way) : Chip :=
  match w.left with
  | none => c
  | some left =>
    let (_, t, _, fd) := c.routeEntry r pkt.dst
    (c.noteMove r t (nextHop c.pysum t fd) left w.out w.next w.avoids).countMove r pkt.detoured w.avoids.isSome

/-- Is an output a port whose packets are discarded at once (R125)? -/
def Chip.deadOut (c : Chip) (out : Nat) : Bool := out < 64 && (c.port (portOf out)).dead

/-- A discard under the dead-output rule counts where the buffer held the packet (R125). -/
def Chip.deadDiscard (c : Chip) (r : Region) : Chip :=
  (c.bump (.xbar r) XBAR.DETOUR_COUNT_dead_discards).raise (.xbar r) XBAR.ev_dead_discard

/-- A descriptor joins its virtual output queue (R109), and the output's depth follows. -/
def Chip.putQueue (c : Chip) (r : Region) (e : QEnt) : Chip :=
  (c.modXbar r (fun x => { x with queue := x.queue ++ [e] })).notePeak e.out e.tc

/-- A stored, routed unicast packet joins its virtual output queue (R107, R109). -/
def Chip.enqueue (c : Chip) (r : Region) (id : Nat) (w : Way) : Chip :=
  match Tab.find (c.xbar r).store id with
  | none => c
  | some st =>
    if c.deadOut w.out then (c.deadDiscard r).freePacket r id
    else (c.moveOff r st.pkt w).putQueue r ⟨id, st.inp, w.out, st.tc, outW0 st.pkt.w0 w.next w.left.isSome, false, w.next⟩

/-- The port of an input, if it is a port's (R110). -/
def inputPort (r : Region) (inp : Nat) : Option Port := if inp < 16 then some (portOf (16 * r.val + inp)) else none

/-- The way of a unicast packet: a port on the endpoint side delivers to its own region endpoint (R80). -/
def Chip.ingressWay (c : Chip) (r : Region) (inp : Nat) (pkt : Packet) : Option Way :=
  let near := match inputPort r inp with | some p => decide (c.portRole p = 0) | none => false
  if near then some ⟨64 + r.val, 64, none, none⟩ else c.wayOf r pkt.src pkt.dst pkt.hops

/-- A packet that passed its checks and has no way fails check 7 (R121). -/
def Chip.wayGone (c : Chip) (r : Region) (inp : Nat) (w0 : Word) : Chip :=
  (c.bump (.xbar r) XBAR.XBAR_COUNT_unroutable).error (.xbar r) XBAR.ev_unroutable 0x23 [w0, BitVec.ofNat 64 (256 * inp + 7)]

/-- A stored packet goes on from its input: it joins its queue, or finds no way and is discarded. -/
def Chip.goOn (c : Chip) (r : Region) (id : Nat) (pkt : Packet) : Chip :=
  match Tab.find (c.xbar r).store id with
  | none => c
  | some st => match c.ingressWay r st.inp pkt with
    | some w => c.enqueue r id w
    | none => (c.wayGone r st.inp pkt.w0).freePacket r id

/-! ### Multicast -/

/-- The outputs of a group entry for a packet that arrived with `hops` (Table FWD-4): local ports and endpoints, and, from
outside a peer link, one copy per peer of the scope, each with its next Pysum and the port left; peers without a usable port
are counted apart (R117). -/
def Chip.mcastOuts (c : Chip) (r : Region) (pkt : Packet) (arrived : Option Nat) : List (Nat × Nat × Option Nat) × Nat :=
  let g := pkt.dst
  let a := c.reg (.xbar r) (0x9000 + 16 * g)
  let b := c.reg (.xbar r) (0x9008 + 16 * g)
  let locals := ((List.range 64).filter (fun p => bitAt b p && some p ≠ arrived)).map (fun p => (p, 64, none))
    ++ ((List.range 4).filter (fun i => bitAt a (48 + i))).map (fun i => (64 + i, 64, none))
  let scope := getBits a 62 61
  let s := c.pysum
  if pkt.hops = 0 && !c.card && (scope = 1 || scope = 2) then
    let own := if scope = 1 then s % 8 else s / 8
    let peers := (List.range 8).filter (fun i => bitAt a (52 + i) && i ≠ own)
    peers.foldl (fun (acc : List (Nat × Nat × Option Nat) × Nat) i =>
      let n := if scope = 1 then s / 8 * 8 + i else i * 8 + s % 8
      match c.wayTo r n n pkt.src g with
      | some (p, left) => if some p = arrived then acc else (acc.1 ++ [(p, n, left)], acc.2)
      | none => (acc.1, acc.2 + 1)) (locals, 0)
  else (locals, 0)

/-- The copies that a multicast packet is owed, in ascending output order (R116): a peer without a usable port counts in
`unroutable` (R117), a dead output is discarded (R125), and each of the others will free the packet's cells with its like. -/
def Chip.owedCopies (c : Chip) (r : Region) (id : Nat) (pkt : Packet) (arrived : Option Nat) :
    Chip × List (Nat × Nat × Option Nat) :=
  let (outs, missing) := c.mcastOuts r pkt arrived
  let outs := (List.range 68).foldl (fun l o => l ++ outs.filter (fun e => e.1 = o)) []
  let live := outs.filter (fun e => !c.deadOut e.1)
  let c := (List.range missing).foldl (fun c _ =>
    (c.bump (.xbar r) XBAR.XBAR_COUNT_unroutable).raise (.xbar r) XBAR.ev_unroutable) c
  let c := (List.range (outs.length - live.length)).foldl (fun c _ => c.deadDiscard r) c
  (c.modXbar r (fun x => { x with store := x.store.map (fun e =>
    if e.1 = id then (id, { e.2 with copies := live.length }) else e) }), live)

/-- One copy joins its queue; a copy on a twin port is a move like another (R121). -/
def Chip.putCopy (c : Chip) (r : Region) (id inp : Nat) (pkt : Packet) (e : Nat × Nat × Option Nat) : Chip :=
  let c := match e.2.2 with
    | some left => (c.noteMove r e.2.1 e.2.1 left e.1 e.2.1 none).countMove r pkt.detoured false
    | none => c
  c.putQueue r ⟨id, inp, e.1, pkt.tc, outW0 pkt.w0 e.2.1 e.2.2.isSome, true, e.2.1⟩

/-- R109, R116: as many copies as the pool has descriptors for join their queues; answers the others. -/
def Chip.putCopies (c : Chip) (r : Region) (id inp : Nat) (pkt : Packet) (l : List (Nat × Nat × Option Nat)) :
    Chip × List (Nat × Nat × Option Nat) :=
  let n := 16384 - c.copiesUsed r
  ((l.take n).foldl (fun c e => c.putCopy r id inp pkt e) c, l.drop n)

/-! ### A port that goes down -/

/-- R125: the queued packets of one region for a peer port move to the twin or the detour in place, in queue order; what
finds neither fails check 7 (DEDUCED, log 30). A multicast copy takes the twin only (R117). -/
def Chip.moveQueued (c : Chip) (r : Region) (p : Nat) : Chip :=
  (c.xbar r).queue.foldl (fun c e =>
    if e.out ≠ p then c
    else match c.entPacket r e with
      | none => c
      | some pkt =>
        let put := fun (c : Chip) (g : QEnt) => (c.modXbar r (fun x =>
          { x with queue := x.queue.map (fun f => if f = e then g else f) })).notePeak g.out g.tc
        if e.copy then
          match c.wayTo r e.next e.next pkt.src pkt.dst with
          | some (q, left) =>
            let c := (c.noteMove r e.next e.next (left.getD p) q e.next none).countMove r (bitAt e.w0 49) false
            put c { e with out := q, w0 := outW0 pkt.w0 e.next true }
          | none =>
            let c := c.modXbar r (fun x => { x with queue := x.queue.filter (· ≠ e) })
            ((c.descDone r e.id).bump (.xbar r) XBAR.XBAR_COUNT_unroutable).raise (.xbar r) XBAR.ev_unroutable
        else
          match c.wayOf r pkt.src pkt.dst pkt.hops with
          | some w =>
            let w := if w.left = none then { w with left := some p } else w
            put (c.moveOff r { pkt with w0 := e.w0 } w) { e with out := w.out, next := w.next, w0 := outW0 pkt.w0 w.next true }
          | none =>
            let c := c.modXbar r (fun x => { x with queue := x.queue.filter (· ≠ e) })
            (c.descDone r e.id).wayGone r e.inp pkt.w0) c

/-- No class has a head any more (R133). -/
def WfqS.headless (w : WfqS) : WfqS := { w with tagged := List.replicate 6 false }

/-- The scheduler of a local output: a port's, or a region endpoint channel's (R131, R135). -/
def Chip.modSched (c : Chip) (r : Region) (o : Nat) (f : WfqS → WfqS) : Chip :=
  if o < 16 then c.modPort (portOf (16 * r.val + o)) (fun s => { s with wfq := f s.wfq })
  else c.modXbar r (fun x => { x with chans := Tab.put x.chans (o - 16) (f (Tab.get x.chans (o - 16) {})) })

/-- Staging of an output empties: its packets are lost, their uncrossed cells are freed, a grant of the present slot is
withdrawn (R125). -/
def Chip.dropOutput (c : Chip) (r : Region) (o : Nat) : Chip :=
  let mine := (c.xbar r).pairs.filter (fun p => p.out = o)
  let c := (c.modXbar r (fun x =>
    { x with pairs := x.pairs.filter (fun p => p.out ≠ o), staging := Tab.del x.staging o })).modSched r o WfqS.headless
  mine.foldl (fun c p =>
    let src := regionOf p.src
    match Tab.find (c.xbar src).store p.ent.id with
    | none => c
    | some st =>
      if p.left = st.cells then c.modXbar src (fun x => { x with queue := p.ent :: x.queue })
      else c.descDone src p.ent.id) c

/-- R125, R88: the port left ACTIVE, ELEC_IDLE or WAKE. -/
def Chip.linkLost (c : Chip) (p : Port) : Chip :=
  let role := c.portRole p
  let c := c.raise (.port p) PORT.ev_link_down
  let c := c.dropOutput (portRegion p) (p.val % 16)
  let c := c.modPort p (fun s => { s with replay := [], txWait := [], deadFrom := some c.courseCount })
  if role = 2 then c.forRegions (fun c r => c.moveQueued r p.val) else c

/-- R106, R125: every packet queued for an output is discarded and counted where its buffer held it. -/
def Chip.discardQueued (c : Chip) (out : Nat) : Chip :=
  c.forRegions (fun c r =>
    ((c.xbar r).queue.filter (fun e => e.out = out)).foldl (fun c e =>
      let c := c.modXbar r (fun x => { x with queue := x.queue.filter (· ≠ e) })
      (c.descDone r e.id).deadDiscard r) c)

/-- R120: compare a peer port that reached ACTIVE with PEER_MAP in each region. -/
def Chip.miswireCheck (c : Chip) (p : Port) : Chip :=
  let far := c.fld (.port p) PORT.PORT_STS_far_pysum
  let names := fun (c : Chip) (r : Region) => (List.range 64).filter (fun n =>
    match c.peerPair r n with | some (a, b) => a = p.val || b = p.val | none => false)
  let c' := c.forRegions (fun c r =>
    let bad := (names c r).any (· ≠ far)
    let c := c.modXbar r (fun x => { x with miswired :=
      if bad then p.val :: x.miswired.filter (· ≠ p.val) else x.miswired.filter (· ≠ p.val) })
    c.raiseIf bad (.xbar r) XBAR.ev_miswired)
  if (List.finRange 4).all (fun r => (names c r).isEmpty) then
    (c'.forRegions (fun c r => c.modXbar r (fun x =>
      { x with miswired := p.val :: x.miswired.filter (· ≠ p.val) }))).raise (.xbar (portRegion p)) XBAR.ev_miswired
  else c'

/-- A packet joins a region unit's list of its kind. -/
def Chip.toInbox (c : Chip) (r : Region) (k : Nat) (pkt : Packet) : Chip :=
  c.modXbar r (fun x => { x with inbox := Tab.put x.inbox k (Tab.get x.inbox k [] ++ [pkt]) })

/-- Take the first packet of a kind that satisfies a test. -/
def Chip.fromInbox (c : Chip) (r : Region) (k : Nat) (p : Packet → Bool) : Option (Packet × Chip) :=
  let l := Tab.get (c.xbar r).inbox k []
  match l.find? p with
  | none => none
  | some pkt => some (pkt, c.modXbar r (fun x => { x with inbox := Tab.put x.inbox k (l.erase pkt) }))

/-! ### Stored packets that wait before their queue -/

/-- The packet at the head of an input and class that waits (8 * input + class). -/
def XbarS.heldHead (x : XbarS) (k : Nat) : Option (Held × Stored) :=
  match Tab.get x.held k [] with
  | [] => none
  | h :: _ => (Tab.find x.store h.id).map (fun st => (h, st))

/-- The head of a waiting list is replaced; none removes it. -/
def Chip.setHead (c : Chip) (r : Region) (k : Nat) (h : Option Held) : Chip :=
  c.modXbar r (fun x =>
    let l := h.toList ++ (Tab.get x.held k []).drop 1
    { x with held := if l.isEmpty then Tab.del x.held k else Tab.put x.held k l })

/-- Does a multicast packet that waits for copy descriptors stop the whole input (R109)? -/
def XbarS.inputStopped (x : XbarS) (inp : Nat) : Bool :=
  (List.range 8).any (fun t => match x.heldHead (8 * inp + t) with | some (h, _) => h.rest.isSome | none => false)

/-- The first waiting head that satisfies a test, of an input that is not stopped: its place, entry and packet. -/
def XbarS.findHead (x : XbarS) (p : Held → Packet → Bool) : Option (Nat × Held × Stored) :=
  (List.range 160).findSome? (fun k => match x.heldHead k with
    | some (h, st) => if p h st.pkt && !x.inputStopped (k / 8) then some (k, h, st) else none
    | none => none)

/-- A unit of region r sends a packet: it arrives at the region endpoint input (R110). -/
def Chip.send (c : Chip) (r : Region) (pkt : Packet) (inp : Nat := 16) : Chip := c.arrive r inp { pkt := pkt }

/-- A packet that the region's ledger builds, or replays, takes its route without another look (R170, R171). -/
def Chip.deliver (c : Chip) (r : Region) (pkt : Packet) : Chip := c.arrive r 16 { pkt := pkt, settled := true }

end Sys2Proof.Machine
end

