-- ==== Sys2Proof/Machine/Sched.lean ====
section
/-! DEFINITION. Traffic classes: finish tags (R133), meters (R136 to R138), gate lists (R139 to R142), the keystone
monitor (R144), and the commands that write their registers. -/
namespace Sys2Proof.Machine

/-! ### Weighted fair queueing -/

/-- a is less than b by modular difference (R133). -/
def tagLess (a b : BitVec 48) : Bool := 2 ^ 47 ≤ (a - b).toNat

/-- The larger of two tags. -/
def tagMax (a b : BitVec 48) : BitVec 48 := if tagLess a b then b else a

/-- floor(2^24 / w), weight 0 acting as 1 (R133, R134). -/
def recip (w : Nat) : Nat := 2 ^ 24 / max w 1

/-- What an output's scheduler is set to: weights of TC1 to TC6 and the per-packet overhead. -/
structure WfqCfg where
  weight : List Nat
  overhead : Nat
  deriving DecidableEq, Repr

/-- The setting of a port (WFQ_WEIGHT, SCHED_CTL). -/
def Chip.portCfg (c : Chip) (p : Port) : WfqCfg :=
  ⟨(List.range 6).map (fun i => getBits (c.reg (.port p) 0x2008) (8 * i + 15) (8 * i + 8)),
   c.fld (.port p) PORT.SCHED_CTL_overhead⟩

/-- The setting of a region endpoint channel (R135). -/
def channelCfg : WfqCfg := ⟨[1, 1, 1, 1, 1, 1], 0⟩

/-- R133: cost of a packet at an output. -/
def wfqCost (len overhead : Nat) : Nat := 32 + roundUp len 16 + overhead

/-- The head of a class in an output's staging: the first packet that has not started. -/
def stagingHead (l : List Staged) (tc : Nat) : Option Staged := l.find? (fun s => s.tc = tc && !s.started)

/-- R133: each class head without a tag gets one; heads are tagged as they become heads. -/
def WfqS.tagHeads (w : WfqS) (cfg : WfqCfg) (l : List Staged) : WfqS :=
  (List.range 6).foldl (fun w i =>
    match stagingHead l (i + 1) with
    | none => { w with tagged := w.tagged.set i false }
    | some s =>
      if w.tagged.getD i false then w
      else
        let f := tagMax w.vtime (w.finish.getD i 0)
          + BitVec.ofNat 48 (wfqCost s.pkt.len cfg.overhead * recip (cfg.weight.getD i 1))
        { w with finish := w.finish.set i f, tagged := w.tagged.set i true }) w

/-- R133: starting a packet of TC1 to TC6 moves vtime to its tag. -/
def WfqS.start (w : WfqS) (tc : Nat) : WfqS :=
  if 1 ≤ tc && tc ≤ 6 then
    { w with vtime := w.finish.getD (tc - 1) 0, tagged := w.tagged.set (tc - 1) false }
  else w

/-- R133, R134: every tag and vtime back at 0; the tag of a head that already waits is 0 too. -/
def WfqS.cleared (w : WfqS) : WfqS := { w with vtime := 0, finish := [0, 0, 0, 0, 0, 0] }

/-- The setting of a local output. -/
def Chip.outCfg (c : Chip) (r : Region) (o : Nat) : WfqCfg :=
  if o < 16 then c.portCfg (portOf (16 * r.val + o)) else channelCfg

/-- R133: packets of an output's staging that have become heads get their tags. -/
def Chip.tagOutput (c : Chip) (r : Region) (o : Nat) : Chip :=
  c.modSched r o (fun w => w.tagHeads (c.outCfg r o) (Tab.get (c.xbar r).staging o []))

/-- R131: TC0 first, then the smallest finish tag with ties to the lower class, then TC7. -/
def WfqS.choose (w : WfqS) (eligible : Nat → Bool) : Option Nat :=
  if eligible 0 then some 0
  else
    match (List.range 6).foldl (fun (best : Option Nat) i =>
      if eligible (i + 1) then
        match best with
        | none => some (i + 1)
        | some b => if tagLess (w.finish.getD i 0) (w.finish.getD (b - 1) 0) then some (i + 1) else some b
      else best) none with
    | some t => some t
    | none => if eligible 7 then some 7 else none

/-- R144: a TC0 packet draws its size from the monitor bucket; what it cannot cover is excess. -/
def WfqS.keystone (w : WfqS) (now size : Nat) : WfqS × Nat :=
  let have_ := min 65536 (w.bucket + 16 * (now - w.bucketAt))
  ({ w with bucket := have_ - size, bucketAt := now }, size - have_)

/-! ### Meters -/

/-- Colours of RFC 2698, colour-blind (R136). -/
inductive Colour where
  | green | yellow | red
  deriving DecidableEq, Repr

/-- METER_RATE and METER_BURST of a class: cir, pir in MB/s and cbs, pbs in bytes. -/
def Chip.meterCfg (c : Chip) (p : Port) (tc : Nat) : Nat × Nat × Nat × Nat :=
  let rate := c.reg (.port p) (0x2040 + 16 * tc)
  let burst := c.reg (.port p) (0x2048 + 16 * tc)
  (getBits rate 31 0, getBits rate 63 32, getBits burst 31 0, getBits burst 63 32)

/-- The buckets now: full until first used, filled by rate × 0.64 ns each s-cycle; 1 MB/s is 16 of 1/25,000 byte. -/
def Chip.meterNow (c : Chip) (p : Port) (tc : Nat) : MeterS :=
  let (cir, pir, cbs, pbs) := c.meterCfg p tc
  match Tab.find (c.port p).meters tc with
  | none => ⟨25000 * cbs, 25000 * pbs, c.now⟩
  | some m =>
    let dt := c.now - m.filledAt
    ⟨min (25000 * cbs) (m.tc + 16 * cir * dt), min (25000 * pbs) (m.tp + 16 * pir * dt), c.now⟩

/-- R136: the colour of a packet of `size` bytes. -/
def MeterS.colour (m : MeterS) (size : Nat) : Colour :=
  if m.tp < 25000 * size then .red else if m.tc < 25000 * size then .yellow else .green

/-- R136: the debit of a colour. -/
def MeterS.debit (m : MeterS) (size : Nat) : Colour → MeterS
  | .red => m
  | .yellow => { m with tp := m.tp - 25000 * size }
  | .green => { m with tp := m.tp - 25000 * size, tc := m.tc - 25000 * size }

/-- The action of a colour (Table TC-2); green is queued (R137). -/
def Chip.meterAction (c : Chip) (p : Port) (tc : Nat) : Colour → Nat
  | .green => 0
  | .yellow => getBits (c.reg (.port p) 0x2020) (2 * tc + 9) (2 * tc + 8)
  | .red => getBits (c.reg (.port p) 0x2020) (2 * tc + 25) (2 * tc + 24)

/-- Count a yellow or red packet. -/
def Chip.meterCount (c : Chip) (p : Port) : Colour → Chip
  | .green => c
  | .yellow => c.bump (.port p) PORT.METER_COUNT_yellow_packets
  | .red => c.bump (.port p) PORT.METER_COUNT_red_packets

/-- R136, R137: meter a packet: the chip after it, and whether it may join its queue. A packet counted at its hold counts
again when it leaves the hold with a colour whose action is 1 (DESIGN CHOICE, log 258). -/
def Chip.meter (c : Chip) (p : Port) (pkt : Packet) (told : Bool) : Chip × Bool :=
  let tc := pkt.tc
  if !bitAt (c.reg (.port p) 0x2020) tc then (c, true)
  else
    let m := c.meterNow p tc
    let col := m.colour pkt.size
    let act := c.meterAction p tc col
    if act < 2 then
      let c := c.modPort p (fun s => { s with meters := Tab.put s.meters tc (m.debit pkt.size col) })
      (if act = 1 then c.meterCount p col else c, true)
    else
      let c := c.modPort p (fun s => { s with meters := Tab.put s.meters tc m })
      (if told then c else (c.meterCount p col).raise (.port p) PORT.ev_meter_hold, false)

/-! ### Gate lists -/

/-- A gate list as a port or the host port runs it: entries (duration in s-cycles times `den`, open mask), the entry in
force and when it started. -/
structure GateView where
  count : Nat
  /-- Duration and open mask of entry i, in the view's time unit. -/
  entries : List (Nat × Nat)
  ix : Nat
  /-- Time since the entry in force started (before offset 2 of a course it has yet to), and until the course ends. -/
  elapsed : Int
  courseLeft : Nat
  /-- A takeover is scheduled for the next boundary. -/
  takeoverNext : Bool
  deriving DecidableEq, Repr

/-- Is the class open now? With a count of 0 every gate is open (R139). -/
def GateView.isOpen (g : GateView) (cls : Nat) : Bool :=
  g.count = 0 || (g.entries.getD g.ix (0, 0)).2 / 2 ^ cls % 2 = 1

/-- Time from the start of the entries `l` until one closes the class; none when none does. -/
def closesAfter (cls : Nat) : List (Nat × Nat) → Option Nat
  | [] => none
  | (d, m) :: t => if m / 2 ^ cls % 2 = 0 then some 0 else (closesAfter cls t).map (d + ·)

/-- R140: time until the class's gate next closes in this course; none when nothing closes. -/
def GateView.closesIn (g : GateView) (cls : Nat) : Option Nat :=
  if g.count = 0 then (if g.takeoverNext then some g.courseLeft else none)
  else
    let (d, _) := g.entries.getD g.ix (0, 0)
    match closesAfter cls ((g.entries.take g.count).drop (g.ix + 1)) with
    | some t => some (min ((d : Int) - g.elapsed + t).toNat g.courseLeft)
    | none => some g.courseLeft

/-- Entry i of a bank of a port's list (Table TC-6): duration in s-cycles (4 a cell slot) and mask. -/
def Chip.gateEntry (c : Chip) (p : Port) (bank i : Nat) : Nat × Nat :=
  let w := c.reg (.port p) (0x3000 + 8 * (32 * bank + i))
  (4 * min 3200 (max 1 (getBits w 27 16)), getBits w 7 0)

/-- A port's list (R139). -/
def Chip.gateView (c : Chip) (p : Port) : GateView :=
  let n := c.fld (.port p) PORT.GATE_STS_active_count
  let bank := c.fld (.port p) PORT.GATE_STS_active_bank
  let s := c.port p
  ⟨n, (List.range n).map (fun i => c.gateEntry p bank i), s.gateIx, (c.now : Int) - s.gateAt,
   c.course.boundaryAt + c.courseCycles - c.now,
   match s.takeover with | some (_, _, n) => n = (c.courseNow + 1) % 2 ^ 48 | none => false⟩

/-- Flit slots of a packet's transmission with the guard's extra one, in s-cycles (R140). -/
def guardCycles (len : Nat) : Nat := 2 * (ceilDiv (32 + roundUp len 16) 240 + 1)

/-- R140: may a packet of the class start now? -/
def GateView.admits (g : GateView) (guard : Bool) (cls need : Nat) : Bool :=
  cls = 0 || (g.isOpen cls && (!guard || match g.closesIn cls with | some t => need ≤ t | none => true))

/-- Does a packet that starts now run past its gate's close (`gate_overruns`)? -/
def GateView.overruns (g : GateView) (cls need : Nat) : Bool :=
  cls ≠ 0 && match g.closesIn cls with | some t => t < need | none => false

/-- R139: at offset 2 of a boundary the active list restarts. -/
def Chip.gateRestart (c : Chip) (p : Port) : Chip :=
  c.modPort p (fun s => { s with gateIx := 0, gateAt := c.course.boundaryAt + 2 })

/-- R141: the scheduled bank becomes active from its first entry at its boundary. -/
def Chip.gateApply (c : Chip) (p : Port) : Chip :=
  match (c.port p).takeover with
  | none => c
  | some (bank, count, n) =>
    if n ≠ c.courseNow then c
    else
      let c := c.setFld (.port p) PORT.GATE_STS_pending 0
      let c := c.setFld (.port p) PORT.GATE_STS_active_bank bank
      let c := c.setFld (.port p) PORT.GATE_STS_active_count count
      let c := c.setFld (.port p) PORT.GATE_STS_since_course n
      c.modPort p (fun s => { s with takeover := none, gateIx := 0, gateAt := c.course.boundaryAt + 2 })

/-- R139: the next entry takes effect when the one in force has run its slots; after the last the gates stay. -/
def Chip.gateNext (c : Chip) (p : Port) : Chip :=
  let g := c.gateView p
  if g.ix + 1 < g.count && ((g.entries.getD g.ix (0, 0)).1 : Int) ≤ g.elapsed then
    c.modPort p (fun s => { s with gateIx := s.gateIx + 1, gateAt := s.gateAt + (g.entries.getD g.ix (0, 0)).1 })
  else c

/-! ### Writes to the scheduler's registers -/

/-- R134: a WFQ_WEIGHT write resets every tag and vtime; a refused one changes nothing (R60). -/
def Chip.opWfqWeight (c : Chip) (p : Port) (v : Word) : Chip × Bool :=
  let (c, no) := c.plainWrite (.port p) 0x2008 v
  if no then (c, no)
  else (c.modPort p (fun s => { s with wfq := s.wfq.cleared }), no)

/-- R138: refused when peak is below committed or a burst below 8,224 bytes; otherwise both buckets are full. On a held port
a bad write is judged here first, before the lock of R60, and sets no `locked_write` (DESIGN CHOICE, log 259). -/
def Chip.opMeter (c : Chip) (p : Port) (tc : Tc) (burst : Bool) (v : Word) : Chip × Bool :=
  let (cir, pir, cbs, pbs) := c.meterCfg p tc.val
  let lo := getBits v 31 0
  let hi := getBits v 63 32
  let bad := if burst then lo < 8224 || hi < 8224 || pir < cir else hi < lo || cbs < 8224 || pbs < 8224
  if bad then (c.raise (.port p) PORT.ev_meter_reject, false)
  else
    let (c, no) := c.plainWrite (.port p) ((if burst then 0x2048 else 0x2040) + 16 * tc.val) v
    if no then (c, no)
    else (c.modPort p (fun s => { s with meters := Tab.del s.meters tc.val }), no)

/-- R141, R142: a GATE_TAKEOVER write schedules a takeover, or is refused as late or for naming the active bank. -/
def Chip.opGateTakeover (c : Chip) (p : Port) (v : Word) : Chip :=
  let n := getBits v 47 0
  let bank := getBits v 56 56
  if c.lateFor n then (c.raise (.port p) PORT.ev_gate_refused).raise .course COURSE.ev_late_schedule
  else if bank = c.fld (.port p) PORT.GATE_STS_active_bank then c.raise (.port p) PORT.ev_gate_refused
  else
    let (c, _) := c.plainWrite (.port p) 0x2010 v
    let c := c.setFld (.port p) PORT.GATE_STS_pending 1
    c.modPort p (fun s => { s with takeover := some (bank, min 32 (getBits v 53 48), n) })

/-- R142: a write to an entry of the active bank is ignored. -/
def Chip.opGateEntry (c : Chip) (p : Port) (i : Fin 64) (v : Word) : Chip :=
  if i.val / 32 = c.fld (.port p) PORT.GATE_STS_active_bank then c.raise (.port p) PORT.ev_gate_refused
  else (c.plainWrite (.port p) (0x3000 + 8 * i.val) v).1

/-! ### The host port's gates (R388) -/

/-- Entry i of a bank of the host port's list: duration in 0.01 ns units and mask; `units` counts 10 ns. -/
def Chip.hostGateEntry (c : Chip) (bank i : Nat) : Nat × Nat :=
  let w := c.reg .hostport (0x2000 + 8 * (16 * bank + i))
  (1000 * max 1 (getBits w 31 8), getBits w 7 0)

/-- The entry in force `t` after the list's start, and the time it has run; the last entry stays (R139). -/
def gateWalk : List (Nat × Nat) → Nat → Nat → Nat × Nat
  | [], ix, t => (ix, t)
  | [_], ix, t => (ix, t)
  | (d, _) :: e :: l, ix, t => if t < d then (ix, t) else gateWalk (e :: l) (ix + 1) (t - d)

/-- The host port's list, in 0.01 ns: an s-cycle is 64. -/
def Chip.hostGateView (c : Chip) : GateView :=
  let n := c.fld .hostport HOSTPORT.HP_GATE_STS_active_count
  let bank := c.fld .hostport HOSTPORT.HP_GATE_STS_active_bank
  let entries := (List.range n).map (fun i => c.hostGateEntry bank i)
  let t : Int := 64 * ((c.now : Int) - c.host.gateAt)
  let (ix, run) := gateWalk entries 0 t.toNat
  ⟨n, entries, ix, if t < 0 then t else run,
   64 * (c.course.boundaryAt + c.courseCycles - c.now),
   match c.host.takeover with | some (_, _, n) => n = (c.courseNow + 1) % 2 ^ 48 | none => false⟩

/-- R388: may a frame of `bytes` bytes on a priority start now? Bit 0 acts like every other bit and `guard` is 1. -/
def Chip.hostAdmits (c : Chip) (prio bytes : Nat) : Bool :=
  let g := c.hostGateView
  g.isOpen prio && (match g.closesIn prio with | some t => bytes + 20 ≤ t | none => true)

/-- R388: a host GATE_TAKEOVER write, as R141. -/
def Chip.opHostTakeover (c : Chip) (v : Word) : Chip :=
  let n := getBits v 47 0
  let bank := getBits v 56 56
  if c.lateFor n then (c.raise .hostport HOSTPORT.ev_gate_refused).raise .course COURSE.ev_late_schedule
  else if bank = c.fld .hostport HOSTPORT.HP_GATE_STS_active_bank then c.raise .hostport HOSTPORT.ev_gate_refused
  else
    let (c, _) := c.plainWrite .hostport 0x148 v
    let c := c.setFld .hostport HOSTPORT.HP_GATE_STS_pending 1
    { c with host := { c.host with takeover := some (bank, min 16 (getBits v 53 48), n) } }

/-- R388, R142: a write to a host gate entry; the active bank's are ignored. -/
def Chip.opHostGateEntry (c : Chip) (i : Nat) (v : Word) : Chip :=
  if i / 16 = c.fld .hostport HOSTPORT.HP_GATE_STS_active_bank then c.raise .hostport HOSTPORT.ev_gate_refused
  else (c.plainWrite .hostport (0x2000 + 8 * i) v).1

/-- R388: the host list restarts, or its takeover applies, at the boundary. -/
def Chip.hostGateBoundary (c : Chip) : Chip :=
  match c.host.takeover with
  | some (bank, count, n) =>
    if n = c.courseNow then
      let c := c.setFld .hostport HOSTPORT.HP_GATE_STS_pending 0
      let c := c.setFld .hostport HOSTPORT.HP_GATE_STS_active_bank bank
      let c := c.setFld .hostport HOSTPORT.HP_GATE_STS_active_count count
      let c := c.setFld .hostport HOSTPORT.HP_GATE_STS_since_course n
      { c with host := { c.host with takeover := none, gateAt := c.course.boundaryAt + 2 } }
    else { c with host := { c.host with gateAt := c.course.boundaryAt + 2 } }
  | none => { c with host := { c.host with gateAt := c.course.boundaryAt + 2 } }

/-! ### The commands -/

/-- WFQ_WEIGHT_WRITE. -/
def execWfqWeightWrite (p : Port) (value : Word) (s : State) : Host.Outcome State Fault Refusal :=
  s.onReg (.port p) (fun c => c.opWfqWeight p value) 0x2008

/-- METER_WRITE. -/
def execMeterWrite (p : Port) (tc : Tc) (burst : Bool) (value : Word) (s : State) : Host.Outcome State Fault Refusal :=
  s.onReg (.port p) (fun c => c.opMeter p tc burst value) (0x2040 + 16 * tc.val + 8 * bit burst)

/-- GATE_TAKEOVER. -/
def execGateTakeover (p : Port) (value : Word) (s : State) : Host.Outcome State Fault Refusal :=
  s.onReg (.port p) (fun c => (c.opGateTakeover p value, false)) 0x2010

/-- GATE_TAKEOVER_APPLY. -/
def execGateTakeoverApply (p : Port) (s : State) : Host.Outcome State Fault Refusal := s.on (fun c => c.gateApply p)

/-- GATE_ENTRY_WRITE. -/
def execGateEntryWrite (p : Port) (i : Fin 64) (value : Word) (s : State) : Host.Outcome State Fault Refusal :=
  s.onReg (.port p) (fun c => (c.opGateEntry p i value, false)) (0x3000 + 8 * i.val)

/-- GATE_ENTRY_EXPIRY. -/
def execGateEntryExpiry (p : Port) (s : State) : Host.Outcome State Fault Refusal := s.on (fun c => c.gateNext p)

/-- GATE_TAKEOVER of the host port (R388). -/
def execHostGateTakeover (value : Word) (s : State) : Host.Outcome State Fault Refusal :=
  s.onReg .hostport (fun c => (c.opHostTakeover value, false)) 0x148

end Sys2Proof.Machine
end

