-- ==== Sys2Proof/Machine/Domain.lean ====
section
/-! DEFINITION. The failure domains that Plumb keeps (R420), the declaration in force (R425), and the links that a Pysum
watches for them (R421). -/
namespace Sys2Proof.Machine

/-- Has the port a link: ACTIVE, ELEC_IDLE or WAKE (R76)? -/
def Chip.linked (c : Chip) (p : Port) : Bool := 7 ≤ c.portState p && c.portState p ≤ 9

/-- Do links train and the host port negotiate: in LINKS and READY (Table BOOT-1)? -/
def Chip.linksRun (c : Chip) : Bool :=
  (c.fld .boot BOOT.BOOT_STS_state = 7 || c.fld .boot BOOT.BOOT_STS_state = 8) && !c.boot.failSilent

def Chip.modPlumb (c : Chip) (f : PlumbS → PlumbS) : Chip := { c with plumb := f c.plumb }

/-- A register of domain d's entry (R433). -/
def Chip.domReg (c : Chip) (d off : Nat) : Word := c.reg .plumb (0x1000 * (1 + d / 4) + 0x400 * (d % 4) + off)
/-- Is domain d's entry valid? -/
def Chip.domValid (c : Chip) (d : Nat) : Bool := bitAt (c.domReg d 0) 63
/-- Is domain d declared? -/
def Chip.domDeclared (c : Chip) (d : Nat) : Bool := bitAt (c.reg .plumb 0x118) d
/-- The declaration in force: the OR of one register of the declared domains' entries (R425). -/
def Chip.declaredOr (c : Chip) (off : Nat) : Word :=
  (List.range 64).foldl (fun w d => if c.domDeclared d then w ||| c.domReg d off else w) 0
/-- The Pysums that the declaration in force loses. -/
def Chip.lostPysum (c : Chip) (n : Nat) : Bool := bitAt (c.declaredOr 0x008) n
/-- Is this Pysum in a declared domain (R425)? -/
def Chip.selfDeclared (c : Chip) : Bool := c.lostPysum c.pysum

/-- R425: a Pysum in a declared domain sends nothing on peer links but PLUMB and TICK flits. -/
def Chip.plumbOnly (c : Chip) (p : Port) : Bool := c.portState p = 7 && c.portRole p = 2 && c.selfDeclared

/-- The observable links of a domain (R421): ports, and 64 for the host port; none when the domain holds this Pysum. -/
def Chip.domLinks (c : Chip) (d : Nat) : List Nat :=
  if bitAt (c.domReg d 0x008) c.pysum then []
  else
    let ports := (List.range 64).filter (fun n =>
      let p := portOf n
      if c.portRole p = 2 then bitAt (c.domReg d 0x008) (c.fld (.port p) PORT.PORT_STS_far_pysum)
      else
        let e := c.fld (.port p) PORT.PORT_STS_far_epid
        c.portRole p ≤ 1 && bitAt (c.domReg d (0x040 + 8 * (e / 64))) (e % 64))
    ports ++ (if bitAt (c.domReg d 0x010) c.pysum then [64] else [])

/-- Does a link count as ACTIVE (R421)? A port in electrical idle has its link (DEDUCED, log 60). -/
def Chip.linkLive (c : Chip) (n : Nat) : Bool :=
  if n = 64 then c.flag .hostport HOSTPORT.HP_STS_link_up else c.linked (portOf n)

/-- The links that count follow what has been ACTIVE since the entry was written; the time of the last one's loss. -/
def Chip.noteLinks (c : Chip) (d : Nat) : Chip :=
  let links := c.domLinks d
  let seen := links.filter (fun n => c.linkLive n || (Tab.get c.plumb.seen d []).contains n)
  let up := seen.any c.linkLive
  c.modPlumb (fun s => { s with
    seen := if seen.isEmpty then Tab.del s.seen d else Tab.put s.seen d seen
    downFrom := if seen.isEmpty || up then Tab.del s.downFrom d
      else if (Tab.find s.downFrom d).isSome then s.downFrom else Tab.put s.downFrom d c.courseCount })

/-- A link becomes ACTIVE: every valid domain that it serves counts it (R421). -/
def Chip.linkSeen (c : Chip) (n : Nat) : Chip :=
  (List.range 64).foldl (fun c d => if c.domValid d && (c.domLinks d).contains n then c.noteLinks d else c) c

def Chip.holdCourses (c : Chip) : Nat := max 1 (c.fld .plumb PLUMB.PLUMB_CTL_hold)

/-- The view code of a domain (Table FLT-7); `extra` are courses from which further links of the coordinator have been down. -/
def Chip.viewCode (c : Chip) (d : Nat) (extra : List Nat := []) : Nat :=
  if !c.domValid d || bitAt (c.domReg d 0x008) c.pysum || !c.flag .plumb PLUMB.PLUMB_CTL_enable then 0
  else
    let seen := Tab.get c.plumb.seen d []
    let froms := (if seen.isEmpty then [] else [(Tab.find c.plumb.downFrom d).getD c.courseCount]) ++ extra
    if seen.any c.linkLive then 1
    else if froms.isEmpty then 0
    else if froms.all (fun n => decide (c.holdCourses ≤ c.since n)) then 3 else 2

/-- VIEW_LO or VIEW_HI as the links now stand. -/
def Chip.viewWord (c : Chip) (half : Nat) : Word :=
  (List.range 32).foldl (fun w i => setBits w (2 * i + 1) (2 * i) (c.viewCode (32 * half + i))) 0

end Sys2Proof.Machine
end

