-- ==== Sys2Proof/Machine/Fec.lean ====
section
/-! DEFINITION. The coding of a port's lanes: the Reed–Solomon code of R73, the symbols and marker pairs of a codeword and
the lanes they go to (R74), what the receivers count, and the PRBS checkers (R98). -/
namespace Sys2Proof.Machine

/-! ### GF(2^10) (PRESUMED, log 249: the field and generator of IEEE 802.3 clause 91) -/

/-- Product in GF(2^10) modulo x^10 + x^3 + 1. -/
def gfMul (a b : Nat) : Nat :=
  (List.range 10).foldl (fun r i =>
    let k := 9 - i
    let r := if 512 ≤ r then (2 * r) % 1024 ^^^ 9 else 2 * r
    if a / 2 ^ k % 2 = 1 then r ^^^ b else r) 0

/-- α^j with α = x. -/
def gfPow : Nat → Nat
  | 0 => 1
  | j + 1 => gfMul 2 (gfPow j)

/-- Coefficients of the generator polynomial but its leading 1, constant first: the product of x − α^j, j from 0 to 29. -/
def rsGen : List Nat :=
  ((List.range 30).foldl (fun (g : List Nat) j =>
    (List.range (g.length + 1)).map (fun i =>
      (if i = 0 then 0 else g.getD (i - 1) 0) ^^^ gfMul (gfPow j) (g.getD i 0))) [1]).take 30

/-- The 30 parity symbols of a message, in the order they are sent. -/
def rsParity (msg : List Nat) : List Nat :=
  (msg.foldl (fun (reg : List Nat) m =>
    let f := m ^^^ reg.getD 29 0
    (List.range 30).map (fun i => (if i = 0 then 0 else reg.getD (i - 1) 0) ^^^ gfMul f (rsGen.getD i 0)))
    (List.replicate 30 0)).reverse

/-! ### Codewords -/

/-- Table LINK-1: the two marker symbols of codeword j of a frame. -/
def markerPair (j : Nat) : List Nat :=
  let w := (j / 8) % 64 * 2 ^ 14 + j % 8 * 2 ^ 10 + 0x2D9
  [w % 1024, w / 1024]

/-- The 512 data symbols of 640 bytes, in byte order, least significant bit first (R74, R81). -/
def dataSymbols (bytes : List Byte) : List Nat :=
  (List.range 512).map (fun k => leAt bytes (10 * k / 8) 3 / 2 ^ (10 * k % 8) % 1024)

/-- R73: codeword j of a frame: marker pair, data, parity. -/
def codeword (j : Nat) (bytes : List Byte) : List Nat :=
  let msg := markerPair j ++ dataSymbols bytes
  msg ++ rsParity msg

/-- R74: the logical lane of symbol k of codeword j. -/
def symbolLane (j k : Nat) : Nat := (k / 2 + j) % 8

/-- The physical lane that carries a logical lane: lane 8 in its place, and the reversed order (R93, Table LINK-11). -/
def physLane (spareFor : Nat) (reversed : Bool) (n : Nat) : Nat :=
  let l := if spareFor = n then 8 else n
  if reversed then 8 - l else l

/-- The per-lane field of lane i. -/
def laneFld (f : Fld) (i : Nat) : Fld := f.plus (0x40 * i)

/-- R73, R75: a codeword's verdict: uncorrectable beyond 15 wrong symbols, and while a receive lane is dead. -/
def Chip.cwLost (c : Chip) (p : Port) (cw : Codeword) : Bool :=
  decide (15 < cw.errors.dedup.length) || (c.port p).deadLane.any (·.2)

/-- What one received codeword counts (FEC_COUNT, LANE_SER). -/
def Chip.countCodeword (c : Chip) (p : Port) (cw : Codeword) : Chip :=
  let u : UnitId := .port p
  let e := cw.errors.dedup
  if c.cwLost p cw then c.bump u PORT.FEC_COUNT_cw_uncorrected
  else if e.isEmpty then c
  else
    let c := (c.bump u PORT.FEC_COUNT_cw_corrected).bump u PORT.FEC_COUNT_symbols_corrected e.length
    let c := e.foldl (fun c k =>
      let l := physLane (c.fld u PORT.PORT_STS_rx_spare_for) (c.flag u PORT.PORT_STS_reversed) (symbolLane cw.index.val k.val)
      (c.bump u (laneFld PORT.LANE_SER_symbol_errors l)).modPort p (fun s => { s with
        laneWear := Tab.put s.laneWear l (Tab.get s.laneWear l 0 + 1) })) c
    c.raise u evErrCorrected

/-! ### PRBS (R98) -/

/-- Does near-end loop-back return what the port sends (Table LINK-11)? -/
def Chip.looped (c : Chip) (p : Port) : Bool :=
  let l := c.fld (.port p) PORT.PORT_CTL_loopback
  l = 1 || l = 2

/-- Is the code one of the five patterns? -/
def prbsOn (pattern : Nat) : Bool := 1 ≤ pattern && pattern ≤ 5

/-- Does lane i's checker run: on every lane while `enable` = 0, on an unused lane 8 in ACTIVE that the far end keeps hot? -/
def Chip.checks (c : Chip) (p : Port) (i : Nat) : Bool :=
  let u : UnitId := .port p
  if c.portState p = 0 then
    c.powered u && c.flag u (laneFld PORT.PRBS_CTL_chk_en i) && prbsOn (c.fld u (laneFld PORT.PRBS_CTL_chk_pattern i))
  else c.portState p = 7 && i = 8 && c.fld u PORT.PORT_STS_rx_spare_for = 15 && (c.port p).far.getLsbD 64

/-- A checker's lock and new bit errors. -/
def Chip.prbsSeen (c : Chip) (p : Port) (i : Nat) (lock : Bool) (errors : Nat) : Chip :=
  if c.checks p i then
    (c.setFld (.port p) (laneFld PORT.PRBS_STS_chk_lock i) (bit lock)).bump (.port p)
      (laneFld PORT.PRBS_STS_bit_errors i) errors
  else c

/-- Near-end loop-back of a lane's generator to its own checker: locked on the same pattern (R98). -/
def Chip.prbsLoop (c : Chip) (p : Port) (i : Nat) : Chip :=
  let u : UnitId := .port p
  if c.portState p = 0 && c.looped p then
    let gen := if c.flag u (laneFld PORT.PRBS_CTL_gen_en i) then c.fld u (laneFld PORT.PRBS_CTL_gen_pattern i) else 0
    let lock := prbsOn gen && gen = c.fld u (laneFld PORT.PRBS_CTL_chk_pattern i)
    c.prbsSeen p i lock 0
  else c

end Sys2Proof.Machine
end

