-- ==== Sys2Proof/Machine/Link.lean ====
section
/-! DEFINITION. Evord ports: training (R76 to R80), flits (R81 to R84), replay (R85 to R88), credits (R89, R90), electrical
idle (R95, R96), the spare lane (R92, R93), injection (R98, R99), and what a port does in a flit slot. -/
namespace Sys2Proof.Machine

/-! ### States -/

/-- The two locks of the nine lanes, and `in_use` where `dark`, fall with the light on the lanes (Table LINK-12). -/
def Chip.lanesLost (c : Chip) (p : Port) (dark : Bool) : Chip :=
  (List.range 9).foldl (fun c i =>
    let c := (c.setFld (.port p) (laneFld PORT.LANE_STS_cdr_lock i) 0).setFld (.port p) (laneFld PORT.LANE_STS_marker_lock i) 0
    if dark then c.setFld (.port p) (laneFld PORT.LANE_STS_in_use i) 0 else c) c

/-- Enter a state that is not ACTIVE, ELEC_IDLE or WAKE; leaving one of those three loses the link (R76, R88, R125). -/
def Chip.leaveTo (c : Chip) (p : Port) (st : Nat) : Chip :=
  let was := c.linked p
  let c := (c.setFld (.port p) PORT.PORT_STS_state st).lanesLost p true
  if was then c.linkLost p else c

/-- What QUIET leaves of a port: replay, credit and sequence state, what waited to be sent and what the last training found
are cleared (Table LINK-2). PORT_STS `tx_spare_for` and `rx_spare_for` keep what repointing or a training gave them through
QUIET and through a training that finds every lane good: the spec does not say that they return to 15 (DESIGN CHOICE, log
250). -/
def PortS.quiet (s : PortS) : PortS :=
  { creditOrder := s.creditOrder
    owed := s.owed
    grants := s.grants
    laneWear := s.laneWear
    lastOut := s.lastOut
    cwOut := s.cwOut
    deadFrom := s.deadFrom
    dead := s.dead
    inject := s.inject
    injected := s.injected
    frameOut := s.frameOut
    meters := s.meters
    wfq := s.wfq
    gateIx := s.gateIx
    gateAt := s.gateAt
    takeover := s.takeover }

/-- Enter QUIET. `retrains` counts a link or a training that is given up for a fresh one (DESIGN CHOICE, log 32). -/
def Chip.toQuiet (c : Chip) (p : Port) : Chip :=
  let c := if c.linked p then c.bump (.port p) PORT.LINK_COUNT_retrains else c
  let c := c.leaveTo p 1
  let c := (c.setReg (.port p) 0x148 0).setReg (.port p) 0x150 0
  c.modPort p PortS.quiet

/-- An error of a port: ERR_CAPTURE2 holds the lane and the state (R100). -/
def Chip.portError (c : Chip) (p : Port) (ev code : Nat) (lane : Nat := 0) : Chip :=
  c.error (.port p) ev code [BitVec.ofNat 64 (256 * c.portState p + lane)]

/-- A failure exit: one attempt; after `train_attempts` FAILED with `train_fail`, else QUIET (R76). -/
def Chip.failExit (c : Chip) (p : Port) : Chip :=
  let n := c.fld (.port p) PORT.PORT_STS_attempts + 1
  let c := c.setFld (.port p) PORT.PORT_STS_attempts (min n 15)
  if max 1 (c.fld (.port p) PORT.TRAIN_CTL_train_attempts) ≤ n then
    (c.leaveTo p 10).portError p PORT.ev_train_fail 0x13
  else c.toQuiet p

/-- An exit that applies only in one state. -/
def Chip.inState (c : Chip) (p : Port) (st : Nat) (f : Chip → Chip) : Chip := if c.portState p = st then f c else c

/-- A write of PORT_CTL (R76, R100): `enable` 0 disables at once, `enable` 0 to 1 and an accepted `retrain` start training
with all attempts; a held port refuses changed RWL fields and `retrain`. -/
def Chip.opPortCtl (c : Chip) (p : Port) (v : Word) : Chip × Bool :=
  let u : UnitId := .port p
  let was := c.flag u PORT.PORT_CTL_enable
  let retrain := bitAt v 12
  let no := writeRefused .port 0x100 (c.held u) (c.reg u 0x100) v || (retrain && c.held u)
  let c := c.setReg u 0x100 (writeWord .port 0x100 (c.held u) (c.reg u 0x100) v)
  let c := c.raiseIf no u evLockedWrite
  let is := c.flag u PORT.PORT_CTL_enable
  let c :=
    if was && !is then c.leaveTo p 0
    else if (!was && is) || (retrain && !c.held u && is) then
      (c.setFld u PORT.PORT_STS_attempts 0).toQuiet p
    else c
  (c, no)

/-! ### What waits to be sent -/

/-- 240 payload bytes from a shorter list. -/
def pad240 (l : List Byte) : List Byte := slice l 0 240

/-- A CONTROL or PLUMB flit waits for its slot (R83); a port without a link has nowhere to send it. -/
def Chip.sendSeq (c : Chip) (p : Port) (ty : Nat) (payload : List Byte) : Chip :=
  if c.linked p then c.modPort p (fun s => { s with ctlWait := s.ctlWait ++ [(ty, pad240 payload)] }) else c

/-- The 240-byte payloads of a packet's flits; each packet starts a flit (DESIGN CHOICE, log 33). -/
def chunks240 (fuel : Nat) (l : List Byte) : List (List Byte) :=
  match fuel with
  | 0 => []
  | k + 1 => if l.isEmpty then [] else pad240 (l.take 240) :: chunks240 k (l.drop 240)

/-- A packet's DATA flits wait for their slots (R82). -/
def Chip.sendPacket (c : Chip) (p : Port) (pkt : Packet) : Chip :=
  let w := pkt.wire
  let fl := chunks240 (w.length / 240 + 1) w
  let ws := fl.zipIdx.map (fun e => (if e.2 = 0 then 0 else 15, e.1))
  c.modPort p (fun s => { s with txWait := s.txWait ++ ws })

/-- A CONTROL flit (Table LINK-7). -/
def Chip.sendControl (c : Chip) (p : Port) (code : Nat) (lane : Nat := 0) : Chip :=
  c.sendSeq p 5 [BitVec.ofNat 8 code, BitVec.ofNat 8 lane]

/-- A NAK is due that asks for a replay from `ack_seq` + 1 (R86). -/
def Chip.askNak (c : Chip) (p : Port) : Chip := c.modPort p (fun s => { s with nakDue := true })

/-- A PROBE request of this end is due (R31, R76). -/
def Chip.askProbe (c : Chip) (p : Port) : Chip :=
  c.modPort p (fun s => { s with probesDue := s.probesDue ++ [(false, 0, 0)] })

/-! ### Acknowledgements, credits, replay -/

/-- The available credits of a class (TX_CREDIT0, TX_CREDIT1). -/
def Chip.credit (c : Chip) (p : Port) (tc : Nat) : Nat :=
  getBits (c.reg (.port p) (if tc < 4 then 0x148 else 0x150)) (16 * (tc % 4) + 15) (16 * (tc % 4))

/-- Set the available credits of a class. -/
def Chip.setCredit (c : Chip) (p : Port) (tc v : Nat) : Chip :=
  let pos := if tc < 4 then 0x148 else 0x150
  c.setReg (.port p) pos (setBits (c.reg (.port p) pos) (16 * (tc % 4) + 15) (16 * (tc % 4)) v)

/-- The far end's grant of a class in cells (Table LINK-4). -/
def PortS.farGrant (s : PortS) (tc : Nat) : Nat := 16 * (s.far.toNat / 2 ^ (8 * tc) % 256)

/-- R89: take the cumulative credit count of a header. -/
def Chip.takeCredit (c : Chip) (p : Port) (h : Word) : Chip :=
  let tc := hdrCreditTc h
  let n := BitVec.ofNat 16 (hdrCredit h)
  let s := c.port p
  let avail := c.credit p tc + (n - s.seen.getD tc 0).toNat
  if s.farGrant tc < avail then c.portError p PORT.ev_credit_error 0x16
  else (c.setCredit p tc avail).modPort p (fun s => { s with seen := s.seen.set tc n })

/-- A protocol error (R80, R86, R91). -/
def Chip.protocolError (c : Chip) (p : Port) : Chip := c.portError p PORT.ev_protocol_error 0x17

/-- R85, R86: take the acknowledgement of a header; one that names no outstanding flit is ignored. -/
def Chip.takeAck (c : Chip) (p : Port) (h : Word) : Chip :=
  if !hdrAckValid h then c
  else
    let s := c.port p
    let last := s.txSeq - BitVec.ofNat 12 s.replay.length - 1
    let d := (BitVec.ofNat 12 (hdrAck h) - last).toNat
    if d = 0 then c
    else if s.replay.length < d then c.protocolError p
    else
      let rest := s.replay.drop d
      c.setPort p { s with
        replay := rest
        replayQ := s.replayQ.drop (s.replayQ.length - rest.length)
        replaysInRow := 0
        replayFrom := if rest.isEmpty then none else s.replayFrom }

/-- What every received header gives: acknowledgement and credits. -/
def Chip.takeHeader (c : Chip) (p : Port) (h : Word) : Chip := (c.takeAck p h).takeCredit p h

/-- R87: every unacknowledged flit is to be sent again, or, after `replay_limit` replays with no advance, QUIET. The flits go
out in the following slots (R83); the replay is under way until the last of them has gone. -/
def Chip.replay (c : Chip) (p : Port) (start : Option Nat) : Chip :=
  let s := c.port p
  if s.replay.isEmpty then c
  else if max 1 (c.fld (.port p) PORT.REPLAY_CTL_replay_limit) ≤ s.replaysInRow then
    (c.portError p PORT.ev_replay_limit 0x12).toQuiet p
  else
    (c.setPort p { s with
      replaysInRow := s.replaysInRow + 1
      replayFrom := start
      replayQ := s.replay }).bump (.port p) PORT.LINK_COUNT_replays

/-- R86: an error or a gap: one NAK, and discarding until the expected flit comes. -/
def Chip.rxError (c : Chip) (p : Port) (code : Nat) : Chip :=
  let c := c.capture (.port p) evErrUncorrected code [BitVec.ofNat 64 (256 * c.portState p)]
  if (c.port p).discarding then c
  else (c.modPort p (fun s => { s with discarding := true })).askNak p

/-- What the receiver does with a sequenced flit (Table LINK-8a). -/
inductive RxClass where
  | accept | duplicate | gap
  deriving DecidableEq, Repr

/-- Table LINK-8a by sequence number. A flit exactly 2,048 from the expected one is neither up to 2,047 behind nor plainly
ahead: the model takes it as a gap (DESIGN CHOICE, log 251). -/
def PortS.classify (s : PortS) (seq : Nat) : RxClass :=
  let d := (BitVec.ofNat 12 seq - (s.rxLast + 1)).toNat
  if d = 0 then .accept else if 2049 ≤ d then .duplicate else .gap

/-- R86: receive a sequenced flit with no CRC error: its header, and its content when it is the expected one. The header of
this port's next flit acknowledges it, a duplicate too (R83, log 119). -/
def Chip.rxSeq (c : Chip) (p : Port) (h : Word) (accept : Chip → Chip) : Chip :=
  let c := c.takeHeader p h
  match (c.port p).classify (hdrSeq h) with
  | .accept =>
    let c := c.modPort p (fun s => { s with
      rxLast := s.rxLast + 1
      rxAny := true
      discarding := false
      sinceAck := s.sinceAck + 1 })
    accept c
  | .duplicate => c
  | .gap => c.rxError p 0x11

/-- R82: cut whole packets from received bytes; units of 16 zero bytes fill a flit after its last packet. A header whose
first word has come gives the length. Answers arrivals, the rest, and whether framing failed. -/
def cutPackets (fuel : Nat) (l : List Byte) : List Arrival × List Byte × Bool :=
  match fuel with
  | 0 => ([], l, false)
  | k + 1 =>
    if l.length < 16 then ([], l, false)
    else
      let w0 := wordAt l 0
      let n := getBits w0 24 11
      if w0 = 0 then ([], [], false)
      else if 8192 < n then ([{ pkt := Packet.ofBytes (l.take 32), badFrame := true }], [], true)
      else if l.length < roundUp (32 + n) 16 then ([], l, false)
      else
        let (a, rest, bad) := cutPackets k (l.drop (roundUp (32 + n) 16))
        ({ pkt := Packet.ofBytes (l.take (32 + n)) } :: a, rest, bad)

/-- Bytes that the packet under assembly still needs; its first word has come. -/
def partNeed (l : List Byte) : Nat := roundUp (32 + getBits (wordAt l 0) 24 11) 16 - l.length

/-- An accepted DATA flit's bytes join the packet under assembly (R82, check 1 of Table FWD-3). -/
def Chip.assemble (c : Chip) (p : Port) (h : Word) (bytes : List Byte) : Chip :=
  let s := c.port p
  let start := hdrPktStart h
  let disagrees := !s.rxPart.isEmpty && start ≠ 15 && partNeed s.rxPart ≠ 16 * start
  let fresh := s.rxBad || disagrees || s.rxPart.isEmpty
  let lost : List Arrival := if disagrees then [{ pkt := Packet.ofBytes s.rxPart, badFrame := true }] else []
  let l := if fresh then (if start = 15 then [] else bytes.drop (16 * start)) else s.rxPart ++ bytes
  let (arr, rest, bad) := cutPackets 9 l
  let c := c.setPort p { s with rxPart := rest, rxBad := bad }
  c.modXbar (portRegion p) (fun x =>
    { x with arrivals := Tab.put x.arrivals (p.val % 16) (Tab.get x.arrivals (p.val % 16) [] ++ lost ++ arr) })

/-! ### Training -/

/-- R78: a slice of the negotiation word, counted when it repeats with equal content. -/
def PortS.takeSlice (s : PortS) (k data : Nat) : PortS :=
  match Tab.find s.slices k with
  | some (d, n) => { s with slices := Tab.put s.slices k (if d = data then (d, n + 1) else (data, 1)) }
  | none => { s with slices := Tab.put s.slices k (data, 1) }

/-- R78: the word, once all four slices have come twice with equal content. -/
def PortS.negWord (s : PortS) : Option (BitVec 184) :=
  match Tab.find s.slices 0, Tab.find s.slices 1, Tab.find s.slices 2, Tab.find s.slices 3 with
  | some (a, i), some (b, j), some (d, k), some (e, l) =>
    if 2 ≤ i ∧ 2 ≤ j ∧ 2 ≤ k ∧ 2 ≤ l then
      some (BitVec.ofNat 184 (a + b * 2 ^ 46 + d * 2 ^ 92 + e * 2 ^ 138))
    else none
  | _, _, _, _ => none

/-- R77: does a training frame's CRC hold? -/
def frameCrcOk (control status : Word) : Bool :=
  getBits control 63 48 = crc16 (leBytes 6 (getBits control 47 0) ++ wordBytes status)

/-- A request or response code of a tap: 4 bits each for pre, main and post (Table LINK-3; PRESUMED, log 252: pre in the
highest bits, and the codes of IEEE 802.3: requests hold 0, increment 1, decrement 2; responses not updated 0, updated 1, at
the minimum 2, at the maximum 3). -/
def tapCode (w i : Nat) : Nat := w / 2 ^ (4 * (2 - i)) % 16

/-- One tap of this transmitter answers a request (R77): its new code and response. -/
def answerTap (request v ceil : Nat) : Nat × Nat :=
  if request = 1 then (if v < ceil then (v + 1, 1) else (v, 3))
  else if request = 2 then (if 0 < v then (v - 1, 1) else (v, 2))
  else (v, 0)

/-- A tap of the far transmitter as this receiver steers it: the code it has and whether its last request is answered. A
response ends a request, which a hold follows; at the far end's limit the loop holds what it has. -/
def steerTap (request response have_ want : Nat) (told : Bool) : Nat × Bool :=
  if told then (have_, response ≠ 0)
  else if response = 0 || request = 0 then (have_, false)
  else if response = 1 then ((if request = 1 then have_ + 1 else have_ - 1), true)
  else (want, true)

/-- The request for a tap: towards the wanted code, a hold after a response. -/
def askTap (have_ want : Nat) (told : Bool) : Nat := if told || have_ = want then 0 else if have_ < want then 1 else 2

/-- The code this receiver wants of a tap of the far end, inside the window of R97; 3 is pre, 4 post. -/
def Chip.wantTap (c : Chip) (p : Port) (lane k : Nat) : Nat :=
  min (getBits (c.reg (.port p) 0x98) (8 * k + 7) (8 * k)) (max (getBits (c.reg (.port p) 0x90) (8 * k + 7) (8 * k))
    (Tab.get (c.port p).coeff (16 * lane + k) 0))

/-- The coefficient requests of the next frame on a lane, pre, main and post. -/
def Chip.askTaps (c : Chip) (p : Port) (lane : Nat) : Nat :=
  let t := Tab.get (c.port p).lanes lane {}
  askTap t.havePre (c.wantTap p lane 3) t.toldPre * 256 + askTap t.havePost (c.wantTap p lane 4) t.toldPost

/-- R77: what a received frame does to a lane's taps: far requests are answered, far responses taken. -/
def Chip.takeTaps (c : Chip) (p : Port) (lane requests responses : Nat) : Chip :=
  let t := Tab.get (c.port p).lanes lane {}
  let asked := c.askTaps p lane
  let pre := answerTap (tapCode requests 0) t.pre 15
  let main := answerTap (tapCode requests 1) t.main 15
  let post := answerTap (tapCode requests 2) t.post 31
  let havePre := steerTap (tapCode asked 0) (tapCode responses 0) t.havePre (c.wantTap p lane 3) t.toldPre
  let havePost := steerTap (tapCode asked 2) (tapCode responses 2) t.havePost (c.wantTap p lane 4) t.toldPost
  let t : LaneTrain :=
    { pre := pre.1
      main := main.1
      post := post.1
      responses := pre.2 * 256 + main.2 * 16 + post.2
      havePre := havePre.1
      havePost := havePost.1
      toldPre := havePre.2
      toldPost := havePost.2
      unanswered := if responses = 0 then t.unanswered else 0 }
  c.modPort p (fun s => { s with lanes := Tab.put s.lanes lane t })

/-- Set or clear a bit of a set of lanes. -/
def laneBit (v : BitVec 9) (i : Nat) (on : Bool) : BitVec 9 :=
  if on then v ||| BitVec.ofNat 9 (2 ^ i) else v &&& ~~~ BitVec.ofNat 9 (2 ^ i)

/-- R77: a training frame: lock, what the far end reports, coefficient requests and responses, negotiation slice. -/
def Chip.trainingFrame (c : Chip) (p : Port) (lane : Nat) (control status : Word) : Chip :=
  if !(2 ≤ c.portState p && c.portState p ≤ 4) || !frameCrcOk control status then c
  else
    let neg := c.portState p = 4 && getBits control 43 40 = 4
    let c := c.modPort p (fun s =>
      let s := { s with
        frameLock := laneBit s.frameLock lane true
        farLocked := laneBit s.farLocked lane (bitAt status 63)
        farReady := laneBit s.farReady lane (bitAt status 62) }
      if neg then s.takeSlice (getBits status 47 46) (getBits status 45 0) else s)
    if 3 ≤ c.portState p then c.takeTaps p lane (getBits control 39 28) (getBits status 61 50) else c

/-- LANE_STS of the nine lanes after a lock. -/
def Chip.laneLocks (c : Chip) (p : Port) (locked : BitVec 9) : Chip :=
  (List.range 9).foldl (fun c i => c.setFld (.port p) (laneFld PORT.LANE_STS_cdr_lock i) (bit (locked.getLsbD i))) c

/-- `in_use` of the nine lanes: a lane that carries a logical lane in either direction (Table LINK-12). -/
def Chip.laneUse (c : Chip) (p : Port) : Chip :=
  let rx := c.fld (.port p) PORT.PORT_STS_rx_spare_for
  let tx := c.fld (.port p) PORT.PORT_STS_tx_spare_for
  (List.range 9).foldl (fun c i => c.setFld (.port p) (laneFld PORT.LANE_STS_in_use i)
    (bit (if i = 8 then rx ≠ 15 || tx ≠ 15 else rx ≠ i || tx ≠ i))) c

/-- R92: the lanes on which the receiver finds marker pairs: those that carry a logical lane, and an unused lane 8 that the
far end keeps hot. -/
def Chip.markersFound (c : Chip) (p : Port) : Chip :=
  let rx := c.fld (.port p) PORT.PORT_STS_rx_spare_for
  (List.range 9).foldl (fun c i =>
    let on := if i = 8 then rx ≠ 15 || (c.port p).far.getLsbD 64 else rx ≠ i
    c.setFld (.port p) (laneFld PORT.LANE_STS_marker_lock i) (bit on)) c

/-- Every lane whose markers are found has its clock (Table LINK-12). -/
def Chip.relocked (c : Chip) (p : Port) : Chip :=
  let c := c.markersFound p
  (List.range 9).foldl (fun c i => c.setFld (.port p) (laneFld PORT.LANE_STS_cdr_lock i)
    (c.fld (.port p) (laneFld PORT.LANE_STS_marker_lock i))) c

/-- Number of ones. -/
def ones (n : Nat) : Nat := (List.range 64).foldl (fun k i => if n / 2 ^ i % 2 = 1 then k + 1 else k) 0

/-- R461: the presets of a port where EQUALISE starts, each moved to the nearer bound of the window (R97). -/
def Chip.presets (c : Chip) (p : Port) : Chip :=
  (c.boot.eq.filter (fun w => getBits w 7 0 = p.val && getBits w 15 8 < 9)).foldl (fun c w =>
    let d := getBits w 15 8
    let v := fun (hi lo i : Nat) => min (getBits (c.reg (.port p) 0x98) (8 * i + 7) (8 * i))
      (max (getBits (c.reg (.port p) 0x90) (8 * i + 7) (8 * i)) (getBits w hi lo))
    let c := c.setFld (.port p) (PORT.LANE_STS_ctle.plus (0x40 * d)) (v 39 32 0)
    let c := c.setFld (.port p) (PORT.LANE_STS_vga.plus (0x40 * d)) (v 47 40 1)
    let c := c.setFld (.port p) (PORT.LANE_STS_dfe1.plus (0x40 * d)) (v 55 48 2)
    c.modPort p (fun s => { s with
      coeff := Tab.put (Tab.put s.coeff (16 * d + 3) (v 23 16 3)) (16 * d + 4) (v 31 24 4) })) c

/-- DETECT exit: at least eight lanes locked, and the far end reports as many (Table LINK-2). -/
def Chip.detectLock (c : Chip) (p : Port) : Chip :=
  c.inState p 2 (fun c =>
    let s := c.port p
    if 8 ≤ ones s.frameLock.toNat && 8 ≤ ones s.farLocked.toNat then
      ((c.laneLocks p s.frameLock).presets p).setFld (.port p) PORT.PORT_STS_state 3
    else c)

/-- EQUALISE exit: all of lanes 0–7, or lane 8 in the place of exactly one (Table LINK-2); a lane that answered no request
in 256 frames has failed (R77). -/
def Chip.equaliseDone (c : Chip) (p : Port) (good : BitVec 9) : Chip :=
  c.inState p 3 (fun c =>
    let good := good &&& ~~~ (c.port p).mute
    let failed := (List.range 8).filter (fun i => !good.getLsbD i)
    match failed with
    | [] => c.setFld (.port p) PORT.PORT_STS_state 4
    | [n] =>
      if good.getLsbD 8 then
        let c := c.setFld (.port p) PORT.PORT_STS_rx_spare_for n
        (c.setFld (.port p) PORT.PORT_STS_state 4).raise (.port p) PORT.ev_lane_repointed
      else c.failExit p
    | _ => c.failExit p)

/-- The side that Table LINK-5 gives. -/
inductive Side where
  | role (r : Nat)
  | podMismatch
  | conflict
  deriving DecidableEq, Repr

/-- Table LINK-5, in its order: local `side` (3 acts as 0), far `role`, own serial, pod match (not compared in card mode). A
far word with the reserved role 3 stands in no row of the table: the model takes it as a role conflict (DESIGN CHOICE, log
253). -/
def selectSide (side farRole : Nat) (ownSerial podMatch : Bool) : Side :=
  let side := if side = 3 then 0 else side
  if ownSerial then .role 3
  else if farRole = 2 then
    if side = 0 then (if podMatch then .role 2 else .podMismatch) else if side = 1 then .role 1 else .role 0
  else if farRole = 0 then (if side = 2 then .conflict else .role 1)
  else if farRole = 1 then (if side = 1 then .conflict else .role 0)
  else .conflict

/-- Bits of a negotiation word (Table LINK-4). -/
def negBits (w : BitVec 184) (hi lo : Nat) : Nat := w.toNat / 2 ^ lo % 2 ^ (hi + 1 - lo)

/-- R78 to R80: the accepted word selects the side, or is a failure exit. -/
def Chip.negotiate (c : Chip) (p : Port) (w : BitVec 184) : Chip :=
  c.inState p 4 (fun c =>
    if (c.port p).negWord ≠ some w then c
    else
      let serial := negBits w 165 102
      let own := serial = (c.fuses.serial).toNat && serial ≠ 0
      let podOk := c.card || negBits w 99 95 = c.fld .chip CHIP.POSITION_pod_id
      match selectSide (c.fld (.port p) PORT.PORT_CTL_side) (negBits w 101 100) own podOk with
      | .role r =>
        let u : UnitId := .port p
        let c := c.modPort p (fun s => { s with far := w })
        let c := c.setFld u PORT.PORT_STS_far_epid (negBits w 82 71)
        let c := c.setFld u PORT.PORT_STS_far_pysum (negBits w 94 89)
        let c := c.setFld u PORT.PORT_STS_far_port (negBits w 88 83)
        let c := c.setFld u PORT.PORT_STS_far_pod_id (negBits w 99 95)
        let c := c.setFld u PORT.PORT_STS_role r
        let c := if negBits w 68 65 = 15 then c else c.setFld u PORT.PORT_STS_rx_spare_for (negBits w 68 65)
        -- a far end strapped as pod master, on a peer link (R37)
        let c := if r = 2 && negBits w 70 69 = 1 then
            { c with course := { c.course with strapMaster := some (negBits w 94 89) } } else c
        (c.laneUse p).setFld u PORT.PORT_STS_state 5
      | _ => (c.raise (.port p) PORT.ev_train_fail).failExit p)

/-- R78, Table LINK-4: the word this port sends. -/
def Chip.ownWord (c : Chip) (p : Port) : BitVec 184 :=
  let side := c.fld (.port p) PORT.PORT_CTL_side
  let role := if side = 1 then 1 else if side = 2 then 0 else 2
  let grant := (List.range 8).foldl (fun n t =>
    let g := if t < 4 then getBits (c.reg (.port p) 0x138) (16 * t + 15) (16 * t)
      else getBits (c.reg (.port p) 0x140) (16 * (t - 4) + 15) (16 * (t - 4))
    n + g / 16 * 2 ^ (8 * t)) 0
  BitVec.ofNat 184 (c.fuses.serial.toNat * 2 ^ 102 + role * 2 ^ 100 + c.fld .chip CHIP.POSITION_pod_id * 2 ^ 95
    + c.pysum * 2 ^ 89 + p.val * 2 ^ 83 + c.epid (portRegion p) * 2 ^ 71 + c.role * 2 ^ 69
    + c.fld (.port p) PORT.PORT_STS_tx_spare_for * 2 ^ 65 + c.fld (.port p) PORT.PORT_CTL_spare_hot * 2 ^ 64 + grant)

/-- LINKUP entry: sequence numbers at 0, credits from the negotiation word, the written grants in force (R89, R90), and a
probe to send; IDLE flits fill the other slots (Table LINK-2). -/
def Chip.enterLinkup (c : Chip) (p : Port) : Chip :=
  let s := c.port p
  let cfg := (List.range 8).map (fun t => if t < 4 then getBits (c.reg (.port p) 0x138) (16 * t + 15) (16 * t)
    else getBits (c.reg (.port p) 0x140) (16 * (t - 4) + 15) (16 * (t - 4)))
  let c := c.setPort p { s with
    txSeq := 0
    rxLast := 0xFFF
    rxAny := false
    replay := []
    seen := [0, 0, 0, 0, 0, 0, 0, 0]
    returned := [0, 0, 0, 0, 0, 0, 0, 0]
    goodFlit := false
    probed := false
    grants := some cfg }
  let c := c.askProbe p
  let c := (List.range 8).foldl (fun c t => c.setCredit p t (s.farGrant t)) c
  c.setFld (.port p) PORT.PORT_STS_state 6

/-- DESKEW exit: skew at most 10 ns and a lane order of identity or reversal (Table LINK-2). -/
def Chip.deskewLock (c : Chip) (p : Port) (skewPs : Nat) (order : LaneOrder) : Chip :=
  c.inState p 5 (fun c =>
    if 10000 < skewPs || order = .other then c.failExit p
    else
      let c := c.setFld (.port p) PORT.PORT_STS_reversed (bit (order = .reversed))
      (c.markersFound p).enterLinkup p)

/-- LINKUP exit, after the first good flit each way and one complete probe, whose echo shows that the far end received:
ACTIVE with `link_up`; attempts restart, and a peer port is compared with PEER_MAP (R76, R120). A strapped master's wait for
a foreign marker starts with its first peer link (R37). -/
def Chip.linkupDone (c : Chip) (p : Port) : Chip :=
  c.inState p 6 (fun c =>
    if !((c.port p).goodFlit && (c.port p).probed) then c
    else
      let u : UnitId := .port p
      let c := ((c.setFld u PORT.PORT_STS_state 7).setFld u PORT.PORT_STS_attempts 0).raise u PORT.ev_link_up
      let c := (c.modPort p (fun s => { s with deadFrom := none, dead := false })).linkSeen p.val
      if c.portRole p = 2 then
        let c := c.miswireCheck p
        if c.role = 1 && c.course.startup = none then
          { c with course := { c.course with startup := some c.courseCount } }
        else c
      else c)

/-! ### Electrical idle -/

/-- R95: may this end go idle now: an endpoint-facing port, all acknowledged, all credits returned, nothing to send? -/
def Chip.idleReady (c : Chip) (p : Port) : Bool :=
  let s := c.port p
  c.portActive p && c.portRole p ≤ 1 && c.fld (.port p) PORT.PORT_CTL_idle_entry ≠ 0 && s.replay.isEmpty
    && s.txWait.isEmpty && s.ctlWait.isEmpty && (List.range 8).all (fun t => c.credit p t = s.farGrant t)
    && (Tab.get (c.xbar (portRegion p)).staging (p.val % 16) []).isEmpty

/-- R95: a received IDLE_REQ. -/
def Chip.idleReq (c : Chip) (p : Port) : Chip :=
  if (c.port p).idleAsked then c.modPort p (fun s => { s with idleAsked := false, idleEntering := true })
  else if c.idleReady p then (c.sendControl p 0x02).modPort p (fun s => { s with idleEntering := true })
  else c.sendControl p 0x03

/-- Has the port traffic to send? -/
def Chip.portTraffic (c : Chip) (p : Port) : Bool :=
  let s := c.port p
  !((Tab.get (c.xbar (portRegion p)).staging (p.val % 16) []).isEmpty && s.txWait.isEmpty && s.ctlWait.isEmpty
    && s.replay.isEmpty)

/-- R95, R96: 64 flit slots after the acknowledgement the end goes idle, and wakes at once for traffic that came. -/
def Chip.elecIdle (c : Chip) (p : Port) : Chip :=
  if c.portActive p && (c.port p).idleEntering then
    let wake := c.portTraffic p
    ((c.setFld (.port p) PORT.PORT_STS_state (if wake then 9 else 8)).modPort p
      (fun s => { s with idleEntering := false })).lanesLost p false
  else c

/-! ### Received flits -/

/-- A flit other than DATA is taken in LINKUP and ACTIVE while no receive lane is dead and the port hears the far end; one
that came whole is a good flit (Table LINK-2, R93). -/
def Chip.hearing (c : Chip) (p : Port) (f : Chip → Chip) : Chip :=
  if (c.portState p = 6 || c.portState p = 7) && !(c.port p).deadLane.any (·.2) then
    f (c.modPort p (fun s => { s with goodFlit := true }))
  else c

/-- The same for the flits that only an ACTIVE link carries. -/
def Chip.hearingActive (c : Chip) (p : Port) (f : Chip → Chip) : Chip := if c.portActive p then c.hearing p f else c

/-- NAK: replay from `ack_seq` + 1 unless that replay is under way (R87). -/
def Chip.nakIn (c : Chip) (p : Port) (h : Word) : Chip :=
  let c := c.takeHeader p h
  let start := (hdrAck h + 1) % 4096
  if (c.port p).replayFrom = some start then c else c.replay p (some start)

/-- PROBE: a request is to be echoed with the time it is held; an echo gives RTT = arrival − send − hold (R91). -/
def Chip.probeIn (c : Chip) (p : Port) (h : Word) (echo : Bool) (sendTime arrival : Word) (hold : BitVec 32) : Chip :=
  let c := c.takeHeader p h
  if echo then
    let c := c.setFld (.port p) PORT.PORT_RTT_rtt (arrival - sendTime - hold.setWidth 64).toNat
    let c := c.modPort p (fun s => { s with probed := true })
    { c with course := { c.course with rttAt := Tab.put c.course.rttAt p.val c.courseCount } }
  else c.modPort p (fun s => { s with probesDue := s.probesDue ++ [(true, sendTime, arrival)] })

/-- IDLE_ACK: entry is agreed (R95). -/
def PortS.idleAgreed (s : PortS) : PortS := if s.idleAsked then { s with idleAsked := false, idleEntering := true } else s

/-- REPOINT_REQ: the transmitter is to move a lane at its next frame start (R93); an idle lane 8 first needs a training burst
(R92). -/
def Chip.moveLane (c : Chip) (p : Port) (lane : Nat) (rx : Bool) : Chip :=
  let burst := !rx && !c.flag (.port p) PORT.PORT_CTL_spare_hot
  c.modPort p (fun s => { s with
    laneMove := (lane, rx) :: s.laneMove.filter (· ≠ (lane, rx))
    burstAt := if burst then some c.now else s.burstAt })

/-- An accepted CONTROL flit (Table LINK-7). -/
def Chip.controlIn (c : Chip) (p : Port) (code lane : Nat) : Chip :=
  if code = 0x01 then c.idleReq p
  else if code = 0x02 then c.modPort p PortS.idleAgreed
  else if code = 0x03 then c.modPort p (fun s => { s with idleAsked := false })
  else if code = 0x10 then c.moveLane p lane false
  else if code = 0x20 then c.toQuiet p
  else c

/-- A flit in an uncorrectable codeword, or with a failing CRC, or of a reserved type (Table LINK-8a). -/
def Chip.badFlit (c : Chip) (p : Port) (cwLost : Bool) : Chip :=
  if cwLost then c.rxError p 0x10 else (c.bump (.port p) PORT.LINK_COUNT_crc_errors).rxError p 0x11

/-- A flit of this port's own that near-end loop-back returns. -/
def Chip.flitIn (c : Chip) (p : Port) (e : Sent) : Chip :=
  c.hearing p (fun c =>
    let h := e.flit.header
    let b := e.flit.payload
    if e.cwBad || e.crcBad then c.badFlit p e.cwBad
    else if hdrType h = 0 then c.rxSeq p h (fun c => c.assemble p h b)
    else if hdrType h = 1 then c.takeHeader p h
    else if hdrType h = 2 then c.nakIn p h
    else if hdrType h = 3 then (c.takeHeader p h).protocolError p
    else if hdrType h = 4 then
      c.probeIn p h (leAt b 0 1 = 1) (wordAt b 8) (BitVec.ofNat 64 (16 * c.now)) (BitVec.ofNat 32 (leAt b 16 4))
    else if hdrType h = 5 then c.rxSeq p h (fun c => c.controlIn p (leAt b 0 1) (leAt b 1 1))
    else c.rxSeq p h (fun c => c.protocolError p))

/-! ### The flit slot (R83) -/

/-- The header of a flit sent now (R83): current `ack_seq`, and the credit count that changed longest ago. -/
def Chip.header (c : Chip) (p : Port) (ty seq start : Nat) : Word :=
  let s := c.port p
  let tc := s.creditOrder.getD 0 0
  let w := setBits (setBits (setBits 0 63 60 ty) 59 48 seq) 47 36 s.rxLast.toNat
  let w := setBits (setBits w 35 35 (bit (s.rxAny && s.inject ≠ some 1))) 34 32 tc
  setBits (setBits w 31 16 (s.returned.getD tc 0).toNat) 15 12 start

/-- The 256 bytes of a flit (R81); injection inverts its CRC (R99). -/
def Sent.bytes (e : Sent) : List Byte :=
  let l := wordBytes e.flit.header ++ e.flit.payload
  l ++ leBytes 8 (if e.crcBad then 2 ^ 64 - 1 - crc64 l else crc64 l)

/-- A flit's bytes join the codeword being filled; 640 bytes fill one (R73). -/
def PortS.encode (s : PortS) (bytes : List Byte) : PortS :=
  let l := s.cwBytes ++ bytes
  if l.length < 640 then { s with cwBytes := l }
  else { s with cwBytes := l.drop 640, cwIndex := (s.cwIndex + 1) % 512, cwOut := codeword s.cwIndex (l.take 640) }

/-- A flit goes out: the credit classes take turns, the acknowledgement has been sent, an injection takes its opportunity
(R83, R99). -/
def PortS.flitOut (s : PortS) (f : Flit) : PortS × Sent :=
  let sequenced := f.type = 0 || f.type = 5 || f.type = 6
  let e : Sent := ⟨f, decide (s.inject = some 0) && sequenced, decide (s.inject = some 3)⟩
  let used := e.crcBad || e.cwBad || (s.inject = some 1 && s.rxAny)
  let s := { s with
    lastOut := Tab.put s.lastOut f.type e
    creditOrder := s.creditOrder.drop 1 ++ s.creditOrder.take 1
    sinceAck := 0
    sinceIdle := if f.type = 1 then 0 else s.sinceIdle + 1
    inject := if used then none else s.inject }
  (s.encode e.bytes, e)

/-- A flit goes out on the lanes, or back to its own receiver. -/
def Chip.putFlit (c : Chip) (p : Port) (f : Flit) : Chip :=
  let (s, e) := (c.port p).flitOut f
  let c := c.setPort p s
  if c.looped p then c.flitIn p e else c

/-- Does this Pysum act as master; 1 in card mode (TICK_STS). -/
def Chip.acting (c : Chip) : Bool := c.flag .course COURSE.TICK_STS_acting_master

/-- The master's number a follower forwards: its upstream's. -/
def Chip.masterNow (c : Chip) : Nat :=
  if c.acting then c.pysum
  else match Tab.find c.course.markers (c.fld .course COURSE.TICK_STS_upstream_port) with
    | some (m, _) => m.master
    | none => c.pysum

/-- An IDLE flit (R84). -/
def Chip.sendIdle (c : Chip) (p : Port) : Chip := c.putFlit p ⟨c.header p 1 0 0, List.replicate 240 0⟩

/-- A NAK (R86). -/
def Chip.sendNak (c : Chip) (p : Port) : Chip :=
  ((c.modPort p (fun s => { s with nakDue := false })).bump (.port p) PORT.LINK_COUNT_naks_sent).putFlit p
    ⟨c.header p 2 0 0, List.replicate 240 0⟩

/-- A TICK flit's payload (Table LINK-8). -/
def tickPayload (m : Marker) (launch podId : Nat) : List Byte :=
  pad240 (leBytes 6 m.course ++ leBytes 1 m.len ++ leBytes 1 m.master ++ leBytes 1 m.hops ++ leBytes 2 launch
    ++ leBytes 1 podId)

/-- The marker of the last boundary (R28, R91): from the acting master, or as a follower forwards it. -/
def Chip.ownMarker (c : Chip) : Marker :=
  { hops := if c.acting then 0 else c.fld .course COURSE.TICK_STS_hops
    course := c.courseNow
    master := c.masterNow
    len := c.fld .course COURSE.TICK_STS_len_eff }

/-- A marker in the first free slot after its boundary, with its launch delay in 40 ps units, 16 to the s-cycle (R91); an
injected fault drops it (R99). -/
def Chip.sendTick (c : Chip) (p : Port) (at_ : Nat) : Chip :=
  if (c.port p).inject = some 2 then (c.modPort p (fun s => { s with tickDue := none, inject := none })).sendIdle p
  else (c.modPort p (fun s => { s with tickDue := none })).putFlit p
    ⟨c.header p 3 0 0, tickPayload c.ownMarker (16 * (c.now - at_)) (c.fld .chip CHIP.POSITION_pod_id)⟩

/-- A PROBE flit (R91): a request with its send time, or an echo with the time it was held. -/
def Chip.sendProbe (c : Chip) (p : Port) (echo : Bool) (sendTime arrival : Word) : Chip :=
  let t := BitVec.ofNat 64 (16 * c.now)
  let pay := leBytes 8 (bit echo) ++ wordBytes (if echo then sendTime else t)
    ++ leBytes 4 (if echo then (t - arrival).toNat else 0)
  (c.modPort p (fun s => { s with probesDue := s.probesDue.drop 1 })).putFlit p ⟨c.header p 4 0 0, pad240 pay⟩

/-- A flit of a replay goes out again, with its number and a fresh header (R83, R87). -/
def Chip.sendAgain (c : Chip) (p : Port) (f : Flit) : Chip :=
  let g : Flit := ⟨c.header p f.type f.seq (hdrPktStart f.header), f.payload⟩
  (c.modPort p (fun s => { s with
    replayQ := s.replayQ.drop 1
    replayFrom := if s.replayQ.length ≤ 1 then none else s.replayFrom })).putFlit p g

/-- A new sequenced flit goes out and into the replay buffer (R85). -/
def Chip.sendNew (c : Chip) (p : Port) (ty start : Nat) (payload : List Byte) : Chip :=
  let f : Flit := ⟨c.header p ty (c.port p).txSeq.toNat start, payload⟩
  (c.modPort p (fun s => { s with replay := s.replay ++ [f], txSeq := s.txSeq + 1 })).putFlit p f

/-- Does the transmitter run on eight whole lanes: in LINKUP and ACTIVE, powered, not silent, no dead lane that carries a
logical lane (R72, R75, R93, R406)? -/
def Chip.transmits (c : Chip) (p : Port) : Bool :=
  (c.portState p = 6 || c.portState p = 7) && c.powered (.port p) && !c.boot.failSilent
    && !(c.port p).deadLane.any (fun l => !l.2)

/-- New sequenced flits: CONTROL and PLUMB before DATA, but not between the DATA flits of one packet (R82, R83), and none
while 2,048 are unacknowledged (R85). A Pysum in a declared domain finishes a packet that it has begun and then sends PLUMB
flits alone (R425; DEDUCED, log 277). -/
def Chip.sendWaiting (c : Chip) (p : Port) : Chip :=
  let s := c.port p
  let begun := match s.txWait with | (15, _) :: _ => true | _ => false
  if 2048 ≤ s.replay.length then c.sendIdle p
  else if !begun && c.plumbOnly p then
    match s.ctlWait.find? (fun e => e.1 = 6) with
    | some e => (c.modPort p (fun s => { s with ctlWait := s.ctlWait.erase e })).sendNew p 6 0 e.2
    | none => c.sendIdle p
  else
    match s.ctlWait, s.txWait with
    | ctl, (15, b) :: t => (c.modPort p (fun s => { s with ctlWait := ctl, txWait := t })).sendNew p 0 15 b
    | (ty, b) :: t, _ => (c.modPort p (fun s => { s with ctlWait := t })).sendNew p ty 0 b
    | [], (start, b) :: t => (c.modPort p (fun s => { s with txWait := t })).sendNew p 0 start b
    | [], [] => c.sendIdle p

/-- R83, R84: what a port sends in one flit slot. In LINKUP it sends IDLE and PROBE flits alone (Table LINK-2). -/
def Chip.flitSlot (c : Chip) (p : Port) : Chip :=
  let s := c.port p
  if !c.transmits p then c
  else if 1023 ≤ s.sinceIdle then c.sendIdle p
  else match s.tickDue, s.nakDue, s.probesDue, s.replayQ with
    | some at_, _, _, _ => c.sendTick p at_
    | none, true, _, _ => c.sendNak p
    | none, false, (echo, t, a) :: _, l =>
      if !c.plumbOnly p then c.sendProbe p echo t a
      else match l with
        | f :: _ => c.sendAgain p f
        | [] => c.sendWaiting p
    | none, false, [], f :: _ => c.sendAgain p f
    | none, false, [], [] => if c.portState p = 6 then c.sendIdle p else c.sendWaiting p

/-! ### Training frames out (R77, R78) -/

/-- Slice k of a negotiation word with its number, 48 bits. -/
def wordSlice (w : BitVec 184) (k : Nat) : Nat := k * 2 ^ 46 + w.toNat / 2 ^ (46 * k) % 2 ^ 46

/-- The `control` and `status` of frame n on a lane (Table LINK-3). -/
def Chip.ownFrame (c : Chip) (p : Port) (lane n : Nat) : Word × Word :=
  let s := c.port p
  let st := c.portState p
  let ready := if st = 2 then 8 ≤ ones s.frameLock.toNat && 8 ≤ ones s.farLocked.toNat
    else st = 4 && s.negWord.isSome
  let asks := if st = 3 then c.askTaps p lane else 0
  let control := setBits (setBits (setBits 0 47 44 lane) 43 40 st) 39 28 asks
  let status := setBits (setBits (setBits 0 63 63 (bit (s.frameLock.getLsbD lane))) 62 62 (bit ready)) 61 50
    (Tab.get s.lanes lane {}).responses
  let status := if st = 4 then setBits status 47 0 (wordSlice (c.ownWord p) (n % 4)) else status
  (setBits control 63 48 (crc16 (leBytes 6 (getBits control 47 0) ++ wordBytes status)), status)

/-- Frame n goes out on a lane; in EQUALISE a request that stays unanswered counts its frames, and 256 of them fail the lane
(R77). Near-end serial loop-back returns it. -/
def Chip.frameLane (c : Chip) (p : Port) (n lane : Nat) : Chip :=
  let f := c.ownFrame p lane n
  let asking := c.portState p = 3 && getBits f.1 39 28 ≠ 0
  let c := c.modPort p (fun s =>
    let t := Tab.get s.lanes lane {}
    let u := if asking then t.unanswered + 1 else t.unanswered
    { s with
      frameOut := Tab.put s.frameOut lane f
      lanes := Tab.put s.lanes lane { t with unanswered := u }
      mute := if 256 ≤ u then laneBit s.mute lane true else s.mute })
  if c.fld (.port p) PORT.PORT_CTL_loopback = 1 then c.trainingFrame p lane f.1 f.2 else c

/-- Frames of 4,096 UI that a training has sent after `t` s-cycles: 17 in 1,024 s-cycles (R77). -/
def framesBy (t : Nat) : Nat := t * 17 / 1024

/-- A port in DETECT, EQUALISE or NEGOTIATE sends a training frame on all nine lanes whenever one is whole. -/
def Chip.trainSlot (c : Chip) (p : Port) : Chip :=
  let n := framesBy (c.now - (c.port p).trainAt)
  if 2 ≤ c.portState p && c.portState p ≤ 4 && c.powered (.port p) && !c.boot.failSilent
    && n ≠ framesBy (c.now - 1 - (c.port p).trainAt) then
    (List.range 9).foldl (fun c i => c.frameLane p n i) c
  else c

/-! ### Writes -/

/-- R90: a permitted grant is 0, or a multiple of 16 from 32 to 4,080 cells. -/
def grantOk (g : Nat) : Bool := g = 0 || (g % 16 = 0 && 32 ≤ g && g ≤ 4080)

/-- R90, R108: a CREDIT_CFG write, ignored whole outside the permitted grants or over the buffer's capacity. -/
def Chip.opCreditCfg (c : Chip) (p : Port) (upper : Bool) (v : Word) : Chip × Bool :=
  if !(List.range 4).all (fun t => grantOk (getBits v (16 * t + 15) (16 * t))) then
    (c.raise (.port p) PORT.ev_credit_cfg_reject, false)
  else
    let (c', no) := c.plainWrite (.port p) (if upper then 0x140 else 0x138) v
    if overcommits c c' (portRegion p) then (c.error (.xbar (portRegion p)) XBAR.ev_overcommit 0x26, false)
    else (c', no)

/-- R108: a BUF_ALLOT write. -/
def Chip.opBufAllot (c : Chip) (r : Region) (v : Word) : Chip × Bool :=
  let (c', no) := c.plainWrite (.xbar r) 0x108 v
  if overcommits c c' r then (c.error (.xbar r) XBAR.ev_overcommit 0x26, false) else (c', no)

/-- R124: word B of a multicast group waits for the next write to word A, which applies both. -/
def Chip.opMcastWord (c : Chip) (r : Region) (g : Fin 1024) (wordB : Bool) (v : Word) : Chip × Bool :=
  let posB := 0x9008 + 16 * g.val
  if wordB then
    let no := writeRefused .xbar posB (c.held (.xbar r)) (c.reg (.xbar r) posB) v
    if no then (c.raise (.xbar r) evLockedWrite, true)
    else (c.modXbar r (fun x => { x with wordB := Tab.put x.wordB g.val v }), false)
  else
    let (c, no) := c.plainWrite (.xbar r) (0x9000 + 16 * g.val) v
    match Tab.find (c.xbar r).wordB g.val with
    | some b =>
      let (c, no') := c.plainWrite (.xbar r) posB b
      (c.modXbar r (fun x => { x with wordB := Tab.del x.wordB g.val }), no || no')
    | none => (c, no)

/-- R99: a LINK_INJECT write arms one injection of its `kind`. -/
def Chip.opLinkInject (c : Chip) (p : Port) (v : Word) : Chip :=
  let (c, _) := c.plainWrite (.port p) 0x158 v
  if bitAt v 63 then c.modPort p (fun s => { s with inject := some (getBits v 57 56) }) else c

/-- Put one burst of symbol errors on a lane (R99): each moves a level to its neighbour, which the Gray coding of R70 turns
into one bit error, seen by a looped checker (R98). -/
def Chip.injectBurst (c : Chip) (p : Port) (lane : Nat) : Chip :=
  let n := max 1 (c.fld (.port p) (laneFld PORT.INJECT_CTL_burst_len lane))
  let c := c.modPort p (fun s => { s with injected := Tab.put s.injected lane (Tab.get s.injected lane 0 + n) })
  if c.portState p = 0 && c.looped p && c.flag (.port p) (laneFld PORT.PRBS_STS_chk_lock lane) then
    c.prbsSeen p lane true n
  else c

/-- R99: an INJECT_CTL write with `inject_now` injects one burst. -/
def Chip.opLaneInject (c : Chip) (p : Port) (lane : Nat) (v : Word) : Chip :=
  let (c, _) := c.plainWrite (.port p) (0x1028 + 0x40 * lane) v
  if bitAt v 63 then c.injectBurst p lane else c

/-- Is the spare of a direction free for this move, or does it serve the lane already? -/
def Chip.spareOpen (c : Chip) (p : Port) (lane : Nat) (rx : Bool) : Bool :=
  let sp := c.fld (.port p) (if rx then PORT.PORT_STS_rx_spare_for else PORT.PORT_STS_tx_spare_for)
  sp = 15 || sp = lane

/-- s-cycles of 100 ns, rounded up: the training burst of an idle lane 8 (R92). -/
abbrev burstCycles : Nat := 157

/-- R93: a lane of lanes 0–7 moves to lane 8. The transmitter moves a committed one at a frame start, an idle lane 8 after
its training burst (R92); the receiver follows the `lane` field of the marker pairs with no notice. The port relocks, a
failed lane no longer stops its traffic, and a replay in progress goes on from the oldest unacknowledged flit (R94). -/
def Chip.laneSwitch (c : Chip) (p : Port) (lane : Nat) (rx : Bool) : Chip :=
  let s := c.port p
  let due := rx || (s.laneMove.contains (lane, false) &&
    (match s.burstAt with | some t => burstCycles ≤ c.now - t | none => true))
  if c.linked p && lane < 8 && due && c.spareOpen p lane rx then
    let c := c.modPort p (fun s => { s with
      laneMove := s.laneMove.filter (· ≠ (lane, rx))
      deadLane := s.deadLane.filter (· ≠ (lane, rx))
      burstAt := if rx then s.burstAt else none
      replayQ := if s.replayQ.isEmpty then [] else s.replay })
    let c := c.setFld (.port p) (if rx then PORT.PORT_STS_rx_spare_for else PORT.PORT_STS_tx_spare_for) lane
    ((c.laneUse p).relocked p).raise (.port p) PORT.ev_lane_repointed
  else c

/-! ### The commands -/

/-- ENABLE_WRITE: PORT_CTL with only `enable` changed. -/
def execEnableWrite (p : Port) (on : Bool) (s : State) : Host.Outcome State Fault Refusal :=
  s.onReg (.port p) (fun c => c.opPortCtl p (setBits (setBits (c.reg (.port p) 0x100) 0 0 (bit on)) 12 12 0)) 0x100

/-- RETRAIN_WRITE: PORT_CTL as it stands with `retrain`. -/
def execRetrainWrite (p : Port) (s : State) : Host.Outcome State Fault Refusal :=
  s.onReg (.port p) (fun c => c.opPortCtl p (setBits (c.reg (.port p) 0x100) 12 12 1)) 0x100

/-- QUIET_DONE: training frames begin, from LINKS on (R77, Table BOOT-1). -/
def execQuietDone (p : Port) (s : State) : Host.Outcome State Fault Refusal :=
  s.on (fun c => c.inState p 1 (fun c => if !c.linksRun then c else
    (c.setFld (.port p) PORT.PORT_STS_state 2).modPort p (fun s => { s with trainAt := c.now })))

/-- TRAINING_FRAME: from the far end, which a port in serial loop-back does not hear. -/
def execTrainingFrame (p : Port) (lane : Lane) (control status : Word) (s : State) : Host.Outcome State Fault Refusal :=
  s.on (fun c => if c.fld (.port p) PORT.PORT_CTL_loopback = 1 then c else c.trainingFrame p lane.val control status)

/-- DETECT_LOCK. -/
def execDetectLock (p : Port) (s : State) : Host.Outcome State Fault Refusal := s.on (fun c => c.detectLock p)

/-- DETECT_TIMEOUT. -/
def execDetectTimeout (p : Port) (s : State) : Host.Outcome State Fault Refusal :=
  s.on (fun c => c.inState p 2 (fun c => c.failExit p))

/-- EQUALISE_DONE. -/
def execEqualiseDone (p : Port) (good : BitVec 9) (s : State) : Host.Outcome State Fault Refusal :=
  s.on (fun c => c.equaliseDone p good)

/-- EQ_TIMEOUT. -/
def execEqTimeout (p : Port) (s : State) : Host.Outcome State Fault Refusal :=
  s.on (fun c => c.inState p 3 (fun c => c.failExit p))

/-- NEGOTIATE. -/
def execNegotiate (p : Port) (word : BitVec 184) (s : State) : Host.Outcome State Fault Refusal :=
  s.on (fun c => c.negotiate p word)

/-- NEGOTIATE_TIMEOUT. -/
def execNegotiateTimeout (p : Port) (s : State) : Host.Outcome State Fault Refusal :=
  s.on (fun c => c.inState p 4 (fun c => c.failExit p))

/-- DESKEW_LOCK. -/
def execDeskewLock (p : Port) (skewPs : Nat) (order : LaneOrder) (s : State) : Host.Outcome State Fault Refusal :=
  s.on (fun c => c.deskewLock p skewPs order)

/-- DESKEW_TIMEOUT. -/
def execDeskewTimeout (p : Port) (s : State) : Host.Outcome State Fault Refusal :=
  s.on (fun c => c.inState p 5 (fun c => c.failExit p))

/-- LINKUP_DONE. -/
def execLinkupDone (p : Port) (s : State) : Host.Outcome State Fault Refusal := s.on (fun c => c.linkupDone p)

/-- LINKUP_TIMEOUT. -/
def execLinkupTimeout (p : Port) (s : State) : Host.Outcome State Fault Refusal :=
  s.on (fun c => c.inState p 6 (fun c => c.failExit p))

/-- A flit from the far end: a port in loop-back hears only itself (Table LINK-11). -/
def Chip.far (c : Chip) (p : Port) (f : Chip → Chip) : Chip := if c.looped p then c else f c

/-- DATA: a flit of type DATA, one in an uncorrectable codeword, with a failing CRC or of a reserved type (Table LINK-8a);
and what the receivers count of its codeword and of a PRBS test (R73, R98). -/
def execData (p : Port) (flit : List Byte) (cw : Codeword) (s : State) : Host.Outcome State Fault Refusal :=
  s.on (fun c => c.far p (fun c =>
    let c := cw.prbs.foldl (fun c e => c.prbsSeen p e.1.val e.2.1 e.2.2) c
    c.inState p 7 (fun c =>
      let lost := c.cwLost p cw
      let c := c.countCodeword p cw
      let h := wordAt flit 0
      if lost then c.badFlit p true
      else if leAt flit 248 8 ≠ crc64 (flit.take 248) || 7 ≤ hdrType h then c.badFlit p false
      else if hdrType h = 0 then c.rxSeq p h (fun c => c.assemble p h (slice flit 8 240))
      else c)))

/-- IDLE: its header is taken; it is discarded (R84). -/
def execIdle (p : Port) (header : Word) (s : State) : Host.Outcome State Fault Refusal :=
  s.on (fun c => c.far p (fun c => c.hearing p (fun c => c.takeHeader p header)))

/-- NAK. -/
def execNak (p : Port) (header : Word) (s : State) : Host.Outcome State Fault Refusal :=
  s.on (fun c => c.far p (fun c => c.hearingActive p (fun c => c.nakIn p header)))

/-- NAK_REPEAT_TIMEOUT. -/
def execNakRepeatTimeout (p : Port) (s : State) : Host.Outcome State Fault Refusal :=
  s.on (fun c => c.inState p 7 (fun c => if (c.port p).discarding then c.askNak p else c))

/-- REPLAY_TIMEOUT. -/
def execReplayTimeout (p : Port) (s : State) : Host.Outcome State Fault Refusal :=
  s.on (fun c => c.inState p 7 (fun c => c.replay p ((c.port p).replay.head?.map Flit.seq)))

/-- DEAD_HOLD_EXPIRY (R125). -/
def execDeadHoldExpiry (p : Port) (s : State) : Host.Outcome State Fault Refusal :=
  s.on (fun c =>
    match (c.port p).deadFrom with
    | some n =>
      let hold := max 1 (c.fld (.xbar (portRegion p)) XBAR.XBAR_CTL_dead_hold)
      if c.portRole p ≤ 1 && !c.linked p && hold ≤ c.since n then
        (c.modPort p (fun s => { s with dead := true })).discardQueued p.val
      else c
    | none => c)

/-- Does a noted change of route still stand in the way of the primary route: the port left, or the pair a detour avoids, is
not usable again? -/
def Chip.moveStands (c : Chip) (r : Region) (m : Nat × Nat) : Bool :=
  if m.2 < 64 then !c.peerUsable r m.2
  else match c.peerPair r (m.2 - 128) with
    | some (a, b) => !c.peerUsable r a && !c.peerUsable r b
    | none => true

/-- ROUTE_RESTORE: at a boundary, routes whose left port is usable again return, where no job holds the XBAR unit (R123). -/
def execRouteRestore (s : State) : Host.Outcome State Fault Refusal :=
  s.on (fun c => if !c.atBoundary then c else c.forRegions (fun c r =>
    if c.held (.xbar r) then c
    else c.modXbar r (fun x => { x with moved := x.moved.filter (c.moveStands r) })))

/-- IDLE_ENTRY_TIMEOUT. -/
def execIdleEntryTimeout (p : Port) (s : State) : Host.Outcome State Fault Refusal :=
  s.on (fun c => if c.idleReady p && !(c.port p).idleAsked && !(c.port p).idleEntering then
    (c.sendControl p 0x01).modPort p (fun s => { s with idleAsked := true }) else c)

/-- IDLE_REQ. -/
def execIdleReq (p : Port) (header : Word) (s : State) : Host.Outcome State Fault Refusal :=
  s.on (fun c => c.far p (fun c => c.hearingActive p (fun c => c.rxSeq p header (fun c => c.controlIn p 0x01 0))))

/-- IDLE_ACK. -/
def execIdleAck (p : Port) (header : Word) (s : State) : Host.Outcome State Fault Refusal :=
  s.on (fun c => c.far p (fun c => c.hearingActive p (fun c => c.rxSeq p header (fun c => c.controlIn p 0x02 0))))

/-- IDLE_NAK. -/
def execIdleNak (p : Port) (header : Word) (s : State) : Host.Outcome State Fault Refusal :=
  s.on (fun c => c.far p (fun c => c.hearingActive p (fun c => c.rxSeq p header (fun c => c.controlIn p 0x03 0))))

/-- ELEC_IDLE_ENTRY. -/
def execElecIdleEntry (p : Port) (s : State) : Host.Outcome State Fault Refusal := s.on (fun c => c.elecIdle p)

/-- WAKE_BURST. -/
def execWakeBurst (p : Port) (s : State) : Host.Outcome State Fault Refusal :=
  s.on (fun c => c.inState p 8 (fun c => c.setFld (.port p) PORT.PORT_STS_state 9))

/-- WAKE_RELOCK: ACTIVE is entered (Table LINK-11, `link_up`). -/
def execWakeRelock (p : Port) (s : State) : Host.Outcome State Fault Refusal :=
  s.on (fun c => c.inState p 9 (fun c =>
    ((c.relocked p).setFld (.port p) PORT.PORT_STS_state 7).raise (.port p) PORT.ev_link_up))

/-- WAKE_TIMEOUT. -/
def execWakeTimeout (p : Port) (s : State) : Host.Outcome State Fault Refusal :=
  s.on (fun c => c.inState p 9 (fun c => c.toQuiet p))

/-- RETRAIN. -/
def execRetrain (p : Port) (header : Word) (s : State) : Host.Outcome State Fault Refusal :=
  s.on (fun c => c.far p (fun c => c.hearingActive p (fun c => c.rxSeq p header (fun c => c.controlIn p 0x20 0))))

/-- REPOINT_REQ: the transmitter moves the lane at its next frame start (R93). -/
def execRepointReq (p : Port) (header : Word) (lane : Lane) (s : State) : Host.Outcome State Fault Refusal :=
  s.on (fun c => c.far p (fun c => c.hearingActive p (fun c => c.rxSeq p header (fun c => c.controlIn p 0x10 lane.val))))

/-- LANE_SWITCH. -/
def execLaneSwitch (p : Port) (lane : Lane) (rx : Bool) (s : State) : Host.Outcome State Fault Refusal :=
  s.on (fun c => c.laneSwitch p lane.val rx)

/-- CREDIT_CFG_WRITE. -/
def execCreditCfgWrite (p : Port) (upper : Bool) (value : Word) (s : State) : Host.Outcome State Fault Refusal :=
  s.onReg (.port p) (fun c => c.opCreditCfg p upper value) (if upper then 0x140 else 0x138)

/-- LINK_INJECT. -/
def execLinkInject (p : Port) (value : Word) (s : State) : Host.Outcome State Fault Refusal :=
  s.onReg (.port p) (fun c => (c.opLinkInject p value, false)) 0x158

/-- LANE_INJECT. -/
def execLaneInject (p : Port) (lane : Lane) (value : Word) (s : State) : Host.Outcome State Fault Refusal :=
  s.onReg (.port p) (fun c => (c.opLaneInject p lane.val value, false)) (0x1028 + 0x40 * lane.val)

/-- CONTINUOUS_INJECTION. -/
def execContinuousInjection (p : Port) (lane : Lane) (s : State) : Host.Outcome State Fault Refusal :=
  s.on (fun c =>
    if c.flag (.port p) (laneFld PORT.INJECT_CTL_continuous lane.val)
      && c.fld (.port p) (laneFld PORT.INJECT_CTL_interval lane.val) ≠ 0 then c.injectBurst p lane.val else c)

/-- BUF_ALLOT_WRITE. -/
def execBufAllotWrite (r : Region) (value : Word) (s : State) : Host.Outcome State Fault Refusal :=
  s.onReg (.xbar r) (fun c => c.opBufAllot r value) 0x108

/-- MULTICAST_WORD_WRITE. -/
def execMulticastWordWrite (r : Region) (g : Fin 1024) (wordB : Bool) (value : Word) (s : State) :
    Host.Outcome State Fault Refusal :=
  s.onReg (.xbar r) (fun c => c.opMcastWord r g wordB value) (0x9000 + 16 * g.val + 8 * bit wordB)

/-- RTT_MEASURE: once every 256 courses a peer link sends a probe request (R31). -/
def execRttMeasure (p : Port) (s : State) : Host.Outcome State Fault Refusal :=
  s.on (fun c =>
    let due := match Tab.find c.course.rttAt p.val with
      | some n => 256 ≤ c.since n
      | none => true
    if c.portActive p && c.portRole p = 2 && due then
      let c := c.askProbe p
      { c with course := { c.course with rttAt := Tab.put c.course.rttAt p.val c.courseCount } }
    else c)

/-- PROBE. -/
def execProbe (p : Port) (header : Word) (echo : Bool) (sendTime arrival : Word) (hold : BitVec 32) (s : State) :
    Host.Outcome State Fault Refusal :=
  s.on (fun c => c.far p (fun c => c.hearing p (fun c => c.probeIn p header echo sendTime arrival hold)))

/-- ADAPT_AT_LIMIT: a loop wants a value for a setting; inside the window it takes it, beyond a bound it holds at the bound
and says so (R97). Settings 0 to 4 are the fields of Table LINK-10 from bit 0 up. -/
def execAdaptAtLimit (p : Port) (lane : Lane) (value : Int) (setting : Fin 5) (s : State) :
    Host.Outcome State Fault Refusal :=
  s.on (fun c =>
    let lo := getBits (c.reg (.port p) 0x90) (8 * setting.val + 7) (8 * setting.val)
    let hi := getBits (c.reg (.port p) 0x98) (8 * setting.val + 7) (8 * setting.val)
    let v := (min (hi : Int) (max (lo : Int) value)).toNat
    let c := match setting.val with
      | 0 => c.setFld (.port p) (laneFld PORT.LANE_STS_ctle lane.val) v
      | 1 => c.setFld (.port p) (laneFld PORT.LANE_STS_vga lane.val) v
      | 2 => c.setFld (.port p) (laneFld PORT.LANE_STS_dfe1 lane.val) v
      | _ => c.modPort p (fun s => { s with coeff := Tab.put s.coeff (16 * lane.val + setting.val) v })
    c.raiseIf (decide (value < (lo : Int)) || decide ((hi : Int) < value)) (.port p) PORT.ev_adapt_at_limit)

end Sys2Proof.Machine
end

