-- ==== Sys2Proof/Machine/Course.lean ====
section
/-! DEFINITION. The course tick: markers, follower states (Table CLK-3), the course number and length, and the choice of
the master (R27 to R37), and one s-cycle of the chip. The steps of a boundary stand in Boundary.lean. -/
namespace Sys2Proof.Machine

def Chip.modCourse (c : Chip) (f : CourseS → CourseS) : Chip := { c with course := f c.course }

/-- `marker_timeout`, values below 2 acting as 2. -/
def Chip.markerTimeout (c : Chip) : Nat := max 2 (c.fld .course COURSE.TICK_CTL_marker_timeout)

/-- The boundary: the number rises by 1 modulo 2^48 and the phase restarts; the first boundary in card mode is number 0
(R29, R30). -/
def Chip.advanceCourse (c : Chip) : Chip :=
  let n := if c.course.started then (c.courseNow + 1) % 2 ^ 48 else c.courseNow
  (c.setFld .course COURSE.COURSE_NOW_course n).modCourse (fun s =>
    { s with
      started := true
      boundaries := s.boundaries + 1
      boundaryAt := c.now
      phase := s.phase - max (-50) (min 50 s.phase) })

/-- May this Pysum send markers: a follower that places boundaries, an acting master past its start-up wait (R37)? -/
def Chip.sendsTicks (c : Chip) : Bool :=
  !c.card && (if c.acting then c.role ≠ 1 || c.course.startupOver else c.course.tick ≠ .acquire)

/-- R91: one TICK flit is due on each ACTIVE peer link after a boundary. -/
def Chip.sendTicks (c : Chip) : Chip :=
  if !c.sendsTicks then c
  else c.forPorts (fun c p =>
    if c.portActive p && c.portRole p = 2 then c.modPort p (fun s => { s with tickDue := some c.course.boundaryAt }) else c)

/-- The peer ports whose marker is fresh, best first: lowest hop count, then lowest port (R31). -/
def Chip.upstreams (c : Chip) : List Nat :=
  let fresh := c.course.markers.filter (fun e => c.since e.2.2 < c.markerTimeout && c.portActive (portOf e.1))
  (List.range 8).foldl (fun l h => l ++ (fresh.filter (fun e => e.2.1.hops = h)).map (·.1)) []

/-- Take the best upstream and the next best as backup (R31). Two points the spec leaves open (DESIGN CHOICE, log 255): with
no backup, `backup_port` reads the upstream's own port; and `hops`, a field of 3 bits, stays at 7 when the upstream's marker
has hop count 7 (R33). -/
def Chip.pickUpstream (c : Chip) : Chip :=
  match c.upstreams with
  | [] => c
  | u :: rest =>
    let hops := match Tab.find c.course.markers u with | some (m, _) => m.hops + 1 | none => 0
    let c := (c.setFld .course COURSE.TICK_STS_upstream_port u).setFld .course COURSE.TICK_STS_hops (min hops 7)
    c.setFld .course COURSE.TICK_STS_backup_port (rest.getD 0 u)

/-- TICK_OFFSET from a marker of the upstream: signed, in 40 ps units; beyond 20 ns, or 25 ns at 3 hops,
`offset_exceeded` (R31 to R33). -/
def Chip.noteOffset (c : Chip) (off : Int) : Chip :=
  let mag := off.natAbs
  let c := c.setFld .course COURSE.TICK_OFFSET_offset (BitVec.ofInt 16 off).toNat
  let c := c.peak .course COURSE.TICK_OFFSET_offset_peak mag
  let bound := if 3 ≤ c.fld .course COURSE.TICK_STS_hops then 625 else 500
  (c.raiseIf (decide (bound < mag)) .course COURSE.ev_offset_exceeded).modCourse (fun s => { s with phase := off })

/-- The state bits of TICK_STS. -/
def Chip.tickBits (c : Chip) (locked holdover : Bool) : Chip :=
  (c.setFld .course COURSE.TICK_STS_locked (bit locked)).setFld .course COURSE.TICK_STS_holdover (bit holdover)

/-- A valid marker reaches a follower (Table CLK-3, R28, R36). `off` is the phase error it shows. A better upstream takes the
old one's place with `marker_lost` (Table CLK-4, "switched"). The Pysum strapped as pod master is the one a peer link's
negotiation word names; a follower with no link to it takes the master of the first marker it locks on (DESIGN CHOICE, log
248). -/
def Chip.followMarker (c : Chip) (p : Port) (m : Marker) (off : Int) (lag : Nat) : Chip :=
  let old := c.fld .course COURSE.TICK_STS_upstream_port
  let c := c.pickUpstream
  let c := c.raiseIf (c.course.tick = .locked && c.fld .course COURSE.TICK_STS_upstream_port ≠ old) .course
    COURSE.ev_marker_lost
  if c.fld .course COURSE.TICK_STS_upstream_port ≠ p.val then c
  else
    let acquiring := c.course.tick = .acquire
    let relocking := c.course.tick = .holdover || c.course.tick = .free
    let c := if acquiring then
        (c.setFld .course COURSE.COURSE_NOW_course m.course).modCourse (fun s =>
          { s with
            running := true
            started := true
            boundaryAt := c.now - lag
            strapMaster := if s.strapMaster = none then some m.master else s.strapMaster })
      else c.noteOffset off
    let newLen := m.len ≠ c.fld .course COURSE.TICK_STS_len_eff
    let c := c.setFld .course COURSE.TICK_STS_len_eff m.len
    let c := c.raiseIf (newLen && !acquiring && c.anyHeld) .course COURSE.ev_len_under_job
    let diff := (m.course + 2 ^ 48 - c.courseNow) % 2 ^ 48
    let c := if diff = 0 then c.modCourse (fun s => { s with adopt := none })
      else if relocking then c
      else (c.error .course COURSE.ev_number_mismatch 0x81).modCourse (fun s =>
        { s with adopt := some (diff, c.courseCount) })
    (c.tickBits true false).modCourse (fun s => { s with tick := .locked, lastMarker := c.courseCount })

/-- R91, R31, R37: a received marker. `arrival` is its time of arrival after the last local boundary, signed, in 40 ps. -/
def Chip.tickIn (c : Chip) (p : Port) (h : Word) (course : Nat) (len master hops launch podId : Nat) (arrival : Int) :
    Chip :=
  let c := c.takeHeader p h
  if c.portRole p ≠ 2 || podId ≠ c.fld .chip CHIP.POSITION_pod_id || 7 < hops then c.protocolError p
  else if c.card then c
  else
    let marker : Marker := ⟨hops, course, master, len⟩
    let c := c.modCourse (fun s => { s with markers := Tab.put s.markers p.val (marker, c.courseCount) })
    let delay := c.fld (.port p) PORT.PORT_RTT_rtt / 2 + launch
    let off : Int := arrival - (delay : Int)
    if c.acting then
      if c.role = 1 && !c.course.startupOver && master ≠ c.pysum then
        let c := c.setFld .course COURSE.TICK_STS_acting_master 0
        let c := c.modCourse (fun s => { s with chosen := some (master, c.courseCount), tick := .acquire })
        c.followMarker p marker off (delay / 16)
      else c
    else c.followMarker p marker off (delay / 16)

/-- TICK. -/
def execTick (p : Port) (header : Word) (course : BitVec 48) (len : BitVec 2) (master : BitVec 6) (hops : BitVec 8)
    (launch : BitVec 16) (podId : BitVec 5) (arrival : BitVec 32) (s : State) : Host.Outcome State Fault Refusal :=
  s.on (fun c => c.far p (fun c => c.hearingActive p (fun c =>
    c.tickIn p header course.toNat len.toNat master.toNat hops.toNat launch.toNat podId.toNat arrival.toInt)))

/-- MARKER_TIMEOUT: the backup upstream, or Holdover (Table CLK-3). -/
def execMarkerTimeout (s : State) : Host.Outcome State Fault Refusal :=
  s.on (fun c =>
    if c.acting || c.course.tick ≠ .locked || c.since c.course.lastMarker < c.markerTimeout then c
    else
      let up := c.fld .course COURSE.TICK_STS_upstream_port
      let c := c.raise .course COURSE.ev_marker_lost
      let c := c.modCourse (fun s => { s with markers := Tab.del s.markers up })
      if c.upstreams.isEmpty then
        let c := (c.tickBits true true).raise .course COURSE.ev_holdover_entered
        c.modCourse (fun s => { s with tick := .holdover, holdoverFrom := c.courseCount })
      else c.pickUpstream.modCourse (fun s => { s with lastMarker := c.courseCount }))

/-- HOLDOVER_EXHAUSTED: Free-running (Table CLK-3). -/
def execHoldoverExhausted (s : State) : Host.Outcome State Fault Refusal :=
  s.on (fun c =>
    if c.course.tick ≠ .holdover
      || c.since c.course.holdoverFrom < max 8 (c.fld .course COURSE.TICK_CTL_holdover_limit) then c
    else
      let c := (c.tickBits false false).error .course COURSE.ev_holdover_exhausted 0x80
      c.modCourse (fun s => { s with tick := .free }))

/-- A COURSE_CTL write: a new `course_len` of the card or acting master waits for its boundary (R28). -/
def Chip.opCourseCtl (c : Chip) (v : Word) : Chip × Bool :=
  let old := c.fld .course COURSE.COURSE_CTL_course_len
  let (c, no) := c.plainWrite .course 0x100 v
  let new := c.fld .course COURSE.COURSE_CTL_course_len
  (if old ≠ new then c.modCourse (fun s => { s with newLen := some (new, c.courseCount) }) else c, no)

/-- R28: the new length of the card or acting master at a boundary whose number is a multiple of 8 and at least 16 courses
after the write. The markers of this boundary carry it. -/
def Chip.lenDue (c : Chip) : Chip :=
  match c.course.newLen with
  | some (len, w) =>
    if c.acting && c.courseNow % 8 = 0 && 16 ≤ c.since w then
      (c.setFld .course COURSE.TICK_STS_len_eff len).modCourse (fun s => { s with newLen := none })
    else c
  | none => c

/-- R36: the marker's number at the first boundary after it was seen at which no job holds a unit. -/
def Chip.adoptDue (c : Chip) : Chip :=
  match c.course.adopt with
  | some (d, n) =>
    if c.anyHeld || c.since n = 0 then c
    else (c.setFld .course COURSE.COURSE_NOW_course ((c.courseNow + d) % 2 ^ 48)).modCourse
      (fun s => { s with adopt := none })
  | none => c

/-- R37: at the boundary after the choice the Pysum that it names becomes master, and a displaced one a follower that is
Locked on the new master's markers. -/
def Chip.masterDue (c : Chip) : Chip :=
  match c.course.chosen with
  | some (m, n) =>
    if c.since n = 0 then c
    else if m = c.pysum && !c.acting then
      let c := (c.setFld .course COURSE.TICK_STS_acting_master 1).setFld .course COURSE.TICK_STS_hops 0
      let c := (c.tickBits true false).setReg .course 0x128 0
      c.modCourse (fun s => { s with tick := .locked, startupOver := true, adopt := none, phase := 0 })
    else if m ≠ c.pysum && c.acting then
      (c.setFld .course COURSE.TICK_STS_acting_master 0).pickUpstream.modCourse (fun s =>
        { s with tick := .locked, lastMarker := c.courseCount })
    else c
  | none => c

/-- COURSE_LEN_CHANGE. -/
def execCourseLenChange (s : State) : Host.Outcome State Fault Refusal :=
  s.on (fun c => if c.atBoundary then c.lenDue else c)

/-- COURSE_NUMBER_ADOPT. -/
def execCourseNumberAdopt (s : State) : Host.Outcome State Fault Refusal :=
  s.on (fun c => if c.atBoundary then c.adoptDue else c)

/-- MASTER_TAKEOVER. -/
def execMasterTakeover (s : State) : Host.Outcome State Fault Refusal :=
  s.on (fun c => if c.atBoundary then c.masterDue else c)

/-- MASTER_STARTUP_TIMEOUT: a strapped master that saw no foreign marker begins to send markers (R37). -/
def execMasterStartupTimeout (s : State) : Host.Outcome State Fault Refusal :=
  s.on (fun c =>
    match c.course.startup with
    | some n =>
      if c.role = 1 && c.acting && c.markerTimeout ≤ c.since n then
        c.modCourse (fun s => { s with startupOver := true })
      else c
    | none => c)

/-! ### Time -/

/-- One s-cycle of the chip with no command (log 1). What a boundary of this s-cycle brings and no command has performed yet
happens; time passes; every second s-cycle is a flit slot of every port (R74); training frames and looped PRBS tests go
on. -/
def Chip.sCycle (c : Chip) : Chip :=
  let c := if c.atBoundary then c.adoptDue.lenDue.masterDue else c
  let c := { c with now := c.now + 1 }
  c.forPorts (fun c p =>
    let c := if c.now % 2 = 0 then c.flitSlot p else c
    (List.range 9).foldl (fun c i => c.prbsLoop p i) (c.trainSlot p))

end Sys2Proof.Machine
end

