-- ==== Sys2Proof/Machine/Awl.lean ====
section
/-! DEFINITION. The Awl recorder: the records of Table DET-3, the ring, and the comparison with a reference ring
(R376 to R382). -/
namespace Sys2Proof.Machine

def Chip.modAwl (c : Chip) (f : AwlS → AwlS) : Chip := { c with awl := f c.awl }

/-- Does course a lie before course b, modulo 2^48? -/
def courseBefore (a b : Nat) : Bool := 2 ^ 47 ≤ (a + 2 ^ 48 - b) % 2 ^ 48

/-- AWL_CTL `mode`, 3 acting as 0. -/
def Chip.awlMode (c : Chip) : Nat := let m := c.fld .awl AWL.AWL_CTL_mode; if m = 3 then 0 else m

/-- Has `stop_course` come (R380)? -/
def Chip.awlStopped (c : Chip) : Bool :=
  let n := c.fld .awl AWL.AWL_STOP_stop_course
  n ≠ 0 && !courseBefore c.courseNow n

/-- Are selected sources recorded now: from the boundary of the start course to the end of the course before the stop. -/
def Chip.awlOn (c : Chip) : Bool :=
  (match c.awl.armed with | some n => !courseBefore c.courseNow n | none => c.awl.recording) && !c.awlStopped

/-- Does recording run: accepted and not stopped (R380)? -/
def Chip.awlRuns (c : Chip) : Bool := c.awl.armed.isSome || c.awl.recording

/-- A record's 64 bytes (Table DET-4). -/
def awlBytes (region course off type port job count : Nat) (head tail : List Byte) : List Byte :=
  wordBytes (setBits (setBits (setBits 0 63 62 region) 61 48 off) 47 0 course)
    ++ wordBytes (setBits (setBits (setBits (setBits 0 63 32 count) 31 16 job) 13 8 port) 7 0 type)
    ++ slice head 0 32 ++ slice tail 0 16

/-- Records in stamp order, equal stamps in order of region, type and port (R377). -/
def AwlRec.before (a b : AwlRec) : Bool :=
  if a.course ≠ b.course then courseBefore a.course b.course
  else if a.off ≠ b.off then a.off < b.off
  else if a.region ≠ b.region then a.region < b.region
  else if a.type ≠ b.type then a.type < b.type
  else a.port < b.port

/-- A record joins its region's queue of 4,096, in stamp order; one that finds it full is lost (R377, R378). -/
def Chip.awlPut (c : Chip) (e : AwlRec) : Chip :=
  let q := Tab.get c.awl.queues e.region []
  if 4096 ≤ q.length then
    let c := (c.bump .awl AWL.AWL_COUNT_lost).error .awl AWL.ev_lost_records 0x88
    let (n, k, o) := Tab.get c.awl.lost e.region (0, e.course, e.off)
    c.modAwl (fun a => { a with lost := Tab.put a.lost e.region (n + 1, k, o) })
  else
    let q := q.filter (fun x => !e.before x) ++ [e] ++ q.filter (fun x => e.before x)
    c.modAwl (fun a => { a with queues := Tab.put a.queues e.region q })

/-- A record stamped now by a region (R377); none in partition reset (R378). -/
def Chip.awlStamp (c : Chip) (r : Region) (type port job : Nat) (head tail : List Byte) : Chip :=
  if c.inReset r then c
  else c.awlPut ⟨r.val, c.courseNow, c.phase, type, port,
    awlBytes r.val c.courseNow c.phase type port job 0 head tail, c.now⟩

/-- Is a source selected (AWL_SEL `sources`)? -/
def Chip.awlSource (c : Chip) (type : Nat) : Bool :=
  c.awlOn && bitAt (c.reg .awl 0x118) (type - 1)

/-- Types 1 to 3: a packet on a port (R376). -/
def Chip.awlPacket (c : Chip) (p : Port) (sent : Bool) (pkt : Packet) : Chip :=
  let type := if c.portRole p = 2 then 3 else if sent then 2 else 1
  let sel := c.reg .awl 0x118
  if (sent && type = 3) || !c.awlSource type || !bitAt (c.reg .awl 0x120) p.val || !bitAt sel (56 + pkt.tc)
      || !bitAt sel (40 + pkt.kind)
      || (c.flag .awl AWL.AWL_JOB_job_filter && pkt.job ≠ c.fld .awl AWL.AWL_JOB_job_id) then c
  else c.awlStamp (portRegion p) type p.val pkt.job
    (wordBytes pkt.w0 ++ wordBytes pkt.w1 ++ wordBytes pkt.w2 ++ wordBytes pkt.w3) (pkt.payload.take (min 16 pkt.len))

/-- Type 4: a command message accepted by the host bridge; region 0 records it (R377). -/
def Chip.awlCommand (c : Chip) (m : Welt) : Chip :=
  if !c.awlSource 4 then c
  else
    let h := wordBytes m.w0 ++ wordBytes m.w1 ++ wordBytes m.w2 ++ wordBytes m.w3
    c.awlStamp 0 4 0 m.job h (leBytes 4 (crc32c (h ++ m.payload)))

/-- Type 5: an event message is formed. -/
def Chip.awlEvent (c : Chip) (addr : Nat) (words : List Word) : Chip :=
  if !c.awlSource 5 then c
  else c.awlStamp 0 5 0 0 (leBytes 8 addr ++ wordBytes (words.getD 0 0) ++ wordBytes (words.getD 2 0))
    (wordBytes (words.getD 3 0))

/-! ### Start and stop -/

/-- The first byte of the fabric area of a region (R148). -/
def Chip.areaBase (c : Chip) (r : Region) : Nat := min 383 (c.fld (.fabmem r) FABMEM.FAB_AREA_area) * 2 ^ 28

/-- Bytes of one region endpoint's memory: 96 GiB (R148). -/
abbrev endpointBytes : Nat := 96 * 2 ^ 30

/-- Does [a, a+n) lie below 96 GiB and outside the fabric area? -/
def Chip.outsideArea (c : Chip) (r : Region) (a n : Nat) : Bool :=
  a + n ≤ endpointBytes && (a + n ≤ c.areaBase r || c.areaBase r + 2 ^ 28 ≤ a)

/-- The ring's region, base and bytes, and the reference's. -/
def Chip.awlRing (c : Chip) : Region × Nat × Nat :=
  (regionOf (c.fld .awl AWL.AWL_RING_ring_region), c.fld .awl AWL.AWL_RING_base, 2 ^ c.fld .awl AWL.AWL_RING_size_log2)
def Chip.awlRef (c : Chip) : Region × Nat × Nat :=
  (regionOf (c.fld .awl AWL.AWL_REF_ref_region), c.fld .awl AWL.AWL_REF_ref_base,
    64 * c.fld .awl AWL.AWL_REF_LEN_ref_records)

/-- R380: the conditions on the ring, the reference and the mode. -/
def Chip.awlReady (c : Chip) : Bool :=
  let (r, b, n) := c.awlRing
  let (rr, rb, rn) := c.awlRef
  let sz := c.fld .awl AWL.AWL_RING_size_log2
  (c.awlMode = 1 || c.awlMode = 2) && 16 ≤ sz && sz ≤ 33 && b % 4096 = 0 && c.outsideArea r b n
    && (c.awlMode ≠ 2 || (c.outsideArea rr rb rn && (r ≠ rr || b + n ≤ rb || rb + rn ≤ b)))

/-- Is the ring full (R379)? -/
def Chip.awlFull (c : Chip) : Bool :=
  !c.flag .awl AWL.AWL_CTL_wrap && c.awlRing.2.2 < 64 * (c.fld .awl AWL.AWL_WPTR_written + 1)

/-- Write one record to the ring (R379). -/
def Chip.awlWrite (c : Chip) (bytes : List Byte) : Chip :=
  let (r, b, n) := c.awlRing
  let i := c.fld .awl AWL.AWL_WPTR_written
  let a := b + (64 * i) % n
  ((c.store (.lintel r.val) a bytes).clearBad (.lintel r.val) a 64).wrap .awl AWL.AWL_WPTR_written

/-- Recording and compare end. -/
def Chip.awlEnd (c : Chip) : Chip :=
  (c.modAwl (fun a => { a with armed := none, recording := false, comparing := false, waiting := [] })).raise .awl
    AWL.ev_stopped

/-- R380: a stop, with its stop record queued behind the records already made. -/
def Chip.awlStop (c : Chip) (course off : Nat) : Chip :=
  if !c.awlRuns then c
  else
    let e : AwlRec := ⟨0, course, off, 9, 0, awlBytes 0 course off 9 0 0 0 [] [], c.now⟩
    let on := c.awl.comparing
    ((c.awlEnd).modAwl (fun a => { a with comparing := on })).awlPut e

/-- R379: a partition reset of the ring's region ends recording and compare at once. -/
def Chip.awlRingLost (c : Chip) (r : Region) : Chip :=
  if (c.awlRuns || c.awl.comparing) && c.awlRing.1 = r then
    ((c.awlEnd).modAwl (fun a => { a with queues := [], lost := [] })).raise .awl AWL.ev_ring_lost
  else c

/-- R380: a write to AWL_START; a refused one changes nothing. The start record stands at the boundary of course N. -/
def Chip.opAwlStart (c : Chip) (v : Word) : Chip × Bool :=
  let n := getBits v 47 0
  if c.lateFor n then ((c.raise .awl AWL.ev_start_refused).raise .course COURSE.ev_late_schedule, false)
  else if !c.awlReady then (c.raise .awl AWL.ev_start_refused, false)
  else
    let (c, no) := c.plainWrite .awl 0x108 v
    let c := (c.setReg .awl 0x150 0).setReg .awl 0x158 0
    let c := { c with awl := { armed := some n, start := n, comparing := c.awlMode = 2 } }
    (c.awlWrite (awlBytes 0 n 0 8 0 0 0 [] []), no)

/-- Writes to AWL_CTL; `mode` 0 stops recording at once (R380). -/
def Chip.opAwlMode (c : Chip) (v : Word) : Chip × Bool :=
  let m := getBits v 1 0
  if !c.awlRuns then c.plainWrite .awl 0x100 v
  else if m = 0 || m = 3 then
    let (c, no) := c.plainWrite .awl 0x100 v
    (c.awlStop c.courseNow c.phase, no)
  else (c.raise .awl AWL.ev_start_refused, false)

/-- AWL_SEL, AWL_PORTS, AWL_JOB, AWL_RING and AWL_REF: ignored while recording runs (R380). -/
def Chip.opAwlSet (c : Chip) (pos : Nat) (v : Word) : Chip × Bool :=
  if c.awlRuns then (c.raise .awl AWL.ev_start_refused, false) else c.plainWrite .awl pos v

/-! ### Compare -/

/-- A record's stream: type and port, and of packets class and both EPIDs (R382). -/
def awlStream (b : List Byte) : List Byte :=
  let w0 := wordAt b 16
  if leAt b 8 1 = 4 then leBytes 1 4
  else (b.drop 8).take 2 ++ leBytes 1 (getBits w0 55 53) ++ leBytes 2 (getBits w0 36 25) ++ leBytes 2 (getBits w0 48 37)

/-- Reference record i. -/
def Chip.refRecord (c : Chip) (i : Nat) : List Byte :=
  let (r, b, _) := c.awlRef
  c.load (.lintel r.val) (b + 64 * i) 64

/-- Is the reference record of a matched type (1 to 4)? -/
def awlMatched (b : List Byte) : Bool := let t := leAt b 8 1; 1 ≤ t && t ≤ 4

/-- AWL_RPTR moves past leading records that are matched, or of a type that is not matched. -/
def Chip.awlAdvance (fuel : Nat) (c : Chip) : Chip :=
  match fuel with
  | 0 => c
  | k + 1 =>
    let i := c.fld .awl AWL.AWL_RPTR_matched
    if i < c.fld .awl AWL.AWL_REF_LEN_ref_records && (c.awl.done.contains i || !awlMatched (c.refRecord i)) then
      Chip.awlAdvance k ((c.modAwl (fun a => { a with done := a.done.filter (· ≠ i) })).wrap .awl AWL.AWL_RPTR_matched)
    else c

/-- s-cycles between a record's stamp and the reference's expected stamp (R382). -/
def Chip.awlSkew (c : Chip) (new ref : List Byte) : Nat :=
  let want := getBits (wordAt ref 0) 47 0 + 2 ^ 48 - c.fld .awl AWL.AWL_REF_COURSE_ref_course + c.awl.start
  let d : Nat := (getBits (wordAt new 0) 47 0 + 2 ^ 49 - want) % 2 ^ 48
  let d : Int := if d < 2 ^ 47 then Int.ofNat d else Int.ofNat d - 2 ^ 48
  (d * (c.courseCycles : Int) + (getBits (wordAt new 0) 61 48 : Int) - (getBits (wordAt ref 0) 61 48 : Int)).natAbs

/-- Bytes 8 to 63 apart from `count`. -/
def awlSame (a b : List Byte) : Bool := (a.drop 8).take 4 = (b.drop 8).take 4 && a.drop 16 = b.drop 16

/-- A divergence: the first is held until released (R382). -/
def Chip.awlDiverge (c : Chip) (ref new : Nat) : Chip :=
  let stop := c.flag .awl AWL.AWL_CTL_stop_on_diverge
  let c := (c.raiseIf stop .awl AWL.ev_stopped).raise .awl AWL.ev_diverged
  let c := if c.flag .awl AWL.AWL_DIVERGE_valid then c
    else (c.setReg .awl 0x168 (setBits (setBits 0 63 63 1) 47 0 ref)).setReg .awl 0x170 (setBits 0 47 0 new)
  if stop then c.modAwl (fun a => { a with comparing := false, waiting := [] }) else c

/-- Compare ends without a divergence (R382). -/
def Chip.awlWindow (c : Chip) : Chip :=
  ((c.modAwl (fun a => { a with comparing := false, waiting := [] })).raise .awl AWL.ev_stopped).raise .awl
    AWL.ev_window_exceeded

/-- Match record `ix` against the reference, up to 4,096 records beyond the oldest unmatched one; it waits where its stream may go
on beyond the look-ahead (DEDUCED, log 274). -/
def Chip.awlMatch (c : Chip) (ix : Nat) (e : AwlRec) : Chip :=
  if !c.awl.comparing then c
  else
    let c := Chip.awlAdvance 8192 c
    let first := c.fld .awl AWL.AWL_RPTR_matched
    let total := c.fld .awl AWL.AWL_REF_LEN_ref_records
    let stream := awlStream e.bytes
    let c := if c.awl.streams.contains stream then c else c.modAwl (fun a => { a with streams := stream :: a.streams })
    if 1024 < c.awl.streams.length then c.awlWindow
    else
      let look := min 4097 (total - first)
      match firstFrom look first (fun i => !c.awl.done.contains i && awlMatched (c.refRecord i)
          && awlStream (c.refRecord i) = stream) with
      | some i =>
        if !awlSame e.bytes (c.refRecord i) then c.awlDiverge i ix
        else
          let late := c.fld .awl AWL.AWL_CTL_tolerance < c.awlSkew e.bytes (c.refRecord i)
          let c := if late then (c.bump .awl AWL.AWL_COUNT_timing_diffs).raise .awl AWL.ev_timing_diff else c
          Chip.awlAdvance 8192 (c.modAwl (fun a => { a with done := i :: a.done }))
      | none =>
        if first + look < total then c.modAwl (fun a => { a with waiting := a.waiting ++ [(ix, e)] })
        else c.awlDiverge first ix

/-- Compare a newly written record: those that wait are tried first; one that has waited for 4,096 records ends compare. -/
def Chip.awlCompare (c : Chip) (ix : Nat) (e : AwlRec) : Chip :=
  if !c.awl.comparing || !awlMatched e.bytes then c
  else
    let old := c.awl.waiting
    let c := (old ++ [(ix, e)]).foldl (fun c w => c.awlMatch w.1 w.2) (c.modAwl (fun a => { a with waiting := [] }))
    if c.awl.waiting.any (fun w => 4096 ≤ ix - w.1) then c.awlWindow else c

/-- R377: the record with the lowest stamp among the queue heads. -/
def Chip.awlHead (c : Chip) : Option AwlRec :=
  (List.range 4).foldl (fun (best : Option AwlRec) r =>
    match (Tab.get c.awl.queues r []).head?, best with
    | some e, some b => if e.before b then some e else best
    | some e, none => some e
    | none, _ => best) none

/-- R377, R379: the lowest record, held for 64 s-cycles, goes to the ring and is compared; a full ring ends recording. -/
def Chip.awlDrain (c : Chip) : Chip :=
  match c.awlHead with
  | none => c
  | some e =>
    if c.now < e.made + 64 then c
    else
    let c := c.modAwl (fun a => { a with queues := Tab.put a.queues e.region ((Tab.get a.queues e.region []).drop 1) })
    if c.awlFull then
      let ran := c.awlRuns
      let c := c.modAwl (fun a => { a with queues := [], lost := [] })
      if e.type = 9 then c
      else if ran then (c.awlEnd).raise .awl AWL.ev_ring_full else c.raise .awl AWL.ev_ring_full
    else
      let ix := c.fld .awl AWL.AWL_WPTR_written
      let c := (c.awlWrite e.bytes).awlCompare ix e
      if e.type = 9 then c.modAwl (fun a => { a with comparing := false, waiting := [] }) else c

/-! ### The commands -/

/-- AWL_START. -/
def execAwlStart (value : Word) (s : State) : Host.Outcome State Fault Refusal :=
  s.onReg .awl (fun c => c.opAwlStart value) 0x108

/-- AWL_RECORD_START: the start course has begun. -/
def execAwlRecordStart (s : State) : Host.Outcome State Fault Refusal :=
  s.on (fun c => match c.awl.armed with
    | some n => if courseBefore c.courseNow n then c else c.modAwl (fun a => { a with armed := none, recording := true })
    | none => c)

/-- AWL_MODE_WRITE. -/
def execAwlModeWrite (value : Word) (s : State) : Host.Outcome State Fault Refusal :=
  s.onReg .awl (fun c => c.opAwlMode value) 0x100

/-- AWL_RECORD_WRITE. -/
def execAwlRecordWrite (s : State) : Host.Outcome State Fault Refusal := s.on Chip.awlDrain

/-- AWL_GAP_RECORD (R378): stamped at the time of the first lost record. -/
def execAwlGapRecord (r : Region) (s : State) : Host.Outcome State Fault Refusal :=
  s.on (fun c =>
    match Tab.find c.awl.lost r.val with
    | none => c
    | some (n, course, off) =>
      if 4096 ≤ (Tab.get c.awl.queues r.val []).length then c
      else (c.modAwl (fun a => { a with lost := Tab.del a.lost r.val })).awlPut
        ⟨r.val, course, off, 7, 0, awlBytes r.val course off 7 0 0 n [] [], c.now⟩)

/-- AWL_STOP_COURSE: the end of the course before `stop_course`. -/
def execAwlStopCourse (s : State) : Host.Outcome State Fault Refusal :=
  s.on (fun c => if c.awlStopped then c.awlStop (c.fld .awl AWL.AWL_STOP_stop_course) 0 else c)

end Sys2Proof.Machine
end

