-- ==== Sys2Proof/Machine/Ask.lean ====
section
/-! DEFINITION. Requests to the repointing engine: its queue, what it refuses and drops, and which spares are free
(R411, R412, R414). The commits stand in Repoint.lean. -/
namespace Sys2Proof.Machine

def Chip.modRepoint (c : Chip) (f : RepointS → RepointS) : Chip := { c with repoint := f c.repoint }
def Chip.memS (c : Chip) (s : Stack) : MemS := Tab.get c.mems s.val {}
def Chip.modMem (c : Chip) (s : Stack) (f : MemS → MemS) : Chip := { c with mems := Tab.put c.mems s.val (f (c.memS s)) }

/-- The unit instance that owns an element; a wire's faults are found by its receiver. -/
def elemUnit : Element → UnitId
  | .lane p _ _ => .port p
  | .cell r b _ => .cblk r b
  | .subbank r i _ => .bufbank r i
  | .row s _ _ _ _ => .memblk s
  | .pc s _ => .memblk s
  | .wire src dst _ => .d2d dst src

/-- The region of an element. -/
def elemRegion (e : Element) : Region := regionOf (unitScope (elemUnit e))

/-- The key of a row in a memory block's tables. -/
def rowKey (pc rank bank row : Nat) : Nat := ((pc * 4 + rank) * 32 + bank) * 8192 + row

/-- Spare rows of a bank in use. -/
def MemS.rowsUsed (m : MemS) (pc rank bank : Nat) : Nat :=
  (m.rowMap.filter (fun e => e.1 / 8192 = rowKey pc rank bank 0 / 8192)).length

/-- Physical cell of a logical cell (CELL_MAP). -/
def Chip.physCell (c : Chip) (r : Region) (b : BlockIx) (i : Nat) : Nat :=
  getBits (c.reg (.cblk r b) 0x110) (4 * i + 3) (4 * i)

/-- The physical cell that serves no logical one: the spare, unless it is out of use. -/
def Chip.spareCell (c : Chip) (r : Region) (b : BlockIx) : Option Nat :=
  let bad := c.fld (.cblk r b) CBLK.CELL_MAP_phys_bad
  (List.range 9).find? (fun p => bad / 2 ^ p % 2 = 0 && (List.range 8).all (fun i => c.physCell r b i ≠ p))

/-- Does the element have a spare left? -/
def Chip.spareFree (c : Chip) : Element → Bool
  | .lane p _ rx => if rx then c.fld (.port p) PORT.PORT_STS_rx_spare_for = 15 else c.fld (.port p) PORT.PORT_STS_tx_spare_for = 15
  | .cell r b _ => (c.spareCell r b).isSome
  | .subbank r i _ => c.fld (.bufbank r i) BUFBANK.BANK_STS_spare_for = 31
  | .row s pc rank bank _ => (c.memS s).rowsUsed pc.val rank.val bank.val < 32
  | .pc s _ => c.fld (.memblk s) MEMBLK.MEM_STS_s0_for = 0xFF || c.fld (.memblk s) MEMBLK.MEM_STS_s1_for = 0xFF
  | .wire src dst _ => (Tab.get c.repoint.wires (4 * src.val + dst.val) []).length < 16

/-- RP_STS `queued`. -/
def Chip.repointCount (c : Chip) : Chip := c.setFld .repoint REPOINT.RP_STS_queued c.repoint.queue.length

/-- REPAIR_LOG entries. -/
def Chip.logFull (c : Chip) : Bool := 512 ≤ c.repoint.log.length

/-- R411: a request to the repointing engine. A request that finds no spare sets `spare_exhausted`; its owner's chapter
says what follows. -/
def Chip.repointAsk (c : Chip) (e : Element) (hard : Bool) : Chip :=
  let q := c.repoint.queue
  let req : RepointReq := ⟨e, hard, c.now, c.courseCount, false⟩
  if !c.spareFree e then c.raise .repoint REPOINT.ev_spare_exhausted
  else if hard then
    if q.any (fun r => r.elem = e && r.hard) || c.repoint.waiting.contains e then c
    else if 64 ≤ q.length then c.modRepoint (fun s => { s with waiting := s.waiting ++ [e] })
    else ((c.modRepoint (fun s => { s with queue := s.queue ++ [req] })).repointCount).bump .repoint REPOINT.RP_COUNT_hard
  else if q.any (fun r => r.elem = e && r.hard) || c.repoint.waiting.contains e then
    c.bump .repoint REPOINT.RP_COUNT_dropped
  else if q.any (fun r => r.elem = e) then c
  else if 64 ≤ q.length || c.logFull then c.bump .repoint REPOINT.RP_COUNT_refused
  else ((c.modRepoint (fun s => { s with queue := s.queue ++ [req] })).repointCount).bump .repoint REPOINT.RP_COUNT_proactive

/-- R412: a wear monitor's request; with the spare in use it sets `wear_alarm` instead, and a row without a free spare in its
bank `spares_low` (R190). -/
def Chip.wearAsk (c : Chip) (e : Element) : Chip :=
  if !c.flag .repoint REPOINT.RP_CTL_proactive_en then c
  else if !c.spareFree e then
    let c := c.raise .repoint REPOINT.ev_wear_alarm
    match e with
    | .row s _ _ _ _ => c.raise (.memblk s) MEMBLK.ev_spares_low
    | _ => c
  else c.repointAsk e false

end Sys2Proof.Machine
end

