-- ==== Sys2Proof/Machine/Memblk.lean ====
section
/-! DEFINITION. The memory block: where an offset lands (R182), its queues (R183), error correction (R186 to R189), the
coherence directory and the line caches (R194 to R196, R207), and the home atomics (R197). -/
namespace Sys2Proof.Machine

/-! ### Where an offset lands -/

/-- The stack of an offset of region r (R182). -/
def stackOf (r o : Nat) : Stack := ⟨(2 * r + o / 4096 % 2) % 8, Nat.mod_lt _ (by decide)⟩

/-- Line number within the stack. -/
def stackLine (o : Nat) : Nat := (o / 8192 * 4096 + o % 4096) / 64

/-- Pseudo-channel, rank, bank, row and column of an offset (R182). -/
def placeOf (o : Nat) : Nat × Nat × Nat × Nat × Nat :=
  let l := stackLine o
  let j := l / 64
  ((l % 64) ^^^ (j % 64), j / 512 % 4, j / 16 % 32, j / 2048, j % 16)

/-- The offset of a line of a stack: the inverse of the placement. -/
def offsetOf (s line : Nat) : Nat := (64 * line) / 4096 * 8192 + (s % 2) * 4096 + (64 * line) % 4096

/-- Region and offset of a line's key in the memory map. -/
def keyRegion (k : Nat) : Region := regionOf (k / 2 ^ 40)
def keyOffset (k : Nat) : Nat := k % 2 ^ 40
/-- The key of the line that holds offset o of region r. -/
def lineKey (r o : Nat) : Nat := (Space.lintel r).base + o / 64 * 64
def keyStack (k : Nat) : Stack := stackOf (keyRegion k).val (keyOffset k)

/-- The lines that [o, o+n) touches, n > 0. -/
def linesOf (r o n : Nat) : List Nat := (List.range ((o + n - 1) / 64 - o / 64 + 1)).map (fun i => lineKey r (o + 64 * i))

/-- The location in the layout of R200; spared rows and pseudo-channels show their spares. -/
def Chip.placeWord (c : Chip) (k : Nat) : Word :=
  let s := keyStack k
  let (pc, rank, bank, row, col) := placeOf (keyOffset k)
  let row := match Tab.find (c.memS s).rowMap (rowKey pc rank bank row) with | some i => 6144 + i | none => row
  let pc := if c.fld (.memblk s) MEMBLK.MEM_STS_s0_for = pc then 64
    else if c.fld (.memblk s) MEMBLK.MEM_STS_s1_for = pc then 65 else pc
  setBits (setBits (setBits (setBits (setBits 0 6 0 pc) 8 7 rank) 13 9 bank) 26 14 row) 30 27 col

/-! ### Uncorrectable lines -/

/-- Is the domain of a stack's DRAM on (R440)? -/
def Chip.stackOn (c : Chip) (s : Stack) : Bool := c.domOn (128 + s.val)

/-- Does every read of the line fail: its stack off (R440), marked, lost with a pseudo-channel, or on one with no spare (R188, R191, R192)? -/
def Chip.lineBad (c : Chip) (k : Nat) : Bool :=
  let m := c.memS (keyStack k)
  let pc := (placeOf (keyOffset k)).1
  !c.stackOn (keyStack k) || c.bad.contains k || m.noSpare.contains pc
    || (match Tab.find m.lost pc with | some l => !l.contains k | none => false)

/-- May the line be written at all (R192, R440)? -/
def Chip.lineWritable (c : Chip) (k : Nat) : Bool := c.stackOn (keyStack k) && !(c.memS (keyStack k)).noSpare.contains (placeOf (keyOffset k)).1

/-- A whole-line write clears a failure (R188). -/
def Chip.lineHealed (c : Chip) (k : Nat) : Chip :=
  let c := { c with bad := c.bad.filter (· ≠ k) }
  let pc := (placeOf (keyOffset k)).1
  c.modMem (keyStack k) (fun m =>
    match Tab.find m.lost pc with
    | some l => { m with lost := Tab.put m.lost pc (if l.contains k then l else k :: l) }
    | none => m)

/-- The first line at which a write of [o, o+n) is refused: a damaged line it covers in part, or one that takes no write
(R188, R192). -/
def Chip.badWrite (c : Chip) (r o n : Nat) : Option Nat :=
  (linesOf r o n).find? (fun k => !c.lineWritable k ||
    (c.lineBad k && !(o ≤ keyOffset k && keyOffset k + 64 ≤ o + n)))

/-- Would a write of [o, o+n) be refused? -/
def Chip.writeBad (c : Chip) (r o n : Nat) : Bool := (c.badWrite r o n).isSome

/-- R187: the write-back of a corrected line is cancelled: the line was written, or a block has come to own it. -/
def Chip.cancelFix (c : Chip) (k : Nat) : Chip :=
  if (c.memS (keyStack k)).queue.any (fun q => q.kind = .fix k) || (c.memS (keyStack k)).fixes.contains k then
    c.modMem (keyStack k) (fun m => { m with
      queue := m.queue.filter (fun q => q.kind ≠ .fix k)
      fixes := m.fixes.filter (· ≠ k) })
  else c

/-- Write bytes of Lintel memory; lines covered whole are healed. -/
def Chip.writeLintel (c : Chip) (r o : Nat) (l : List Byte) : Chip :=
  if l.isEmpty then c
  else
    let ks := linesOf r o l.length
    let whole := ks.filter (fun k => o ≤ keyOffset k && keyOffset k + 64 ≤ o + l.length && c.lineBad k)
    ks.foldl Chip.cancelFix (whole.foldl Chip.lineHealed (c.store (.lintel r) o l))

/-- An uncorrectable line was met (R188). -/
def Chip.lineUe (c : Chip) (k client src seq : Nat) : Chip :=
  let u := UnitId.memblk (keyStack k)
  let syndrome := BitVec.ofNat 64 (c.freeVal 64)
  ((c.freeNext.bump u MEMBLK.ECC_COUNT_uncorrected).error u evErrUncorrected 0x38 [c.placeWord k, syndrome,
    setBits (setBits (setBits 0 1 0 client) 27 16 src) 47 28 seq])

/-- The requests a memory block may hold are 512 per client (R183). -/
def MemS.room (m : MemS) (client : Nat) : Bool := (m.queue.filter (fun q => q.client = client)).length < 512

/-- A request joins a memory block's queue. -/
def Chip.memAsk (c : Chip) (s : Stack) (client tc n : Nat) (k : MemKind) : Chip :=
  let c := c.modMem s (fun m => { m with queue := m.queue ++ [⟨client, k, tc, c.now, n, false, 0⟩] })
  c.progress (.memblk s) true 0

/-- R187: the write-back of a corrected line joins the maintenance queue, or waits for room in it. -/
def Chip.askFix (c : Chip) (k : Nat) : Chip :=
  let s := keyStack k
  if (c.memS s).queue.any (fun q => q.kind = .fix k) || (c.memS s).fixes.contains k then c
  else if (c.memS s).room 3 then c.memAsk s 3 0 0 (.fix k)
  else c.modMem s (fun m => { m with fixes := m.fixes ++ [k] })

/-- R187: a read corrected a line: its write-back is queued, the row's tally rises, and at the limit the row asks for a
spare. -/
def Chip.lineCorrected (c : Chip) (k client src seq : Nat) : Chip :=
  let s := keyStack k
  let u := UnitId.memblk s
  let (pc, rank, bank, row, _) := placeOf (keyOffset k)
  let rk := rowKey pc rank bank row
  let syndrome := BitVec.ofNat 64 (c.freeVal 64)
  let c := (c.freeNext.bump u MEMBLK.ECC_COUNT_lines_corrected).error u evErrCorrected 0x01 [c.placeWord k, syndrome,
    setBits (setBits (setBits 0 1 0 client) 27 16 src) 47 28 seq]
  let limit := max 1 (c.fld u MEMBLK.MEM_CTL_row_ce_limit)
  let n := min limit (Tab.get (c.memS s).tally rk 0 + 1)
  let c := (c.modMem s (fun m => { m with
    tally := Tab.put m.tally rk n
    pcWear := Tab.put m.pcWear pc (Tab.get m.pcWear pc 0 + 1) })).askFix k
  let ask := n = limit && c.flag .repoint REPOINT.RP_CTL_proactive_en
  if ask then
    let c := c.bump u MEMBLK.SPARE_STS_row_requests
    let e := Element.row s ⟨pc % 64, Nat.mod_lt _ (by decide)⟩ ⟨rank % 4, Nat.mod_lt _ (by decide)⟩
      ⟨bank % 32, Nat.mod_lt _ (by decide)⟩ (BitVec.ofNat 13 row)
    c.wearAsk e
  else c

/-! ### Error correction (R186) -/

/-- The symbols that a pin of the pseudo-channel carries: symbol k lies on pin k mod 36. -/
def pinSymbols (p : Fin 36) : List Nat := [p.val, p.val + 36]

/-- The wrong symbols of line i of a request. -/
def wrongSymbols (seen : List EccSeen) (i : Nat) : List Nat :=
  let all := (seen.filter (fun x => x.line = i)).flatMap (fun x => x.symbols.map (·.val) ++ x.pins.flatMap pinSymbols)
  (List.range 72).filter all.contains

/-- What RS(72,64) makes of a line with n wrong symbols: up to 3 are corrected, 4 and 5 detected, and 6 or more may be
miscorrected: which of the two is open (log 5). -/
inductive EccWay where
  | clean | corrected | uncorrectable | miscorrected
  deriving DecidableEq, Repr

def eccWay (n : Nat) (mis : Bool) : EccWay :=
  if n = 0 then .clean else if n ≤ 3 then .corrected else if n ≤ 5 || !mis then .uncorrectable else .miscorrected

/-- A line's bytes that the spec leaves open: n of them (log 5). -/
def Chip.freeBytes (c : Chip) : Nat → Chip × List Byte
  | 0 => (c, [])
  | n + 1 =>
    let (d, l) := c.freeNext.freeBytes n
    (d, BitVec.ofNat 8 (c.freeVal 8) :: l)

/-- A read of a line with these wrong symbols; true when it is uncorrectable. A miscorrected line reads, and is written
back, as bytes that are left open. -/
def Chip.readLine (c : Chip) (k client src seq : Nat) (wrong : List Nat) : Chip × Bool :=
  if c.lineBad k then (c.lineUe k client src seq, true)
  else
    match eccWay wrong.length (c.freeVal 1 = 1) with
    | .clean => (c, false)
    | .corrected => (c.lineCorrected k client src seq, false)
    | .uncorrectable => (({ c.freeNext with bad := k :: c.bad }).lineUe k client src seq, true)
    | .miscorrected =>
      let (c, l) := c.freeNext.freeBytes 64
      ((c.store (.lintel (keyRegion k).val) (keyOffset k) l).lineCorrected k client src seq, false)

/-- A read of several lines, in order, up to one that is uncorrectable. -/
def Chip.readLines (c : Chip) (ks : List Nat) (client src seq : Nat) (seen : List EccSeen) : Chip × Bool :=
  ks.zipIdx.foldl (fun (a : Chip × Bool) k =>
    if a.2 then a else a.1.readLine k.1 client src seq (wrongSymbols seen k.2)) (c, false)

/-! ### Line caches and the directory -/

def Chip.block (c : Chip) (b : Nat) : BlockS := Tab.get c.blocks b {}
def Chip.modBlock (c : Chip) (b : Nat) (f : BlockS → BlockS) : Chip :=
  { c with blocks := Tab.put c.blocks b (f (c.block b)) }

/-- The unit of a block numbered 16 * region + block. -/
def blockUnit (b : Nat) : UnitId := .cblk (regionOf (b / 16)) ⟨b % 16, Nat.mod_lt _ (by decide)⟩

/-- DIR_STS follows the directory. -/
def Chip.dirCount (c : Chip) (s : Stack) : Chip :=
  c.follow (.memblk s) MEMBLK.DIR_STS_entries_used MEMBLK.DIR_STS_entries_peak (c.memS s).dir.length

/-- Store a line's directory entry; one with no copy is dropped (U). -/
def Chip.putDir (c : Chip) (k : Nat) (e : DirE) : Chip :=
  let s := keyStack k
  (c.modMem s (fun m =>
    let rest := if e.owner.isNone && e.sharers.isEmpty then Tab.del m.dir k else Tab.put m.dir k e
    { m with dir := rest })).dirCount s

/-- The directory entry of a line. -/
def Chip.dirOf (c : Chip) (k : Nat) : DirE := Tab.get (c.memS (keyStack k)).dir k {}

/-- R194, R195: a block answers a recall or invalidation: an owned line's data go to memory; the copy is dropped, or kept
as a shared one. A block that holds no copy answers with no data. -/
def Chip.answerRecall (c : Chip) (b k : Nat) (inv : Bool) : Chip :=
  let e := c.dirOf k
  let c := match Tab.find (c.block b).lines k with
    | some l =>
      let c := if l.owned && !l.void then c.writeLintel (keyRegion k).val (keyOffset k) l.data else c
      c.modBlock b (fun s =>
        let rest := if inv || l.void then Tab.del s.lines k else Tab.put s.lines k { l with owned := false }
        { s with lines := rest })
    | none => c
  let c := c.modMem (keyStack k) (fun m => { m with recalls := m.recalls.filter (fun r => !(r.1 = b && r.2.1 = k)) })
  if e.owner = some b then c.putDir k { e with owner := none, sharers := if inv then [] else [b] }
  else if inv then c.putDir k { e with sharers := e.sharers.filter (· ≠ b) }
  else c

/-- An owner's writeback (R195): the home takes it, also as a crossing recall's answer. -/
def Chip.takeWriteback (c : Chip) (b k : Nat) : Chip :=
  match Tab.find (c.block b).lines k with
  | some l => if l.owned then c.answerRecall b k true else c
  | none => c

/-- Copies in the way of an access (Table MEM-4): of a read by the home, of a write by it (`excl`), or of block `who`. -/
def Chip.inWay (c : Chip) (k : Nat) (excl : Bool) (who : Option Nat) : List (Nat × Bool) :=
  let e := c.dirOf k
  (match e.owner with | some b => if who = some b then [] else [(b, excl)] | none => [])
    ++ (if excl then (e.sharers.filter (fun b => who ≠ some b)).map (fun b => (b, true)) else [])

/-- Ask for the copies in the way of an access to several lines; true when none is. -/
def Chip.askWay (c : Chip) (ks : List Nat) (excl : Bool) (who : Option Nat) : Chip × Bool :=
  let need := ks.flatMap (fun k => (c.inWay k excl who).map (fun x => (k, x)))
  (need.foldl (fun c x =>
    let (k, b, inv) := x
    c.modMem (keyStack k) (fun m =>
      if m.recalls.any (fun r => r.1 = b && r.2.1 = k) then m else { m with recalls := m.recalls ++ [(b, k, inv)] })) c,
   need.isEmpty)

/-- R195: a full directory back-invalidates its oldest entry before it opens a new one. -/
def Chip.dirRoom (c : Chip) (s : Stack) : Chip :=
  let m := c.memS s
  if m.dir.length < 2097152 then c
  else
    match m.dir with
    | [] => c
    | h :: t =>
      let old := t.foldl (fun (a : Nat × DirE) b => if b.2.n < a.2.n then b else a) h
      let copies := (match old.2.owner with | some b => [b] | none => []) ++ old.2.sharers
      let c := copies.foldl (fun c b => c.answerRecall b old.1 true) c
      (c.bump (.memblk s) MEMBLK.DIR_COUNT_back_invalidates).error (.memblk s) MEMBLK.ev_dir_full 0x3D [c.placeWord old.1]

/-- Sets of a block's line cache, each of 8 ways, by `lcache` (R207); with no line cache a line stays only until the
bundle that needs it commits. The set of a line is its line
number modulo the sets (DESIGN CHOICE, log 40). -/
def Chip.lcacheSets (c : Chip) (b : Nat) : Nat :=
  let n := c.fld (blockUnit b) CBLK.BLK_CTL_lcache
  if n = 0 then 1 else 256 * 2 ^ n

/-- Make room in a line's set: a line of the set leaves, owned ones by writeback. Which one is not specified: a free
value (log 5). -/
def Chip.lcacheRoom (c : Chip) (b k : Nat) : Chip :=
  let sets := c.lcacheSets b
  let mine := ((c.block b).lines.filter (fun e => e.1 / 64 % sets = k / 64 % sets && e.1 ≠ k)).map (·.1)
  if mine.length < 8 || c.fld (blockUnit b) CBLK.BLK_CTL_lcache = 0 then c
  else
    let v := mine.getD (c.freeVal 8 % mine.length) 0
    let c := c.freeNext.takeWriteback b v
    c.modBlock b (fun s => { s with lines := Tab.del s.lines v })

/-- A line arrives in a block's line cache, to share or to own (Table MEM-4); `void` without data. -/
def Chip.fillLine (c : Chip) (b k : Nat) (own void : Bool) : Chip :=
  let s := keyStack k
  let c := c.lcacheRoom b k
  let c := if (Tab.find (c.memS s).dir k).isNone then
      (c.dirRoom s).modMem s (fun m => { m with dirNext := m.dirNext + 1, dir := Tab.put m.dir k { n := m.dirNext } })
    else c
  let e := c.dirOf k
  let data := memReadN c.mem k 64
  let mine := e.owner = some b
  let c := if mine then c
    else if own then c.putDir k { e with owner := some b, sharers := [] }
    else c.putDir k { e with sharers := if e.sharers.contains b then e.sharers else e.sharers ++ [b] }
  let c := if own then c.cancelFix k else c
  if mine && (Tab.find (c.block b).lines k).isSome then c
  else c.modBlock b (fun s => { s with lines := Tab.put s.lines k ⟨own || mine, data, void⟩ })

/-- R207: every owned line goes back to its home and the whole line cache is invalidated. -/
def Chip.flushLines (c : Chip) (b : Nat) : Chip :=
  let ks := (c.block b).lines.map (·.1)
  (ks.foldl (fun c k => c.takeWriteback b k) c).modBlock b (fun s => { s with lines := [] })

/-- The region whose compute block made a request. -/
def MemKind.blockRegion : MemKind → Option Nat
  | .fill b _ _ _ _ _ | .atomic b _ _ _ _ _ _ _ | .line b _ _ _ _ => some (b / 16)
  | .fabric _ _ _ | .fix _ | .scrub _ | .spare _ => none

/-- R196: region r's blocks leave every other region's directories; what they owned takes the value in memory. -/
def Chip.dropSharers (c : Chip) (r : Region) : Chip :=
  (List.finRange 8).foldl (fun c s =>
    if s.val / 2 = r.val then c
    else
      let c := c.modMem s (fun m => { m with
        queue := m.queue.filter (fun q => q.kind.blockRegion ≠ some r.val)
        sched := m.sched.filter (fun q => q.kind.blockRegion ≠ some r.val) })
      let m := c.memS s
      let lost := (m.dir.filter (fun e => match e.2.owner with | some b => b / 16 = r.val | none => false)).length
      let dir := (m.dir.map (fun e => (e.1, { e.2 with
          owner := match e.2.owner with | some b => if b / 16 = r.val then none else some b | none => none
          sharers := e.2.sharers.filter (fun b => b / 16 ≠ r.val) }))).filter
        (fun e => e.2.owner.isSome || !e.2.sharers.isEmpty)
      let c := c.modMem s (fun m => { m with dir := dir, recalls := m.recalls.filter (fun x => x.1 / 16 ≠ r.val) })
      let c := c.dirCount s
      if lost = 0 then c
      else (c.bump (.memblk s) MEMBLK.DIR_COUNT_owned_lost lost).error (.memblk s) MEMBLK.ev_owned_lost 0x3B) c

/-! ### Home atomics -/

/-- Two's complement of `w` bits. -/
def signedOf (w n : Nat) : Int := if n < 2 ^ (w - 1) then n else (n : Int) - 2 ^ w

/-- Table FAB-3, R152: the value an atomic leaves; `operand` is CAS's compare value and `swap` its new one. -/
def atomicResult (op : Nat) (wide : Bool) (old operand swap : Nat) : Nat :=
  let w := if wide then 64 else 32
  let a := operand % 2 ^ w
  match op with
  | 2 => (old + a) % 2 ^ w
  | 3 => old ||| a
  | 4 => if signedOf w a < signedOf w old then a else old
  | 5 => if signedOf w old < signedOf w a then a else old
  | 6 => min old a
  | 7 => max old a
  | 8 => old &&& a
  | 9 => old ^^^ a
  | 10 => a
  | 11 => if old = a then swap % 2 ^ w else old
  | _ => old

/-- An atomic on one word of Lintel memory: the old value. -/
def Chip.homeAtomic (c : Chip) (r o op : Nat) (wide : Bool) (operand swap : Nat) : Chip × Nat :=
  let n := if wide then 8 else 4
  let old := leNat (c.load (.lintel r) o n)
  let c := c.writeLintel r o (leBytes n (atomicResult op wide old operand swap))
  (c.wrap (.memblk (stackOf r o)) MEMBLK.NEAR_COUNT_atomics, old)

/-! ### Queues -/

/-- The lines a request touches. -/
def MemKind.lines : MemKind → List Nat
  | .fabric r p _ => linesOf r (getBits p.w2 51 0) (getBits p.w3 31 20 + 1)
  | .fill _ _ _ k _ _ => [k / 64 * 64]
  | .atomic _ _ _ _ _ k _ _ => [k / 64 * 64]
  | .line _ _ _ k _ => [k]
  | .fix k => [k]
  | .scrub k => [k]
  | .spare k => [k]

/-- The pseudo-channels a request needs. -/
def MemKind.pcs (k : MemKind) : List Nat := k.lines.map (fun l => (placeOf (keyOffset l)).1)

end Sys2Proof.Machine
end

