-- ==== Sys2Proof/Machine/Fabric.lean ====
section
/-! DEFINITION. Fabric memory: requests and responses (R151, R152), the ingress ledger (R169 to R175), the combining unit
(R163 to R166), the home (R154 to R161) and teardown (R177). -/
namespace Sys2Proof.Machine

def Chip.fab (c : Chip) (r : Region) : FabS := Tab.get c.fabs r.val {}
def Chip.modFab (c : Chip) (r : Region) (f : FabS → FabS) : Chip := { c with fabs := Tab.put c.fabs r.val (f (c.fab r)) }

/-! ### Fields of MEM_REQ and MEM_RSP (Table FAB-2) -/

end Sys2Proof.Machine

namespace Sys2Proof
open Sys2Proof.Machine
def Packet.op (p : Packet) : Nat := getBits p.w1 47 43
def Packet.wide (p : Packet) : Bool := bitAt p.w1 42
def Packet.isCombined (p : Packet) : Bool := bitAt p.w1 41
def Packet.key (p : Packet) : Nat := getBits p.w1 39 16
def Packet.memTag (p : Packet) : Nat := getBits p.w1 15 0
def Packet.addr (p : Packet) : Nat := p.w2.toNat
def Packet.offset (p : Packet) : Nat := getBits p.w2 51 0
def Packet.bytesAsked (p : Packet) : Nat := getBits p.w3 31 20 + 1
def Packet.seq (p : Packet) : Nat := getBits p.w3 19 0
/-- MEM_RSP: `status` and `hot`. -/
def Packet.status (p : Packet) : Nat := getBits p.w1 39 36
def Packet.isHot (p : Packet) : Bool := bitAt p.w1 40
/-- Source and class of a request. -/
def Packet.stream (p : Packet) : Nat := p.src * 8 + p.tc
/-- Is a request an atomic? -/
def Packet.isAtomic (p : Packet) : Bool := 2 ≤ p.op && p.op ≤ 11
/-- The 64-byte lines a request touches, as fabric line addresses. -/
def Packet.lineAddrs (p : Packet) : List Nat :=
  (List.range ((p.addr + p.bytesAsked - 1) / 64 - p.addr / 64 + 1)).map (fun i => p.addr / 64 + i)
/-- A plain store or an uncombined atomic (R161, R162). -/
def Packet.presses (p : Packet) : Bool := p.op = 1 || (p.isAtomic && !p.isCombined)
end Sys2Proof

namespace Sys2Proof.Machine

/-- A MEM_RSP to a request, from region r (Table FAB-2: fields echoed). -/
def Chip.memRsp (c : Chip) (r : Region) (req : Packet) (op status : Nat) (hot : Bool) (payload : List Byte) : Packet :=
  mkPacket 3 req.tc false req.src (c.epid r) req.job
    (setBits (setBits (setBits (setBits (setBits (setBits 0 47 43 op) 42 42 (bit req.wide)) 41 41 (bit req.isCombined))
      40 40 (bit hot)) 39 36 status) 15 0 req.memTag)
    req.w2 (setBits (setBits (0 : Word) 31 20 (req.bytesAsked - 1)) 19 0 req.seq).toNat payload

/-- A completion that the region's ledger builds: to the combining unit that made the request, if one of this Pysum did
(R165), else to the source. -/
def Chip.complete (c : Chip) (r : Region) (rsp : Packet) : Chip :=
  match if rsp.isCombined then c.regionOfEpid rsp.dst else none with
  | some q => c.toInbox q 34 rsp
  | none => c.deliver r rsp

/-- The Pysum that the route entry of an EPID names. -/
def Chip.targetOf (c : Chip) (r : Region) (e : Nat) : Option Nat :=
  let (valid, t, _, _) := c.routeEntry r e
  if valid then some t else none

/-- The Pysum that a unicast packet's route names; a multicast one has none. -/
def Chip.targetOfPkt (c : Chip) (r : Region) (p : Packet) : Option Nat := if p.mcast then none else c.targetOf r p.dst

/-- A FABMEM error (Table FLT-10): ERR_CAPTURE2 holds `addr`, ERR_CAPTURE3 holds W1. -/
def Chip.fabError (c : Chip) (r : Region) (ev code : Nat) (pkt : Packet) : Chip :=
  c.error (.fabmem r) ev code [pkt.w2, pkt.w1]

/-! ### The ledger -/

/-- The request that an entry keeps: its header, and its payload from its slot of the fabric area (R148, R169). -/
def Chip.ledgerPacket (c : Chip) (r : Region) (e : LedgerE) : Packet :=
  ⟨e.w0, e.w1, e.w2, e.w3, c.load (.lintel r.val) (c.areaBase r + 8192 * e.slot + 32) (getBits e.w0 24 11)⟩

def LedgerE.head (e : LedgerE) : Packet := ⟨e.w0, e.w1, e.w2, e.w3, []⟩

/-- LEDGER_STS follows the ledger. -/
def Chip.ledgerCount (c : Chip) (r : Region) : Chip :=
  c.follow (.fabmem r) FABMEM.LEDGER_STS_in_use FABMEM.LEDGER_STS_peak (c.fab r).ledger.length

/-- An entry leaves SENT or TAKEN with a status: open fences that cover it learn it (R173). -/
def Chip.entryDone (c : Chip) (r : Region) (ord status : Nat) : Chip :=
  (c.modFab r (fun f => { f with
    ledger := f.ledger.filter (fun e => e.ord ≠ ord)
    fences := f.fences.map (fun x =>
      if x.covers.contains ord then
        { x with
          covers := x.covers.filter (· ≠ ord)
          worst := if status = 0 then x.worst else match x.worst with
            | some (o, s) => some (if ord < o then (ord, status) else (o, s))
            | none => some (ord, status) }
      else x) })).ledgerCount r

/-- The ledger completes an entry itself: a MEM_RSP with the status and no payload. -/
def Chip.completeEntry (c : Chip) (r : Region) (e : LedgerE) (status : Nat) : Chip :=
  (c.complete r (c.memRsp r e.head e.head.op status false [])).entryDone r e.ord status

/-- R171: an entry completes LOST or TARGET_LOST, with every later entry of its source and class; later requests of the two
complete at once. -/
def Chip.loseFrom (c : Chip) (r : Region) (e : LedgerE) (status : Nat) : Chip :=
  let later := (c.fab r).ledger.filter (fun x => x.head.stream = e.head.stream && e.ord ≤ x.ord)
  let c := later.foldl (fun c x => (c.completeEntry r x status).bump (.fabmem r) FABMEM.LEDGER_COUNT_lost) c
  (c.modFab r (fun f => { f with dead := Tab.put f.dead e.head.stream status })).fabError r FABMEM.ev_entry_lost
    (if status = 9 then 0x35 else 0x33) e.head

/-- R171: resend the stored request, its route taken afresh. One whose slot cannot be read is found so, and not sent
(log 267). -/
def Chip.replayEntry (c : Chip) (r : Region) (e : LedgerE) : Chip :=
  let sent := fun (x : LedgerE) => if x.ord = e.ord then { x with sentAt := c.courseCount, replays := x.replays + 1 } else x
  let c := c.modFab r (fun f => { f with ledger := f.ledger.map sent })
  let c := c.bump (.fabmem r) FABMEM.LEDGER_COUNT_replays
  match (linesOf r.val (c.areaBase r + 8192 * e.slot) (32 + getBits e.w0 24 11)).find? c.lineBad with
  | some k => c.lineUe k 0 e.head.src e.head.seq
  | none => c.deliver r (c.ledgerPacket r e)

/-- `ack_timeout`, `replay_max` and `source_max` with their limits (Table FAB-8). -/
def Chip.ackTimeout (c : Chip) (r : Region) : Nat := max 2 (c.fld (.fabmem r) FABMEM.FAB_CTL_ack_timeout)
def Chip.replayMax (c : Chip) (r : Region) : Nat := max 1 (c.fld (.fabmem r) FABMEM.FAB_CTL_replay_max)
def Chip.sourceMax (c : Chip) (r : Region) : Nat := max 1 (min 1024 (c.fld (.fabmem r) FABMEM.FAB_CTL_source_max))

/-- Is the region tearing this job's traffic down (R177)? -/
def Chip.tearing (c : Chip) (r : Region) (job : Nat) : Bool :=
  match (c.fab r).tearing with
  | some (j, start, _) => j = job && start ≤ c.courseCount
  | none => false

/-- What the ledger does with a new request. -/
inductive Admit where
  | wait | gone | pass
  deriving DecidableEq, Repr

/-- Answer a request from the ledger without an entry. -/
def Chip.answerReq (c : Chip) (r : Region) (pkt : Packet) (status : Nat) : Chip :=
  c.complete r (c.memRsp r pkt pkt.op status false [])

/-- R162: does the hot filter hold the request back? -/
def Chip.hotHolds (c : Chip) (r : Region) (inp : Nat) (pkt : Packet) : Bool :=
  let f := c.fab r
  pkt.presses && pkt.lineAddrs.any (fun l =>
    f.filter.any (fun e => e.1 = l) &&
    max 1 (c.fld (.fabmem r) FABMEM.HOT_CTL_hot_limit) ≤ (f.ledger.filter (fun e =>
      e.inp = inp && e.head.tc = pkt.tc && e.head.presses && e.head.lineAddrs.contains l)).length)

/-- R169: record a MEM_REQ, or hold it, or discard it; R171, R175 and R177 complete it at once. -/
def Chip.ledgerTake (c : Chip) (r : Region) (inp : Nat) (pkt : Packet) : Chip × Admit :=
  let f := c.fab r
  let u := UnitId.fabmem r
  let mine := f.ledger.filter (fun e => e.head.src = pkt.src)
  if c.tearing r pkt.job then (c.answerReq r pkt 10, .gone)
  else match Tab.find f.dead pkt.stream with
  | some s => ((c.answerReq r pkt s).bump u FABMEM.LEDGER_COUNT_lost, .gone)
  | none =>
    if pkt.seq ≠ (Tab.get f.lastSeq pkt.stream 0 + 1) % 2 ^ 20 then
      ((c.bump u FABMEM.LEDGER_COUNT_seq_errors).fabError r FABMEM.ev_seq_error 0x32 pkt, .gone)
    else if 16384 ≤ f.ledger.length then (c.raise u FABMEM.ev_ledger_full, .wait)
    else if c.sourceMax r ≤ mine.length || 256 ≤ (mine.filter (fun e => e.head.tc = pkt.tc)).length
        || c.hotHolds r inp pkt then (c, .wait)
    else
      let kept := pkt.bytes ++ List.replicate (roundUp pkt.bytes.length 64 - pkt.bytes.length) 0
      let open_ := fun (i : Nat) => f.ledger.all (fun e => e.slot ≠ i) && !c.writeBad r.val (c.areaBase r + 8192 * i) kept.length
      match firstFrom 16384 0 open_ with
      | none => (c, .wait)
      | some slot =>
      let e : LedgerE := ⟨slot, f.nextOrd, inp, pkt.w0, pkt.w1, pkt.w2, pkt.w3, none, c.courseCount, 0⟩
      let c := (c.writeLintel r.val (c.areaBase r + 8192 * slot) kept).modFab r (fun f => { f with
        ledger := f.ledger ++ [e]
        nextOrd := f.nextOrd + 1
        lastSeq := Tab.put f.lastSeq pkt.stream pkt.seq })
      let c := c.ledgerCount r
      match c.targetOfPkt r pkt with
      | some t => if c.lost r t then (c.loseFrom r e 9, .gone) else (c, .pass)
      | none => (c, .pass)

/-! ### Requests of the region's own units -/

/-- FABMEM builds a request of the region endpoint: it assigns `seq` (R153). -/
def Chip.fabOwn (c : Chip) (r : Region) (tc op : Nat) (wide combined : Bool) (key tag dst job : Nat) (addr : Word)
    (size : Nat) (payload : List Byte) : Chip × Nat :=
  let seq := (Tab.get (c.fab r).ownSeq tc 0 + 1) % 2 ^ 20
  let pkt := mkPacket 2 tc false dst (c.epid r) job
    (setBits (setBits (setBits (setBits (setBits 0 47 43 op) 42 42 (bit wide)) 41 41 (bit combined)) 39 16 key) 15 0 tag)
    addr (setBits (setBits (0 : Word) 31 20 (size - 1)) 19 0 seq).toNat payload
  ((c.modFab r (fun f => { f with ownSeq := Tab.put f.ownSeq tc seq })).send r pkt, tc * 2 ^ 20 + seq)

/-! ### The combining unit -/

/-- Is the request of a kind that may be held (R163)? The unit's own combined requests are not held again (DEDUCED, log 41). -/
def Chip.combinable (c : Chip) (r : Region) (p : Packet) : Bool :=
  (p.op = 0 && p.lineAddrs.length = 1 || (2 ≤ p.op && p.op ≤ 7)) && p.tc ≠ 0 && !(p.isCombined && p.src = c.epid r)

/-- May a request open an entry under the present `combine_tc` and `window`? Entries already open go on under theirs (R180). -/
def Chip.combOpens (c : Chip) (r : Region) (p : Packet) : Bool :=
  let u := UnitId.combine r
  bitAt (c.reg u 0x100) (16 + p.tc) && c.fld u COMBINE.COMB_CTL_window ≠ 0

/-- R163: identical requests. -/
def sameRequest (a b : Packet) : Bool :=
  a.op = b.op && a.wide = b.wide && a.key = b.key && a.w2 = b.w2 && a.bytesAsked = b.bytesAsked && a.dst = b.dst
    && a.job = b.job && a.tc = b.tc

/-- COMB_STS follows the table. -/
def Chip.combCount (c : Chip) (r : Region) : Chip :=
  c.follow (.combine r) COMBINE.COMB_STS_entries_used COMBINE.COMB_STS_entries_peak (c.fab r).combining.length

/-- An operand in bytes 0 to 7. -/
def Packet.operand (p : Packet) : Nat := leAt p.payload 0 8

/-- The value that constituent operands leave (R164, R165). -/
def mergeOp (op : Nat) (wide : Bool) (v a : Nat) : Nat := atomicResult op wide v a 0

/-- The merged operand of an entry's constituents (R164). -/
def mergedOperand : List Packet → List Byte
  | [] => []
  | p :: rest =>
    if p.op = 0 then []
    else leBytes 8 (rest.foldl (fun v q => mergeOp p.op p.wide v (Packet.operand q)) (Packet.operand p % 2 ^ (if p.wide then 64 else 32)))

/-- R164, R166: the entry closes: one request goes on unchanged, several become one combined request and a TAKEN each. A
constituent keeps its cells until then. -/
def Chip.closeComb (c : Chip) (r : Region) (e : CombE) : Chip :=
  let c := (c.modFab r (fun f => { f with combining := f.combining.filter (fun x => x.id ≠ e.id) })).combCount r
  match e.parts with
  | [] => c
  | [(id, p)] => c.goOn r id p
  | (_, p) :: _ =>
    let ps := e.parts.map (·.2)
    let (c, id) := c.fabOwn r p.tc p.op p.wide true p.key (e.id % 65536) p.dst p.job p.w2 p.bytesAsked (mergedOperand ps)
    let c := c.modFab r (fun f => { f with combined := Tab.put f.combined id ps })
    let u := UnitId.combine r
    let c := (c.bump u COMBINE.COMB_COUNT_combined_sent).bump u COMBINE.COMB_COUNT_merged e.parts.length
    e.parts.foldl (fun c q => (c.send r (c.memRsp r q.2 13 0 false [])).freePacket r q.1) c

/-- `max_merge` with its limits. -/
def Chip.maxMerge (c : Chip) (r : Region) : Nat := max 2 (min 32 (c.fld (.combine r) COMBINE.COMB_CTL_max_merge))

/-- R164: a combinable request, stored under `id`, opens or joins an entry; true when it is held. -/
def Chip.combJoin (c : Chip) (r : Region) (id : Nat) (p : Packet) : Chip × Bool :=
  if !c.combinable r p then (c, false)
  else
    match (c.fab r).combining.find? (fun e => match e.parts.head? with | some q => sameRequest p q.2 | none => false) with
    | some e =>
      let e' := { e with parts := e.parts ++ [(id, p)] }
      let c := c.modFab r (fun f => { f with combining := f.combining.map (fun x => if x.id = e.id then e' else x) })
      (if c.maxMerge r ≤ e'.parts.length then c.closeComb r e' else c, true)
    | none =>
      if !c.combOpens r p then (c, false)
      else if 256 ≤ (c.fab r).combining.length then
        ((c.bump (.combine r) COMBINE.COMB_FULL_table_full).error (.combine r) COMBINE.ev_table_full 0x36 [p.w2, p.w1], false)
      else
        ((c.modFab r (fun f => { f with
          combining := f.combining ++ [⟨f.nextComb, [(id, p)], c.now, c.fld (.combine r) COMBINE.COMB_CTL_window⟩]
          nextComb := f.nextComb + 1 })).combCount r, true)

/-- R165: the response to a combined request is split, constituent by constituent. -/
def Chip.splitRsp (c : Chip) (r : Region) (rsp : Packet) : Chip :=
  let id := rsp.tc * 2 ^ 20 + rsp.seq
  match Tab.find (c.fab r).combined id with
  | none => c
  | some parts =>
    let c := c.modFab r (fun f => { f with combined := Tab.del f.combined id })
    (parts.foldl (fun (acc : Chip × Nat) q =>
      let (c, v) := acc
      let payload := if rsp.status ≠ 0 then [] else if q.op = 0 then rsp.payload else leBytes 8 v
      (c.send r (c.memRsp r q q.op rsp.status rsp.isHot payload), mergeOp q.op q.wide v (Packet.operand q)))
      (c, leAt rsp.payload 0 8)).1

/-! ### Notices -/

/-- The ledger entry that a response belongs to, in any region of the Pysum. -/
def Chip.findEntry (c : Chip) (src tc seq : Nat) : Option (Region × LedgerE) :=
  (List.finRange 4).findSome? (fun r =>
    ((c.fab r).ledger.find? (fun e => e.head.src = src && e.head.tc = tc && e.head.seq = seq)).map (fun e => (r, e)))

/-- R162: a notice with `hot` = 1 teaches the filter of the ledger region its lines. -/
def Chip.learnHot (c : Chip) (r : Region) (lines : List Nat) : Chip :=
  lines.foldl (fun c l =>
    let fl := (c.fab r).filter
    if fl.any (fun e => e.1 = l) then
      c.modFab r (fun f => { f with filter := f.filter.map (fun e => if e.1 = l then (l, c.courseCount) else e) })
    else
      let fl := if fl.length < 64 then fl else
        match fl with
        | [] => []
        | h :: t =>
          let old := t.foldl (fun (a b : Nat × Nat) => if c.since a.2 < c.since b.2 then b else a) h
          fl.filter (fun e => e.1 ≠ old.1)
      c.modFab r (fun f => { f with filter := fl ++ [(l, c.courseCount)] })) c

/-- R170 to R172: a response at its source's Pysum tells the ledgers. TAKEN and NAK are consumed; another frees its entry and
is confirmed: true; one without an entry is stale. -/
def Chip.notice (c : Chip) (r : Region) (rsp : Packet) : Chip × Bool :=
  if rsp.op = 14 then
    ((List.finRange 4).foldl (fun c q =>
      ((c.fab q).ledger.filter (fun e => e.head.src = rsp.dst && e.head.tc = rsp.tc && e.taken.isNone
          && (e.head.seq + 2 ^ 20 - rsp.seq) % 2 ^ 20 < 2 ^ 19)).foldl (fun c e =>
        if e.replays < c.replayMax q then c.replayEntry q e else c) c) c, false)
  else match c.findEntry rsp.dst rsp.tc rsp.seq with
  | none => (c.bump (.fabmem r) FABMEM.LEDGER_COUNT_stale, false)
  | some (q, e) =>
    if rsp.op = 13 then
      let by_ := (c.targetOf r rsp.src).getD c.pysum
      (c.modFab q (fun f => { f with
        ledger := f.ledger.map (fun x => if x.ord = e.ord then { x with taken := some by_ } else x) }), false)
    else
      let c := if rsp.isHot then c.learnHot q e.head.lineAddrs else c
      (c.entryDone q e.ord rsp.status, true)

/-- Is the route entry of a response's destination this Pysum's: its source waits here (R170)? -/
def Chip.rspHere (c : Chip) (r : Region) (rsp : Packet) : Bool :=
  match c.targetOf r rsp.dst with | some t => decide (t = c.pysum) | none => false

/-- R165, R170: the response that waits at the head of an input and class has told the ledgers: confirmed, it joins its queue
in its turn, or goes to the combining unit that made the request; consumed or stale, it is gone. -/
def Chip.noticeHead (c : Chip) (r : Region) (k id : Nat) (rsp : Packet) : Chip :=
  let (c, confirmed) := (c.setHead r k none).notice r rsp
  if !confirmed then c.freePacket r id
  else match if rsp.isCombined then c.regionOfEpid rsp.dst else none with
  | some q => (c.toInbox q 34 rsp).freePacket r id
  | none => c.goOn r id rsp

/-! ### Fences -/

/-- R173: a FENCE opens over every entry of its source recorded so far. -/
def Chip.openFence (c : Chip) (r : Region) (inp : Nat) (pkt : Packet) : Chip :=
  c.modFab r (fun f => { f with
    fences := f.fences ++ [⟨f.nextFence, pkt, inp, (f.ledger.filter (fun e => e.head.src = pkt.src)).map (·.ord), none,
      c.courseCount⟩]
    nextFence := f.nextFence + 1 })

/-- A fence completes with a status. -/
def Chip.closeFence (c : Chip) (r : Region) (x : FenceE) (status : Nat) : Chip :=
  (c.modFab r (fun f => { f with fences := f.fences.filter (fun y => y.id ≠ x.id) })).answerReq r x.pkt status

/-! ### The home -/

/-- The key table entry of a key (R179). -/
def Chip.keyEntry (c : Chip) (r : Region) (key : Nat) : Word × Word :=
  let i := key / 4096
  (c.reg (.fabmem r) (0x1000 + 16 * i), c.reg (.fabmem r) (0x1008 + 16 * i))

/-- R154: the status of the first check that fails, and its number; (0, 0) when all pass. -/
def Chip.homeCheck (c : Chip) (r : Region) (p : Packet) : Nat × Nat :=
  let n := p.bytesAsked
  let o := p.offset
  let (a, b) := c.keyEntry r p.key
  let base := 4096 * getBits b 56 32
  let top := base + 4096 * getBits b 24 0
  let size := if p.wide then 8 else 4
  if 12 ≤ p.op then (6, 1)
  else if (p.isAtomic && (o % size ≠ 0 || n ≠ size || p.len ≠ (if p.op = 11 then 16 else 8)))
      || (p.op ≤ 1 && (4096 < n || o / 4096 ≠ (o + n - 1) / 4096)) || (p.op = 1 && p.len ≠ n) then (5, 2)
  else if getBits p.w2 63 52 ≠ p.dst || endpointBytes ≤ o then (3, 3)
  else if !bitAt a 63 || getBits a 11 0 ≠ p.key % 4096 then (1, 4)
  else if getBits a 27 12 ≠ p.job then (2, 5)
  else if o < base || top < o + n || !c.outsideArea r o n then (3, 6)
  else if !bitAt a (if p.op = 0 then 62 else if p.op = 1 then 61 else 60) then (4, 7)
  else (0, 0)

/-- The home answers through the region endpoint input. -/
def Chip.respond (c : Chip) (r : Region) (req : Packet) (status : Nat) (hot : Bool) (payload : List Byte) : Chip :=
  c.send r (c.memRsp r req req.op status hot payload)

/-- The result store's slot for a request (R160). -/
def Chip.resultSlot (c : Chip) (r : Region) (p : Packet) : Nat :=
  c.areaBase r + 2 ^ 27 + ((p.src * 8 + p.tc) * 256 + p.seq % 256) * 16

/-- How many stores and uncombined atomics wait for a line of region r. -/
def Chip.waitingFor (c : Chip) (r : Region) (line : Nat) : Nat :=
  ([0, 1].flatMap (fun i => (c.memS (stackOf r.val (4096 * i))).queue)).foldl (fun n q =>
    match q.kind with
    | .fabric r' p _ => if r' = r.val && p.presses && p.lineAddrs.any (fun l => l % 2 ^ 46 = line % 2 ^ 46) then n + 1 else n
    | _ => n) 0

/-- R161: lines that more than `hot_threshold` requests wait for become hot. -/
def Chip.hotScan (c : Chip) (r : Region) (lines : List Nat) : Chip :=
  lines.foldl (fun c l =>
    let l := l % 2 ^ 46
    if (c.fab r).hot.contains l || c.waitingFor r l ≤ max 1 (c.fld (.fabmem r) FABMEM.HOT_CTL_hot_threshold) then c
    else
      let c := (c.modFab r (fun f => { f with hot := l :: f.hot })).bump (.fabmem r) FABMEM.HOT_COUNT_hot_events
      let c := c.raise (.fabmem r) FABMEM.ev_hot_line
      if c.flag (.fabmem r) FABMEM.HOT_LINE_valid then c
      else c.setReg (.fabmem r) 0x130 (setBits (setBits 0 63 63 1) 45 0 l)) c

/-- A request that passed R160 is checked under R154 and joins its memory block's fabric queue, or is answered. -/
def Chip.homeAdmit (c : Chip) (r : Region) (p : Packet) (dup : Bool) : Chip :=
  let (status, check) := c.homeCheck r p
  if status ≠ 0 then
    let c := if 4 ≤ check then (c.bump (.fabmem r) FABMEM.HOME_COUNT_key_faults).fabError r FABMEM.ev_key_fault 0x30 p else c
    c.respond r p status false []
  else
    let n := (c.fab r).nextReq
    let c := c.modFab r (fun f => { f with nextReq := n + 1 })
    let c := c.memAsk (stackOf r.val p.offset) 0 p.tc n (.fabric r.val p dup)
    if p.presses then c.hotScan r (p.lineAddrs.map (· % 2 ^ 46)) else c

/-- Held requests that are now next are admitted in turn (R160). -/
def Chip.homeNext (c : Chip) (r : Region) (stream : Nat) : Nat → Chip
  | 0 => c
  | k + 1 =>
    let next := (Tab.get (c.fab r).upto stream 0 + 1) % 2 ^ 20
    match (c.fab r).gaps.find? (fun g => g.1.stream = stream && g.1.seq = next) with
    | none => c
    | some g =>
      let c := c.modFab r (fun f => { f with gaps := f.gaps.filter (· ≠ g), upto := Tab.put f.upto stream next })
      (c.homeAdmit r g.1 false).homeNext r stream k

/-- R160: a request at its home. -/
def Chip.homeTake (c : Chip) (r : Region) (p : Packet) : Chip :=
  let u := UnitId.fabmem r
  if c.tearing r p.job then c.respond r p 10 false []
  else
    let d := (p.seq + 2 ^ 20 - Tab.get (c.fab r).upto p.stream 0) % 2 ^ 20
    if d = 1 then
      ((c.modFab r (fun f => { f with upto := Tab.put f.upto p.stream p.seq })).homeAdmit r p false).homeNext r p.stream 256
    else if 2 ≤ d && d ≤ 256 then
      if 256 ≤ (c.fab r).gaps.length then
        (c.bump u FABMEM.HOME_COUNT_gap_discards).fabError r FABMEM.ev_gap_discard 0x31 p
      else (c.modFab r (fun f => { f with gaps := f.gaps ++ [(p, c.courseCount)] })).bump u FABMEM.HOME_COUNT_gaps_held
    else if d = 0 || 2 ^ 20 - 255 ≤ d then (c.bump u FABMEM.HOME_COUNT_duplicates).homeAdmit r p true
    else (c.bump u FABMEM.LEDGER_COUNT_seq_errors).fabError r FABMEM.ev_seq_error 0x32 p

/-- A served request stops waiting for its lines; a line nobody waits for is hot no longer (R161). -/
def Chip.hotServed (c : Chip) (r : Region) : Chip :=
  c.modFab r (fun f => { f with hot := f.hot.filter (fun l => c.waitingFor r l ≠ 0) })

/-- R155, R158, R160: serve a fabric request at its memory block; none while copies are in the way. The request has left
the queue. A request of a job that is torn down is answered so, and not applied (R177). -/
def Chip.serveFabric (c : Chip) (r : Region) (p : Packet) (dup : Bool) (seen : List EccSeen) : Chip :=
  let lines := linesOf r.val p.offset p.bytesAsked
  let hot := p.presses && p.lineAddrs.any (fun l => (c.fab r).hot.contains (l % 2 ^ 46))
  let c := if hot then c.bump (.fabmem r) FABMEM.HOT_COUNT_hot_stores else c
  let c := if c.tearing r p.job then c.respond r p 10 hot []
    else if p.op = 0 then
      let (c, bad) := c.readLines lines 0 p.src p.seq seen
      if bad then c.respond r p 7 hot [] else c.respond r p 0 hot (c.load (.lintel r.val) p.offset p.bytesAsked)
    else if p.op = 1 then
      if dup then c.respond r p 0 hot []
      else
        let part := lines.filter (fun k => !(p.offset ≤ keyOffset k && keyOffset k + 64 ≤ p.offset + p.bytesAsked))
        let (c, bad) := c.readLines part 0 p.src p.seq seen
        if bad then c.respond r p 7 hot []
        else match c.badWrite r.val p.offset p.bytesAsked with
          | some k => (c.lineUe k 0 p.src p.seq).respond r p 7 hot []
          | none => (c.writeLintel r.val p.offset p.payload).respond r p 0 hot []
    else
      let slot := c.resultSlot r p
      if dup then
        match (linesOf r.val slot 16).find? c.lineBad with
        | some k => (c.lineUe k 0 p.src p.seq).respond r p 7 hot []
        | none =>
          let st := leNat (c.load (.lintel r.val) (slot + 8) 1)
          c.respond r p st hot (if st = 0 then c.load (.lintel r.val) slot 8 else [])
      else
        let (c, bad) := c.readLines lines 0 p.src p.seq seen
        match c.badWrite r.val slot 16 with
        | some k => (c.lineUe k 0 p.src p.seq).respond r p 7 hot []
        | none =>
        if bad then (c.writeLintel r.val slot (leBytes 8 0 ++ leBytes 8 7)).respond r p 7 hot []
        else
          let (c, old) := c.homeAtomic r.val p.offset p.op p.wide (Packet.operand p) (leAt p.payload 8 8)
          (c.writeLintel r.val slot (leBytes 8 old ++ leBytes 8 0)).respond r p 0 hot (leBytes 8 old)
  c.hotServed r

/-- Does a fabric request at its block write its lines? -/
def fabricWrites (p : Packet) (dup : Bool) : Bool := p.op ≠ 0 && !dup

/-! ### Job take, lost targets, teardown -/

/-- R160: the job that takes the FABMEM unit finds no entry, no sequence and no result. -/
def Chip.fabTake (c : Chip) (r : Region) : Chip :=
  let old := c.fab r
  let c := { c with fabs := Tab.put c.fabs r.val { nextOrd := old.nextOrd, nextComb := old.nextComb, combining := old.combining } }
  let base := (Space.lintel r.val).base + c.areaBase r + 2 ^ 27
  let c := { c with mem := c.mem.filter (fun e => e.1 < base || base + 2 ^ 27 ≤ e.1) }
  c.ledgerCount r

/-- R175: entries to a Pysum newly in LOST_MAP complete TARGET_LOST; entries taken by one complete LOST. -/
def Chip.targetsLost (c : Chip) (r : Region) : Chip :=
  (c.fab r).ledger.foldl (fun c e =>
    if !(c.fab r).ledger.any (fun x => x.ord = e.ord) then c
    else match c.targetOfPkt r e.head with
    | some t => if c.lost r t then c.loseFrom r e 9
        else if (match e.taken with | some q => c.lost r q | none => false) then c.loseFrom r e 8 else c
    | none => if (match e.taken with | some q => c.lost r q | none => false) then c.loseFrom r e 8 else c) c

/-- Table FAB-7: the steps of a teardown up to the present course. -/
def Chip.tearStep (c : Chip) (r : Region) : Chip :=
  match (c.fab r).tearing with
  | none => c
  | some (job, start, done) =>
    if done || c.courseCount < start then c
    else
      let k := c.since start
      let c := c.setReg (.fabmem r) 0x148 (setBits (setBits 0 63 63 1) 15 0 job)
      let mine := (c.fab r).combining.filter (fun e => match e.parts.head? with | some p => p.2.job = job | none => false)
      let c := mine.foldl (fun c e =>
        e.parts.foldl (fun c p => (c.send r (c.memRsp r p.2 p.2.op 10 false [])).freePacket r p.1)
          (c.modFab r (fun f => { f with combining := f.combining.filter (fun x => x.id ≠ e.id) }))) c
      let c := c.combCount r
      let c := if k < 1 then c
        else
          let c := ((c.fab r).ledger.filter (fun e => e.head.job = job)).foldl (fun c e => c.completeEntry r e 10) c
          ((c.fab r).fences.filter (fun x => x.pkt.job = job)).foldl (fun c x => c.closeFence r x 10) c
      let c := if k < 2 then c
        else
          let base := (Space.lintel r.val).base + c.areaBase r + 2 ^ 27
          { c.modFab r (fun f => { f with upto := [], gaps := f.gaps.filter (fun g => g.1.job ≠ job) }) with
            mem := c.mem.filter (fun e => e.1 < base || base + 2 ^ 27 ≤ e.1) }
      if k < 3 then c
      else
        let c := c.setReg (.fabmem r) 0x148 (setBits 0 15 0 job)
        (c.modFab r (fun f => { f with tearing := some (job, start, true) })).raise (.fabmem r) FABMEM.ev_teardown_done

/-! ### The commands -/

/-- COMBINE_WINDOW_CLOSE: entry `entry` closes once it has been open for its `window` s-cycles. -/
def execCombineWindowClose (r : Region) (entry : Nat) (s : State) : Host.Outcome State Fault Refusal :=
  s.onLive r (fun c => match (c.fab r).combining.find? (fun e => e.id = entry && e.window ≤ c.now - e.openedAt) with
    | some e => c.closeComb r e
    | none => c)

/-- HOME_REQUEST: a MEM_REQ that crossed to the region endpoint; it waits while its memory block's fabric queue is full. -/
def execHomeRequest (r : Region) (s : State) : Host.Outcome State Fault Refusal :=
  s.onLive r (fun c => match c.fromInbox r 2 (fun p => (c.memS (stackOf r.val p.offset)).room 0) with
    | some (p, c) => c.homeTake r p
    | none => c)

/-- GAP_TIMEOUT (R160). -/
def execGapTimeout (r : Region) (src : BitVec 12) (tc : Tc) (seq : BitVec 20) (s : State) :
    Host.Outcome State Fault Refusal :=
  s.onLive r (fun c =>
    match (c.fab r).gaps.find? (fun g => g.1.src = src.toNat && g.1.tc = tc.val && g.1.seq = seq.toNat) with
    | some g =>
      if c.since g.2 < c.ackTimeout r then c
      else ((c.modFab r (fun f => { f with gaps := f.gaps.filter (· ≠ g) })).bump (.fabmem r)
        FABMEM.HOME_COUNT_gap_discards).fabError r FABMEM.ev_gap_discard 0x31 g.1
    | none => c)

/-- MEM_RSP_NOTICE: the first response that waits at an input of the region tells the ledgers. -/
def execMemRspNotice (r : Region) (s : State) : Host.Outcome State Fault Refusal :=
  s.onLive r (fun c => match (c.xbar r).findHead (fun h p => h.checked && !h.settled && p.kind = 3 && c.rspHere r p) with
    | some (k, h, st) => (c.noticeHead r k h.id st.pkt).recount r
    | none => c)

/-- COMBINED_RESPONSE. -/
def execCombinedResponse (r : Region) (s : State) : Host.Outcome State Fault Refusal :=
  s.onLive r (fun c => match c.fromInbox r 34 (fun _ => true) with
    | some (p, c) => c.splitRsp r p
    | none => c)

/-- LEDGER_ACK_TIMEOUT: the entry in slot `entry` (Table FAB-6). -/
def execLedgerAckTimeout (r : Region) (entry : Nat) (s : State) : Host.Outcome State Fault Refusal :=
  s.onLive r (fun c => match (c.fab r).ledger.find? (fun e => e.slot = entry) with
    | some e =>
      if e.taken.isSome || c.since e.sentAt < c.ackTimeout r then c
      else if e.replays < c.replayMax r then c.replayEntry r e
      else c.loseFrom r e 8
    | none => c)

/-- SEAL_RECEIVED (R172): a NAK to each source and class with a request in the gap store. -/
def execSealReceived (r : Region) (s : State) : Host.Outcome State Fault Refusal :=
  s.onLive r (fun c => match c.fromInbox r 7 (fun _ => true) with
    | some (_, c) =>
      ((c.fab r).gaps.foldl (fun (acc : Chip × List Nat) g =>
        let (c, seen) := acc
        if seen.contains g.1.stream then acc
        else
          let next := (Tab.get (c.fab r).upto g.1.stream 0 + 1) % 2 ^ 20
          let named : Packet := { g.1 with w3 := setBits g.1.w3 19 0 next }
          (c.send r (c.memRsp r named 14 0 false []), g.1.stream :: seen)) (c, [])).1
    | none => c)

/-- FENCE_COMPLETE (R173). -/
def execFenceComplete (r : Region) (fence : Nat) (s : State) : Host.Outcome State Fault Refusal :=
  s.onLive r (fun c => match (c.fab r).fences.find? (fun x => x.id = fence) with
    | some x => if x.covers.isEmpty then c.closeFence r x (match x.worst with | some (_, s) => s | none => 0) else c
    | none => c)

/-- FENCE_TIMEOUT (R173). -/
def execFenceTimeout (r : Region) (fence : Nat) (s : State) : Host.Outcome State Fault Refusal :=
  s.onLive r (fun c => match (c.fab r).fences.find? (fun x => x.id = fence) with
    | some x =>
      if c.since x.openedAt < max 1 (c.fld (.fabmem r) FABMEM.FAB_CTL_fence_timeout) then c
      else (c.closeFence r x 11).fabError r FABMEM.ev_fence_timeout 0x34 x.pkt
    | none => c)

/-- HOT_FILTER_EXPIRY (R162): line address `line` of the filter. -/
def execHotFilterExpiry (r : Region) (line : Nat) (s : State) : Host.Outcome State Fault Refusal :=
  s.onLive r (fun c => c.modFab r (fun f => { f with filter := f.filter.filter (fun e =>
    !(e.1 = line && 16 ≤ c.since e.2)) }))

end Sys2Proof.Machine
end

