-- ==== Sys2Proof/Machine/Cobbler.lean ====
section
/-! DEFINITION. The Cobbler: buffer pools, their rings and caches, reserves, the host's offer (R355 to R366). -/
namespace Sys2Proof.Machine

def Chip.cob (c : Chip) (r : Region) : CobS := Tab.get c.cobs r.val {}
def Chip.modCob (c : Chip) (r : Region) (f : CobS → CobS) : Chip := { c with cobs := Tab.put c.cobs r.val (f (c.cob r)) }
def Chip.pool (c : Chip) (r : Region) (k : Nat) : PoolS := Tab.get (c.cob r).pools k {}
def Chip.modPool (c : Chip) (r : Region) (k : Nat) (f : PoolS → PoolS) : Chip :=
  c.modCob r (fun s => { s with pools := Tab.put s.pools k (f (c.pool r k)) })

/-- Table COB-1: buffer size and largest count of a pool. -/
def poolSize (k : Nat) : Nat := [512, 4096, 65536, 2097152].getD k 0
def poolMax (k : Nat) : Nat := [262144, 65536, 16384, 4096].getD k 0

def Chip.poolBase (c : Chip) (r : Region) (k : Nat) : Nat := c.fld (.cobbler r) (COBBLER.POOL_CFG_base.plus (0x30 * k))
def Chip.poolCount (c : Chip) (r : Region) (k : Nat) : Nat := c.fld (.cobbler r) (COBBLER.POOL_CFG_count.plus (0x30 * k))
def Chip.poolRing (c : Chip) (r : Region) (k : Nat) : Nat := c.fld (.cobbler r) (COBBLER.POOL_RING_ring.plus (0x30 * k))
def Chip.poolOn (c : Chip) (r : Region) (k : Nat) : Bool := c.poolCount r k ≠ 0 && !(c.pool r k).disabled

/-- Entries of a pool's ring: `count` rounded up to whole lines (R356). -/
def Chip.ringCap (c : Chip) (r : Region) (k : Nat) : Nat := roundUp (c.poolCount r k) 16

/-- Ranges of a pool: its buffers and its ring. -/
def Chip.poolRanges (c : Chip) (r : Region) (k : Nat) : List (Nat × Nat) :=
  [(c.poolBase r k, c.poolCount r k * poolSize k), (c.poolRing r k, 4 * c.ringCap r k)]

def rangesMeet (a b : Nat × Nat) : Bool := a.2 ≠ 0 && b.2 ≠ 0 && a.1 < b.1 + b.2 && b.1 < a.1 + a.2

/-- R356: may the pool's configuration stand? -/
def Chip.poolFits (c : Chip) (r : Region) (k : Nat) : Bool :=
  c.poolBase r k % poolSize k = 0 && c.poolRing r k % 64 = 0 && c.poolCount r k ≤ poolMax k
    && (c.poolCount r k = 0 || ((c.poolRanges r k).all (fun x => c.outsideArea r x.1 x.2)
      && (List.range 4).all (fun j => j = k || !c.poolOn r j
        || (c.poolRanges r k).all (fun x => (c.poolRanges r j).all (fun y => !rangesMeet x y)))))

/-- Free buffers of a pool: cache and ring. -/
def PoolS.free (p : PoolS) : Nat := p.cache.length + p.inRing

/-- POOL_STS follows a pool. -/
def Chip.poolShow (c : Chip) (r : Region) (k : Nat) : Chip :=
  let p := c.pool r k
  let d := 0x30 * k
  let u := UnitId.cobbler r
  let c := (c.setFld u (COBBLER.POOL_STS_cache.plus d) p.cache.length).setFld u (COBBLER.POOL_STS_free.plus d) p.free
  let low := min (p.minFrom.getD (c.fld u (COBBLER.POOL_STS_free_min.plus d))) p.free
  (c.setFld u (COBBLER.POOL_STS_free_min.plus d) low).modPool r k (fun p => { p with minFrom := none })

/-- PROGRESS of the Cobbler (R365). -/
def Chip.cobProgress (c : Chip) (r : Region) (n : Nat) : Chip :=
  c.progress (.cobbler r) ((List.range 4).any (fun k => !(c.pool r k).queue.isEmpty)) n

/-- UNIT_STS `ready`. -/
abbrev readyFld : Fld := ⟨0x18, 0, 0⟩

/-! ### Rebuild -/

/-- R357: a rebuild of one pool starts; the buffer on offer is no longer offered. -/
def Chip.rebuild (c : Chip) (r : Region) (k : Nat) : Chip :=
  let c := c.modCob r (fun s => { s with rebuilding := if s.rebuilding.contains k then s.rebuilding else s.rebuilding ++ [k] })
  (c.setReg (.cobbler r) (0x140 + 0x30 * k) 0).setFld (.cobbler r) readyFld 0

/-- R357: every buffer is free, the ring holds the indices in ascending order, the cache loads from its head, to the full (DESIGN
CHOICE, log 272). Requests that wait go on waiting. -/
def Chip.rebuildPool (c : Chip) (r : Region) (k : Nat) : Chip :=
  let n := if (c.pool r k).disabled then 0 else c.poolCount r k
  let c := c.writeLintel r.val (c.poolRing r k) ((List.range n).flatMap (leBytes 4))
  let m := min 64 n
  let c := c.modPool r k (fun p => { p with
    cache := List.range m
    head := m
    tail := n
    inRing := n - m
    owners := []
    minFrom := none })
  let u := UnitId.cobbler r
  let c := (c.setReg u (0x140 + 0x30 * k) 0).setFld u (COBBLER.POOL_STS_free_min.plus (0x30 * k)) n
  c.poolShow r k

/-! ### Allocation -/

/-- Buffers that an owner holds; the offer counts towards the host (R362). -/
def PoolS.holds (p : PoolS) (o : Nat) : Nat :=
  (p.owners.filter (fun e => e.2 = o || (o = 16 && e.2 = 17))).length

/-- R362: the minimum of an owner. -/
def Chip.poolMin (c : Chip) (r : Region) (k o : Nat) : Nat :=
  let u := UnitId.cobbler r
  if o = 16 then c.fld u (COBBLER.RESERVE_host_min.plus (8 * k))
  else if c.present (.cblk r ⟨o % 16, Nat.mod_lt _ (by decide)⟩) then c.fld u (COBBLER.RESERVE_block_min.plus (8 * k))
  else 0

/-- R362: does the reserve rule let the owner have a buffer? -/
def Chip.reserveAllows (c : Chip) (r : Region) (k o : Nat) : Bool :=
  let p := c.pool r k
  p.holds o < c.poolMin r k o ||
    ((List.range 17).filter (· ≠ o)).foldl (fun n x => n + (c.poolMin r k x - p.holds x)) 0 < p.free

/-- Is the request still there: an INVOKE may be gone with its region or its job? -/
def Chip.askLives (c : Chip) (r : Region) (a : PoolAsk) : Bool :=
  match a.invoke with
  | none => true
  | some p => (Tab.get (c.xbar r).inbox 4 []).contains p
      || (List.range 4).any (fun i => (Tab.get (c.xbar r).staging (16 + i) []).any (fun s => s.pkt = p))
      || (List.finRange 4).any (fun q => (c.xbar q).store.any (fun e => e.2.pkt = p))

/-- The requests that wait for a pool before this one. -/
def Chip.asksBefore (c : Chip) (r : Region) (k : Nat) (who : Option Packet) : List PoolAsk :=
  ((c.pool r k).queue.takeWhile (fun a => a.invoke ≠ who)).filter (c.askLives r)

/-- R361, R362: may the pool grant a buffer to a request (the offer asks as the host, 16)? First come, first served; with reserves,
among those that the rule lets have one, and each owner's in its order. -/
def Chip.poolGrants (c : Chip) (r : Region) (k : Nat) (who : Option Packet) (owner : Nat) : Bool :=
  let before := c.asksBefore r k who
  (c.pool r k).free ≠ 0 &&
    (if !c.flag (.cobbler r) COBBLER.COB_CTL_mode then before.isEmpty
     else c.reserveAllows r k owner && before.all (fun a => a.owner ≠ owner && !c.reserveAllows r k a.owner))

/-- POLICY bounds of `low_now`, above 48 acting as 48 (R368). -/
def Chip.lowBounds (c : Chip) (r : Region) (k : Nat) : Nat × Nat :=
  let u := UnitId.cobbler r
  (min 48 (getBits (c.reg u 0x90) (16 * k + 5) (16 * k)), min 48 (getBits (c.reg u 0x98) (16 * k + 5) (16 * k)))

/-- R363: `low_now` at an allocation. -/
def Chip.lowAdapt (c : Chip) (r : Region) (k : Nat) (miss : Bool) : Chip :=
  let (lo, hi) := c.lowBounds r k
  let fl := COBBLER.POOL_STS_low_now.plus (0x30 * k)
  let now := max lo (min hi (c.fld (.cobbler r) fl))
  let p := c.pool r k
  if miss then
    let c := (c.bump (.cobbler r) (COBBLER.POOL_COUNT_misses.plus (0x30 * k))).setFld (.cobbler r) fl (min hi (now + 4))
    c.modPool r k (fun p => { p with sinceMiss := 0 })
  else if 1024 ≤ p.sinceMiss + 1 then
    (c.setFld (.cobbler r) fl (max lo (now - 4))).modPool r k (fun p => { p with sinceMiss := 0 })
  else (c.setFld (.cobbler r) fl now).modPool r k (fun p => { p with sinceMiss := p.sinceMiss + 1 })

/-- `pool_empty` when the pool's free count has come down to 0 (R365). -/
def Chip.poolEmpty (c : Chip) (r : Region) (k before : Nat) : Chip :=
  c.raiseIf (decide (before ≠ 0 ∧ (c.pool r k).free = 0)) (.cobbler r) COBBLER.ev_pool_empty

/-- A buffer of the pool goes to an owner: the index at the top of the cache; none while the cache is empty. -/
def Chip.poolTake (c : Chip) (r : Region) (k : Nat) (who : Option Packet) (owner : Nat) : Chip × Option Nat :=
  match (c.pool r k).cache with
  | [] => (c, none)
  | i :: rest =>
    let before := (c.pool r k).free
    let c := c.modPool r k (fun p => { p with cache := rest, owners := Tab.put p.owners i owner })
    let c := (List.range 4).foldl (fun c j => c.modPool r j (fun p => { p with
      queue := p.queue.filter (fun a => a.invoke ≠ who) })) c
    let c := ((c.lowAdapt r k false).wrap (.cobbler r) (COBBLER.POOL_COUNT_allocs.plus (0x30 * k))).poolShow r k
    ((c.poolEmpty r k before).cobProgress r 1, some i)

/-- A request that could have a buffer finds the cache empty while the ring holds some: a miss, counted once (R363). -/
def Chip.poolMiss (c : Chip) (r : Region) (k : Nat) (who : Option Packet) (owner : Nat) : Chip :=
  let p := c.pool r k
  if p.cache.isEmpty && p.inRing ≠ 0 && c.poolGrants r k who owner && p.queue.any (fun a => a.invoke = who && !a.missed) then
    (c.modPool r k (fun p => { p with queue := p.queue.map (fun a => if a.invoke = who then { a with missed := true } else a) })
      ).lowAdapt r k true
  else c

/-- A request has to wait for its pool (R365). -/
def Chip.poolWait (c : Chip) (r : Region) (k : Nat) (who : Option Packet) (owner : Nat) : Chip :=
  let c := if (c.pool r k).queue.any (fun a => a.invoke = who) then c
    else ((c.modPool r k (fun p => { p with queue := p.queue ++ [⟨who, owner, false⟩] })).bump (.cobbler r)
      (COBBLER.POOL_COUNT_waits.plus (0x30 * k))).cobProgress r 0
  c.poolMiss r k who owner

/-- R360: load the next free buffer into POOL_ALLOC; its owner is the offer, 17. -/
def Chip.poolOffer (c : Chip) (r : Region) (k : Nat) : Chip :=
  if !c.poolOn r k || !(c.cob r).rebuilding.isEmpty || c.flag (.cobbler r) (COBBLER.POOL_ALLOC_valid.plus (0x30 * k)) then c
  else if !c.poolGrants r k none 16 then c.poolWait r k none 16
  else match c.poolTake r k none 17 with
    | (c, some i) => c.setReg (.cobbler r) (0x140 + 0x30 * k)
        (setBits (setBits 0 63 63 1) 36 0 (c.poolBase r k + i * poolSize k))
    | (c, none) => c.poolWait r k none 16

/-- A waiting offer is loaded once its turn comes. -/
def Chip.poolServe (c : Chip) (r : Region) (k : Nat) : Chip :=
  if (c.pool r k).queue.any (·.invoke.isNone) then c.poolOffer r k else c

/-- R358: the pool for an INVOKE's payload, its block the owner: refused, waiting for a pool, or granted by one. -/
inductive PoolPick where
  | refused
  | waits (k : Nat)
  | grants (k : Nat)
  deriving DecidableEq, Repr

def Chip.poolPick (c : Chip) (r : Region) (who : Packet) (owner : Nat) : PoolPick :=
  let s := who.len
  let fit := (List.range 4).filter (fun k => c.poolOn r k && max 1 s ≤ poolSize k)
  match fit with
  | [] => .refused
  | k :: more =>
    if !(c.cob r).rebuilding.isEmpty then .waits k
    else if c.poolGrants r k (some who) owner then .grants k
    else if c.flag (.cobbler r) COBBLER.COB_CTL_fit_up then
      match more.find? (fun j => c.poolGrants r j (some who) owner) with
      | some j => .grants j
      | none => .waits k
    else .waits k

/-! ### Frees and refills -/

/-- R363: a cache of 64 writes the 16 at its bottom to the ring's tail. -/
def Chip.poolSpill (c : Chip) (r : Region) (k : Nat) : Chip :=
  let p := c.pool r k
  if p.cache.length < 64 then c
  else
    let cap := c.ringCap r k
    let out := p.cache.drop 48
    let c := ((List.range 16).foldl (fun c j =>
      c.writeLintel r.val (c.poolRing r k + 4 * ((p.tail + j) % cap)) (leBytes 4 (out.getD j 0))) c)
    c.modPool r k (fun p => { p with cache := p.cache.take 48, tail := (p.tail + 16) % cap, inRing := p.inRing + 16 })

/-- R366: a free by a party: 0 to 15 a block, 16 the host. -/
def Chip.poolFree (c : Chip) (r : Region) (party offset : Nat) : Chip :=
  let u := UnitId.cobbler r
  let detail := [setBits (setBits 0 36 0 offset) 44 40 party]
  let badFree := (c.bump u COBBLER.COB_LOST_bad_frees).error u COBBLER.ev_bad_free 0x71 detail
  match (List.range 4).find? (fun k => c.poolOn r k && c.poolBase r k ≤ offset
      && offset < c.poolBase r k + c.poolCount r k * poolSize k && (offset - c.poolBase r k) % poolSize k = 0) with
  | none => badFree
  | some k =>
    let i := (offset - c.poolBase r k) / poolSize k
    match Tab.find (c.pool r k).owners i with
    | none => (c.bump u COBBLER.COB_LOST_double_frees).error u COBBLER.ev_double_free 0x70 detail
    | some o =>
      if o ≠ party then badFree
      else
        let c := c.modPool r k (fun p => { p with owners := Tab.del p.owners i, cache := i :: p.cache })
        (((c.poolSpill r k).poolShow r k).cobProgress r 1).poolServe r k

/-- R363, R364: a refill reads one line of the ring's head and checks each index. -/
def Chip.poolRefill (c : Chip) (r : Region) (k : Nat) : Chip :=
  let p := c.pool r k
  let u := UnitId.cobbler r
  if !c.poolOn r k || p.inRing = 0 || c.fld u (COBBLER.POOL_STS_low_now.plus (0x30 * k)) ≤ p.cache.length then c
  else
    let n := min 16 p.inRing
    let cap := c.ringCap r k
    let at_ := fun j => c.poolRing r k + 4 * ((p.head + j) % cap)
    let off := at_ 0
    let before := p.free
    let c := c.modPool r k (fun p => { p with head := (p.head + n) % cap, inRing := p.inRing - n })
    if (List.range n).any (fun j => c.lineBad (lineKey r.val (at_ j))) then
      (((c.bump u COBBLER.COB_LOST_lost_buffers n).error u evErrUncorrected 0x73 [0, BitVec.ofNat 64 off]).poolShow r k).poolEmpty
        r k before
    else
      let c := (List.range n).foldl (fun c j =>
        let i := leNat (c.load (.lintel r.val) (at_ j) 4)
        let p := c.pool r k
        if c.poolCount r k ≤ i || (Tab.find p.owners i).isSome || p.cache.contains i then
          c.error u COBBLER.ev_ring_error 0x72 [0, BitVec.ofNat 64 (at_ j)]
        else c.modPool r k (fun p => { p with cache := p.cache ++ [i] })) c
      ((c.poolShow r k).poolEmpty r k before).poolServe r k

/-! ### Writes, reads, job take -/

/-- R356: a write to POOL_CFG or POOL_RING. -/
def Chip.opPoolConfig (c : Chip) (r : Region) (k : Nat) (ring : Bool) (v : Word) : Chip × Bool :=
  let u := UnitId.cobbler r
  let (c', no) := c.plainWrite u ((if ring then 0x128 else 0x120) + 0x30 * k) v
  if no then (c', no)
  else if !c'.poolFits r k then (c.raise u COBBLER.ev_cfg_reject, false)
  else ((c'.modPool r k (fun p => { p with disabled := false })).rebuild r k, false)

/-- R362: a write to RESERVE. -/
def Chip.opReserve (c : Chip) (r : Region) (k : Nat) (v : Word) : Chip × Bool :=
  let blocks := if c.fuses.grade = .a then 16 else 12
  let u := UnitId.cobbler r
  let (c', no) := c.plainWrite u (0x1E0 + 8 * k) v
  if no then (c', no)
  else if c.poolCount r k < blocks * c'.fld u (COBBLER.RESERVE_block_min.plus (8 * k))
      + c'.fld u (COBBLER.RESERVE_host_min.plus (8 * k)) then (c.raise u COBBLER.ev_cfg_reject, false)
  else (c', false)

/-- R360: a read of POOL_ALLOC hands the offered buffer to the host and the next one is offered. -/
def Chip.opPoolRead (c : Chip) (r : Region) (k : Nat) : Chip :=
  let u := UnitId.cobbler r
  let pos := 0x140 + 0x30 * k
  let w := c.reg u pos
  if !bitAt w 63 then c
  else
    let i := (getBits w 36 0 - c.poolBase r k) / poolSize k
    let c := c.modPool r k (fun p => { p with owners := Tab.put p.owners i 16 })
    (c.setReg u pos 0).poolOffer r k

/-- R356, R357: a job takes or releases the COBBLER unit. -/
def Chip.cobTake (c : Chip) (r : Region) (takes : Bool) : Chip :=
  (List.range 4).foldl (fun c k =>
    let clash := takes && c.poolCount r k ≠ 0 && !(c.poolRanges r k).all (fun x => c.outsideArea r x.1 x.2)
    let c := c.modPool r k (fun p => { p with disabled := clash })
    let c := c.raiseIf clash (.cobbler r) COBBLER.ev_cfg_reject
    if c.poolOn r k then c.rebuild r k else if clash then c.rebuildPool r k else c) c

/-! ### The commands -/

/-- POOL_CONFIG_WRITE. -/
def execPoolConfigWrite (r : Region) (k : Fin 4) (ring : Bool) (value : Word) (s : State) :
    Host.Outcome State Fault Refusal :=
  s.onReg (.cobbler r) (fun c => c.opPoolConfig r k.val ring value) (0x120 + 0x30 * k.val + 8 * bit ring)

/-- REBUILD_DONE (R357): the memory block must be ready. -/
def execRebuildDone (r : Region) (s : State) : Host.Outcome State Fault Refusal :=
  s.on (fun c =>
    let l := (c.cob r).rebuilding
    let filled := (List.finRange 2).all (fun i => c.memReady (regionStack r i))
    if l.isEmpty || !filled then c
    else
      let c := l.foldl (fun c k => c.rebuildPool r k) c
      let c := (c.modCob r (fun s => { s with rebuilding := [] })).setFld (.cobbler r) readyFld 1
      (List.range 4).foldl (fun c k => c.poolOffer r k) c)

/-- RESERVE_WRITE. -/
def execReserveWrite (r : Region) (k : Fin 4) (value : Word) (s : State) : Host.Outcome State Fault Refusal :=
  s.onReg (.cobbler r) (fun c => c.opReserve r k.val value) (0x1E0 + 8 * k.val)

/-- POOL_ALLOC_READ. -/
def execPoolAllocRead (r : Region) (k : Fin 4) (s : State) : Host.Outcome State Fault Refusal :=
  s.on (fun c =>
    let st := c.accessStatus (regAddr (.cobbler r) 0)
    if st = 0 then (c.opPoolRead r k.val).accessed 0 (c.reg (.cobbler r) (0x140 + 0x30 * k.val)) false
    else c.accessed st 0 false)

/-- FREE (R366). -/
def execFree (r : Region) (value : Word) (s : State) : Host.Outcome State Fault Refusal :=
  s.onReg (.cobbler r) (fun c => (c.poolFree r 16 (getBits value 36 0), false)) 0x108

/-- CACHE_REFILL. -/
def execCacheRefill (r : Region) (k : Fin 4) (s : State) : Host.Outcome State Fault Refusal :=
  s.on (fun c => c.poolRefill r k.val)

end Sys2Proof.Machine
end

