-- ==== Sys2Proof/Machine/Near.lean ====
section
/-! DEFINITION. DMA descriptors (Table CELL-8), and what the near-memory operations check and compute (R197 to R199); the line
steps of both stand in Dma.lean. -/
namespace Sys2Proof.Machine

/-! ### Descriptor fields -/

def DmaE.word (d : DmaE) (i : Nat) : Word := d.words.getD i 0
def DmaE.op (d : DmaE) : Nat := getBits (d.word 0) 63 60
def DmaE.fence (d : DmaE) : Bool := bitAt (d.word 0) 59
def DmaE.tc (d : DmaE) : Nat := getBits (d.word 0) 58 56
def DmaE.epid (d : DmaE) : Nat := getBits (d.word 0) 55 44
def DmaE.key (d : DmaE) : Nat := getBits (d.word 0) 43 20
def DmaE.amo (d : DmaE) : Nat := getBits (d.word 0) 19 16
def DmaE.done (d : DmaE) : Nat := getBits (d.word 0) 15 3
def DmaE.src (d : DmaE) : Nat := (d.word 1).toNat
def DmaE.dst (d : DmaE) : Nat := (d.word 2).toNat
def DmaE.aux (d : DmaE) : Nat := (d.word 3).toNat
def DmaE.length (d : DmaE) : Nat := getBits (d.word 4) 30 0
def DmaE.asResult (d : DmaE) : Bool := bitAt (d.word 5) 9
def DmaE.wide (d : DmaE) : Bool := bitAt (d.word 5) 8
def DmaE.outFmt (d : DmaE) : Nat := getBits (d.word 5) 7 6
def DmaE.inFmt (d : DmaE) : Nat := getBits (d.word 5) 5 4
def DmaE.elemLog2 (d : DmaE) : Nat := getBits (d.word 5) 3 0
def DmaE.tag (d : DmaE) : Nat := getBits (d.word 6) 15 0

/-- Table CELL-2: region and offset of an address in the Lintel window. -/
def windowOf (a : Nat) : Option (Nat × Nat) :=
  if 2 ^ 39 ≤ a && a < 2 ^ 40 then some (a / 2 ^ 37 % 4, a % 2 ^ 37) else none

/-- The window address of an offset. -/
def windowAddr (r o : Nat) : Nat := 2 ^ 39 + r * 2 ^ 37 + o

/-! ### Ranges of Lintel memory -/

/-- The copies in the way of an access come back at once (log 45). -/
def Chip.forceLine (c : Chip) (k : Nat) (excl : Bool) : Chip :=
  (c.inWay k excl none).foldl (fun c x => c.answerRecall x.1 k x.2) c

/-- The directory entries of both stacks of a region. -/
def Chip.dirKeys (c : Chip) (r : Region) : List Nat :=
  ((c.memS (regionStack r 0)).dir ++ (c.memS (regionStack r 1)).dir).map (·.1)

/-- The same for every line of [o, o+n) that the directory names. -/
def Chip.forceRange (c : Chip) (r : Region) (o n : Nat) (excl : Bool) : Chip :=
  let base := (Space.lintel r.val).base
  ((c.dirKeys r).filter (fun k => base + o < k + 64 && k < base + o + n)).foldl (fun c k => c.forceLine k excl) c

/-- Is a stack of the region off, or has a pseudo-channel lost lines or its last spare? Then lines are looked at one by one. -/
def Chip.pcsHurt (c : Chip) (r : Region) : Bool :=
  (List.finRange 2).any (fun i =>
    let m := c.memS (regionStack r i)
    !c.stackOn (regionStack r i) || !m.lost.isEmpty || !m.noSpare.isEmpty)

/-- Offset of the first line of [o, o+n) that cannot be read (R188). -/
def Chip.firstBad (c : Chip) (r : Region) (o n : Nat) : Option Nat :=
  if n = 0 then none
  else if c.pcsHurt r then ((linesOf r.val o n).find? c.lineBad).map keyOffset
  else
    let base := (Space.lintel r.val).base
    (c.bad.filter (fun k => base + o < k + 64 && k < base + o + n)).foldl (fun a k =>
      some (match a with | some x => min x (k - base) | none => k - base)) none

/-- Bytes move from key range [a, a+n) to [b, b+n), which do not meet. -/
def memMove (m : List Host.Cell) (a b n : Nat) : List Host.Cell :=
  let moved := m.filter (fun e => a ≤ e.1 && e.1 < a + n)
  let rest := m.filter (fun e => e.1 < b || b + n ≤ e.1)
  moved.foldr (fun e t => Tab.put t (e.1 - a + b) e.2) rest

/-! ### The operations (R198, R199) -/

/-- Does a range lie in the region endpoint and outside the fabric area? -/
def Chip.nearIn (c : Chip) (r : Region) (o n : Nat) : Bool := o + n ≤ endpointBytes && c.outsideArea r o n

/-- Table MEM-8: the bytes of a dequantised weight. -/
def dequantBytes (fmt : Nat) (v : Int) : List Byte :=
  let i := if v = 1 then 0 else if v = 0 then 1 else if v = -1 then 2 else 3
  match fmt with
  | 0 => leBytes 2 ([0x3F80, 0x0000, 0xBF80, 0xC000].getD i 0)
  | 1 => leBytes 2 ([0x3C00, 0x0000, 0xBC00, 0xC000].getD i 0)
  | _ => leBytes 1 ([0x38, 0x00, 0xB8, 0xC0].getD i 0)

/-- R199: weight i of packed bytes. -/
def weightOf (oneBit : Bool) (packed i : Nat) : Int :=
  if oneBit then (if packed / 2 ^ i % 2 = 1 then 1 else -1)
  else match packed / 4 ^ i % 4 with | 0 => 0 | 1 => 1 | 2 => -2 | _ => -1

/-- The output of one packed line. -/
def dequantLine (inFmt outFmt : Nat) (l : List Byte) : List Byte :=
  let n := leNat l
  (List.range (if inFmt = 0 then 256 else 512)).flatMap (fun i => dequantBytes outFmt (weightOf (inFmt ≠ 0) n i))

/-- Output lines of one packed line (R198). -/
def dequantRatio (inFmt outFmt : Nat) : Nat := (if inFmt = 0 then 4 else 8) * (if outFmt = 2 then 1 else 2)

/-- R198: the checks of a near operation, in their order: its plan, or the status of the first that fails. -/
def Chip.nearPlan (c : Chip) (e : DmaE) : Except Nat DmaPlan :=
  let (dr, d) := (windowOf e.dst).getD (0, 0)
  let (sr, s) := (windowOf e.src).getD (dr, 0)
  let (xr, ix) := (windowOf e.aux).getD (dr, 0)
  let r := regionOf dr
  let n := e.length
  let el := 2 ^ e.elemLog2
  let lines := fun m => m % 64 = 0 && 64 ≤ m && m ≤ 2 ^ 30
  match e.op with
  | 6 =>
    if d % 64 ≠ 0 || !lines n then .error 2
    else if !c.nearIn r d n then .error 1
    else .ok .zero
  | 7 =>
    if s % 64 ≠ 0 || d % 64 ≠ 0 || !lines n then .error 2
    else if sr ≠ dr || !c.nearIn r s n || !c.nearIn r d n then .error 1
    else if s < d + n && d < s + n then .error 3
    else .ok .ncopy
  | 5 =>
    if s % 64 ≠ 0 || d % 64 ≠ 0 || ix % 64 ≠ 0 || n = 0 || 65536 < n || el < 64 || 4096 < el then .error 2
    else if sr ≠ dr || xr ≠ dr || !c.nearIn r d (n * el) || !c.nearIn r ix (4 * n) then .error 1
    else .ok .gather
  | _ =>
    if s % 64 ≠ 0 || d % 64 ≠ 0 || n % 64 ≠ 0 || n = 0 then .error 2
    else if sr ≠ dr || !c.nearIn r s n || !c.nearIn r d (n / 64 * (64 * dequantRatio e.inFmt e.outFmt)) then .error 1
    else .ok .dequant

/-- The descriptor of a block by its number. -/
def Chip.dmaOf (c : Chip) (b ix : Nat) : Option DmaE := (c.block b).dma.find? (fun d => d.ix = ix)

/-- Change a descriptor. -/
def Chip.modDma (c : Chip) (b ix : Nat) (f : DmaE → DmaE) : Chip :=
  c.modBlock b (fun s => { s with dma := s.dma.map (fun d => if d.ix = ix then f d else d) })

/-- R197, R200: a near operation has ended with a status: the stack of its first destination line counts or reports it. -/
def Chip.nearEnd (c : Chip) (e : DmaE) (status : Nat) : Chip :=
  let (dr, d) := (windowOf e.dst).getD (0, 0)
  let u := UnitId.memblk (stackOf dr d)
  if status = 0 then c.wrap u MEMBLK.NEAR_COUNT_near_ops else c.error u MEMBLK.ev_near_fault 0x3C [0, 0, 2]

end Sys2Proof.Machine
end

