-- ==== Sys2Proof/Machine/Memory.lean ====
section
/-! DEFINITION. The commands of a memory block: arbitration (R183), service through the directory (R184, R194, R195),
refresh (R185), scrubbing (R189), failing pseudo-channels (R191, R192) and initialisation (R193). -/
namespace Sys2Proof.Machine

/-! ### Choosing a request (R183) -/

/-- Do two requests touch a common line? -/
def sameLines (a b : MemReq) : Bool := a.kind.lines.any (fun k => b.kind.lines.contains k)

/-- Source and class of a fabric request. -/
def MemReq.stream (q : MemReq) : Option (Nat × Nat) :=
  match q.kind with
  | .fabric r p _ => some (r, p.stream)
  | _ => none

/-- Requests in the scheduler queue of a pseudo-channel; it holds 64 (R184). -/
def MemS.waitingAt (m : MemS) (pc : Nat) : List MemReq := m.sched.filter (fun q => q.kind.pcs.contains pc)

/-- May the request pass the directory now: no earlier request of its queue on its lines, requests of one source and class in
order (R157), no other open transaction on its lines, no recalled copy still out, room in the scheduler queues it needs? -/
def Chip.memReady? (c : Chip) (s : Stack) (q : MemReq) : Bool :=
  let m := c.memS s
  let before := m.queue.takeWhile (fun x => x ≠ q)
  before.all (fun x => x.client ≠ q.client || !sameLines x q)
    && m.queue.all (fun x => x = q || !x.begun || !sameLines x q)
    && m.sched.all (fun x => !sameLines x q)
    && (match q.stream with
        | some st => (List.finRange 2).all (fun i =>
            let o := c.memS (regionStack ⟨s.val / 2, by omega⟩ i)
            (o.queue ++ o.sched).all (fun x => x.stream ≠ some st || q.n ≤ x.n))
        | none => true)
    && q.kind.lines.all (fun k => m.recalls.all (fun r => r.2.1 ≠ k))
    && q.kind.pcs.all (fun p => (m.waitingAt p).length < 64)

/-- Is the request older than `age_cap`, in units of 100 ns; an s-cycle has 0.64 ns (R183)? -/
def Chip.aged (c : Chip) (s : Stack) (q : MemReq) : Bool :=
  max 1 (c.fld (.memblk s) MEMBLK.MEM_CTL_age_cap) * 10000 < (c.now - q.at_) * 64

/-- Weights of the fabric, coherent and near queues (MEM_ARB). -/
def Chip.memWeight (c : Chip) (s : Stack) (client : Nat) : Nat :=
  let u := UnitId.memblk s
  max 1 (c.fld u (match client with | 0 => MEMBLK.MEM_ARB_w_fabric | 1 => MEMBLK.MEM_ARB_w_block | _ => MEMBLK.MEM_ARB_w_near))

/-- Is a sparing copy of the stack under way (R183)? -/
def Chip.copyRuns (c : Chip) (s : Stack) : Bool :=
  c.repoint.queue.any (fun q => !q.hard && !q.copied && (match q.elem with | .pc x _ => x = s | _ => false))

/-- The slots that `copy_share` of 256 gives maintenance (R183). -/
def Chip.copyShare (c : Chip) (s : Stack) : Nat := max 1 (c.fld (.memblk s) MEMBLK.MEM_CTL_copy_share)

/-- The arbiter's counters: the turn of the weighted round robin, how many it took, and maintenance's share. -/
structure Arb where
  turn : Nat
  took : Nat
  share : Nat
  deriving DecidableEq, Repr

/-- The oldest of some requests, the first among equals. -/
def oldestReq (l : List MemReq) : Option MemReq :=
  l.foldl (fun a q => some (match a with | some (x : MemReq) => if q.at_ < x.at_ then q else x | none => q)) none

/-- R183: the next request and the arbiter's counters after it. A begun transaction goes on first. Maintenance's share comes
before the other queues while a sparing copy runs (log 265). -/
def Chip.memPick (c : Chip) (s : Stack) : Option (MemReq × Arb) :=
  let m := c.memS s
  let ok := m.queue.filter (c.memReady? s)
  let share := if c.copyRuns s then min 511 (m.share + c.copyShare s) else 0
  let keep := fun (q : MemReq) => (q, (⟨m.turn, m.took, share⟩ : Arb))
  let maint := ok.find? (fun q => q.client = 3)
  match ok.find? (·.begun) with
  | some q => some (keep q)
  | none =>
  if 256 ≤ share && maint.isSome then maint.map (fun q => (q, ⟨m.turn, m.took, share - 256⟩))
  else match oldestReq (ok.filter (fun q => q.client ≠ 3 && c.aged s q)) with
  | some q => some (keep q)
  | none =>
  match ok.find? (fun q => q.client = 0 && q.tc = 0) with
  | some q => some (keep q)
  | none =>
    let first := if m.took < c.memWeight s m.turn then m.turn else (m.turn + 1) % 3
    let order := [first, (first + 1) % 3, (first + 2) % 3]
    match order.findSome? (fun k => ok.find? (fun q => q.client = k)) with
    | some q => some (q, ⟨q.client, if q.client = m.turn && first = m.turn then m.took + 1 else 1, share⟩)
    | none => maint.map keep

/-! ### The pseudo-channels (R184) -/

/-- s-cycles of 0.64 ns in units of a third of 0.01 ns; an MCLK has 250 of them (Table MEM-1). -/
abbrev sCycleUnits : Nat := 192

/-- The bank of a line, and the row of it that serves the line: a spared row's spare, the pseudo-channel's own spare. -/
def Chip.bankOf (c : Chip) (k : Nat) : Nat × Nat :=
  let (pc, rank, bank, row, _) := placeOf (keyOffset k)
  let m := c.memS (keyStack k)
  (rowKey pc rank bank 0, match Tab.find m.rowMap (rowKey pc rank bank row) with | some i => 6144 + i | none => row)

/-- Is the line's row open: hit within 32 MCLK? -/
def Chip.rowHit (c : Chip) (k : Nat) : Bool :=
  let (b, row) := c.bankOf k
  match Tab.find (c.memS (keyStack k)).rows b with
  | some (open_, at_) => open_ = row && (c.now - at_) * sCycleUnits < 32 * 250
  | none => false

/-- Can a line be accessed: its pseudo-channel answers (R191), and no refresh keeps its bank busy (R185)? -/
def Chip.lineServable (c : Chip) (k : Nat) : Bool :=
  let m := c.memS (keyStack k)
  !m.failed.contains (placeOf (keyOffset k)).1
    && (match Tab.find m.busy (c.bankOf k).1 with | some t => t ≤ c.now | none => true)

/-- Which request of a scheduler queue goes next: one that has waited 64 MCLK, then a row hit, then the oldest. -/
def Chip.schedPick (c : Chip) (s : Stack) : Option MemReq :=
  let ok := (c.memS s).sched.filter (fun q => q.kind.lines.all c.lineServable)
  match ok.find? (fun q => 64 * 250 ≤ (c.now - q.passed) * sCycleUnits) with
  | some q => some q
  | none => match ok.find? (fun q => (q.kind.lines.take 1).all c.rowHit) with
    | some q => some q
    | none => ok.head?

/-- The rows that a request's lines open. -/
def Chip.openRows (c : Chip) (s : Stack) (q : MemReq) : Chip :=
  q.kind.lines.foldl (fun c k => c.modMem s (fun m =>
    let (b, row) := c.bankOf k
    { m with rows := Tab.put m.rows b (row, c.now) })) c

/-! ### Serving a request -/

/-- A request is done: PROGRESS advances (R200). -/
def Chip.memDone (c : Chip) (s : Stack) : Chip := c.progress (.memblk s) (!(c.memS s).queue.isEmpty)

/-- Change a logical cell of a block numbered 16 * region + block. -/
def Chip.modCellS (c : Chip) (b l : Nat) (f : CellS → CellS) : Chip :=
  c.modBlock b (fun s => { s with cells := Tab.put s.cells l (f (Tab.get s.cells l {})) })

/-! ### Spares -/

/-- SPARE_STS follows the row map. -/
def Chip.rowStats (c : Chip) (s : Stack) : Chip :=
  let m := c.memS s
  let used := fun (k : Nat) => (m.rowMap.filter (fun e => e.1 / 8192 = k / 8192)).length
  let most := m.rowMap.foldl (fun n e => max n (used e.1)) 0
  (c.setFld (.memblk s) MEMBLK.SPARE_STS_rows_used m.rowMap.length).setFld (.memblk s)
    MEMBLK.SPARE_STS_rows_free_min (32 - most)

/-- R190: a row is served by a free spare row of its bank; the 16 lines keep their contents. -/
def Chip.spareRow (c : Chip) (s : Stack) (pc rank bank row : Nat) : Chip :=
  let rk := rowKey pc rank bank row
  let used := ((c.memS s).rowMap.filter (fun e => e.1 / 8192 = rk / 8192 && e.1 ≠ rk)).map (·.2)
  match (List.range 32).find? (fun i => !used.contains i) with
  | some i => (c.modMem s (fun m => { m with rowMap := Tab.put m.rowMap rk i, tally := Tab.del m.tally rk })).rowStats s
  | none => c

/-- R191: S0, or S1 when S0 is in use, serves a pseudo-channel. -/
def Chip.sparePc (c : Chip) (s : Stack) (pc : Nat) : Chip :=
  let u := UnitId.memblk s
  if c.fld u MEMBLK.MEM_STS_s0_for = 0xFF then c.setFld u MEMBLK.MEM_STS_s0_for pc
  else if c.fld u MEMBLK.MEM_STS_s1_for = 0xFF then c.setFld u MEMBLK.MEM_STS_s1_for pc
  else c

/-- A recorded repair of a stack: row or pseudo-channel (Table FLT-12a). -/
def Chip.memRepair (c : Chip) (s : Stack) (w : Word) : Chip :=
  if getBits w 59 58 ≠ s.val / 2 || getBits w 57 52 ≠ s.val % 2 then c
  else match getBits w 63 60 with
    | 3 => c.spareRow s (getBits w 6 0) (getBits w 8 7) (getBits w 13 9) (getBits w 26 14)
    | 4 => c.sparePc s (getBits w 47 0)
    | _ => c

/-- The repairs in force, first those of the fuses, then the image's, then the live ones (R193, R461). -/
def Chip.repairs (c : Chip) : List Word := c.fuses.repairs ++ c.boot.repair ++ c.repoint.log

/-- The stack of a key of the memory map's Lintel spaces. -/
def keyInStack (s : Stack) (k : Nat) : Bool := k / 2 ^ 40 = s.val / 2 && keyOffset k / 4096 % 2 = s.val % 2

/-- R193: every cached copy of the stack's lines goes, owned data with it. -/
def Chip.dropCopies (c : Chip) (s : Stack) : Chip :=
  (c.memS s).dir.foldl (fun c e => ((match e.2.owner with | some b => [b] | none => []) ++ e.2.sharers).foldl
    (fun c b => if (Tab.find (c.block b).lines e.1).isNone then c
      else c.modBlock b (fun x => { x with lines := Tab.del x.lines e.1 })) c) c

/-- R193: the end of a memory block's initialisation. -/
def Chip.memInit (c : Chip) (s : Stack) : Chip :=
  let u := UnitId.memblk s
  let c := c.dropCopies s
  let c := c.modMem s (fun m => { m with dir := [], recalls := [], tally := [], rowMap := [], lost := [], failed := [] })
  let c := c.dirCount s
  let c := { c with mem := c.mem.filter (fun e => !keyInStack s e.1), bad := c.bad.filter (fun k => !keyInStack s k) }
  let c := (c.setFld u MEMBLK.MEM_STS_s0_for 0xFF).setFld u MEMBLK.MEM_STS_s1_for 0xFF
  let c := (c.repairs.foldl (fun c w => c.memRepair s w) c).rowStats s
  let c := c.setFld u MEMBLK.MEM_STS_ready 1
  let r : Region := ⟨s.val / 2, by omega⟩
  if (List.finRange 2).all (fun i => c.memReady (regionStack r i)) then
    (List.range 4).foldl (fun c k => if c.poolOn r k then c.rebuild r k else c) c
  else c

/-! ### The commands -/

/-- The line's key: region in bits from 31, line number of the endpoint below. -/
def lineName (line : Nat) : Nat := line / 2 ^ 31 % 4 * 2 ^ 40 + line % 2 ^ 31 * 64

/-- WRITEBACK (R195): block 16 * region + index returns a line it owns. -/
def execWriteback (k : Stack) (line : Nat) (block : Fin 64) (s : State) : Host.Outcome State Fault Refusal :=
  s.on (fun c => if keyStack (lineName line) = k then c.takeWriteback block.val (lineName line) else c)

/-- RECALL (R194): the block answers a recall or invalidation that a directory has sent it. -/
def execRecall (r : Region) (b : BlockIx) (line : Nat) (invalidate : Bool) (s : State) :
    Host.Outcome State Fault Refusal :=
  s.on (fun c =>
    let k := lineName line
    let me := 16 * r.val + b.val
    if (c.memS (keyStack k)).recalls.any (fun x => x = (me, k, invalidate)) then c.answerRecall me k invalidate else c)

/-- REFRESH (R185): 4 rows of a bank, spares included, which is busy for 120 ns; postponed for row hits, at most 8 times. -/
def execRefresh (k : Stack) (pc : Fin 64) (rank : Fin 4) (bank : Fin 32) (rowHits : Bool) (s : State) :
    Host.Outcome State Fault Refusal :=
  s.on (fun c => c.modMem k (fun m =>
    let i := rowKey pc.val rank.val bank.val 0
    let p := Tab.get m.postponed i 0
    let hits := rowHits || m.sched.any (fun q => q.kind.lines.any (fun l => (c.bankOf l).1 = i && c.rowHit l))
    if hits && p < 8 then { m with postponed := Tab.put m.postponed i (p + 1) }
    else
      let row := (Tab.get m.refreshRow i 0 + 4) % 6176
      { m with
        postponed := Tab.del m.postponed i
        busy := Tab.put m.busy i (c.now + 188)
        rows := Tab.del m.rows i
        refreshRow := if row = 0 then Tab.del m.refreshRow i else Tab.put m.refreshRow i row }))

/-- HOT_REFRESH_ENTRY (R185): the die temperature exceeds 85 °C. -/
def execHotRefreshEntry (k : Stack) (temp : BitVec 8) (s : State) : Host.Outcome State Fault Refusal :=
  s.on (fun c =>
    let u := UnitId.memblk k
    let c := c.setFld u MEMBLK.MEM_STS_die_temp temp.toNat
    if temp.toNat ≤ 85 || c.flag u MEMBLK.MEM_STS_hot_refresh then c
    else (c.setFld u MEMBLK.MEM_STS_hot_refresh 1).raise u MEMBLK.ev_hot_refresh)

/-- HOT_REFRESH_EXIT (R185): it falls back to 85 °C or below. -/
def execHotRefreshExit (k : Stack) (temp : BitVec 8) (s : State) : Host.Outcome State Fault Refusal :=
  s.on (fun c =>
    let u := UnitId.memblk k
    let c := c.setFld u MEMBLK.MEM_STS_die_temp temp.toNat
    if 85 < temp.toNat then c else c.setFld u MEMBLK.MEM_STS_hot_refresh 0)

/-- PC_FAILURE (R191, R192): a pseudo-channel stops answering: its requests wait and a hard sparing is asked for; with both
spares in use every access to it fails from now on. -/
def execPcFailure (k : Stack) (pc : Fin 64) (s : State) : Host.Outcome State Fault Refusal :=
  s.on (fun c =>
    let u := UnitId.memblk k
    let e := Element.pc k pc
    if (c.memS k).failed.contains pc.val || (c.memS k).noSpare.contains pc.val then c
    else if c.spareFree e then
      (c.modMem k (fun m => { m with failed := m.failed ++ [pc.val] })).repointAsk e true
    else
      ((c.modMem k (fun m => { m with noSpare := m.noSpare ++ [pc.val] })).repointAsk e true).error u
        MEMBLK.ev_spares_exhausted 0x3A [BitVec.ofNat 64 pc.val])

/-- Lines of a pseudo-channel: 768 MiB (Table MEM-1). -/
abbrev pcLines : Nat := 12582912

/-- SPARING_COPY_DONE (R191): the copy of the first proactive sparing of the stack has finished: its 12,582,912 lines have
passed through the maintenance queue. -/
def execSparingCopyDone (k : Stack) (s : State) : Host.Outcome State Fault Refusal :=
  s.on (fun c =>
    let mine := fun (q : RepointReq) => !q.hard && !q.copied && (match q.elem with | .pc x _ => x = k | _ => false)
    match c.repoint.queue.find? mine with
    | some q =>
      if (c.memS k).copied < pcLines then c
      else
        let done := fun (y : RepointReq) => if y = q then { y with copied := true } else y
        ((c.modMem k (fun m => { m with copied := 0 })).modRepoint (fun x => { x with queue := x.queue.map done })).setFld
          (.memblk k) MEMBLK.MEM_STS_copy_pct 100
    | none => c)

/-- MEMBLK_INIT_DONE (R193): the region's core power must be up and the block not ready yet. -/
def execMemblkInitDone (k : Stack) (s : State) : Host.Outcome State Fault Refusal :=
  s.on (fun c => if c.memReady k || !c.powered (.memblk k) || c.partStep ⟨k.val / 2, by omega⟩ = 3 then c else c.memInit k)

end Sys2Proof.Machine
end

