-- ==== Sys2Proof/Machine/Regs.lean ====
section
/-! DEFINITION. What every register page has in common: the header's live fields (Table REG-4), EVENT, EVENT_MASK,
EVENT_FORCE and capture release (R55 to R58), policy windows (R61), and reads that clear (R11, R13). -/
namespace Sys2Proof.Machine

/-- UNIT_ID (Table REG-4). -/
def unitIdWord (u : UnitId) : Word :=
  setBits (setBits (setBits (setBits (setBits 0 63 56 (Config.unitRev (unitType u).code).toNat) 55 46 (lastPage (unitType u)))
    39 37 (unitScope u)) 36 30 (unitType u).code) 29 22 (unitInstance u)

/-- UNIT_CAPS. -/
def unitCapsWord (u : UnitId) : Word :=
  setBits (setBits 0 63 63 (bit (hasProgress (unitType u)))) 62 62 (bit (hasPolicy (unitType u)))

/-- Does any part of the unit run on a spare (UNIT_STS `repointed`)? A wire is its receiving end's. -/
def Chip.onSpare (c : Chip) : UnitId → Bool
  | .port p => c.fld (.port p) PORT.PORT_STS_tx_spare_for ≠ 15 || c.fld (.port p) PORT.PORT_STS_rx_spare_for ≠ 15
  | .cblk r b => (List.range 8).any (fun l => c.physCell r b l ≠ l)
  | .bufbank r i => c.fld (.bufbank r i) BUFBANK.BANK_STS_spare_for ≠ 31
  | .memblk s => !(c.memS s).rowMap.isEmpty || c.fld (.memblk s) MEMBLK.MEM_STS_s0_for ≠ 0xFF
  | .d2d r i => !(Tab.get c.repoint.wires (4 * i.val + r.val) []).isEmpty
  | _ => false

/-- UNIT_STS: `held` and `job_id` follow the holds (R60), `repointed` the spares in use. -/
def Chip.unitStsWord (c : Chip) (u : UnitId) : Word :=
  setBits (setBits (setBits (c.reg u 0x18) 63 63 (bit (c.held u))) 62 62 (bit (c.onSpare u))) 47 32 (c.holder u)

/-- The word a header position shows; the others show what the register file holds. -/
def Chip.headerWord (c : Chip) (u : UnitId) (pos : Nat) : Word :=
  if pos = 0 then unitIdWord u
  else if pos = 0x08 then unitCapsWord u
  else if pos = 0x18 then c.unitStsWord u
  else if pos = 0x30 then 0
  else c.reg u pos

/-- The fields of a policy window's two registers (Tables LINK-10, COB-3, PWR-3). -/
def policyFields : UnitType → List (Nat × Nat)
  | .port => [(39, 32), (31, 24), (23, 16), (15, 8), (7, 0)]
  | .cobbler => [(53, 48), (37, 32), (21, 16), (5, 0)]
  | .power => [(63, 56), (55, 48), (47, 40), (39, 32), (31, 24), (23, 16), (15, 8), (7, 0)]
  | _ => []

/-- R61: a write to POLICY_FLOOR or POLICY_CEIL. -/
def Chip.opPolicy (c : Chip) (u : UnitId) (ceil : Bool) (v : Word) : Chip × Bool :=
  let (c', no) := c.plainWrite u (if ceil then 0x98 else 0x90) v
  let lo := c'.reg u 0x90
  let hi := c'.reg u 0x98
  if (policyFields (unitType u)).any (fun f => getBits hi f.1 f.2 < getBits lo f.1 f.2) then (c.raise u evPolicyReject, false)
  else (c', no)

/-- R57: EVENT_FORCE. -/
def Chip.opForce (c : Chip) (u : UnitId) (v : Word) : Chip :=
  c.raiseAll u (v &&& BitVec.ofNat 64 (eventBits (unitType u)))

/-- A write to a header position; `none` where the position is another. -/
def Chip.headerWrite (c : Chip) (u : UnitId) (pos : Nat) (v : Word) : Option (Chip × Bool) :=
  if pos = 0x20 || pos = 0x28 then (let (c, no) := c.plainWrite u pos v; some (c.settle, no))
  else if pos = 0x30 then some (c.opForce u v, false)
  else if pos = 0x40 then some (if bitAt v 63 then c.releaseCapture u else c, false)
  else if (pos = 0x90 || pos = 0x98) && hasPolicy (unitType u) then some (c.opPolicy u (pos = 0x98) v)
  else none

/-- A read clears the register's RC fields (R11). -/
def Chip.readClear (c : Chip) (u : UnitId) (pos : Nat) : Chip :=
  let m := accMask (unitType u) pos .rc
  if m = 0 then c else c.setReg u pos (c.reg u pos &&& ~~~ m)

end Sys2Proof.Machine
end

