-- ==== Sys2Proof/Machine/Block.lean ====
section
/-! DEFINITION. Compute blocks: the block address map (R204), the work queue and invocations (R209 to R216), cell faults
and repointing copies (R202, R203, R221). -/
namespace Sys2Proof.Machine

end Sys2Proof.Machine

namespace Sys2Proof
open Sys2Proof.Machine
/-- INVOKE and RESULT fields (Table CELL-4). -/
def Packet.program (p : Packet) : Nat := getBits p.w1 47 42
def Packet.blockNo (p : Packet) : Nat := getBits p.w1 41 37
def Packet.toHost (p : Packet) : Bool := bitAt p.w1 36
def Packet.replyTc (p : Packet) : Nat := getBits p.w1 35 33
def Packet.replyEpid (p : Packet) : Nat := getBits p.w3 31 20
/-- RESULT: `status`, `last`, `host`, `index`. -/
def Packet.resStatus (p : Packet) : Nat := getBits p.w1 36 33
def Packet.isLast (p : Packet) : Bool := bitAt p.w1 32
def Packet.isHost (p : Packet) : Bool := bitAt p.w1 31
end Sys2Proof

namespace Sys2Proof.Machine

/-! ### Access -/

/-- The number of a block: 16 * region + index. -/
def blkNo (r : Region) (b : BlockIx) : Nat := 16 * r.val + b.val
def Chip.blk (c : Chip) (r : Region) (b : BlockIx) : BlockS := c.block (blkNo r b)
def Chip.modBlk (c : Chip) (r : Region) (b : BlockIx) (f : BlockS → BlockS) : Chip := c.modBlock (blkNo r b) f
def Chip.cell (c : Chip) (r : Region) (b : BlockIx) (l : Nat) : CellS := Tab.get (c.blk r b).cells l {}
def Chip.modCell (c : Chip) (r : Region) (b : BlockIx) (l : Nat) (f : CellS → CellS) : Chip := c.modCellS (blkNo r b) l f
def Chip.cellState (c : Chip) (r : Region) (b : BlockIx) (l : Nat) : Nat :=
  c.fld (.cblk r b) (CBLK.CELL_STS_state.plus (16 * l))
def Chip.setCellState (c : Chip) (r : Region) (b : BlockIx) (l st : Nat) : Chip :=
  c.setFld (.cblk r b) (CBLK.CELL_STS_state.plus (16 * l)) st
def Chip.cellPc (c : Chip) (r : Region) (b : BlockIx) (l : Nat) : Nat :=
  c.fld (.cblk r b) (CBLK.CELL_STS_pc.plus (16 * l))
def Chip.setCellPc (c : Chip) (r : Region) (b : BlockIx) (l v : Nat) : Chip :=
  c.setFld (.cblk r b) (CBLK.CELL_STS_pc.plus (16 * l)) v

/-- Is a cell part of an invocation that goes on? -/
def cellBusy (st : Nat) : Bool := 1 ≤ st && st ≤ 4

/-- BLK_STS and PROGRESS `pending` follow the block (R224, R227). -/
def Chip.blkShow (c : Chip) (r : Region) (b : BlockIx) (n : Nat := 0) : Chip :=
  let u := UnitId.cblk r b
  let busy := (List.range 8).foldl (fun m l => if cellBusy (c.cellState r b l) then m + 2 ^ l else m) 0
  let c := ((c.setFld u CBLK.BLK_STS_cells_busy busy).setFld u CBLK.BLK_STS_wq_used (c.blk r b).wq.length).setFld u
    CBLK.BLK_STS_dma_queued (c.blk r b).dma.length
  c.progress u (busy ≠ 0 || !(c.blk r b).wq.isEmpty) n

/-- Does a mask name a logical cell? -/
def inMask (m l : Nat) : Bool := m / 2 ^ l % 2 = 1

/-- Cells of a mask. -/
def maskCells (m : Nat) : List Nat := (List.range 8).filter (inMask m)

/-! ### Program table (R228) -/

def Chip.progValid (c : Chip) (r : Region) (b : BlockIx) (p : Nat) : Bool :=
  c.flag (.cblk r b) (CBLK.PROG_A_valid.plus (16 * p)) && c.fld (.cblk r b) (CBLK.PROG_A_cell_mask.plus (16 * p)) ≠ 0
def Chip.progMax (c : Chip) (r : Region) (b : BlockIx) (p : Nat) : Nat :=
  c.fld (.cblk r b) (CBLK.PROG_B_payload_max.plus (16 * p))

/-! ### The block address map (Table CELL-2) -/

/-- Who accesses: tack unit, load or store slot, DMA engine. -/
inductive User where
  | tack (l : Nat) | slot (l : Nat) | dma
  deriving DecidableEq, Repr

/-- What an address names: a local memory and an offset, or Lintel memory of a region. -/
inductive Place where
  | loc (s : Space) (o : Nat)
  | far (r : Region) (o : Nat)
  deriving DecidableEq, Repr

/-- First block-memory byte that programs do not see (R205). -/
def Chip.visibleEnd (c : Chip) (r : Region) (b : BlockIx) : Nat :=
  let n := c.fld (.cblk r b) CBLK.BLK_CTL_lcache
  0x700000 - (if n = 0 then 0 else 131072 * 2 ^ n)

/-- R204: may the block reach region q's Lintel memory: its FABMEM belongs to the same job, or to none as the block? -/
def Chip.lintelOpen (c : Chip) (r : Region) (b : BlockIx) (q : Region) : Bool :=
  c.held (.cblk r b) = c.held (.fabmem q) && c.holder (.cblk r b) = c.holder (.fabmem q)

/-- Table CELL-2: where n bytes at an address lie for their user; none outside what it may reach. -/
def Chip.mapAddr (c : Chip) (r : Region) (b : BlockIx) (user : User) (a n : Nat) : Option Place :=
  let own := fun l => c.physCell r b l
  if a + n ≤ 0x10000 then
    match user with | .tack l => some (.loc (.tdm r.val b.val (own l)) a) | _ => none
  else if 0x1000000 ≤ a && a + n ≤ 0x1180000 then
    match user with
    | .tack l | .slot l => some (.loc (.spad r.val b.val (own l)) (a - 0x1000000))
    | .dma => none
  else if 0x2000000 ≤ a && a + n ≤ 0x2000000 + c.visibleEnd r b then some (.loc (.bmem r.val b.val) (a - 0x2000000))
  else if 0x10000000 ≤ a && a < 0x11000000 && a % 0x200000 + n ≤ 0x180000 then
    match user with
    | .dma => some (.loc (.spad r.val b.val (own (a / 0x200000 % 8))) (a % 0x200000))
    | _ => none
  else match windowOf a with
    | some (q, o) =>
      if o + n ≤ endpointBytes && c.outsideArea (regionOf q) o n && c.lintelOpen r b (regionOf q) then
        some (.far (regionOf q) o)
      else none
    | none => none

/-! ### RESULTs -/

/-- A RESULT of an invocation (Table CELL-4, R214). -/
def Chip.resultPacket (c : Chip) (r : Region) (inv : Packet) (block status : Nat) (last : Bool) (value : Word)
    (index : Nat) (payload : List Byte) : Packet :=
  mkPacket 5 inv.replyTc false (if inv.toHost then c.epid r else inv.replyEpid) (c.epid r) inv.job
    (setBits (setBits (setBits (setBits (setBits (setBits 0 47 42 inv.program) 41 37 block) 36 33 status) 32 32 (bit last))
      31 31 (bit inv.toHost)) 15 0 inv.memTag) value index payload

/-! ### Arrival of an INVOKE -/

/-- ERR_CAPTURE4 of R227. -/
def capSource (inv : Packet) : Word := setBits (setBits 0 27 16 inv.src) 15 0 inv.memTag

/-- What the region does with an INVOKE. -/
inductive InvokeWay where
  | fails (status : Nat)
  | waits (pool : Option (Nat × BlockIx))
  | goes (b : BlockIx) (pool : Nat)
  deriving DecidableEq, Repr

/-- Has Plumb's policy stopped a job here (R429)? -/
def Chip.jobHalted (c : Chip) (j : Nat) : Bool := c.bridge.jobs.any (fun x => x.id = j && x.halted)

/-- `wq_limit` (R213). -/
def Chip.wqLimit (c : Chip) (r : Region) (b : BlockIx) : Nat :=
  max 1 (min 64 (c.fld (.cblk r b) CBLK.BLK_CTL_wq_limit))

def Chip.blkReady (c : Chip) (r : Region) (b : BlockIx) : Bool := c.flag (.cblk r b) readyFld

/-- The entry and buffer that an INVOKE which passed the checks needs of a block (R213). -/
def Chip.invokeRoom (c : Chip) (r : Region) (b : BlockIx) (p : Packet) : InvokeWay :=
  if !c.blkReady r b || c.wqLimit r b ≤ (c.blk r b).wq.length then
    (if c.poolPick r p b.val = .refused then .fails 4 else .waits none)
  else match c.poolPick r p b.val with
    | .refused => .fails 4
    | .waits k => .waits (some (k, b))
    | .grants k => if (c.pool r k).cache.isEmpty then .waits (some (k, b)) else .goes b k

/-- R211, R212: the checks of Table CELL-5 and the choice of a block. -/
def Chip.invokeWay (c : Chip) (r : Region) (p : Packet) : InvokeWay :=
  if h : p.blockNo < 16 then
    let b : BlockIx := ⟨p.blockNo, h⟩
    if !c.present (.cblk r b) then .fails 1
    else if p.job ≠ c.holder (.cblk r b) then .fails 2
    else if c.jobHalted p.job then .fails 9
    else if !c.progValid r b p.program then .fails 3
    else if c.progMax r b p.program < p.len then .fails 4
    else if !c.flag (.cblk r b) CBLK.BLK_CTL_enable then .waits none
    else c.invokeRoom r b p
  else if p.blockNo ≠ 31 then .fails 1
  else
    let held := (List.finRange 16).filter (fun b => c.present (.cblk r b) && p.job = c.holder (.cblk r b))
    let valid := held.filter (fun b => c.progValid r b p.program)
    let fit := valid.filter (fun b => p.len ≤ c.progMax r b p.program)
    if held.isEmpty then .fails 2
    else if c.jobHalted p.job then .fails 9
    else if valid.isEmpty then .fails 3
    else if fit.isEmpty then .fails 4
    else
      match (fit.filter (c.blkReady r)).foldl (fun a b => some (match a with
          | some (x : BlockIx) => if (c.blk r b).wq.length < (c.blk r x).wq.length then b else x
          | none => b)) none with
      | some b => c.invokeRoom r b p
      | none => .waits none

/-- R211: a failed INVOKE is answered, counted and reported. -/
def Chip.invokeFail (c : Chip) (r : Region) (p : Packet) (status : Nat) : Chip :=
  let b : BlockIx := if h : p.blockNo < 16 then (if c.present (.cblk r ⟨p.blockNo, h⟩) then ⟨p.blockNo, h⟩ else 0) else 0
  let u := UnitId.cblk r b
  let cap2 : Word := if status = 1 then setBits (setBits 0 3 0 0xF) 36 32 p.blockNo else setBits 0 3 0 0xF
  let c := (c.bump u CBLK.WQ_COUNT_rejected).error u CBLK.ev_wq_reject (if status = 1 then 0x50 else 0x4C)
    [cap2, 0, capSource p]
  let value := BitVec.ofNat 64 (c.freeVal 64)
  c.freeNext.send r (c.resultPacket r p p.blockNo status true value 0 [])

/-- R213: an INVOKE takes an entry and a buffer that receives its payload. -/
def Chip.invokeAccept (c : Chip) (r : Region) (p : Packet) (b : BlockIx) (k : Nat) : Chip :=
  match c.poolTake r k (some p) b.val with
  | (c, none) => c
  | (c, some i) =>
    let o := c.poolBase r k + i * poolSize k
    let c := (c.forceRange r o p.len true).writeLintel r.val o p.payload
    let u := UnitId.cblk r b
    let mask := c.fld u (CBLK.PROG_A_cell_mask.plus (16 * p.program))
    let entry := c.fld u (CBLK.PROG_A_entry.plus (16 * p.program))
    let c := c.modBlk r b (fun s => { s with
      nextWq := s.nextWq + 1
      wq := s.wq ++ [{ n := s.nextWq, state := .queued, pkt := p, mask := mask, entry := entry, pool := k, buffer := i,
                       offset := o }] })
    c.blkShow r b

/-! ### The course of an invocation -/

/-- Change a work queue entry. -/
def Chip.modWq (c : Chip) (r : Region) (b : BlockIx) (n : Nat) (f : WqE → WqE) : Chip :=
  c.modBlk r b (fun s => { s with wq := s.wq.map (fun e => if e.n = n then f e else e) })

def Chip.wqOf (c : Chip) (r : Region) (b : BlockIx) (n : Nat) : Option WqE := (c.blk r b).wq.find? (fun e => e.n = n)

/-- The entry that a logical cell runs. -/
def Chip.entryOf (c : Chip) (r : Region) (b : BlockIx) (l : Nat) : Option WqE :=
  (c.blk r b).wq.find? (fun e => (e.state = .running || e.state = .committed) && inMask e.mask l)

/-- Table CELL-6: the tack registers at the start. -/
def Chip.startCore (c : Chip) (r : Region) (b : BlockIx) (e : WqE) (l : Nat) : Core :=
  let lost := inMask (c.fld (.cblk r b) CBLK.BLK_STS_state_lost) l
  { tack := [0, e.pkt.w2, BitVec.ofNat 64 (windowAddr r.val e.offset), BitVec.ofNat 64 e.pkt.len, BitVec.ofNat 64 l,
      setBits (setBits 0 27 16 e.pkt.src) 15 0 e.pkt.memTag, BitVec.ofNat 64 (bit lost + 2 * bit e.replay)]
      ++ List.replicate 25 0 }

/-- R213: all cells of the mask begin at the entry bundle. -/
def Chip.startEntry (c : Chip) (r : Region) (b : BlockIx) (e : WqE) : Chip :=
  let c := (maskCells e.mask).foldl (fun c l =>
    let core := c.startCore r b e l
    let fresh := fun (x : CellS) => ({
      trace := x.trace
      core := core
      startedAt := c.now
      due := c.courseCount + 1
      missed := 1
      entry := e.n } : CellS)
    ((c.modCell r b l fresh).setCellState r b l 1).setCellPc r b l e.entry) c
  (c.modWq r b e.n (fun e => { e with state := .running })).blkShow r b

/-- Is a proactive repointing of a cell wanted (Table CELL-1)? -/
def Chip.cellWanted (c : Chip) (r : Region) (b : BlockIx) (l : Nat) : Bool :=
  c.repoint.queue.any (fun q => match q.elem with | .cell r' b' l' => r' = r && b' = b && l'.val = l | _ => false)

/-- May the head of the queue start: all its cells idle, none awaiting a repointing (R213, Table CELL-1)? -/
def Chip.headReady (c : Chip) (r : Region) (b : BlockIx) : Option WqE :=
  match (c.blk r b).wq.find? (fun e => e.state = .queued) with
  | some e =>
    if e.awaits.isNone && (maskCells e.mask).all (fun l => c.cellState r b l = 0 && (c.entryOf r b l).isNone
        && !c.cellWanted r b l) then some e
    else none
  | none => none

/-- The end of an entry once no cell of its mask has a bundle under way: the completion RESULT is sent (R214). -/
def Chip.settleEntry (c : Chip) (r : Region) (b : BlockIx) (n : Nat) : Chip :=
  match c.wqOf r b n with
  | none => c
  | some e =>
    let mine := (maskCells e.mask).filter (fun l => (c.cell r b l).entry = n && c.cellState r b l = 5)
    if e.state ≠ .done || e.answer.isSome || mine.any (fun l => (c.cell r b l).flight.isSome) then c
    else
      let c := mine.foldl (fun c l => c.setCellState r b l 0) c
      let p := c.resultPacket r e.pkt b.val e.status true e.value e.sent []
      let c := c.send r p
      (c.modWq r b n (fun e => { e with answer := some p })).blkShow r b

/-- A cell's bundle under way is dropped, with an atomic that its home has not applied (R239). -/
def Chip.dropFlight (c : Chip) (r : Region) (b : BlockIx) (l : Nat) : Chip :=
  let mine := fun (q : MemReq) => match q.kind with | .atomic n i _ _ _ _ _ _ => n = blkNo r b && i = l | _ => false
  let c := if (c.cell r b l).amoSent then (List.finRange 8).foldl (fun c s => c.modMem s (fun m => { m with
      queue := m.queue.filter (fun q => !mine q)
      sched := m.sched.filter (fun q => !mine q) })) c
    else c
  c.modCell r b l (fun x => { x with flight := none, amoSent := false, amoDone := none })

/-- Table CELL-7, DONE: the invocation ends with a status; the cells of the mask stop, the cell `stop` at once. The value of
a completion that is not OK is not stated: a free value (log 5). -/
def Chip.endEntry (c : Chip) (r : Region) (b : BlockIx) (n status : Nat) (stop : Option Nat) : Chip :=
  match c.wqOf r b n with
  | none => c
  | some e =>
    if e.state = .done then c
    else
      let u := UnitId.cblk r b
      let started := e.state ≠ .queued
      let low := ((maskCells e.mask).head?).getD 0
      let value := if status = 0 then (c.cell r b low).core.tack.getD 1 0 else BitVec.ofNat 64 (c.freeVal 64)
      let c := if status = 0 then c else c.freeNext
      let c := if started then (maskCells e.mask).foldl (fun c l =>
          (if stop = some l then c.dropFlight r b l else c).setCellState r b l 5) c
        else c
      let c := if status = 0 then
          ((c.setFld u CBLK.BLK_STS_state_lost (c.fld u CBLK.BLK_STS_state_lost &&& (255 - e.mask % 256))).wrap u
            CBLK.WQ_COUNT_invocations).blkShow r b 1
        else c
      (c.modWq r b n (fun e => { e with state := .done, status := status, value := value })).settleEntry r b n

/-- R214: the entry is complete when every cell of the mask has executed END. -/
def Chip.entryEnds (c : Chip) (r : Region) (b : BlockIx) (e : WqE) : Bool :=
  (maskCells e.mask).all (fun l => (c.cell r b l).ended)

/-- Every queued and running invocation ends (BLK_CTL `abort`, a released job). -/
def Chip.abortBlock (c : Chip) (r : Region) (b : BlockIx) (status : Nat) : Chip :=
  ((c.blk r b).wq.map (·.n)).foldl (fun c n => c.endEntry r b n status none) c

/-- Table CELL-7: a replay puts the entry back at the head of the queue. -/
def Chip.replayWq (c : Chip) (r : Region) (b : BlockIx) (e : WqE) (awaits : Option Nat) : Chip :=
  let c := (maskCells e.mask).foldl (fun c l =>
    ((c.dropFlight r b l).modCell r b l (fun x => { x with ended := false })).setCellState r b l 0) c
  let c := c.modWq r b e.n (fun e => { e with state := .queued, replay := true, awaits := awaits, sent := 0 })
  (c.bump (.cblk r b) CBLK.WQ_COUNT_replays).blkShow r b

/-- ERR_CAPTURE2 of R227. -/
def Chip.capCell (c : Chip) (r : Region) (b : BlockIx) (l cause : Nat) : Word :=
  setBits (setBits (setBits (setBits 0 3 0 l) 7 4 (c.physCell r b l)) 15 8 cause) 31 16 (c.cellPc r b l)

/-- ERR_CAPTURE4 of the invocation a cell runs. -/
def Chip.capInv (c : Chip) (r : Region) (b : BlockIx) (l : Nat) : Word :=
  match c.entryOf r b l with | some e => capSource e.pkt | none => 0

/-- R203: a block that needs a second spare has none. -/
def Chip.blockSpent (c : Chip) (r : Region) (b : BlockIx) (l : Nat) : Chip :=
  let u := UnitId.cblk r b
  ((c.raise u CBLK.ev_ready_lost).error u CBLK.ev_spare_exhausted 0x4D [c.capCell r b l 0, 0, c.capInv r b l]).setFld u
    readyFld 0

/-- R215, R221: a cell fault; a second one of the physical cell within 256 courses asks for the spare. -/
def Chip.cellFault (c : Chip) (r : Region) (b : BlockIx) (l : CellIx) : Chip :=
  if !cellBusy (c.cellState r b l.val) then c
  else match c.entryOf r b l.val with
    | none => c
    | some e =>
      let u := UnitId.cblk r b
      let phys := c.physCell r b l.val
      let second : Bool := match Tab.find (c.blk r b).faults phys with
        | some at_ => decide (c.since at_ ≤ 256)
        | none => false
      let c := (c.raise u evErrUncorrected).error u CBLK.ev_cell_fault 0x48 [c.capCell r b l.val 0, 0, c.capInv r b l.val]
      let c := c.modBlk r b (fun s => { s with faults := Tab.put s.faults phys c.courseCount })
      let spare := c.spareFree (.cell r b l)
      let c := if second then (if spare then c else c.blockSpent r b l.val).repointAsk (.cell r b l) true else c
      if e.state = .running && c.flag u CBLK.BLK_CTL_replay_en then
        c.replayWq r b e (if second && spare then some l.val else none)
      else c.endEntry r b e.n 7 (some l.val)

/-! ### Job take and release -/

/-- A job takes or releases the block: flags clear, the line cache empties, audit counts start afresh (R207, R258, R296). -/
def Chip.blkTake (c : Chip) (r : Region) (b : BlockIx) : Chip :=
  (c.flushLines (blkNo r b)).modBlk r b (fun s => { s with flags := [], predicted := 0 })

/-! ### The commands -/

/-- A command of a block: it is there, powered, and its region is not in a partition sequence. -/
def State.onBlock (r : Region) (b : BlockIx) (s : State) (f : Chip → Chip) : Host.Outcome State Fault Refusal :=
  s.onLive r (fun c => if c.present (.cblk r b) && c.powered (.cblk r b) then f c else c)

/-- INVOKE_RECEIVED (R211): the first INVOKE at the region is answered with a failure status, dispatched, or made to wait. -/
def execInvokeReceived (r : Region) (s : State) : Host.Outcome State Fault Refusal :=
  s.onLive r (fun c => match c.fromInbox r 4 (fun _ => true) with
    | some (p, c') =>
      match c.invokeWay r p with
      | .fails st => c'.invokeFail r p st
      | .goes b k => c'.invokeAccept r p b k
      | .waits (some (k, b)) => c.poolWait r k (some p) b.val
      | .waits none => c
    | none => c)

/-- The INVOKEs that stand first in their queues toward region r's endpoint, by the channel they ask for, ascending, the order in
which their requests reach the Cobbler (R361). -/
def Chip.invokesWaiting (c : Chip) (r : Region) : List Packet :=
  let heads := (List.finRange 4).flatMap (fun q =>
    let ents := (c.xbar q).queue.filter (fun e => e.out = 64 + r.val)
    (ents.filter (fun e => ents.find? (fun x => x.inp = e.inp && x.tc = e.tc) = some e)).filterMap (fun e =>
      (c.entPacket q e).map (fun p => ((20 * q.val + e.inp) % 4, p))))
  ((List.range 4).flatMap (fun k => heads.filter (fun h => h.1 = k && h.2.kind = 4))).map (·.2)

/-- INVOKE_DISPATCH (R212, R213): an INVOKE at the endpoint whose block, entry and buffer are there takes them; the others ask for
their buffers. -/
def execInvokeDispatch (r : Region) (s : State) : Host.Outcome State Fault Refusal :=
  s.onLive r (fun c =>
    let ok := fun p => match c.invokeWay r p with | .goes _ _ => true | _ => false
    match c.fromInbox r 4 ok with
    | some (p, c') =>
      match c.invokeWay r p with
      | .goes b k => c'.invokeAccept r p b k
      | _ => c
    | none => (c.invokesWaiting r).foldl (fun c p => match c.invokeWay r p with
      | .waits (some (k, b)) => c.poolWait r k (some p) b.val
      | _ => c) c)

/-- INVOCATION_START (R213). -/
def execInvocationStart (r : Region) (b : BlockIx) (s : State) : Host.Outcome State Fault Refusal :=
  s.onBlock r b (fun c => match c.headReady r b with
    | some e => c.startEntry r b e
    | none => c)

/-- WQ_ENTRY_FREE (R214): the completion RESULT has been stored in the packet buffer; the payload buffer is freed with the entry
(R359; DEDUCED, log 273). -/
def execWqEntryFree (r : Region) (b : BlockIx) (s : State) : Host.Outcome State Fault Refusal :=
  s.onBlock r b (fun c =>
    let waits := Tab.get (c.xbar r).arrivals 16 []
    let gone := fun (e : WqE) => match e.answer with | some p => waits.all (fun a => a.pkt ≠ p) | none => false
    match (c.blk r b).wq.find? gone with
    | some e => ((c.modBlk r b (fun s => { s with wq := s.wq.filter (fun x => x.n ≠ e.n) })).poolFree r b.val e.offset).blkShow r b
    | none => c)

/-- CELL_FAULT: parity of a running cell fails (Table CELL-12). -/
def execCellFault (r : Region) (b : BlockIx) (l : CellIx) (s : State) : Host.Outcome State Fault Refusal :=
  s.onBlock r b (fun c => c.cellFault r b l)

/-- CELL_REPOINT_COPY (Table CELL-1, proactive): the wanted cell is idle and its copy begins. -/
def execCellRepointCopy (r : Region) (b : BlockIx) (l : CellIx) (s : State) : Host.Outcome State Fault Refusal :=
  s.onBlock r b (fun c =>
    let wanted := c.repoint.queue.any (fun q => q.elem = .cell r b l && !q.hard && !q.copied)
    let st := c.cellState r b l.val
    if wanted && (st = 0 || st = 6) && (c.blk r b).copying.isNone then
      c.modBlk r b (fun s => { s with copying := some l.val })
    else c)

/-- CELL_COPY_DONE (Table CELL-1): the spare holds the cell's three memories. -/
def execCellCopyDone (r : Region) (b : BlockIx) (l : CellIx) (s : State) : Host.Outcome State Fault Refusal :=
  s.onBlock r b (fun c =>
    if (c.blk r b).copying ≠ some l.val then c
    else
      let c := c.modBlk r b (fun s => { s with copying := none })
      match c.spareCell r b with
      | none => c
      | some sp =>
        let p := c.physCell r b l.val
        let copy := fun (m : List Host.Cell) (x y : Space) => memMove m x.base y.base (2 ^ 40)
        let m := copy (copy (copy c.mem (.imem r.val b.val p) (.imem r.val b.val sp)) (.tdm r.val b.val p)
          (.tdm r.val b.val sp)) (.spad r.val b.val p) (.spad r.val b.val sp)
        let mark := fun (q : RepointReq) => if q.elem = .cell r b l && !q.hard then { q with copied := true } else q
        { c with mem := m }.modRepoint (fun x => { x with queue := x.queue.map mark }))

/-- BLK_ABORT (R227). -/
def execBlkAbort (r : Region) (b : BlockIx) (s : State) : Host.Outcome State Fault Refusal :=
  s.onReg (.cblk r b) (fun c => (c.abortBlock r b 9, false)) 0x100

/-- R207: a write to BLK_CTL: a new `lcache` takes effect after the line cache has been emptied; `abort` acts. -/
def Chip.opBlkCtl (c : Chip) (r : Region) (b : BlockIx) (v : Word) : Chip × Bool :=
  let u := UnitId.cblk r b
  let (c', no) := c.plainWrite u 0x100 v
  let c := if c'.fld u CBLK.BLK_CTL_lcache ≠ c.fld u CBLK.BLK_CTL_lcache then
      ((c.flushLines (blkNo r b)).plainWrite u 0x100 v).1
    else c'
  (if bitAt v 8 then c.abortBlock r b 9 else c, no)

/-- LCACHE_WRITE. -/
def execLcacheWrite (r : Region) (b : BlockIx) (value : Word) (s : State) : Host.Outcome State Fault Refusal :=
  s.onReg (.cblk r b) (fun c => c.opBlkCtl r b value) 0x100

end Sys2Proof.Machine
end

