-- ==== Sys2Proof/Machine/Fmt.lean ====
section
/-! DEFINITION. Number formats: layouts and special values (R261, R262), rounding (R267, R268), range limits (R270), the
operations of R269, fast sums (R271, R272), the long accumulator (R273 to R275), scales (R279). -/
namespace Sys2Proof.Machine

/-- The floating-point formats of Table FMT-1. -/
inductive Fp where
  | fp32 | bf16 | fp16 | e4m3 | e5m2
  deriving DecidableEq, Repr

/-- Exponent bits, fraction bits and bias (Table FMT-1). -/
def Fp.eb : Fp → Nat | .fp32 => 8 | .bf16 => 8 | .fp16 => 5 | .e4m3 => 4 | .e5m2 => 5
def Fp.mb : Fp → Nat | .fp32 => 23 | .bf16 => 7 | .fp16 => 10 | .e4m3 => 3 | .e5m2 => 2
def Fp.bias : Fp → Nat | .fp32 => 127 | .bf16 => 127 | .fp16 => 15 | .e4m3 => 7 | .e5m2 => 15
/-- Bytes of a value. -/
def Fp.bytes : Fp → Nat | .fp32 => 4 | .bf16 => 2 | .fp16 => 2 | _ => 1
/-- Largest finite encoding without its sign. -/
def Fp.maxBits : Fp → Nat | .fp32 => 0x7F7FFFFF | .bf16 => 0x7F7F | .fp16 => 0x7BFF | .e4m3 => 0x7E | .e5m2 => 0x7B
/-- Canonical NaN (Table FMT-2). -/
def Fp.nanBits : Fp → Nat | .fp32 => 0x7FC00000 | .bf16 => 0x7FC0 | .fp16 => 0x7E00 | .e4m3 => 0x7F | .e5m2 => 0x7E
/-- Encoding of +∞; E4M3 has none and takes 448 (Table FMT-4). -/
def Fp.infBits : Fp → Nat | .fp32 => 0x7F800000 | .bf16 => 0x7F80 | .fp16 => 0x7C00 | .e4m3 => 0x7E | .e5m2 => 0x7C
/-- What a finite result that is too large becomes (Table FMT-4). -/
def Fp.overBits : Fp → Nat | .e5m2 => 0x7B | f => f.infBits
/-- The sign bit's weight. -/
def Fp.sign (f : Fp) : Nat := 2 ^ (f.eb + f.mb)

/-- A value: NaN, an infinity, or (−1)^neg × m × 2^e. -/
inductive Val where
  | nan
  | inf (neg : Bool)
  | fin (neg : Bool) (m : Nat) (e : Int)
  deriving DecidableEq, Repr

/-- R261, R262: the value of an encoding. -/
def Fp.val (f : Fp) (b : Nat) : Val :=
  let neg := b / f.sign % 2 = 1
  let e := b / 2 ^ f.mb % 2 ^ f.eb
  let m := b % 2 ^ f.mb
  if f = .e4m3 then
    if e = 15 ∧ m = 7 then .nan
    else if e = 0 then .fin neg m (1 - 7 - 3) else .fin neg (m + 8) ((e : Int) - 7 - 3)
  else if e = 2 ^ f.eb - 1 then (if m = 0 then .inf neg else .nan)
  else if e = 0 then .fin neg m (1 - (f.bias : Int) - f.mb)
  else .fin neg (m + 2 ^ f.mb) ((e : Int) - f.bias - f.mb)

/-- How a result rounds: to nearest even, or stochastically with 24 bits u (R267, R268). -/
inductive Rnd where
  | even
  | stoch (u : Nat)
  deriving DecidableEq, Repr

/-- Bits with a sign. -/
def Fp.withSign (f : Fp) (neg : Bool) (b : Nat) : Nat := if neg then b + f.sign else b

/-- Encode the magnitude k × 2^q, where q is the target's quantum there or, for k one short of a power of two, the next
(R270). -/
def Fp.pack (f : Fp) (neg : Bool) (k : Nat) (q : Int) : Nat :=
  let (k, q) := if k = 2 ^ (f.mb + 1) then (2 ^ f.mb, q + 1)
    else if k < 2 ^ f.mb && 1 - (f.bias : Int) - f.mb < q then (2 * k, q - 1) else (k, q)
  let b := if k < 2 ^ f.mb then k else (q + f.mb + f.bias).toNat * 2 ^ f.mb + (k - 2 ^ f.mb)
  f.withSign neg (if f.maxBits < b then f.overBits else b)

/-- The target's quantum exponent for a magnitude of binary exponent `lg`. -/
def Fp.quantum (f : Fp) (lg : Int) : Int := max (lg - f.mb) (1 - (f.bias : Int) - f.mb)

/-- R267, R268, R270: the value rounded into the format. -/
def Fp.round (f : Fp) (r : Rnd) : Val → Nat
  | .nan => f.nanBits
  | .inf neg => f.withSign neg f.infBits
  | .fin neg m e =>
    if m = 0 then f.withSign neg 0
    else
      let q := f.quantum ((Nat.log2 m : Int) + e)
      if q ≤ e then f.pack neg (m * 2 ^ (e - q).toNat) q
      else
        let d := 2 ^ (q - e).toNat
        let k := m / d
        let rem := m % d
        let up := match r with
          | .even => d < 2 * rem || (2 * rem = d && k % 2 = 1)
          | .stoch u => 2 ^ 24 ≤ rem * 2 ^ 24 / d + u
        f.pack neg (if up then k + 1 else k) q

/-! ### Exact operations -/

/-- The signed integer of a finite value over 2^e. -/
def scaled (neg : Bool) (m : Nat) (e base : Int) : Int :=
  let v : Int := (m * 2 ^ (e - base).toNat : Nat)
  if neg then -v else v

/-- Exact sum; an exact zero is −0 only when both terms are −0 (R269). -/
def Val.add : Val → Val → Val
  | .nan, _ => .nan
  | _, .nan => .nan
  | .inf a, .inf b => if a = b then .inf a else .nan
  | .inf a, _ => .inf a
  | _, .inf b => .inf b
  | .fin n1 m1 e1, .fin n2 m2 e2 =>
    let base := min e1 e2
    let s := scaled n1 m1 e1 base + scaled n2 m2 e2 base
    if s = 0 then .fin (n1 && n2 && m1 = 0 && m2 = 0) 0 base else .fin (decide (s < 0)) s.natAbs base

/-- Negation. -/
def Val.neg : Val → Val
  | .nan => .nan
  | .inf n => .inf (!n)
  | .fin n m e => .fin (!n) m e

/-- Exact product (R269, R279). -/
def Val.mul : Val → Val → Val
  | .nan, _ => .nan
  | _, .nan => .nan
  | .inf a, .inf b => .inf (a != b)
  | .inf a, .fin b m _ => if m = 0 then .nan else .inf (a != b)
  | .fin a m _, .inf b => if m = 0 then .nan else .inf (a != b)
  | .fin a m1 e1, .fin b m2 e2 => .fin (a != b) (m1 * m2) (e1 + e2)

/-- Is a ≤ b, NaN apart; −0 equals +0. -/
def Val.le : Val → Val → Bool
  | .nan, _ => false
  | _, .nan => false
  | .inf true, _ => true
  | _, .inf false => true
  | .inf false, _ => false
  | _, .inf true => false
  | .fin n1 m1 e1, .fin n2 m2 e2 =>
    let base := min e1 e2
    scaled n1 m1 e1 base ≤ scaled n2 m2 e2 base

/-- Comparisons of R269: any with a NaN is false. -/
def Val.lt (a b : Val) : Bool := Val.le a b && !Val.le b a
def Val.eqv (a b : Val) : Bool := Val.le a b && Val.le b a

/-- The sign of a value. -/
def Val.isNeg : Val → Bool
  | .nan => false | .inf n => n | .fin n _ _ => n

/-- VMAX and VMIN order: −0 below +0 (R269). -/
def Val.before (a b : Val) : Bool := Val.lt a b || (Val.eqv a b && a.isNeg && !b.isNeg)

/-- VMAX of two encodings (R269). -/
def Fp.vmax (f : Fp) (a b : Nat) : Nat :=
  if f.val a = .nan || f.val b = .nan then f.nanBits else if Val.before (f.val a) (f.val b) then b else a
def Fp.vmin (f : Fp) (a b : Nat) : Nat :=
  if f.val a = .nan || f.val b = .nan then f.nanBits else if Val.before (f.val b) (f.val a) then b else a

/-- The magnitude of an encoding. -/
def Fp.abs (f : Fp) (b : Nat) : Nat := b % f.sign

/-- Is one FP32 magnitude larger (NaN apart: amax, R278)? -/
def amaxOf (amax : Nat) (f : Fp) (x : Nat) : Nat :=
  match f.val x with
  | .nan => amax
  | v => let b := Fp.fp32.round .even v % 2 ^ 31
         max amax b

/-! ### Stochastic bits -/

/-- The mixing function of R268. -/
def mix64 (z : Word) : Word :=
  let z := (z ^^^ (z >>> 30)) * 0xBF58476D1CE4E5B9
  let z := (z ^^^ (z >>> 27)) * 0x94D049BB133111EB
  z ^^^ (z >>> 31)

/-- The 24 bits of R268. -/
def stochBits (seed stream index : Word) : Nat := (mix64 (seed ^^^ mix64 (stream ^^^ mix64 index)) >>> 40).toNat

/-! ### Reciprocal, reciprocal root and exponential (R269) -/

/-- A value within 1 ulp, among the encodings from that of `lo` to that of `hi` quanta, which bound the exact result; the
fixed algorithm's choice is free (log 6). -/
def Fp.within (f : Fp) (op bits : Nat) (neg : Bool) (lo hi : Nat) (q : Int) : Nat :=
  let first := f.pack false lo q
  let last := f.pack false (min hi (2 ^ (f.mb + 1))) q
  f.withSign neg (first + Config.transcendental op f.maxBits bits % (last - first + 1))

/-- Quanta that lie within 1 ulp of num/den × 2^0 at quantum q. -/
def quotRange (num den : Nat) : Nat × Nat :=
  if num % den = 0 then (num / den - 1, num / den + 1) else (num / den, num / den + 1)

/-- VRCP: 1/x. -/
def Fp.rcp (f : Fp) (b : Nat) : Nat :=
  match f.val b with
  | .nan => f.nanBits
  | .inf n => f.withSign n 0
  | .fin n m e =>
    if m = 0 then f.withSign n f.infBits
    else
      -- 1/(m 2^e) = (2^k / m) 2^(-e-k); the quotient has exponent about k − log2 m
      let k := 64 + Nat.log2 m
      let lg : Int := (Nat.log2 (2 ^ k / m) : Int) - k - e
      let q := f.quantum lg
      let sh : Int := -e - q
      let (lo, hi) := if 0 ≤ sh then quotRange (2 ^ sh.toNat) m else quotRange 1 (m * 2 ^ (-sh).toNat)
      f.within 1 b n lo hi q

/-- Integer square root by bits, from above. -/
def isqrtGo (n : Nat) : Nat → Nat → Nat
  | 0, r => r
  | k + 1, r => let t := r + 2 ^ k; isqrtGo n k (if t * t ≤ n then t else r)

/-- VRSQRT: 1/√x. -/
def Fp.rsqrt (f : Fp) (b : Nat) : Nat :=
  match f.val b with
  | .nan => f.nanBits
  | .inf n => if n then f.nanBits else 0
  | .fin n m e =>
    if m = 0 then f.withSign n f.infBits
    else if n then f.nanBits
    else
      -- x = m' 2^(2h); 1/√x = √(2^(2p)/m') 2^(-h-p)
      let (m', h) := if e % 2 = 0 then (m, e / 2) else (2 * m, (e - 1) / 2)
      let p := 64 + Nat.log2 m' / 2
      let root := isqrtGo (2 ^ (2 * p) / m') 200 0
      let q := f.quantum ((Nat.log2 root : Int) - h - p)
      let d := (q + h + p).toNat
      let k := root / 2 ^ d
      let exact := k * k * 2 ^ (2 * d) * m' = 2 ^ (2 * p)
      f.within 2 b false (if exact then k - 1 else k) (k + 1) q

/-- ln 2 × 2^100, cut. -/
def ln2 : Nat := 878668439483319573618263538048

/-- e^t for t = y/2^100 below ln 2, in units of 2^-100, by its series, cut at every term. -/
def expSeries (y : Nat) : Nat :=
  ((List.range 40).foldl (fun (acc : Nat × Nat) i =>
    let term := acc.2 * y / 2 ^ 100 / (i + 1)
    (acc.1 + term, term)) (2 ^ 100, 2 ^ 100)).1

/-- VEXP2: 2^x. -/
def Fp.exp2 (f : Fp) (b : Nat) : Nat :=
  match f.val b with
  | .nan => f.nanBits
  | .inf n => if n then 0 else f.infBits
  | .fin n m e =>
    if m = 0 then f.within 0 b false (2 ^ f.mb - 1) (2 ^ f.mb + 1) (-(f.mb : Int))
    else if 16 ≤ (Nat.log2 m : Int) + e then (if n then f.within 0 b false 0 1 (f.quantum (-2000)) else f.infBits)
    else
      -- x = w + fr/2^100 with 0 ≤ fr < 2^100, cut below 2^-100
      let s : Int := if -100 ≤ e then (scaled n m (e + 100) 0) else
        (if n then -((m / 2 ^ (-e - 100).toNat : Nat) : Int) - 1 else ((m / 2 ^ (-e - 100).toNat : Nat) : Int))
      let w := s / (2 ^ 100 : Int)
      let fr := (s % (2 ^ 100 : Int)).toNat
      let whole := fr = 0 && (-100 ≤ e || m % 2 ^ (-e - 100).toNat = 0)
      let v := expSeries (fr * ln2 / 2 ^ 100)
      let q := f.quantum w
      let d := (q - w + 100).toNat
      -- the series is cut from below: 2^x lies at v or just above
      let lo := if whole then v / 2 ^ d - 1 else v / 2 ^ d
      let hi := (v + 2 ^ 20) / 2 ^ d + 1
      if (f.bias : Int) < w then f.infBits else f.within 0 b false lo hi q

/-! ### Fast-mode sums (R271, R272) -/

/-- fp32(a + b), to nearest even. -/
def addFp32 (a b : Nat) : Nat := Fp.fp32.round .even (Val.add (Fp.fp32.val a) (Fp.fp32.val b))

/-- One level of pairwise sums. -/
def pairUp : List Nat → List Nat
  | a :: b :: t => addFp32 a b :: pairUp t
  | l => l

/-- Pairwise sums down to one value. -/
def pairSum (fuel : Nat) (l : List Nat) : Nat :=
  match fuel with
  | 0 => l.headD 0
  | k + 1 => match l with
    | [] => 0
    | [a] => a
    | l => pairSum k (pairUp l)

/-! ### The long accumulator -/

/-- R273: A, the flags, the count. -/
structure LAcc where
  a : BitVec 320 := 0
  pinf : Bool := false
  ninf : Bool := false
  nan : Bool := false
  count : Nat := 0
  allNegZero : Bool := true
  deriving DecidableEq, Repr, Inhabited

/-- One addend is counted; `nz` tells a zero with sign 1. -/
def LAcc.counted (l : LAcc) (nz : Bool) : LAcc :=
  { l with count := min (l.count + 1) (2 ^ 32 - 1), allNegZero := l.allNegZero && nz }

/-- Multiples of 2^-160 in a magnitude, to nearest even below. -/
def units160 (m : Nat) (e : Int) : Nat :=
  if -160 ≤ e then m * 2 ^ (e + 160).toNat
  else
    let d := 2 ^ (-160 - e).toNat
    let k := m / d
    let r := m % d
    if d < 2 * r ∨ (2 * r = d ∧ k % 2 = 1) then k + 1 else k

/-- R274: an addend, a value or a product, enters. A product of magnitude 2^128 or more counts as infinite. -/
def LAcc.add (l : LAcc) (product : Bool) : Val → LAcc
  | .nan => { l.counted false with nan := true }
  | .inf n => if n then { l.counted false with ninf := true } else { l.counted false with pinf := true }
  | .fin n m e =>
    if product && m ≠ 0 && 128 ≤ (Nat.log2 m : Int) + e then
      (if n then { l.counted false with ninf := true } else { l.counted false with pinf := true })
    else
      let u := units160 m e
      { l.counted (n && u = 0) with a := if n then l.a - BitVec.ofNat 320 u else l.a + BitVec.ofNat 320 u }

/-- R275: what the read-out rounds. -/
def LAcc.val (l : LAcc) : Val :=
  if l.nan || (l.pinf && l.ninf) || 2 ^ 31 < l.count then .nan
  else if l.pinf then .inf false
  else if l.ninf then .inf true
  else if l.a = 0 then .fin (decide (1 ≤ l.count) && l.allNegZero) 0 0
  else .fin (decide (l.a.toInt < 0)) l.a.toInt.natAbs (-160)

/-- R275: one rounding into the output format. -/
def LAcc.read (l : LAcc) (f : Fp) (r : Rnd) : Nat := f.round r l.val

end Sys2Proof.Machine
end

