-- ==== Sys2Proof/Machine/Bundle.lean ====
section
/-! DEFINITION. Bundles: forms and slots (R231, R232), the reserved encodings of each slot (R240 and the tables BND-4,
BND-7, BND-8, BND-10), operand formats (R243 to R247), write conflicts (R237). -/
namespace Sys2Proof.Machine

/-- Bits [hi:lo] of a number. -/
def natBits (n hi lo : Nat) : Nat := n / 2 ^ lo % 2 ^ (hi + 1 - lo)

/-- A bundle's six slots and its length in 16-byte units. -/
structure Bundle where
  scalar : Nat := 0
  vector : Nat := 0
  matrix : Nat := 0
  load : Nat := 0
  store : Nat := 0
  sync : Nat := 0
  units : Nat := 4
  compact : Bool := false
  deriving DecidableEq, Repr, Inhabited

/-- Widths of the slots in the order of a compact bundle (Table BND-1). -/
def slotWidths : List Nat := [64, 96, 80, 96, 96, 64]

/-- R232: the present slots, packed from bit 8; the list of slot values and the bit after the last. -/
def unpackSlots (bits present : Nat) : List Nat × Nat :=
  ((List.range 6).foldl (fun (acc : List Nat × Nat) i =>
    if present / 2 ^ (i + 1) % 2 = 1 then
      (acc.1 ++ [natBits bits (acc.2 + slotWidths.getD i 0 - 1) acc.2], acc.2 + slotWidths.getD i 0)
    else (acc.1 ++ [0], acc.2)) ([], 8))

/-- The bundle whose bytes start with `bits`, and whether its form is right (R231, R232, check 1 but for `held` and the end
of the memory). -/
def Bundle.read (bits : Nat) : Bundle × Bool :=
  if bits % 2 = 0 then
    (⟨natBits bits 71 8, natBits bits 167 72, natBits bits 247 168, natBits bits 343 248, natBits bits 439 344,
      natBits bits 503 440, 4, false⟩, natBits bits 7 1 = 0 && natBits bits 511 504 = 0)
  else
    let (s, top) := unpackSlots bits (bits % 128)
    let n := ceilDiv top 128
    (⟨s.getD 0 0, s.getD 1 0, s.getD 2 0, s.getD 3 0, s.getD 4 0, s.getD 5 0, n, true⟩,
      natBits bits 7 7 = 0 && natBits bits (128 * n - 1) 0 / 2 ^ top = 0)

/-! ### Scalar slot (Table BND-2) -/

def scOp (s : Nat) : Nat := natBits s 63 56
/-- Fields [55:51], [50:46] and [45:41]. -/
def scA (s : Nat) : Nat := natBits s 55 51
def scB (s : Nat) : Nat := natBits s 50 46
def scC (s : Nat) : Nat := natBits s 45 41
/-- The 32-bit immediate, sign-extended. -/
def scImm (s : Nat) : Word := (BitVec.ofNat 32 (natBits s 31 0)).signExtend 64
def scTarget (s : Nat) : Nat := natBits s 12 0

/-- R240: is the encoding one that the tables give? -/
def scalarOk (s : Nat) : Bool :=
  let op := scOp s
  let a0 := scA s = 0
  let b0 := scB s = 0
  let c0 := scC s = 0
  let low0 := natBits s 40 0 = 0
  let mid0 := natBits s 40 32 = 0
  let tgt0 := natBits s 40 13 = 0
  s = 0
  || (1 ≤ op && op ≤ 0x12 && low0)
  || ((0x20 ≤ op && op ≤ 0x23 || op = 0x25) && c0 && mid0)
  || (op = 0x24 && b0 && c0 && mid0 && natBits s 31 20 = 0)
  || ((0x30 ≤ op && op ≤ 0x36 || 0x38 ≤ op && op ≤ 0x3B) && c0 && mid0)
  || ((0x40 ≤ op && op ≤ 0x49 || 0x50 ≤ op && op ≤ 0x59) && low0)
  || (0x60 ≤ op && op ≤ 0x65 && c0 && tgt0)
  || (op = 0x66 && b0 && c0 && tgt0)
  || (op = 0x67 && a0 && c0 && low0)
  || (op = 0x70 && c0 && low0)
  || (op = 0x71 && a0 && low0)
  || (op = 0x72 && a0 && c0 && low0)
  || ((op = 0x74 || op = 0x75) && b0 && c0 && low0)
  || ((op = 0x7E || op = 0x7F) && a0 && b0 && c0 && low0)

/-- Is it a branch, JAL or JR (R252)? -/
def isBranch (s : Nat) : Bool := 0x60 ≤ scOp s && scOp s ≤ 0x67

/-- The tack register the scalar slot writes; 0 for none. -/
def scDest (s : Nat) : Nat :=
  let op := scOp s
  if (1 ≤ op && op ≤ 0x36) || (0x40 ≤ op && op ≤ 0x59) || op = 0x66 || op = 0x70 || op = 0x74 || op = 0x75 then scA s else 0

/-! ### Vector slot (Table BND-4) -/

def vOp (v : Nat) : Nat := natBits v 95 88
def vFmt (v : Nat) : Nat := natBits v 87 85
def vD (v : Nat) : Nat := natBits v 84 80
def vA (v : Nat) : Nat := natBits v 79 75
def vB (v : Nat) : Nat := natBits v 74 70
def vC (v : Nat) : Nat := natBits v 69 65
def vM (v : Nat) : Nat := natBits v 64 62
def vTs (v : Nat) : Nat := natBits v 61 57
def vTo (v : Nat) : Nat := natBits v 56 54
def vPart (v : Nat) : Nat := natBits v 53 52
def vRnd (v : Nat) : Nat := natBits v 51 50

def isCompare (op : Nat) : Bool := 0x10 ≤ op && op ≤ 0x12

/-- Reserved opcode, field value or bit (Table BND-9, check 3). -/
def vectorOk (v : Nat) : Bool :=
  let op := vOp v
  v = 0 ||
  ((1 ≤ op && op ≤ 0x0C || isCompare op || 0x18 ≤ op && op ≤ 0x1A || op = 0x20 || op = 0x21
    || 0x28 ≤ op && op ≤ 0x2A || 0x30 ≤ op && op ≤ 0x35)
   && vFmt v ≤ 5 && vTo v ≤ 4 && vRnd v ≤ 1 && natBits v 49 0 = 0 && (!isCompare op || natBits v 84 83 = 0))

/-- Bytes of an element of a vector format code: 0 FP32, 1 BF16, 2 FP16, 3 I32, 4 E4M3, 5 E5M2. -/
def fmtBytes (f : Nat) : Nat := if f = 0 || f = 3 then 4 else if f ≤ 2 then 2 else 1

/-- The format of a VCVT destination code, in source codes. -/
def toCode (t : Nat) : Nat := if t ≤ 2 then t else t + 1

/-- Table FMT-5. -/
def cvtPair (f t : Nat) : Bool :=
  match f, t with
  | 0, 1 | 0, 2 | 0, 3 | 0, 4 | 1, 0 | 1, 2 | 2, 0 | 2, 1 | 4, 0 | 4, 1 | 4, 2 | 5, 0 | 5, 1 | 5, 2 | 3, 0 => true
  | _, _ => false

/-- Elements of a VCVT and bytes of its slice (R244). -/
def cvtCount (f t : Nat) : Nat := 256 / max (fmtBytes f) (fmtBytes (toCode t))
def cvtSlice (f t : Nat) : Nat := cvtCount f t * min (fmtBytes f) (fmtBytes (toCode t))

/-- R243, R244, R265 (check 5). -/
def vectorFormat (v : Nat) : Bool :=
  let op := vOp v
  let f := vFmt v
  if v = 0 then true
  else if op = 0x18 then cvtPair f (vTo v) && (vPart v + 1) * cvtSlice f (vTo v) ≤ 256
  else if op = 0x19 || op = 0x1A then f = 0
  else if 0x30 ≤ op then f = 3
  else if op = 0x20 || op = 0x21 then f ≤ 3
  else f ≤ 2

/-- The vector register and the mask a vector operation writes. -/
def vectorDest (v : Nat) : Option Nat :=
  if v = 0 || isCompare (vOp v) || vOp v = 0x1A then none else some (vD v)
def compareDest (v : Nat) : Option Nat := if v ≠ 0 && isCompare (vOp v) && vD v ≠ 0 then some (vD v) else none

/-! ### Matrix slot (Table BND-7) -/

def mOp (m : Nat) : Nat := natBits m 79 72
def mWfmt (m : Nat) : Nat := natBits m 71 69
def mAfmt (m : Nat) : Nat := natBits m 68 67
def mW (m : Nat) : Nat := natBits m 66 66
def mVa (m : Nat) : Nat := natBits m 65 61
def mPart (m : Nat) : Nat := natBits m 60 58
def mRow (m : Nat) : Nat := natBits m 57 52
def mVd (m : Nat) : Nat := natBits m 51 47
def mQuarter (m : Nat) : Nat := natBits m 46 45
def mWh (m : Nat) : Nat := natBits m 44 44

def matrixOk (m : Nat) : Bool :=
  m = 0 || (1 ≤ mOp m && mOp m ≤ 4 && mWfmt m ≤ 5 && natBits m 43 0 = 0)

/-- R245, Table FMT-3 (check 5). -/
def matrixFormat (m : Nat) : Bool :=
  if mOp m = 1 || mOp m = 2 then
    (match mWfmt m, mAfmt m with
      | 0, 0 | 1, 1 | 2, 2 | 2, 3 | 3, 2 | 3, 3 | 4, 0 | 4, 1 | 5, 0 | 5, 1 => true
      | _, _ => false)
    && (4 ≤ mWfmt m || mWh m = 0) && (2 ≤ mAfmt m || mPart m ≤ 3)
  else true

/-! ### Load and store slots (Table BND-8) -/

def lsOp (x : Nat) : Nat := natBits x 95 88
def lsAg (x : Nat) : Nat := natBits x 87 85
def lsReg (x : Nat) : Nat := natBits x 84 80
/-- `part` of a load, `m` of a store. -/
def lsPart (x : Nat) : Nat := natBits x 79 77
def lsSize (x : Nat) : Nat := natBits x 76 75
def lsOff (x : Nat) : Int := (BitVec.ofNat 24 (natBits x 74 51)).toInt
def lsLane (x : Nat) : Nat := natBits x 50 49

/-- Bytes that a load or store slot accesses. -/
def loadBytes (x : Nat) : Nat := if lsOp x = 3 then 16 else 32 * 2 ^ lsSize x
def storeBytes (x : Nat) : Nat := if lsOp x = 3 then 16 else 32 * 2 ^ lsSize x

def loadOk (x : Nat) : Bool :=
  x = 0 || (natBits x 50 0 = 0 &&
    (match lsOp x with
     | 1 => lsPart x = 0
     | 2 => natBits x 84 81 = 0
     | 3 => lsPart x = 0 && natBits x 84 83 = 0 && lsSize x = 0
     | _ => false))

def loadFormat (x : Nat) : Bool := lsOp x ≠ 2 || lsSize x = 3

def storeOk (x : Nat) : Bool :=
  x = 0 || (natBits x 48 0 = 0 &&
    (match lsOp x with
     | 1 => lsPart x = 0 && lsLane x = 0
     | 2 => lsLane x ≤ 1
     | 3 => lsPart x = 0 && lsLane x = 0 && natBits x 84 83 = 0 && lsSize x = 0
     | _ => false))

/-! ### Sync slot (Table BND-10) -/

def syOp (y : Nat) : Nat := natBits y 63 56
def syTs (y : Nat) : Nat := natBits y 55 51
def syTd (y : Nat) : Nat := natBits y 50 46
def syLevel (y : Nat) : Nat := natBits y 45 44
def syCnt (y : Nat) : Nat := natBits y 43 42
def syExit (y : Nat) : Nat := natBits y 41 29
def syImm (y : Nat) : Nat := natBits y 28 13
def syAg (y : Nat) : Nat := natBits y 43 41
def syField (y : Nat) : Nat := natBits y 40 38
def syId (y : Nat) : Nat := natBits y 43 42
def syMask (y : Nat) : Nat := natBits y 41 34
def syBlk (y : Nat) : Nat := natBits y 43 39
def syFlag (y : Nat) : Nat := natBits y 38 35

/-- Reserved opcodes, field values and bits; the register and level fields an operation does not use are free. -/
def syncOk (y : Nat) : Bool :=
  y = 0 ||
  (match syOp y with
   | 0x01 => syCnt y ≤ 2 && natBits y 12 0 = 0
   | 0x02 | 0x03 | 0x08 | 0x09 | 0x0A => natBits y 43 0 = 0
   | 0x04 => syField y ≤ 5 && natBits y 37 0 = 0
   | 0x0B => natBits y 33 0 = 0
   | 0x0C => natBits y 34 0 = 0
   | 0x0D => natBits y 43 39 = 0 && natBits y 34 0 = 0
   | _ => false)

/-! ### Write conflicts (R237) -/

/-- Is there a register that two slots of the bundle write? -/
def Bundle.conflict (x : Bundle) : Bool :=
  let td := if syOp x.sync = 3 then syTd x.sync else 0
  let vs := (match vectorDest x.vector with | some d => [d] | none => [])
    ++ (if mOp x.matrix = 3 then [mVd x.matrix] else []) ++ (if lsOp x.load = 1 then [lsReg x.load] else [])
  let ms := (match compareDest x.vector with | some d => [d] | none => [])
    ++ (if lsOp x.load = 3 && lsReg x.load ≠ 0 then [lsReg x.load] else [])
  (td ≠ 0 && td = scDest x.scalar) || !vs.Nodup || !ms.Nodup

end Sys2Proof.Machine
end

