-- ==== Sys2Proof/Machine/Vector.lean ====
section
/-! DEFINITION. The vector unit (R242 to R244, R267 to R272, R276 to R279) and the matrix unit (R245, R246, R264, R271,
R276) as functions of a cell's registers. -/
namespace Sys2Proof.Machine

/-! ### Registers -/

/-- t0 reads 0 (R219). -/
def Core.t (c : Core) (i : Nat) : Word := if i = 0 then 0 else c.tack.getD i 0
/-- A write to t0 is ignored. -/
def Core.setT (c : Core) (i : Nat) (v : Word) : Core := if i = 0 then c else { c with tack := c.tack.set i v }
def Core.v (c : Core) (i : Nat) : List Byte := Tab.get c.vregs i (List.replicate 256 0)
def Core.setV (c : Core) (i : Nat) (l : List Byte) : Core := { c with vregs := Tab.put c.vregs i l }
/-- m0 reads all ones (R242). -/
def Core.mask (c : Core) (i : Nat) : BitVec 128 := if i = 0 then BitVec.allOnes 128 else Tab.get c.masks i 0
def Core.setMask (c : Core) (i : Nat) (m : BitVec 128) : Core :=
  if i = 0 then c else { c with masks := Tab.put c.masks i m }
def Core.row (c : Core) (i : Nat) : List Nat := Tab.get c.acc i (List.replicate 256 0)
def Core.setRow (c : Core) (i : Nat) (l : List Nat) : Core := { c with acc := Tab.put c.acc i l }
def Core.wbuf (c : Core) (i : Nat) : List Byte := Tab.get c.wbufs i (List.replicate 2048 0)
def Core.setWbuf (c : Core) (i : Nat) (l : List Byte) : Core := { c with wbufs := Tab.put c.wbufs i l }

/-- The lanes of w bytes of a register. -/
def lanesOf (w : Nat) (l : List Byte) : List Nat := (List.range (l.length / w)).map (fun i => leAt l (w * i) w)
/-- A register from its lanes. -/
def ofLanes (w : Nat) (l : List Nat) : List Byte := l.flatMap (leBytes w)

/-- Lanes whose mask bit is 0 keep the old value (R243). -/
def mergeLanes (m : BitVec 128) (old new : List Nat) : List Nat :=
  (List.range old.length).map (fun i => if m.getLsbD i then new.getD i 0 else old.getD i 0)

/-- The floating-point format of a code. -/
def codeFp : Nat → Fp
  | 0 => .fp32 | 1 => .bf16 | 2 => .fp16 | 4 => .e4m3 | _ => .e5m2

/-! ### Vector operations -/

/-- Operations on which stochastic rounding acts (R267). -/
def roundsAtRandom (v : Nat) : Bool := vRnd v = 1 && (1 ≤ vOp v && vOp v ≤ 4 || vOp v = 9 || vOp v = 0x18)

/-- One lane of a floating-point operation. -/
def fpLane (op : Nat) (f : Fp) (r : Rnd) (a b x : Nat) (scale : Nat) : Nat :=
  match op with
  | 0x01 => f.round r (Val.add (f.val a) (f.val b))
  | 0x02 => f.round r (Val.add (f.val a) (Val.neg (f.val b)))
  | 0x03 => f.round r (Val.mul (f.val a) (f.val b))
  | 0x04 => f.round r (Val.add (Val.mul (f.val a) (f.val b)) (f.val x))
  | 0x05 => f.vmax a b
  | 0x06 => f.vmin a b
  | 0x07 => f.abs a
  | 0x08 => if f.sign ≤ a then a - f.sign else a + f.sign
  | 0x09 => f.round r (Val.mul (f.val a) (Fp.fp32.val scale))
  | 0x28 => f.exp2 a
  | 0x29 => f.rcp a
  | _ => f.rsqrt a

/-- One lane of an integer operation. -/
def intLane (op a b : Nat) : Nat :=
  match op with
  | 0x30 => (a + b) % 2 ^ 32
  | 0x31 => a &&& b
  | 0x32 => a ||| b
  | 0x33 => a ^^^ b
  | 0x34 => a * 2 ^ (b % 32) % 2 ^ 32
  | _ => a / 2 ^ (b % 32)

/-- One lane of a compare (R269). -/
def cmpLane (op : Nat) (f : Fp) (a b : Nat) : Bool :=
  match op with
  | 0x10 => Val.lt (f.val a) (f.val b)
  | 0x11 => Val.le (f.val a) (f.val b)
  | _ => Val.eqv (f.val a) (f.val b)

/-- R272, R276: VRED of the lanes whose mask bit is 1. -/
def vred (exact : Bool) (fmt : Nat) (m : BitVec 128) (l : List Nat) : Nat :=
  let act := (List.range l.length).filter (fun i => m.getLsbD i)
  if fmt = 3 then (act.foldl (fun s i => s + l.getD i 0) 0) % 2 ^ 32
  else
    let f := codeFp fmt
    if act.isEmpty then 0
    else if exact then (act.foldl (fun (a : LAcc) i => a.add false (f.val (l.getD i 0))) {}).read f .even
    else
      let wide := (List.range l.length).map (fun i =>
        if m.getLsbD i then Fp.fp32.round .even (f.val (l.getD i 0)) else 0x80000000)
      f.round .even (Fp.fp32.val (pairSum 8 wide))

/-- R272: VREDMAX; the most negative value with no active lane. -/
def vredmax (fmt : Nat) (m : BitVec 128) (l : List Nat) : Nat :=
  let act := ((List.range l.length).filter (fun i => m.getLsbD i)).map (fun i => l.getD i 0)
  if fmt = 3 then act.foldl (fun a x => if signedOf 32 a < signedOf 32 x then x else a) (2 ^ 31)
  else
    let f := codeFp fmt
    act.foldl f.vmax (f.withSign true f.infBits)

/-- R244, R277, R278: VCVT of one slice; the new destination and amax. -/
def vcvt (v : Nat) (m : BitVec 128) (rnd : Nat → Rnd) (src old : List Byte) (amax : Nat) : List Byte × Nat :=
  let f := vFmt v
  let t := toCode (vTo v)
  let s := fmtBytes f
  let d := fmtBytes t
  let n := cvtCount f (vTo v)
  let at_ := vPart v * cvtSlice f (vTo v)
  let srcAt := if s < d then at_ else 0
  let dstAt := if d < s then at_ else 0
  let value := fun j =>
    let x := leAt src (srcAt + s * j) s
    if f = 3 then Val.fin (decide (signedOf 32 x < 0)) (signedOf 32 x).natAbs 0 else (codeFp f).val x
  let out := (List.range n).flatMap (fun j =>
    if m.getLsbD j then leBytes d ((codeFp t).round (rnd j) (value j)) else slice old (dstAt + d * j) d)
  let amax := if d < s then (List.range n).foldl (fun a j =>
      if m.getLsbD j then amaxOf a (codeFp f) (leAt src (srcAt + s * j) s) else a) amax else amax
  (old.take dstAt ++ out ++ old.drop (dstAt + d * n), amax)

/-- The vector slot's effect on the registers (Table BND-5); `key` gives seed and stream of stochastic rounding (R268). -/
def Core.vector (c : Core) (exact : Bool) (key : Word × Word) (v : Nat) : Core :=
  if v = 0 then c
  else
    let op := vOp v
    let fmt := vFmt v
    let w := fmtBytes fmt
    let m := c.mask (vM v)
    let n := c.stoch + 1
    let random := roundsAtRandom v
    let rnd := fun e => if random then Rnd.stoch (stochBits key.1 key.2 (BitVec.ofNat 64 (n * 256 + e))) else Rnd.even
    let a := lanesOf w (c.v (vA v))
    let b := lanesOf w (c.v (vB v))
    let x := lanesOf w (c.v (vC v))
    let old := lanesOf w (c.v (vD v))
    let k := old.length
    let put := fun (l : List Nat) => c.setV (vD v) (ofLanes w (mergeLanes m old l))
    let only := fun (y : Nat) => c.setV (vD v) (ofLanes w (y :: List.replicate (k - 1) 0))
    let ts := (c.t (vTs v)).toNat
    let next :=
      if op = 0x0A then put (List.replicate k (ts % 2 ^ (8 * w)))
      else if op = 0x0B then put a
      else if op = 0x0C then c.setV (vD v) (ofLanes w (mergeLanes m b a))
      else if isCompare op then
        let was := c.mask (vD v)
        let bits := (List.range k).foldl (fun s i =>
          if (if m.getLsbD i then cmpLane op (codeFp fmt) (a.getD i 0) (b.getD i 0) else was.getLsbD i) then s + 2 ^ i
          else s) 0
        c.setMask (vD v) (BitVec.ofNat 128 bits)
      else if op = 0x18 then
        let (l, amax) := vcvt v m rnd (c.v (vA v)) (c.v (vD v)) c.amax
        { c.setV (vD v) l with amax := amax }
      else if op = 0x19 then put (c.amax :: List.replicate 63 0)
      else if op = 0x1A then { c with amax := 0 }
      else if op = 0x20 then only (vred exact fmt m a)
      else if op = 0x21 then only (vredmax fmt m a)
      else if 0x30 ≤ op then put ((List.range k).map (fun i => intLane op (a.getD i 0) (b.getD i 0)))
      else put ((List.range k).map (fun i =>
        fpLane op (codeFp fmt) (rnd i) (a.getD i 0) (b.getD i 0) (x.getD i 0) (ts % 2 ^ 32)))
    if random then { next with stoch := n } else next

/-! ### The matrix unit -/

/-- N of a weight format (Table BND-6). -/
def mmaN (wfmt : Nat) : Nat := [32, 32, 64, 64, 128, 256].getD wfmt 0

/-- The value of weight W[k][n] (Table BND-6, R263). -/
def weightVal (wfmt : Nat) (tile : List Byte) (k n : Nat) : Val :=
  let int := fun (i : Int) => Val.fin (decide (i < 0)) i.natAbs 0
  match wfmt with
  | 0 => Fp.bf16.val (leAt tile (64 * k + 2 * n) 2)
  | 1 => Fp.fp16.val (leAt tile (64 * k + 2 * n) 2)
  | 2 => Fp.e4m3.val (leAt tile (64 * k + n) 1)
  | 3 => Fp.e5m2.val (leAt tile (64 * k + n) 1)
  | 4 => int (weightOf false (leAt tile (32 * k + n / 4) 1) (n % 4))
  | _ => int (weightOf true (leAt tile (32 * k + n / 8) 1) (n % 8))

/-- Activation k of a piece. -/
def actVal (afmt part : Nat) (reg : List Byte) (k : Nat) : Val :=
  match afmt with
  | 0 => Fp.bf16.val (leAt reg (64 * part + 2 * k) 2)
  | 1 => Fp.fp16.val (leAt reg (64 * part + 2 * k) 2)
  | 2 => Fp.e4m3.val (leAt reg (32 * part + k) 1)
  | _ => Fp.e5m2.val (leAt reg (32 * part + k) 1)

/-- One lane of an MMA or MMAZ: pairwise in fast mode (R271), through a long accumulator in exact mode (R276). -/
def mmaLane (exact zero : Bool) (acc : Nat) (ps : List Val) : Nat :=
  if exact then
    let start : LAcc := if zero then {} else LAcc.add {} false (Fp.fp32.val acc)
    (ps.foldl (fun a p => a.add true p) start).read .fp32 .even
  else
    let s := pairSum 5 (ps.map (Fp.fp32.round .even))
    if zero then s else addFp32 acc s

/-- The matrix slot's effect on the registers (Table BND-7). -/
def Core.matrix (c : Core) (exact : Bool) (m : Nat) : Core :=
  match mOp m with
  | 1 | 2 =>
    let wf := mWfmt m
    let tile := if 4 ≤ wf then slice (c.wbuf (mW m)) (1024 * mWh m) 1024 else c.wbuf (mW m)
    let acts := (List.range 32).map (actVal (mAfmt m) (mPart m) (c.v (mVa m)))
    let old := c.row (mRow m)
    let new := (List.range (mmaN wf)).map (fun n =>
      mmaLane exact (mOp m = 2) (old.getD n 0)
        ((List.range 32).map (fun k => Val.mul (acts.getD k .nan) (weightVal wf tile k n))))
    c.setRow (mRow m) (new ++ old.drop (mmaN wf))
  | 3 => c.setV (mVd m) (ofLanes 4 (((c.row (mRow m)).drop (64 * mQuarter m)).take 64))
  | 4 => c.setRow (mRow m) (List.replicate 256 0)
  | _ => c

end Sys2Proof.Machine
end

