-- ==== Sys2Proof/Machine/Sparse.lean ====
section
/-! DEFINITION. Sparse windows (R280 to R282), the compressed forms of tiles and panels (R283 to R290), transposition (R291)
and the audit unit (R296, R297). -/
namespace Sys2Proof.Machine

/-! ### Windows -/

def Win.of (a b : Word) : Win :=
  ⟨getBits a 63 61, getBits a 60 59, getBits a 58 58, bitAt a 57, bitAt a 56, getBits a 55 47 + 1, getBits a 39 0,
   getBits b 63 38, getBits b 37 0⟩

def Chip.win (c : Chip) (r : Region) (b : BlockIx) (i : Nat) : Win :=
  Win.of (c.reg (.cblk r b) (0x200 + 16 * i)) (c.reg (.cblk r b) (0x208 + 16 * i))

/-- Does an address lie in the window? -/
def Win.has (w : Win) (a : Nat) : Bool := w.base ≤ a && a < w.base + w.size

/-- Do n bytes at an address meet the window? -/
def Win.meets (w : Win) (a n : Nat) : Bool := w.base < a + n && a < w.base + w.size

/-- Bytes of an element, columns of a dense tile. -/
def Win.e (w : Win) : Nat := if w.elem = 0 then 2 else 1
def Win.n (w : Win) : Nat := if w.elem = 0 then 32 else 64

/-- Does a range lie in program-visible block memory? -/
def Chip.inBlockMem (c : Chip) (r : Region) (b : BlockIx) (a n : Nat) : Bool :=
  0x2000000 ≤ a && a + n ≤ 0x2000000 + c.visibleEnd r b

/-- Does a range lie in the Lintel window of one region? -/
def inWindow (a n : Nat) : Bool :=
  match windowOf a with
  | some (_, o) => o + n ≤ endpointBytes
  | none => false

/-- Does a range lie in one range of the block address map (Table CELL-2)? -/
def Chip.oneRange (c : Chip) (r : Region) (b : BlockIx) (a n : Nat) : Bool :=
  a + n ≤ 0x10000 || (0x1000000 ≤ a && a + n ≤ 0x1180000) || c.inBlockMem r b a n
    || (0x10000000 ≤ a && a < 0x11000000 && a % 0x200000 + n ≤ 0x180000) || inWindow a n

/-- Bytes of a predicted window's bitmap. -/
def Win.bitmapBytes (w : Win) : Nat := ceilDiv (w.size / (32 * w.shape * w.e)) 8

/-- R282: may the window stand as number i? Only the conditions on `size` = 0 and on block memory name a kind: the others hold
for every kind. -/
def Chip.winFits (c : Chip) (r : Region) (b : BlockIx) (i : Nat) : Bool :=
  let w := c.win r b i
  w.base % 64 = 0 && w.size % 64 = 0 && w.kind ≤ 3 && (w.kind = 0 || w.size ≠ 0)
    && (w.size = 0 || c.oneRange r b w.base w.size)
    && (w.kind ≠ 1 || c.inBlockMem r b w.base w.size || inWindow w.base w.size)
    && (List.range 8).all (fun j => j = i || (c.win r b j).kind = 0 || w.size = 0 || !(c.win r b j).meets w.base w.size)
    && (w.kind < 2 || c.inBlockMem r b w.base w.size)
    && !(2 ≤ w.format && (w.transposable || w.keepMask)) && !(w.transposable && w.elem = 1)
    && (w.format ≠ 3 || c.inBlockMem r b w.aux w.bitmapBytes)

/-- A write to a window register. -/
def Chip.opSparseWin (c : Chip) (r : Region) (b : BlockIx) (i : Nat) (wordB : Bool) (v : Word) : Chip × Bool :=
  let u := UnitId.cblk r b
  let (c', no) := c.plainWrite u (0x200 + 16 * i + (if wordB then 8 else 0)) v
  if no then (c', no)
  else if c'.winFits r b i then (c', false) else (c.raise u CBLK.ev_sparse_reject, false)

/-- R290: a write to SPARSE_CTL. -/
def Chip.opSparseCtl (c : Chip) (r : Region) (b : BlockIx) (v : Word) : Chip × Bool :=
  let u := UnitId.cblk r b
  let (c', no) := c.plainWrite u 0x138 v
  if max 1 (c'.fld u CBLK.SPARSE_CTL_split_max) < max 1 (c'.fld u CBLK.SPARSE_CTL_split_min) then
    (c.raise u CBLK.ev_sparse_reject, false)
  else (c', no)

/-! ### Dense tiles -/

/-- Element (k, n) of a dense tile of elements of e bytes (Table BND-6). -/
def tileAt (e : Nat) (t : List Byte) (k n : Nat) : Nat := leAt t (64 * k + e * n) e

/-- A tile from its elements. -/
def tileOf (e cols : Nat) (f : Nat → Nat → Nat) : List Byte :=
  (List.range 32).flatMap (fun k => (List.range cols).flatMap (fun n => leBytes e (f k n)))

/-- R291. -/
def transposeTile (t : List Byte) : List Byte := tileOf 2 32 (fun k n => tileAt 2 t n k)

/-- Is a stored value +0 or −0? -/
def isZeroElem (e v : Nat) : Bool := v % 2 ^ (8 * e - 1) = 0

/-! ### 2:4 and 1:4 tiles -/

/-- Slots of a group. -/
def Win.slots (w : Win) : Nat := if w.format = 0 then 2 else 1
/-- Bytes of one piece's values and of its metadata (Table SPR-2). -/
def Win.pieceBytes (w : Win) : Nat := w.n * w.slots * w.e
def Win.metaBytes (w : Win) : Nat := w.n * w.slots / 4
/-- Tile stride. -/
def Win.stride (w : Win) : Nat := 8 * (w.pieceBytes + w.metaBytes)

/-- Position of slot j of column n of piece p. -/
def Win.pos (w : Win) (t : List Byte) (p n j : Nat) : Nat :=
  leAt t (8 * w.pieceBytes + w.metaBytes * p) w.metaBytes / 2 ^ (2 * w.slots * n + 2 * j) % 4

/-- Value of slot j of column n of piece p. -/
def Win.slotVal (w : Win) (t : List Byte) (p n j : Nat) : Nat :=
  leAt t (w.pieceBytes * p + w.slots * w.e * n + w.e * j) w.e

/-- R284: slot 0 below slot 1. -/
def Win.orderOk (w : Win) (t : List Byte) : Bool :=
  w.slots = 1 || (List.range 8).all (fun p => (List.range w.n).all (fun n => w.pos t p n 0 < w.pos t p n 1))

/-- R284: the row rule, over the values that count: `v p row n`, row of the group. -/
def Win.rowsOk (w : Win) (v : Nat → Nat → Nat → Bool) : Bool :=
  !w.transposable || (List.range 8).all (fun p => (List.range (w.n / 4)).all (fun q => (List.range 4).all (fun row =>
    ((List.range 4).filter (fun i => v p row (4 * q + i))).length ≤ w.slots)))

/-- The stored value at a row of a group, if that row is kept. -/
def Win.kept (w : Win) (t : List Byte) (p row n : Nat) : Option Nat :=
  (List.range w.slots).findSome? (fun j => if w.pos t p n j = row then some (w.slotVal t p n j) else none)

/-- R284: expansion of a tile; none is META. -/
def Win.expandTile (w : Win) (t : List Byte) : Option (List Byte) :=
  if !w.orderOk t || !w.rowsOk (fun p row n => match w.kept t p row n with
      | some v => !isZeroElem w.e v
      | none => false) then none
  else some (tileOf w.e w.n (fun k n => (w.kept t (k / 4) (k % 4) n).getD 0))

/-- R285: the positions chosen for a group. -/
def Win.choose (w : Win) (nz : List Nat) : List Nat :=
  let fill := ((List.range 4).filter (fun i => !nz.contains i)).take (w.slots - nz.length)
  (List.range 4).filter (fun i => nz.contains i || fill.contains i)

/-- R285: compression of a dense tile, given the tile held at the destination: status, stored bytes, values dropped. -/
def Win.compressTile (w : Win) (dense held : List Byte) : Nat × List Byte × Nat :=
  let val := fun p row n => tileAt w.e dense (4 * p + row) n
  let nz := fun p n => (List.range 4).filter (fun row => !isZeroElem w.e (val p row n))
  let groups := (List.range 8).flatMap (fun p => (List.range w.n).map (fun n => (p, n)))
  let ps : Nat → Nat → List Nat := fun p n =>
    if w.keepMask then (List.range w.slots).map (w.pos held p n) else w.choose (nz p n)
  let counts := fun p row n => !isZeroElem w.e (val p row n) && (!w.keepMask || (ps p n).contains row)
  let status := if w.keepMask then (if w.orderOk held && w.rowsOk counts then 0 else 34)
    else if groups.any (fun g => w.slots < (nz g.1 g.2).length) || !w.rowsOk counts then 35 else 0
  let vals := groups.flatMap (fun g => (ps g.1 g.2).flatMap (fun row => leBytes w.e (val g.1 row g.2)))
  let metas := (List.range 8).flatMap (fun p => leBytes w.metaBytes ((List.range w.n).foldl (fun s n =>
    (List.range w.slots).foldl (fun s j => s + ((ps p n).getD j 0) * 2 ^ (2 * w.slots * n + 2 * j)) s) 0))
  let dropped := groups.foldl (fun s g => s + ((nz g.1 g.2).filter (fun row => !(ps g.1 g.2).contains row)).length) 0
  (status, vals ++ metas, dropped)

/-! ### Unstructured panels -/

/-- Columns of a panel. -/
def Win.cols (w : Win) : Nat := w.n * w.shape

/-- A panel's length from its head; none for a form that does not exist. -/
def panelBytes (h : List Byte) : Option Nat :=
  match leAt h 6 1 with
  | 0 => some (192 + roundUp (4 * leAt h 0 4) 64)
  | 1 => some (192 + 2048 * leAt h 4 2)
  | _ => none

/-- The rows of a sparse panel's entries: column and value. -/
def panelRows (t : List Byte) : List (List (Nat × Nat)) :=
  ((List.range 32).foldl (fun (acc : List (List (Nat × Nat)) × Nat) k =>
    let n := leAt t (64 + 4 * k) 4
    (acc.1 ++ [(List.range n).map (fun i => (leAt t (192 + 4 * (acc.2 + i)) 2, leAt t (194 + 4 * (acc.2 + i)) 2))],
     acc.2 + n)) ([], 0)).1

def strictlyRising : List Nat → Bool
  | a :: b :: t => a < b && strictlyRising (b :: t)
  | _ => true

/-- Table SPR-4: is a panel's head right? -/
def Win.headOk (w : Win) (t : List Byte) : Bool :=
  let nnz := leAt t 0 4
  let counts := (List.range 32).map (fun k => leAt t (64 + 4 * k) 4)
  let sum := counts.foldl (· + ·) 0
  leAt t 6 1 ≤ 1 && leAt t 4 2 = w.shape && leAt t 7 1 = w.elem && leAt t 8 56 = 0 && nnz ≤ 32 * w.cols
    && sum = nnz && (leAt t 6 1 = 0 || counts.all (· = 0))

/-- Table SPR-4: are its entries right? -/
def Win.entriesOk (w : Win) (t : List Byte) : Bool :=
  leAt t 6 1 = 1 || (panelRows t).all (fun row =>
    strictlyRising (row.map (·.1)) && row.all (fun x => x.1 < w.cols && (w.elem = 0 || x.2 < 256)))

/-- R286: the dense tiles of a panel whose head and entries are right. -/
def Win.panelTiles (w : Win) (t : List Byte) : List (List Byte) :=
  if leAt t 6 1 = 1 then (List.range w.shape).map (fun i => slice t (192 + 2048 * i) 2048)
  else
    let rows := panelRows t
    (List.range w.shape).map (fun i => tileOf w.e w.n (fun k n =>
      match (rows.getD k []).find? (fun x => x.1 = w.n * i + n) with
      | some x => x.2
      | none => 0))

/-- R286, R287: the panel of `shape` dense tiles. The dense form has no entries: its `nnz` is 0, as its counts sum to it
(Table SPR-4; log 268). -/
def Win.buildPanel (w : Win) (pct : Nat) (tiles : List (List Byte)) : List Byte :=
  let rows := (List.range 32).map (fun k => ((List.range w.cols).map (fun n =>
    (n, tileAt w.e (tiles.getD (n / w.n) []) k (n % w.n)))).filter (fun x => !isZeroElem w.e x.2))
  let nnz := rows.foldl (fun s x => s + x.length) 0
  let head := fun form n => leBytes 4 n ++ leBytes 2 w.shape ++ leBytes 1 form ++ leBytes 1 w.elem ++ leBytes 56 0
  if 100 * nnz ≤ pct * 32 * w.cols then
    let body := rows.flatMap (fun row => row.flatMap (fun x => leBytes 2 x.1 ++ leBytes 2 x.2))
    head 0 nnz ++ rows.flatMap (fun x => leBytes 4 x.length) ++ slice body 0 (roundUp (4 * nnz) 64)
  else head 1 0 ++ leBytes 128 0 ++ tiles.flatten

/-! ### The expander's lanes (R288, R290) -/

/-- A lane: entries left of the segment it works on, segments queued, entries decoded. -/
structure ExpLane where
  left : Nat
  queue : List Nat
  done : Nat
  deriving DecidableEq, Repr, Inhabited

/-- Segments of a row that is longer than S. -/
def segments (fuel s n : Nat) : List Nat :=
  match fuel with
  | 0 => [n]
  | k + 1 => if n ≤ s then [n] else s :: segments k s (n - s)

/-- Lanes by distance from lane i, the lower one first (R288). -/
def nearLanes (i : Nat) : List Nat :=
  (List.range 16).flatMap (fun d => (List.range 16).filter (fun j => j ≠ i && (j + d = i || i + d = j)))

/-- A lane without a segment takes its next one, or steals the last one queued at the nearest lane that has one queued besides
the one it works on; the steals. -/
def laneTake (lanes : List ExpLane) (i : Nat) : List ExpLane × Nat :=
  let l := lanes.getD i default
  match l.queue with
  | s :: t => (lanes.set i { l with left := s, queue := t }, 0)
  | [] =>
    let spare := fun (v : ExpLane) => if v.left = 0 then 2 ≤ v.queue.length else !v.queue.isEmpty
    match (nearLanes i).find? (fun j => spare (lanes.getD j default)) with
    | some j =>
      let v := lanes.getD j default
      ((lanes.set j { v with queue := v.queue.dropLast }).set i { l with left := v.queue.getLastD 0 }, 1)
    | none => (lanes, 0)

/-- Lane i decodes up to n entries of an a-cycle, from one segment into the next. -/
def laneDecode (lanes : List ExpLane) (i : Nat) : Nat → List ExpLane × Nat
  | 0 => (lanes, 0)
  | n + 1 =>
    let (lanes, st) := if (lanes.getD i default).left = 0 then laneTake lanes i else (lanes, 0)
    let l := lanes.getD i default
    if l.left = 0 then (lanes, st)
    else
      let (lanes, more) := laneDecode (lanes.set i { l with left := l.left - 1, done := l.done + 1 }) i n
      (lanes, st + more)

/-- One a-cycle of lane i: 2 entries; the steals. -/
def expLane (lanes : List ExpLane) (i : Nat) : List ExpLane × Nat := laneDecode lanes i 2

/-- All a-cycles of a panel: the lanes and the steals. -/
def expRun (fuel : Nat) (lanes : List ExpLane) (steals : Nat) : List ExpLane × Nat :=
  match fuel with
  | 0 => (lanes, steals)
  | k + 1 =>
    if lanes.all (fun l => l.left = 0 && l.queue = []) then (lanes, steals)
    else
      let (lanes, steals) := (List.range 16).foldl (fun (acc : List ExpLane × Nat) i =>
        let (ls, n) := expLane acc.1 i
        (ls, acc.2 + n)) (lanes, steals)
      expRun k lanes steals

/-- R288, R290: a panel passes the expander: a sparse one with these row counts moves the counts and `split_now`; a dense one
only brings `split_now` within its bounds. -/
def Chip.expanderPass (c : Chip) (r : Region) (b : BlockIx) (rows : Option (List Nat)) : Chip :=
  let u := UnitId.cblk r b
  let lo := max 1 (c.fld u CBLK.SPARSE_CTL_split_min)
  let hi := max 1 (c.fld u CBLK.SPARSE_CTL_split_max)
  let now := max lo (min hi (c.fld u CBLK.SPARSE_CTL_split_now))
  match rows with
  | none => c.setFld u CBLK.SPARSE_CTL_split_now now
  | some counts =>
    let nnz := counts.foldl (· + ·) 0
    let fair := ceilDiv nnz 16
    let s := max 1 (now * fair)
    let queued := fun (ls : List ExpLane) (i : Nat) =>
      let n := counts.getD i 0
      if n = 0 then ls
      else (segments n s n).zipIdx.foldl (fun (ls : List ExpLane) x =>
        let k := (i + x.2) % 16
        let l := ls.getD k default
        ls.set k { l with queue := l.queue ++ [x.1] }) ls
    let lanes := (List.range counts.length).foldl queued (List.replicate 16 (default : ExpLane))
    let (lanes, steals) := expRun (nnz + 1) lanes 0
    let busiest := lanes.foldl (fun m l => max m l.done) 0
    let c := (c.bump u CBLK.SPARSE_COUNT_steals steals).bump u CBLK.SPARSE_COUNT_split_rows
      (counts.filter (fun n => s < n)).length
    c.setFld u CBLK.SPARSE_CTL_split_now
      (if 2 * fair < busiest then max lo (now - 1) else if steals = 0 then min hi (now + 1) else now)

/-! ### Audit (R297) -/

/-- Table SPR-5: the bin of a magnitude, given as FP32 bits. -/
def auditBin (bits : Nat) : Nat :=
  let e := bits / 2 ^ 23
  if e < 119 then 0 else min 15 (e - 118)

/-- R297: a lane stored at offset 4i of an audit window, observed against the snapshot. -/
def Chip.auditLane (c : Chip) (r : Region) (b : BlockIx) (i bits : Nat) : Chip :=
  let u := UnitId.cblk r b
  let snap := (c.blk r b).snapshot
  if !c.flag u CBLK.AUDIT_STS_held || snap.length ≤ i then c
  else
    let c := c.bump u CBLK.AUDIT_COUNT_audited
    if snap.getD i true then c
    else
      let v := bits % 2 ^ 31
      let bin := auditBin v
      let c := (c.bump u CBLK.AUDIT_COUNT_inactive).bump u
        ⟨0x168 + 8 * (bin / 4), 16 * (bin % 4) + 15, 16 * (bin % 4)⟩
      let t := c.fld u CBLK.AUDIT_CTL_miss_thresh
      let nan := 0x7F800000 < v
      if nan || Val.le (Fp.fp32.val t) (Fp.fp32.val v) then (c.bump u CBLK.AUDIT_MISS_misses).raise u CBLK.ev_audit_miss
      else c

/-- R297: a committed vector store's lanes in audit windows; `on` tells which 4-byte lanes were written. -/
def Chip.auditStore (c : Chip) (r : Region) (b : BlockIx) (a : Nat) (bytes : List Byte) (on : List Bool) : Chip :=
  (List.range (bytes.length / 4)).foldl (fun c j =>
    if !on.getD j false then c
    else
      match ((List.range 8).map (c.win r b)).find? (fun w => w.kind = 3 && w.has (a + 4 * j)) with
      | some w => c.auditLane r b ((a + 4 * j - w.base) / 4) (leAt bytes (4 * j) 4)
      | none => c) c

/-! ### The commands -/

/-- SPARSE_WIN_WRITE. -/
def execSparseWinWrite (r : Region) (b : BlockIx) (win : Fin 8) (wordB : Bool) (value : Word) (s : State) :
    Host.Outcome State Fault Refusal :=
  s.onReg (.cblk r b) (fun c => c.opSparseWin r b win.val wordB value) (0x200 + 16 * win.val + 8 * bit wordB)

/-- SPARSE_CTL_WRITE. -/
def execSparseCtlWrite (r : Region) (b : BlockIx) (value : Word) (s : State) : Host.Outcome State Fault Refusal :=
  
  s.onReg (.cblk r b) (fun c => c.opSparseCtl r b value) 0x138

end Sys2Proof.Machine
end

