-- ==== Sys2Proof/Machine/Dma.lean ====
section
/-! DEFINITION. The DMA engine of a block: the checks of a descriptor (Table CELL-8, Table CELL-9), COPY through sparse
windows (R280 to R296), the fabric operations, SEND, and completion words (R217, R218). -/
namespace Sys2Proof.Machine

/-! ### Places -/

def Place.key : Place → Nat
  | .loc s o => s.base + o
  | .far r o => (Space.lintel r.val).base + o

def Place.plus : Place → Nat → Place
  | .loc s o, d => .loc s (o + d)
  | .far r o, d => .far r (o + d)

/-- How many of n bytes come before the first word or line that cannot be read (R188, Table CELL-12). -/
def Chip.goodBytes (c : Chip) (p : Place) (n : Nat) : Nat :=
  match p with
  | .far r o => match c.firstBad r o n with | some x => x - o | none => n
  | .loc s o =>
    (c.bad.filter (fun k => s.base + o < k + 8 && k < s.base + o + n)).foldl (fun m k => min m (k - (s.base + o))) n

def Chip.getPlace (c : Chip) (p : Place) (n : Nat) : List Byte := memReadN c.mem p.key n

/-- Words of a local memory that are written whole work again (Table CELL-12). -/
def Chip.healWords (c : Chip) (a n : Nat) : Chip := { c with bad := c.bad.filter (fun k => k < a || a + n < k + 8) }

/-- Write bytes of a local memory. -/
def Chip.putLocal (c : Chip) (s : Space) (o : Nat) (l : List Byte) : Chip := (c.store s o l).healWords (s.base + o) l.length

/-! ### Reads and writes of a unit

A descriptor that moves data is cut into units (a line, a tile, a panel, a neuron group, a request). The lines of Lintel
memory that a unit reads and writes pass the directory one by one, as requests of client queue 1, or 2 for a near-memory
operation (R183, R197, Table CELL-9). -/

/-- What a read of a unit's source gives: bytes, lines to be read first, or the status that stops the descriptor; `loc` when
a word of a local memory is uncorrectable. -/
inductive ReadWay where
  | bytes (l : List Byte)
  | wait (keys : List Nat)
  | fails (status : Nat) (loc : Bool)

/-- What is to be done for a unit: read lines; stop; go on at another panel; or write these bytes. -/
inductive UnitWay where
  | wait (keys : List Nat)
  | fails (status : Nat) (loc : Bool)
  | over
  | move (pos : Nat) (walk : Bool)
  | go (outs : List (Place × List Byte)) (u : DmaUnit)

/-- The unit that a read's bytes make. -/
def ReadWay.unit (w : ReadWay) (f : List Byte → UnitWay) : UnitWay :=
  match w with
  | .bytes l => f l
  | .wait ks => .wait ks
  | .fails st loc => .fails st loc

/-- A read of n bytes at a place, the lines of Lintel memory from those already read. -/
def Chip.dmaSee (c : Chip) (x : DmaRun) (p : Place) (n : Nat) : ReadWay :=
  match p with
  | .loc _ _ => if c.goodBytes p n < n then .fails 20 true else .bytes (c.getPlace p n)
  | .far q o =>
    let ks := linesOf q.val o n
    let miss := ks.filter (fun k => (Tab.find x.got k).isNone)
    if ks.any (fun k => Tab.find x.got k = some none) then .fails 20 false
    else if !miss.isEmpty then .wait miss
    else .bytes (slice (ks.flatMap (fun k => ((Tab.find x.got k).getD none).getD [])) (o % 64) n)

/-- A read at a block address (R204). -/
def Chip.dmaAt (c : Chip) (r : Region) (b : BlockIx) (x : DmaRun) (a n : Nat) : ReadWay :=
  match c.mapAddr r b .dma a n with
  | none => .fails 33 false
  | some p => c.dmaSee x p n

/-- A unit that writes at block addresses. -/
def Chip.unitTo (c : Chip) (r : Region) (b : BlockIx) (outs : List (Nat × List Byte)) (u : DmaUnit) : UnitWay :=
  let at_ := fun (o : Nat × List Byte) => (c.mapAddr r b .dma o.1 o.2.length).map (fun p => (p, o.2))
  if outs.all (fun o => (at_ o).isSome) then .go (outs.filterMap at_) u else .fails 33 false

/-! ### The units of COPY -/

/-- A dense tile as the destination takes it: transposed for a transpose target (R291). -/
def tileFor (trans : Option Win) (t : List Byte) : List Byte := if trans.isSome then transposeTile t else t

/-- Would [d, d+n) pass the transpose target's end? -/
def pastEnd (trans : Option Win) (d n : Nat) : Bool :=
  match trans with
  | some t => decide (t.base + t.size < d + n)
  | none => false

/-- One tile expanded from a 2:4 or 1:4 window (R284, R292). -/
def Chip.unitExpand (c : Chip) (r : Region) (b : BlockIx) (x : DmaRun) (w : Win) (trans : Option Win) (s d : Nat) : UnitWay :=
  if w.base + w.size < s + w.stride || pastEnd trans d 2048 then .fails 36 false
  else (c.dmaAt r b x s w.stride).unit (fun t => match w.expandTile t with
    | none => .fails 34 false
    | some dense => c.unitTo r b [(d, tileFor trans dense)] { count := 32, expanded := 1 })

/-- The walk from a window's base to a panel boundary: to `a`, or past it (R286). -/
def Chip.unitWalk (c : Chip) (r : Region) (b : BlockIx) (x : DmaRun) (a : Nat) : UnitWay :=
  if x.pos = a then .move a false
  else if a < x.pos then .fails 36 false
  else (c.dmaAt r b x x.pos 192).unit (fun h => match panelBytes h with
    | some n => .move (x.pos + n) true
    | none => .fails 36 false)

/-- One panel expanded (R286, R288, R292). -/
def Chip.unitPanel (c : Chip) (r : Region) (b : BlockIx) (x : DmaRun) (w : Win) (trans : Option Win) (d : Nat) : UnitWay :=
  if w.base + w.size < x.pos + 192 || pastEnd trans d (2048 * w.shape) then .fails 36 false
  else (c.dmaAt r b x x.pos 192).unit (fun h =>
    let n := (panelBytes h).getD 192
    if !w.headOk h then .fails 34 false
    else if w.base + w.size < x.pos + n then .fails 36 false
    else (c.dmaAt r b x x.pos n).unit (fun t =>
      if !w.entriesOk t then .fails 34 false
      else c.unitTo r b [(d, ((w.panelTiles t).map (tileFor trans)).flatten)]
        { count := 32 * w.shape
          expanded := w.shape
          panel := some (if leAt t 6 1 = 0 then some ((List.range 32).map (fun k => leAt t (64 + 4 * k) 4)) else none)
          next := x.pos + n }))

/-- One tile compressed into a 2:4 or 1:4 window (R285, R292). -/
def Chip.unitCompress (c : Chip) (r : Region) (b : BlockIx) (x : DmaRun) (w : Win) (s d : Nat) : UnitWay :=
  if w.base + w.size < d + w.stride then .fails 36 false
  else (c.dmaAt r b x s 2048).unit (fun t =>
    (if w.keepMask then c.dmaAt r b x d w.stride else .bytes []).unit (fun held =>
      let (st, out, dropped) := w.compressTile t held
      if st ≠ 0 then .fails st false
      else c.unitTo r b [(d, out)]
        { count := w.stride / 64, compressed := 1, dropped := if w.keepMask then dropped else 0 }))

/-- One panel compressed (R287, R292). -/
def Chip.unitBuild (c : Chip) (r : Region) (b : BlockIx) (x : DmaRun) (w : Win) (s : Nat) : UnitWay :=
  (c.dmaAt r b x s (2048 * w.shape)).unit (fun t =>
    let pct := max 1 (min 100 (c.fld (.cblk r b) CBLK.SPARSE_CTL_dense_pct))
    let out := w.buildPanel pct ((List.range w.shape).map (fun i => slice t (2048 * i) 2048))
    if w.base + w.size < x.pos + out.length then .fails 36 false
    else c.unitTo r b [(x.pos, out)] { count := out.length / 64, compressed := w.shape, next := x.pos + out.length })

/-- R294: tile kt of the packed neurons of a group, as the columns of a dense tile; those beyond them are +0. -/
def Win.packTile (w : Win) (got : List (List Byte)) (kt : Nat) : List Byte :=
  tileOf w.e w.n (fun k n => match got[n]? with
    | some l => leAt l ((32 * kt + k) * w.e) w.e
    | none => 0)

/-- The neurons of a group in ascending order, up to the first that cannot be read, and what stops there. -/
def Chip.seeNeurons (c : Chip) (r : Region) (b : BlockIx) (x : DmaRun) (w : Win) (nb : Nat) :
    List Nat → List (List Byte) × ReadWay
  | [] => ([], .bytes [])
  | a :: t =>
    if w.base + w.size < a + nb then ([], .fails 36 false)
    else match c.dmaAt r b x a nb with
      | .bytes l => ((l :: (c.seeNeurons r b x w nb t).1), (c.seeNeurons r b x w nb t).2)
      | way => ([], way)

/-- The next group of active neurons (R294). After a failure the neurons before it stand whole, and nothing beyond them is
written: their columns alone, which are rows in a transpose target. -/
def Chip.unitNeurons (c : Chip) (r : Region) (b : BlockIx) (x : DmaRun) (w : Win) (trans : Option Win) (d : Nat) : UnitWay :=
  let nb := 32 * w.shape * w.e
  let d := d + 2048 * w.shape * x.i
  if x.take.isEmpty then .over
  else if pastEnd trans d (2048 * w.shape) then .fails 36 false
  else
    let (got, way) := c.seeNeurons r b x w nb (x.take.take w.n)
    let tiles := (List.range w.shape).map (fun kt => tileFor trans (w.packTile got kt))
    let u : DmaUnit := { count := got.length, expanded := w.shape }
    match way with
    | .wait ks => .wait ks
    | .bytes _ => c.unitTo r b [(d, tiles.flatten)] u
    | .fails st loc =>
      if got.isEmpty then .fails st loc
      else
        let cut := fun (i : Nat) (t : List Byte) =>
          if trans.isSome then [(d + 2048 * i, slice t 0 (64 * got.length))]
          else (List.range 32).map (fun k => (d + 2048 * i + 64 * k, slice t (64 * k) (w.e * got.length)))
        c.unitTo r b (tiles.zipIdx.flatMap (fun t => cut t.2 t.1)) { u with stop := some st }

/-! ### The units of the near-memory operations (R198) -/

/-- A read of the region endpoint that holds the destination. -/
def Chip.unitNear (c : Chip) (e : DmaE) (x : DmaRun) : UnitWay :=
  let (dr, d) := (windowOf e.dst).getD (0, 0)
  let (_, s) := (windowOf e.src).getD (dr, 0)
  let (_, ix) := (windowOf e.aux).getD (dr, 0)
  let r := regionOf dr
  let see := fun o n => c.dmaSee x (.far r o) n
  let put := fun o l k => UnitWay.go [(.far r o, l)] { count := k }
  let el := 2 ^ e.elemLog2
  match x.plan with
  | .zero => if e.length ≤ 64 * x.i then .over else put (d + 64 * x.i) (List.replicate 64 0) 1
  | .ncopy => if e.length ≤ 64 * x.i then .over else (see (s + 64 * x.i) 64).unit (fun l => put (d + 64 * x.i) l 1)
  | .gather =>
    if e.length ≤ x.i then .over
    else (see (ix + 4 * x.i) 4).unit (fun i =>
      let o := s + leNat i * el
      if !c.nearIn r o el then .fails 21 false
      else (see o el).unit (fun l => put (d + x.i * el) l 1))
  | _ =>
    let k := dequantRatio e.inFmt e.outFmt
    if e.length ≤ 64 * x.i then .over
    else (see (s + 64 * x.i) 64).unit (fun l => put (d + 64 * k * x.i) (dequantLine e.inFmt e.outFmt l) k)

/-! ### The next unit of a descriptor -/

/-- The offsets and sizes of the parts of [a, a+n) split at 4 KiB boundaries. -/
def splitParts (fuel a n off : Nat) : List (Nat × Nat) :=
  match fuel with
  | 0 => []
  | k + 1 =>
    if n ≤ off then []
    else
      let m := min (n - off) (4096 - (a + off) % 4096)
      (off, m) :: splitParts k a n (off + m)

/-- The split requests of a FAB_READ or FAB_WRITE, in address order (Table CELL-9). -/
def DmaE.split (e : DmaE) : List (Nat × Nat) :=
  splitParts (e.length / 4096 + 2) (if e.op = 2 then e.dst else e.src) e.length 0

def Chip.unitOf (c : Chip) (r : Region) (b : BlockIx) (e : DmaE) (x : DmaRun) : UnitWay :=
  let s := e.src
  let d := e.dst
  let n := e.length
  match x.plan with
  | .raw =>
    if n ≤ 64 * x.i then .over
    else (c.dmaAt r b x (s + 64 * x.i) 64).unit (fun l => c.unitTo r b [(d + 64 * x.i, l)] { count := 1 })
  | .tiles t =>
    if n ≤ 2048 * x.i then .over
    else if pastEnd (some t) (d + 2048 * x.i) 2048 then .fails 36 false
    else (c.dmaAt r b x (s + 2048 * x.i) 2048).unit (fun l =>
      c.unitTo r b [(d + 2048 * x.i, transposeTile l)] { count := 32 })
  | .expand w onto =>
    if n ≤ 2048 * x.i then .over else c.unitExpand r b x w onto (s + w.stride * x.i) (d + 2048 * x.i)
  | .panels w onto =>
    if x.walk then c.unitWalk r b x s
    else if n ≤ 2048 * w.shape * x.i then .over
    else c.unitPanel r b x w onto (d + 2048 * w.shape * x.i)
  | .compress w =>
    if n ≤ 2048 * x.i then .over else c.unitCompress r b x w (s + 2048 * x.i) (d + w.stride * x.i)
  | .build w =>
    if x.walk then c.unitWalk r b x d
    else if n ≤ 2048 * w.shape * x.i then .over
    else c.unitBuild r b x w (s + 2048 * w.shape * x.i)
  | .predicted w onto => c.unitNeurons r b x w onto d
  | .zero | .ncopy | .gather | .dequant => c.unitNear e x
  | .fabWrite => match e.split[x.i]? with
    | some (off, m) => (c.dmaAt r b x (s + off) m).unit (fun l => .go [] { count := 0, data := l })
    | none => .over
  | .send =>
    if n = 0 then .go [] { count := 0 } else (c.dmaAt r b x s n).unit (fun l => .go [] { count := 0, data := l })

/-! ### A descriptor -/

/-- R218: BAD_DESC: a reserved op, a reserved field, or a limit of Table CELL-9; `runs` tells whether the issuing cell runs an
invocation. -/
def DmaE.badDesc (e : DmaE) (runs : Bool) : Bool :=
  8 < e.op || getBits (e.word 0) 2 0 ≠ 0 || getBits (e.word 4) 63 31 ≠ 0 || getBits (e.word 5) 63 10 ≠ 0
    || getBits (e.word 6) 63 16 ≠ 0
    || (match e.op with
        | 0 => e.length % 64 ≠ 0 || e.length = 0 || 2 ^ 30 < e.length || e.src % 64 ≠ 0 || e.dst % 64 ≠ 0
        | 1 | 2 => e.length = 0
        | 3 => !(2 ≤ e.amo && e.amo ≤ 11)
        | 4 => 8192 < e.length || (e.asResult && !runs)
        | 8 => 1 < e.inFmt || 2 < e.outFmt
        | _ => false)

/-- May a near-memory operand name this address: Lintel memory that the block's job reaches (R204)? -/
def Chip.nearOpen (c : Chip) (r : Region) (b : BlockIx) (a : Nat) : Bool :=
  match windowOf a with
  | some (q, _) => c.lintelOpen r b (regionOf q)
  | none => false

/-- One request of a fabric descriptor. -/
def Chip.fabPart (c : Chip) (r : Region) (b : BlockIx) (e : DmaE) (op part addr size : Nat) (payload : List Byte) : Chip :=
  let (c, id) := c.fabOwn r e.tc op (op ≥ 2 && e.wide) false e.key e.tag e.epid (c.holder (.cblk r b))
    (BitVec.ofNat 64 addr) size payload
  c.modFab r (fun f => { f with owners := Tab.put f.owners id (.dma b.val e.ix part) })

/-- A descriptor's result: its status and count, and the flag of an audited copy (R294). -/
def Chip.dmaResult (c : Chip) (r : Region) (b : BlockIx) (ix st n : Nat) : Chip :=
  c.modDma (blkNo r b) ix (fun d => { d with
    result := some (st, n + (if d.snapshot.isSome then 2 ^ 55 else 0))
    run := none
    wants := [] })

/-- SEND (Table CELL-9): the packet with its payload. -/
def Chip.sendNow (c : Chip) (r : Region) (b : BlockIx) (e : DmaE) (l : List Byte) : Chip :=
  if e.asResult then
    match c.entryOf r b e.cell with
    | none => c.dmaResult r b e.ix 32 0
    | some q =>
      let c := c.send r (c.resultPacket r q.pkt b.val 0 false 0 q.sent l)
      (c.modWq r b q.n (fun x => { x with sent := x.sent + 1 })).dmaResult r b e.ix 0 e.length
  else
    (c.send r (mkPacket 0 e.tc false e.epid (c.epid r) (c.holder (.cblk r b)) (BitVec.ofNat 64 e.tag) 0 0 l)).dmaResult r b
      e.ix 0 e.length

/-- A descriptor ends with a status at its unit x.i. A FAB_WRITE goes on until its requests have been answered (R218). -/
def Chip.dmaOver (c : Chip) (r : Region) (b : BlockIx) (e : DmaE) (x : DmaRun) (st : Nat) : Chip :=
  match x.plan with
  | .fabWrite =>
    c.modDma (blkNo r b) e.ix (fun d => { d with
      run := none
      wants := []
      parts := d.parts ++ (if st = 0 then [] else match e.split[x.i]? with
        | some (off, n) => [(off, n, some st)]
        | none => []) })
  | .zero | .ncopy | .gather => (c.nearEnd e st).dmaResult r b e.ix st x.count
  | .dequant => (c.nearEnd e st).dmaResult r b e.ix st (x.count + x.wrote)
  | _ => c.dmaResult r b e.ix st x.count

/-- A unit has been written: the counters it moves, and the next unit. -/
def Chip.unitDone (c : Chip) (r : Region) (b : BlockIx) (e : DmaE) (x : DmaRun) (u : DmaUnit) : Chip :=
  let t := UnitId.cblk r b
  let c := match u.panel with | some p => c.expanderPass r b p | none => c
  let c := if u.expanded = 0 then c else c.wrap t CBLK.EXPAND_COUNT_tiles_expanded u.expanded
  let c := if u.compressed = 0 then c else c.wrap t CBLK.EXPAND_COUNT_tiles_compressed u.compressed
  let c := if u.dropped = 0 then c else c.bump t CBLK.SPARSE_COUNT_dropped u.dropped
  let c := match x.plan with
    | .fabWrite => match e.split[x.i]? with
      | some (off, n) => (c.fabPart r b e 1 x.i (e.dst + off) n u.data).modDma (blkNo r b) e.ix (fun d => { d with
          parts := d.parts ++ [(off, n, none)] })
      | none => c
    | _ => c
  c.modDma (blkNo r b) e.ix (fun d => { d with run := some { x with
    i := x.i + 1
    count := x.count + u.count
    pos := u.next
    take := x.take.drop u.count
    got := []
    unit := none
    wrote := 0 } })

/-- The lines of Lintel memory that [o, o+n) of region q is cut into: key, offset within the line, bytes. -/
def cutLines (q o : Nat) (l : List Byte) : List (Nat × Nat × List Byte) :=
  (linesOf q o l.length).map (fun k =>
    let from_ := max o (keyOffset k)
    let to_ := min (o + l.length) (keyOffset k + 64)
    (k, from_ - keyOffset k, slice l (from_ - o) (to_ - from_)))

/-- Writes of a unit or a response: local ones at once; the lines to write in Lintel memory. -/
def Chip.dmaPut (c : Chip) (outs : List (Place × List Byte)) (part : Nat) :
    Chip × List (Nat × Nat × Option (Nat × List Byte)) :=
  outs.foldl (fun (a : Chip × List (Nat × Nat × Option (Nat × List Byte))) o =>
    match o.1 with
    | .loc s p => (a.1.putLocal s p o.2, a.2)
    | .far q p => (a.1, a.2 ++ (cutLines q.val p o.2).map (fun x => (part, x.1, some x.2)))) (c, [])

/-- The descriptor's next line is asked for once its stack's queue has room (R183). -/
def Chip.dmaPush (c : Chip) (b ix : Nat) : Chip :=
  match c.dmaOf b ix with
  | none => c
  | some e => match e.wants, e.out with
    | (part, k, put) :: _, false =>
      let s := keyStack k
      let client := if 5 ≤ e.op && e.op ≤ 8 then 2 else 1
      if (c.memS s).room client then
        (c.memAsk s client 0 0 (.line b ix part k put)).modDma b ix (fun d => { d with out := true })
      else c
    | _, _ => c

/-- The descriptor goes on until it needs a line of Lintel memory or is over. -/
def Chip.dmaGo (c : Chip) (r : Region) (b : BlockIx) (ix : Nat) : Nat → Chip
  | 0 => c
  | fuel + 1 =>
    let want := fun (c : Chip) (l : List (Nat × Nat × Option (Nat × List Byte))) =>
      (c.modDma (blkNo r b) ix (fun d => { d with wants := l })).dmaPush (blkNo r b) ix
    let setRun := fun (c : Chip) (x : DmaRun) => c.modDma (blkNo r b) ix (fun d => { d with run := some x })
    match c.dmaOf (blkNo r b) ix with
    | none => c
    | some e => match e.run with
      | none => c
      | some x => match x.bad, x.unit with
        | some st, _ => c.dmaOver r b e x st
        | none, some u =>
          let c := c.unitDone r b e x u
          match u.stop, x.plan with
          | some st, _ => c.dmaOver r b e { x with count := x.count + u.count } st
          | none, .send => c.sendNow r b e u.data
          | none, _ => c.dmaGo r b ix fuel
        | none, none => match c.unitOf r b e x with
          | .wait ks => want c (ks.map (fun k => (0, k, none)))
          | .fails st loc => (if loc then c.bump (.cblk r b) CBLK.ECC_COUNT_ue else c).dmaOver r b e x st
          | .over => c.dmaOver r b e x 0
          | .move pos walk => (setRun c { x with pos := pos, walk := walk, got := [] }).dmaGo r b ix fuel
          | .go outs u =>
            let (c, wants) := c.dmaPut outs 0
            let c := setRun c { x with unit := some u }
            if wants.isEmpty then c.dmaGo r b ix fuel else want c wants

/-- The steps that local memories can feed a descriptor of n bytes without a line of Lintel memory: units and panels. -/
abbrev dmaFuel (n : Nat) : Nat := n / 8 + 65536

def Chip.dmaResume (c : Chip) (r : Region) (b : BlockIx) (ix : Nat) : Chip :=
  match c.dmaOf (blkNo r b) ix with
  | some e => c.dmaGo r b ix (dmaFuel e.length)
  | none => c

/-- A descriptor begins its units. -/
def Chip.dmaRun (c : Chip) (r : Region) (b : BlockIx) (ix : Nat) (x : DmaRun) : Chip :=
  (c.modDma (blkNo r b) ix (fun d => { d with run := some x })).dmaResume r b ix

/-- The bytes COPY moves at once between two local memories. -/
def Chip.copyLocal (c : Chip) (r : Region) (b : BlockIx) (ix : Nat) (s d : Place) (n : Nat) : Chip :=
  let m := c.goodBytes s n / 64 * 64
  let c := { c with mem := memMove c.mem s.key d.key m }.healWords d.key m
  if m < n then (c.bump (.cblk r b) CBLK.ECC_COUNT_ue).dmaResult r b ix 20 (m / 64) else c.dmaResult r b ix 0 (n / 64)

/-- COPY (Table CELL-9, R280): what its windows make of it, or the status of a check of Table SPR-4 that fails before any
unit. -/
def Chip.copyPlan (c : Chip) (r : Region) (b : BlockIx) (s d n : Nat) : Except Nat DmaRun :=
  let wins := (List.range 8).map (c.win r b)
  let from_ := wins.find? (fun w => w.kind = 1 && w.has s)
  let into := wins.find? (fun w => w.kind = 1 && w.has d)
  let trans := wins.find? (fun w => w.kind = 2 && w.has d)
  let off := match trans with | some t => decide ((d - t.base) % 2048 ≠ 0) | none => false
  let eight := fun (w : Win) => trans.isSome && w.elem = 1
  match from_, into with
  | some _, some _ => .error 36
  | some w, none =>
    let panel := 2048 * w.shape
    let neuron := 32 * w.shape * w.e
    let bad := off || eight w || (match w.format with
      | 3 => decide ((s - w.base) % neuron ≠ 0 || n % neuron ≠ 0 || 4096 < n / neuron)
      | 2 => decide (n % panel ≠ 0)
      | _ => decide (n % 2048 ≠ 0 || (s - w.base) % w.stride ≠ 0))
    if bad then .error 36
    else match w.format with
      | 3 => .ok { plan := .predicted w trans }
      | 2 => .ok { plan := .panels w trans, pos := w.base, walk := true }
      | _ => .ok { plan := .expand w trans }
  | none, into =>
    if wins.any (fun w => w.kind = 1 && w.meets s n) then .error 36
    else match into with
    | some w =>
      let bad := w.format = 3 || n % 2048 ≠ 0 || (if w.format = 2 then n % (2048 * w.shape) ≠ 0 else (d - w.base) % w.stride ≠ 0)
      if bad then .error 36
      else if w.format = 2 then .ok { plan := .build w, pos := w.base, walk := true }
      else .ok { plan := .compress w }
    | none => match trans with
      | some t => if off || n % 2048 ≠ 0 then .error 36 else .ok { plan := .tiles t }
      | none => .ok { plan := .raw }

/-- R294, R296: a predicted COPY starts: it is counted, its bitmap read, and an audited one takes every neuron. -/
def Chip.predictedStart (c : Chip) (r : Region) (b : BlockIx) (e : DmaE) (w : Win) (x : Except Nat DmaRun) : Chip :=
  let u := UnitId.cblk r b
  let cnt := (c.blk r b).predicted + 1
  let c := c.modBlk r b (fun y => { y with predicted := cnt })
  let every := c.fld u CBLK.AUDIT_CTL_audit_n
  let audited := every ≠ 0 && cnt % every = 0
  let nb := 32 * w.shape * w.e
  let first := (e.src - w.base) / nb
  let k := e.length / nb
  match x with
  | .error st => c.dmaResult r b e.ix st 0
  | .ok x => match c.dmaAt r b x (w.aux + first / 8) (ceilDiv (first % 8 + k) 8) with
    | .fails st loc => (if loc then c.bump u CBLK.ECC_COUNT_ue else c).dmaResult r b e.ix st 0
    | .wait _ => c.dmaResult r b e.ix 33 0
    | .bytes map =>
      let on := (List.range k).map (fun j => bitAt (wordAt map ((first % 8 + j) / 8)) ((first % 8 + j) % 8))
      let take := ((List.range k).filter (fun j => audited || on.getD j false)).map (fun j => e.src + j * nb)
      (c.modDma (blkNo r b) e.ix (fun d => { d with snapshot := if audited then some (first, on) else none })).dmaRun r b e.ix
        { x with take := take }

/-- COPY starts. -/
def Chip.copyStart (c : Chip) (r : Region) (b : BlockIx) (e : DmaE) : Chip :=
  let plan := c.copyPlan r b e.src e.dst e.length
  match ((List.range 8).map (c.win r b)).find? (fun w => w.kind = 1 && w.has e.src && w.format = 3) with
  | some w => c.predictedStart r b e w plan
  | none => match plan with
    | .error st => c.dmaResult r b e.ix st 0
    | .ok x =>
      if x.plan ≠ .raw then c.dmaRun r b e.ix x
      else match c.mapAddr r b .dma e.src e.length, c.mapAddr r b .dma e.dst e.length with
        | some (.loc s o), some (.loc t p) => c.copyLocal r b e.ix (.loc s o) (.loc t p) e.length
        | some _, some _ => c.dmaRun r b e.ix x
        | _, _ => c.dmaResult r b e.ix 33 0

/-- FAB_READ and FAB_WRITE (R218): requests in address order; those of a FAB_WRITE follow the reads of their data. -/
def Chip.fabStart (c : Chip) (r : Region) (b : BlockIx) (e : DmaE) : Chip :=
  match c.mapAddr r b .dma (if e.op = 2 then e.src else e.dst) e.length with
  | none => c.dmaResult r b e.ix 33 0
  | some _ =>
    if e.op = 2 then c.dmaRun r b e.ix { plan := .fabWrite }
    else
      let c := c.modDma (blkNo r b) e.ix (fun x => { x with parts := e.split.map (fun y => (y.1, y.2, none)) })
      e.split.zipIdx.foldl (fun c y => c.fabPart r b e 0 y.2 (e.src + y.1.1) y.1.2 []) c

/-- A near-memory operation starts: the checks of R198, then its first line step. -/
def Chip.nearStart (c : Chip) (r : Region) (b : BlockIx) (e : DmaE) : Chip :=
  match c.nearPlan e with
  | .error st => (c.nearEnd e st).dmaResult r b e.ix (16 + st) 0
  | .ok plan => c.dmaRun r b e.ix { plan := plan }

/-- R218: a descriptor starts. -/
def Chip.dmaStart (c : Chip) (r : Region) (b : BlockIx) (e : DmaE) : Chip :=
  let runs := (c.entryOf r b e.cell).isSome
  let c := c.modDma (blkNo r b) e.ix (fun x => { x with started := true })
  if e.badDesc runs then c.dmaResult r b e.ix 32 0
  else match e.op with
    | 0 => c.copyStart r b e
    | 1 | 2 => c.fabStart r b e
    | 3 =>
      let c := c.modDma (blkNo r b) e.ix (fun x => { x with parts := [(0, 0, none)] })
      c.fabPart r b e e.amo 0 e.dst (if e.wide then 8 else 4)
        (wordBytes (e.word 3) ++ (if e.amo = 11 then wordBytes (e.word 7) else []))
    | 4 => c.dmaRun r b e.ix { plan := .send }
    | op =>
      let named := [e.dst] ++ (if op = 6 then [] else [e.src]) ++ (if op = 5 then [e.aux] else [])
      if named.all (c.nearOpen r b) then c.nearStart r b e else c.dmaResult r b e.ix 33 0

/-- The status of part `part` of a fabric descriptor is known. -/
def Chip.partDone (c : Chip) (b ix part st : Nat) : Chip :=
  c.modDma b ix (fun x => { x with
    parts := match x.parts[part]? with
      | some (off, n, _) => x.parts.set part (off, n, some st)
      | none => x.parts })

/-- A MEM_RSP for part `part` of a descriptor arrives (Table CELL-9): its data land at `dst`. -/
def Chip.dmaAnswer (c : Chip) (r : Region) (b : BlockIx) (ix part : Nat) (rsp : Packet) : Chip :=
  let k := blkNo r b
  match c.dmaOf k ix with
  | none => c
  | some e =>
    let (off, n, _) := e.parts.getD part (0, 0, none)
    if e.op = 1 && rsp.status = 0 then
      match c.mapAddr r b .dma (e.dst + off) n with
      | none => c.partDone k ix part 33
      | some p =>
        let (c, wants) := c.dmaPut [(p, rsp.payload)] part
        if wants.isEmpty then c.partDone k ix part 0
        else (c.modDma k ix (fun d => { d with wants := d.wants ++ wants })).dmaPush k ix
    else
      let c := c.partDone k ix part rsp.status
      if e.op = 3 then c.modDma k ix (fun x => { x with result := some (rsp.status, leAt rsp.payload 0 8) }) else c

/-! ### The engine's lines -/

/-- A line that a descriptor read: its bytes, or none when it is uncorrectable, which ends the unit's reads. -/
def Chip.lineRead (c : Chip) (client b ix k : Nat) (seen : List EccSeen) : Chip :=
  let (c, bad) := c.readLine k client 0 0 (wrongSymbols seen 0)
  let data := if bad then none else some (memReadN c.mem k 64)
  c.modDma b ix (fun d => { d with
    out := false
    wants := if bad then [] else d.wants.tail
    run := d.run.map (fun x => { x with got := Tab.put x.got k data }) })

/-- A line that a descriptor writes; one that is refused (R188, R192) ends the descriptor, or its part of a FAB_READ. -/
def Chip.lineWritten (c : Chip) (client b ix part k o : Nat) (l : List Byte) (seen : List EccSeen) : Chip :=
  let (c, bad) := if l.length < 64 then c.readLine k client 0 0 (wrongSymbols seen 0) else (c, false)
  let shut := !c.lineWritable k
  let c := if bad then c else if shut then c.lineUe k client 0 0 else c.writeLintel (keyRegion k).val (keyOffset k + o) l
  let no := bad || shut
  let more := match c.dmaOf b ix with | some e => e.wants.tail.any (fun w => w.1 = part) | none => false
  let c := c.modDma b ix (fun d => { d with
    out := false
    wants := if no then d.wants.tail.filter (fun w => w.1 ≠ part) else d.wants.tail
    run := d.run.map (fun x => { x with
      wrote := if no then x.wrote else x.wrote + 1
      bad := if no then some 20 else x.bad }) })
  match c.dmaOf b ix with
  | some e => if e.op = 1 && (no || !more) then c.partDone b ix part (if no then 20 else 0) else c
  | none => c

/-- A descriptor's line request is performed, and the descriptor goes on. -/
def Chip.lineDone (c : Chip) (client b ix part k : Nat) (put : Option (Nat × List Byte)) (seen : List EccSeen) : Chip :=
  let c := match put with
    | none => c.lineRead client b ix k seen
    | some (o, l) => c.lineWritten client b ix part k o l seen
  match c.dmaOf b ix with
  | some e =>
    if e.wants.isEmpty then c.dmaResume (regionOf (b / 16)) ⟨b % 16, Nat.mod_lt _ (by decide)⟩ ix else c.dmaPush b ix
  | none => c

/-- Descriptors whose next line waits for room in a queue ask again. -/
def Chip.feedDma (c : Chip) : Chip :=
  c.blocks.foldl (fun c b => b.2.dma.foldl (fun c e => if e.wants.isEmpty || e.out then c else c.dmaPush b.1 e.ix) c) c

/-! ### Completion -/

/-- Status and count of a fabric descriptor whose requests have all been answered (R218). -/
def fabResult (parts : List (Nat × Nat × Option Nat)) : Option (Nat × Nat) :=
  if parts.any (fun p => p.2.2.isNone) then none
  else
    let ok := parts.takeWhile (fun p => p.2.2 = some 0)
    some (((parts.drop ok.length).head?.bind (·.2.2)).getD 0, ok.foldl (fun n p => n + p.2.1) 0)

/-- What a descriptor that is over reports. -/
def DmaE.report (e : DmaE) : Option (Nat × Nat) :=
  match e.result with
  | some x => some x
  | none => if (e.op = 1 || e.op = 2) && e.started && e.run.isNone && !e.parts.isEmpty then fabResult e.parts else none

/-- R218: completion word, counts, event; the audit snapshot comes into force (R296). Where an atomic failed or the op is
reserved the spec gives the count no meaning: a free value (log 5). -/
def Chip.dmaFinish (c : Chip) (r : Region) (b : BlockIx) (e : DmaE) (st n : Nat) : Chip :=
  let u := UnitId.cblk r b
  let c := match e.snapshot with
    | some (first, bits) =>
      let c := (((c.setFld u CBLK.AUDIT_STS_held 1).setFld u CBLK.AUDIT_STS_neurons bits.length).setFld u
        CBLK.AUDIT_STS_first first).bump u CBLK.AUDIT_MISS_copies_audited
      c.modBlk r b (fun x => { x with snapshot := bits })
    | none => c
  let open_ := st ≠ 0 && (e.op = 3 || 8 < e.op)
  let v := if open_ then c.freeVal 56 else n % 2 ^ 56
  let c := if open_ then c.freeNext else c
  let c := c.putLocal (.tdm r.val b.val (c.physCell r b e.cell)) (8 * e.done) (leBytes 8 (st * 2 ^ 56 + v))
  let c := c.wrap u (CBLK.CELL_COUNT_dma_done.plus (16 * e.cell))
  let c := (c.modBlk r b (fun x => { x with dma := x.dma.filter (fun y => y.ix ≠ e.ix) })).wrap u CBLK.DMA_COUNT_descriptors
  let c := if st = 0 then c else (c.bump u CBLK.DMA_COUNT_dma_errors).error u CBLK.ev_dma_error 0x4B
    [setBits (setBits (setBits 0 3 0 e.cell) 7 4 (c.physCell r b e.cell)) 15 8 st, 0, c.capInv r b e.cell]
  c.blkShow r b

/-! ### The commands -/

/-- DMA_DESCRIPTOR_START. -/
def execDmaDescriptorStart (r : Region) (b : BlockIx) (s : State) : Host.Outcome State Fault Refusal :=
  s.onBlock r b (fun c =>
    let q := (c.blk r b).dma
    match q.find? (fun e => !e.started) with
    | some e =>
      if e.fence && (q.head?.map (·.ix)) ≠ some e.ix then c
      else c.dmaStart r b e
    | none => c)

/-- DMA_COMPLETE: descriptor `ix` of the block is over. -/
def execDmaComplete (r : Region) (b : BlockIx) (ix : Nat) (s : State) : Host.Outcome State Fault Refusal :=
  s.onBlock r b (fun c => match c.dmaOf (blkNo r b) ix with
    | some e => match e.report with
      | some (st, n) => c.dmaFinish r b e st n
      | none => c
    | none => c)

end Sys2Proof.Machine
end

