-- ==== Sys2Proof/Machine/Tack.lean ====
section
/-! DEFINITION. What the slots of a bundle do to a cell's registers: the tack unit's arithmetic (R219, R241), address
generators (R250), loop nests (R252 to R255) and the register effects of the sync slot. -/
namespace Sys2Proof.Machine

/-! ### The tack unit -/

/-- Division of Table CELL-10: 6 DIV, 7 DIVU, 8 REM, 9 REMU. -/
def tackDiv (op : Nat) (x y : Word) : Word :=
  match op with
  | 6 => if y = 0 then BitVec.allOnes 64 else x.sdiv y
  | 7 => if y = 0 then BitVec.allOnes 64 else x / y
  | 8 => if y = 0 then x else x.srem y
  | _ => if y = 0 then x else x % y

/-- R-format operations 0x01 to 0x12 (Table BND-3). -/
def tackAlu (op : Nat) (x y : Word) : Word :=
  match op with
  | 0x01 => x + y
  | 0x02 => x - y
  | 0x03 => x * y
  | 0x04 => BitVec.ofInt 64 (x.toInt * y.toInt / 2 ^ 64)
  | 0x05 => BitVec.ofNat 64 (x.toNat * y.toNat / 2 ^ 64)
  | 0x06 | 0x07 | 0x08 | 0x09 => tackDiv op x y
  | 0x0A => x &&& y
  | 0x0B => x ||| y
  | 0x0C => x ^^^ y
  | 0x0D => x <<< (y.toNat % 64)
  | 0x0E => x >>> (y.toNat % 64)
  | 0x0F => x.sshiftRight (y.toNat % 64)
  | 0x10 => if x = y then 1 else 0
  | 0x11 => if x.slt y then 1 else 0
  | _ => if x.ult y then 1 else 0

/-- Bytes of a tack load or store. -/
def tackSize (op : Nat) : Nat :=
  if op ≤ 0x36 then 2 ^ ((op - 0x30) / 2) else 2 ^ (op - 0x38)

/-- The register value of loaded bytes: odd opcodes below LD64 are unsigned forms (Table BND-3). -/
def loadValue (op : Nat) (l : List Byte) : Word :=
  let v := leNat l
  if op = 0x36 || op % 2 = 1 then BitVec.ofNat 64 v else BitVec.ofInt 64 (signedOf (8 * l.length) v)

/-- Is the branch taken? -/
def branchTaken (op : Nat) (x y : Word) : Bool :=
  match op with
  | 0x60 => x = y
  | 0x61 => x ≠ y
  | 0x62 => x.slt y
  | 0x63 => !x.slt y
  | 0x64 => x.ult y
  | _ => !x.ult y

/-- Table FAB-3 code of a tack atomic. -/
def tackAmoOp (op : Nat) : Nat := [2, 3, 8, 9, 4, 5, 6, 7, 10, 11].getD (op % 16) 2

def isAmo (op : Nat) : Bool := 0x40 ≤ op && op ≤ 0x59
def isLoad (op : Nat) : Bool := 0x30 ≤ op && op ≤ 0x36
def isStore (op : Nat) : Bool := 0x38 ≤ op && op ≤ 0x3B

/-- Address and size of the scalar slot's memory access. -/
def Core.tackAccess (c : Core) (s : Nat) : Option (Nat × Nat) :=
  let op := scOp s
  let x := c.t (scB s)
  if isLoad op || isStore op then some ((x + scImm s).toNat, tackSize op)
  else if isAmo op then some (x.toNat, if op < 0x50 then 4 else 8)
  else if op = 0x72 then some (x.toNat, 64)
  else none

/-- The results of operations that need no memory, register page or time; none where the slot writes no such result. -/
def Core.tackResult (c : Core) (s next : Nat) : Option Word :=
  let op := scOp s
  let x := c.t (scB s)
  if 1 ≤ op && op ≤ 0x12 then some (tackAlu op x (c.t (scC s)))
  else if 0x20 ≤ op && op ≤ 0x23 then some (tackAlu ([0x01, 0x0A, 0x0B, 0x0C].getD (op - 0x20) 0x01) x (scImm s))
  else if op = 0x24 then some ((BitVec.ofNat 20 (natBits s 19 0)).signExtend 64)
  else if op = 0x25 then some (BitVec.ofNat 64 (natBits s 31 0 * 2 ^ 32 + x.toNat % 2 ^ 32))
  else if op = 0x66 then some (BitVec.ofNat 64 next)
  else none

/-- Where the scalar slot sends the cell: the branch target, or the sequential address. -/
def Core.tackNext (c : Core) (s next : Nat) : Nat :=
  let op := scOp s
  if 0x60 ≤ op && op ≤ 0x65 then (if branchTaken op (c.t (scA s)) (c.t (scB s)) then scTarget s else next)
  else if op = 0x66 then scTarget s
  else if op = 0x67 then (c.t (scB s)).toNat
  else next

/-! ### Address generators -/

def Core.ag (c : Core) (i : Nat) : AddrGen := Tab.get c.ags i {}
def Core.loop (c : Core) (l : Nat) : LoopL := c.loops.getD l {}
/-- Iteration index of a level; 0 while it is not active. -/
def Core.idx (c : Core) (l : Nat) : Nat := if (c.loop l).active then (c.loop l).idx else 0

/-- R250. -/
def Core.slotAddr (c : Core) (x : Nat) : Nat :=
  let g := c.ag (lsAg x)
  let step := fun l => BitVec.ofNat 64 (c.idx l) * ((g.inc.getD l 0).signExtend 64)
  let off := BitVec.ofInt 64 (lsOff x) + step 0 + step 1 + step 2 + step 3
  let off := if g.modLog2 ≠ 0 then off &&& BitVec.ofNat 64 (2 ^ g.modLog2 - 1) else off
  (g.base + off).toNat

/-! ### Loop nests -/

/-- R255, level by level from 3 down; none of the outer ones is looked at after a loop-back. -/
def loopStep (level : Nat) (loops : List LoopL) (next : Nat) : List LoopL × Nat :=
  let l := loops.getD level {}
  let below := fun (ls : List LoopL) (n : Nat) => match level with
    | 0 => (ls, n)
    | k + 1 => loopStep k ls n
  if !l.active then below loops next
  else if next = l.exit then
    if l.idx + 1 < l.count then (loops.set level { l with idx := l.idx + 1 }, l.start)
    else below (loops.set level { l with active := false, idx := 0 }) next
  else if next < l.start || l.exit < next then below (loops.set level { l with active := false, idx := 0 }) next
  else below loops next

/-- The latched count of a LOOP (R253). -/
def Core.loopCount (c : Core) (y : Nat) : Nat :=
  match syCnt y with
  | 0 => syImm y
  | 1 => (c.t (syTs y)).toNat % 2 ^ 32
  | _ => c.lc.getD (syLevel y) 0

/-- R254: LOOP_NEST, with the body starting at `start`. -/
def Core.loopBad (c : Core) (y start : Nat) : Bool :=
  let l := syLevel y
  (c.loop l).active || (l ≠ 0 && !(c.loop (l - 1)).active) || syExit y ≤ start
    || (l ≠ 0 && (c.loop (l - 1)).exit < syExit y)

/-- LOOP enters its level, or skips the body (R253). -/
def Core.loopEnter (c : Core) (y start : Nat) : Core × Nat :=
  let n := c.loopCount y
  if n = 0 then (c, syExit y)
  else ({ c with loops := c.loops.set (syLevel y) ⟨true, start, syExit y, n, 0⟩ }, start)

/-! ### The sync slot's registers -/

/-- LCW, LRD and AGW; every read is of the registers at issue. -/
def Core.syncRegs (c old : Core) (y : Nat) : Core :=
  let v := old.t (syTs y)
  match syOp y with
  | 0x02 => { c with lc := c.lc.set (syLevel y) (v.toNat % 2 ^ 32) }
  | 0x03 => c.setT (syTd y) (BitVec.ofNat 64 (old.idx (syLevel y)))
  | 0x04 =>
    let g := old.ag (syAg y)
    let g := match syField y with
      | 0 => { g with base := v }
      | 5 => { g with modLog2 := v.toNat % 32 }
      | f => { g with inc := g.inc.set (f - 1) (v.truncate 32) }
    { c with ags := Tab.put c.ags (syAg y) g }
  | _ => c

/-! ### Load and store slots -/

/-- A load slot's bytes reach their register (R247). -/
def Core.slotLoad (c : Core) (x : Nat) (l : List Byte) : Core :=
  match lsOp x with
  | 1 => c.setV (lsReg x) (slice l 0 256)
  | 2 =>
    let w := c.wbuf (lsReg x)
    c.setWbuf (lsReg x) (w.take (256 * lsPart x) ++ slice l 0 256 ++ w.drop (256 * lsPart x + 256))
  | 3 => c.setMask (lsReg x) (BitVec.ofNat 128 (leNat l))
  | _ => c

/-- The bytes of a store slot's access. -/
def Core.storeData (c : Core) (x : Nat) : List Byte :=
  if lsOp x = 3 then leBytes 16 (c.mask (lsReg x)).toNat else (c.v (lsReg x)).take (storeBytes x)

/-- What a store slot writes: offset in the access and bytes; STVM writes the lanes of its mask (R247). -/
def Core.storeRuns (c : Core) (x : Nat) : List (Nat × List Byte) :=
  let d := c.storeData x
  if lsOp x = 0 then []
  else if lsOp x ≠ 2 then [(0, d)]
  else
    let w := if lsLane x = 0 then 4 else 2
    ((List.range (d.length / w)).filter (fun i => (c.mask (lsPart x)).getLsbD i)).map (fun i => (w * i, slice d (w * i) w))

/-- Which 4-byte lanes a vector store writes, for the audit unit (R297). -/
def Core.storeLanes (c : Core) (x : Nat) : List Bool :=
  (List.range (storeBytes x / 4)).map (fun i =>
    lsOp x = 1 || (let m := c.mask (lsPart x)
      if lsLane x = 0 then m.getLsbD i else m.getLsbD (2 * i) || m.getLsbD (2 * i + 1)))

end Sys2Proof.Machine
end

