-- ==== Sys2Proof/Machine/Cell.lean ====
section
/-! DEFINITION. A cell's bundles: fetch and the checks of Table BND-9, waits (R235, R256 to R258), issue, and commit (R239).
One bundle of a cell is under way at a time. -/
namespace Sys2Proof.Machine

/-! ### Register accesses of the tack unit -/

/-- A write to a register of the block. The program table is written by program loads alone (R209). -/
def Chip.cblkWrite (c : Chip) (r : Region) (b : BlockIx) (pos : Nat) (v : Word) : Chip × Bool :=
  let u := UnitId.cblk r b
  if pos / 4096 = 1 then
    let no := writeRefused .cblk pos (c.held u) (c.reg u pos) v
    (c.raiseIf no u evLockedWrite, no)
  else match c.headerWrite u pos v with
    | some x => x
    | none =>
      if pos = 0x100 then c.opBlkCtl r b v
      else if pos = 0x138 then c.opSparseCtl r b v
      else if 0x200 ≤ pos && pos < 0x280 then c.opSparseWin r b ((pos - 0x200) / 16) (pos % 16 = 8) v
      else c.plainWrite u pos v

/-- R65: the position in its own block's pages that a tack register address names; none traps NOT_PERMITTED. -/
def ownPage (r : Region) (b : BlockIx) (x : Word) : Option Nat :=
  let a := x.toNat % 2 ^ 40
  let base := regAddr (.cblk r b) 0
  if a / 2 ^ 22 = base / 2 ^ 22 then some (a % 2 ^ 22) else none

/-- Is the position of the block's own unit on an unlocked debug page (R474)? -/
def Chip.ownDebug (c : Chip) (r : Region) (b : BlockIx) (pos : Nat) : Bool :=
  512 ≤ pos / 4096 && c.accessStatus (regAddr (.cblk r b) pos) = 0

/-- RDREG: the value, with the effect of the read; 0 where the access status is not OK (R50), a free value on an unlocked
debug page. -/
def Chip.tackRead (c : Chip) (r : Region) (b : BlockIx) (pos : Nat) : Chip × Word :=
  let u := UnitId.cblk r b
  if pos < 0x4000 && pos % 8 = 0 then (c.readClear u pos, c.headerWord u pos)
  else if c.ownDebug r b pos then (c.freeNext, BitVec.ofNat 64 (c.freeVal 64))
  else (c, 0)

/-! ### Faults and traps -/

/-- A bundle stops its cell and ends the invocation (R220 to R222, R259). -/
def Chip.cellStop (c : Chip) (r : Region) (b : BlockIx) (l : Nat) (ev code cause status : Nat) (addr : Word)
    (extra : Nat := 0) : Chip :=
  match c.entryOf r b l with
  | none => c
  | some e =>
    let cap2 := setBits (c.capCell r b l cause) 36 32 extra
    let c := c.error (.cblk r b) ev code [cap2, addr, c.capInv r b l]
    let c := (c.dropFlight r b l).modCell r b l (fun x => { x with ue := none })
    c.endEntry r b e.n status (some l)

/-- A tack trap (R220). -/
def Chip.cellTrap (c : Chip) (r : Region) (b : BlockIx) (l cause : Nat) (addr : Word) : Chip :=
  (c.setFld (.cblk r b) (CBLK.CELL_STS_trap.plus (16 * l)) cause).cellStop r b l CBLK.ev_trap (0x40 + cause) cause 6 addr

/-- A program fault (R259); ABSENT_UNIT has its own status and names the block (R260). -/
def Chip.cellProgFault (c : Chip) (r : Region) (b : BlockIx) (l cause blk : Nat) : Chip :=
  c.cellStop r b l CBLK.ev_cell_fault (0x50 + (cause - 16)) cause (if cause = 16 then 1 else 7) 0
    (if cause = 16 then blk else 0)

/-- An uncorrectable Lintel line (R222). -/
def Chip.cellLintelUe (c : Chip) (r : Region) (b : BlockIx) (l addr : Nat) : Chip :=
  (c.raiseIf (c.entryOf r b l).isSome (.cblk r b) evErrUncorrected).cellStop r b l CBLK.ev_cell_fault 0x4E 0 8 (BitVec.ofNat 64 addr)

/-- An uncorrectable word of a local memory (Table CELL-12). -/
def Chip.cellLocalUe (c : Chip) (r : Region) (b : BlockIx) (l addr : Nat) : Chip :=
  ((c.bump (.cblk r b) CBLK.ECC_COUNT_ue).raise (.cblk r b) evErrUncorrected).cellStop r b l CBLK.ev_cell_fault 0x02 0 7
    (BitVec.ofNat 64 addr)

/-! ### Fetch and decode -/

/-- The a-cycles that n s-cycles hold at the present clock of the die (Table CLK-6: units of 25 MHz over 1,562.5 MHz). -/
def Chip.aCycles (c : Chip) (r : Region) (n : Nat) : Nat :=
  n * getBits (c.reg .power 0x110) (16 * r.val + 7) (16 * r.val) * 2 / 125

/-- RDCYCLE: a-cycles since the invocation started. -/
def Chip.cellCycles (c : Chip) (r : Region) (b : BlockIx) (l : Nat) : Nat := c.aCycles r (c.now - (c.cell r b l).startedAt)

/-- The bundle at a cell's address, and whether its form is right. -/
def Chip.fetch (c : Chip) (r : Region) (b : BlockIx) (l : Nat) : Bundle × Bool :=
  Bundle.read (leNat (c.load (.imem r.val b.val (c.physCell r b l)) (16 * c.cellPc r b l) 64))

/-- The block that SIGB names. -/
def sigBlock (y : Nat) : Option BlockIx := if h : syBlk y < 16 then some ⟨syBlk y, h⟩ else none

/-- Checks 1 to 9 of Table BND-9: the cause code of the first that fails. -/
def Chip.decodeCheck (c : Chip) (r : Region) (b : BlockIx) (l : Nat) (e : WqE) (w : Bundle) (formOk : Bool) : Option Nat :=
  let x := c.cell r b l
  let pc := c.cellPc r b l
  let y := w.sync
  let absent := syOp y = 0x0C && (match sigBlock y with | some t => !c.present (.cblk r t) | none => true)
  let foreign := syOp y = 0x0C && (match sigBlock y with
    | some t => c.holder (.cblk r t) ≠ c.holder (.cblk r b) || c.held (.cblk r t) ≠ c.held (.cblk r b)
    | none => false)
  if x.beyond || !formOk || (w.compact && c.held (.cblk r b)) || 8192 < pc + w.units
      || (syOp y = 1 && isBranch w.scalar) then some 17
  else if !scalarOk w.scalar then some 5
  else if !(vectorOk w.vector && matrixOk w.matrix && loadOk w.load && storeOk w.store && syncOk y) then some 18
  else if absent then some 16
  else if !(vectorFormat w.vector && matrixFormat w.matrix && loadFormat w.load) then some 19
  else if w.conflict then some 20
  else if syOp y = 1 && x.core.loopBad y (pc + w.units) then some 21
  else if syOp y = 0x0B && (!inMask (syMask y) l || syMask y &&& e.mask ≠ syMask y) then some 22
  else if foreign then some 23
  else none

/-- A failing decode check stops the cell. -/
def Chip.decodeStop (c : Chip) (r : Region) (b : BlockIx) (l cause : Nat) (w : Bundle) : Chip :=
  if cause = 5 then c.cellTrap r b l 5 0 else c.cellProgFault r b l cause (syBlk w.sync)

/-! ### Waits of the sync slot -/

/-- A BAR counts its cell as arrived once (R257). -/
def Chip.barArrive (c : Chip) (r : Region) (b : BlockIx) (l y : Nat) : Chip :=
  if syOp y = 0x0B && !(c.cell r b l).barIn then
    c.modCell r b l (fun x => { x with barIn := true, bars := x.bars.set (syId y) (x.bars.getD (syId y) 0 + 1) })
  else c

/-- Is the wait over (R256 to R258, Table BND-10)? FENCE never waits: a cell's writes are visible once made. -/
def Chip.syncReady (c : Chip) (r : Region) (b : BlockIx) (l y : Nat) : Bool :=
  let x := c.cell r b l
  let v := (x.core.t (syTs y)).toNat
  match syOp y with
  | 0x08 => x.due ≤ c.courseCount
  | 0x09 => (c.fld (.cblk r b) (CBLK.CELL_COUNT_dma_done.plus (16 * l)) + 2 ^ 16 - v % 2 ^ 16) % 2 ^ 16 < 2 ^ 15
  | 0x0B => (maskCells (syMask y)).all (fun m =>
      x.bars.getD (syId y) 0 ≤ (c.cell r b m).bars.getD (syId y) 0)
  | 0x0D => v % 2 ^ 32 ≤ Tab.get (c.blk r b).flags (syFlag y) 0
  | _ => true

/-- R40: a course wait completes; a cell that reached it after the release of its due boundary was late. -/
def Chip.courseWaitDone (c : Chip) (r : Region) (b : BlockIx) (l : Nat) : Chip :=
  let u := UnitId.cblk r b
  let x := c.cell r b l
  let since := c.since x.due * c.courseCycles + c.phase - 16
  let late := if c.cellState r b l = 2 then 0 else c.aCycles r since
  let c := (c.setFld u (CBLK.CELL_STS_late_last.plus (16 * l)) (min late 65535)).peak u CBLK.LATE_late_max late
  (c.modCell r b l (fun x => { x with
    due := c.courseCount + 1
    missed := if c.cellState r b l = 2 then x.missed else 0 })).blkShow r b 1

/-! ### Memory of the cell -/

/-- Do the bytes [o, o+n) of a region hold all of line k? -/
def wholeLine (k o n : Nat) : Bool := decide (o ≤ keyOffset k ∧ keyOffset k + 64 ≤ o + n)

/-- Lines that an access to Lintel memory still lacks in the line cache, each with the ownership it needs. -/
def Chip.lacks (c : Chip) (r : Region) (b : BlockIx) (p : Place) (n : Nat) (own : Bool) : List (Nat × Bool × Bool) :=
  match p with
  | .loc _ _ => []
  | .far q o => ((linesOf q.val o n).filter (fun k => match Tab.find (c.blk r b).lines k with
      | some x => own && !x.owned
      | none => true)).map (fun k => (k, own, own && wholeLine k o n))

/-- Ask the homes for missing lines (R207); a line already asked for, or one whose queue is full, is not asked again. -/
def Chip.askLines (c : Chip) (r : Region) (b : BlockIx) (l : Nat) (need : List (Nat × Bool × Bool)) : Chip :=
  need.foldl (fun c (x : Nat × Bool × Bool) =>
    let s := keyStack x.1
    let asked := ((c.memS s).queue ++ (c.memS s).sched).any (fun q => match q.kind with
      | .fill b' _ _ k own whole => b' = blkNo r b && k = x.1 && (own || !x.2.1) && (!whole || x.2.2)
      | _ => false)
    if asked || !(c.memS s).room 1 then c else c.memAsk s 1 0 0 (.fill (blkNo r b) l (c.cell r b l).entry x.1 x.2.1 x.2.2)) c

/-- A cell waits; one that reaches its course wait has done so in this course (R39). -/
def Chip.cellWaits (c : Chip) (r : Region) (b : BlockIx) (l : Nat) (course : Bool) : Chip :=
  let c := if course && c.cellState r b l ≠ 2 then c.modCell r b l (fun x => { x with missed := 0 }) else c
  c.setCellState r b l (if course then 2 else 3)

/-- Bytes of an access, through the line cache for Lintel memory. -/
def Chip.cellBytes (c : Chip) (r : Region) (b : BlockIx) (p : Place) (n : Nat) : List Byte :=
  match p with
  | .loc s o => c.load s o n
  | .far q o =>
    let all := (linesOf q.val o n).flatMap (fun k => match Tab.find (c.blk r b).lines k with
      | some x => x.data
      | none => memReadN c.mem k 64)
    slice all (o % 64) n

/-- A line of the access that holds no data (R188), unless the access writes all of it. -/
def Chip.voidLine (c : Chip) (r : Region) (b : BlockIx) (p : Place) (n : Nat) (writes : Bool) : Option Nat :=
  match p with
  | .loc _ _ => none
  | .far q o => (linesOf q.val o n).find? (fun k => match Tab.find (c.blk r b).lines k with
      | some x => x.void && !(writes && wholeLine k o n)
      | none => false)

/-- The line with bytes of [o, o+n) replaced. -/
def patchLine (k o : Nat) (l data : List Byte) : List Byte :=
  (List.range 64).map (fun i =>
    let a := keyOffset k + i
    if o ≤ a && a < o + l.length then l.getD (a - o) 0 else data.getD i 0)

/-- A committed store: to a local memory, or to owned lines. -/
def Chip.cellStore (c : Chip) (r : Region) (b : BlockIx) (p : Place) (l : List Byte) : Chip :=
  match p with
  | .loc s o => (c.store s o l).healWords (s.base + o) l.length
  | .far q o => (linesOf q.val o l.length).foldl (fun c k => c.modBlk r b (fun x =>
      match Tab.find x.lines k with
      | some y => { x with lines := Tab.put x.lines k { y with
          data := patchLine k o l y.data
          void := y.void && !wholeLine k o l.length } }
      | none => x)) c

/-- Does an access meet a local word that cannot be read? -/
def Chip.localBad (c : Chip) (p : Place) (n : Nat) : Bool :=
  match p with
  | .loc _ _ => c.goodBytes p n < n
  | .far _ _ => false

/-! ### Address checks -/

/-- What the address checks find: a trap with its address, a fault, or nothing. -/
inductive AddrWay where
  | trap (cause : Nat) (addr : Word)
  | fault (cause : Nat)
  | fine
  deriving DecidableEq, Repr

/-- Is a tack access's place one its operation may use (Table CELL-11)? -/
def tackPlaceOk (op : Nat) : Option Place → Bool
  | none => false
  | some (.loc (.bmem _ _) _) => op ≠ 0x72
  | some (.loc (.tdm _ _ _) _) => !isAmo op
  | some (.loc _ _) => !isAmo op && op ≠ 0x72
  | some (.far _ _) => op ≠ 0x72

/-- Check 10: the trap of the scalar slot. -/
def Chip.tackCheck (c : Chip) (r : Region) (b : BlockIx) (l : Nat) (core : Core) (s : Nat) : AddrWay :=
  let op := scOp s
  let x := core.t (scB s)
  match core.tackAccess s with
  | some (a, n) =>
    if a % n ≠ 0 then .trap 1 (BitVec.ofNat 64 a)
    else if tackPlaceOk op (c.mapAddr r b (.tack l) a n) then .fine else .trap 2 (BitVec.ofNat 64 a)
  | none =>
    if op = 0x67 && 8192 ≤ x.toNat then .trap 2 x
    else if (op = 0x70 || op = 0x71) && (ownPage r b x).isNone then .trap 3 x
    else .fine

/-- Checks 11 and 12 of one slot. -/
def slotAligned (core : Core) (x : Nat) : Bool := core.slotAddr x % (if lsOp x = 3 then 16 else 32) = 0

/-- Checks 10 to 13. -/
def Chip.addrCheck (c : Chip) (r : Region) (b : BlockIx) (l : Nat) (core : Core) (w : Bundle) : AddrWay :=
  match c.tackCheck r b l core w.scalar with
  | .fine =>
    let slots := [w.load, w.store].filter (fun x => x ≠ 0)
    if slots.any (fun x => !slotAligned core x) then .fault 24
    else if slots.any (fun x => (c.mapAddr r b (.slot l) (core.slotAddr x) (storeBytes x)).isNone) then .fault 25
    else if scOp w.scalar = 0x7E then .trap 4 0
    else .fine
  | bad => bad

/-! ### Issue -/

/-- Places and sizes that the bundle reads; that it writes. -/
def Chip.readsOf (c : Chip) (r : Region) (b : BlockIx) (l : Nat) (core : Core) (w : Bundle) : List (Place × Nat) :=
  (if isLoad (scOp w.scalar) || scOp w.scalar = 0x72 then match core.tackAccess w.scalar with
    | some (a, n) => match c.mapAddr r b (.tack l) a n with | some p => [(p, n)] | none => []
    | none => [] else [])
  ++ (if w.load = 0 then [] else match c.mapAddr r b (.slot l) (core.slotAddr w.load) (loadBytes w.load) with
    | some p => [(p, loadBytes w.load)] | none => [])

/-- The bundle's writes to the address map, the tack store before the store slot (R238). -/
def storesOf (core : Core) (w : Bundle) : List (Nat × List Byte) :=
  (if isStore (scOp w.scalar) then match core.tackAccess w.scalar with
    | some (a, n) => [(a, leBytes n (core.t (scA w.scalar)).toNat)]
    | none => [] else [])
  ++ (core.storeRuns w.store).map (fun x => (core.slotAddr w.store + x.1, x.2))

/-- Lines to own for these stores. -/
def Chip.storeLacks (c : Chip) (r : Region) (b : BlockIx) (l : Nat) (st : List (Nat × List Byte)) : List (Nat × Bool × Bool) :=
  st.flatMap (fun x => match c.mapAddr r b (.tack l) x.1 x.2.length with
    | some p => c.lacks r b p x.2.length true
    | none => [])

/-- R215: does a store reach block memory or Lintel memory? -/
def Chip.outward (c : Chip) (r : Region) (b : BlockIx) (l : Nat) (st : List (Nat × List Byte)) : Bool :=
  st.any (fun x => match c.mapAddr r b (.tack l) x.1 x.2.length with
    | some (.loc (.bmem _ _) _) | some (.far _ _) => true
    | _ => false)

/-- R215: is a DMA descriptor an external effect: any but a COPY or FAB_READ into a scratchpad? -/
def outwardDma (l : List Byte) : Bool :=
  let e : DmaE := { ix := 0, cell := 0, words := (List.range 8).map (fun i => wordAt l (8 * i)) }
  !((e.op = 0 || e.op = 1) && 0x10000000 ≤ e.dst && e.dst < 0x11000000)

/-- Seed and stream of stochastic rounding (R268). -/
def Chip.stochKey (c : Chip) (r : Region) (b : BlockIx) (l : Nat) (e : WqE) : Word × Word :=
  (c.reg (.cblk r b) CBLK.ARITH_SEED_seed.pos, BitVec.ofNat 64 (e.pkt.src * 2 ^ 36 + e.pkt.memTag * 2 ^ 20 + l))

/-- Everything the bundle will do, from the registers and memory as it issues (R235, R238). -/
def Chip.flightOf (c : Chip) (r : Region) (b : BlockIx) (l : Nat) (e : WqE) (w : Bundle) : Chip × Flight :=
  let u := UnitId.cblk r b
  let old := (c.cell r b l).core
  let s := w.scalar
  let op := scOp s
  let next := c.cellPc r b l + w.units
  let exact := c.flag u CBLK.ARITH_MODE_exact
  let x := old.t (scB s)
  let acc := old.tackAccess s
  -- vector and matrix slots, both from the registers at issue
  let core := old.vector exact (c.stochKey r b l e) w.vector
  let mat := old.matrix exact w.matrix
  let core := { core with acc := mat.acc }
  let core := if mOp w.matrix = 3 then core.setV (mVd w.matrix) (mat.v (mVd w.matrix)) else core
  -- load slot
  let core := if w.load = 0 then core else match c.mapAddr r b (.slot l) (old.slotAddr w.load) (loadBytes w.load) with
    | some p => core.slotLoad w.load (c.cellBytes r b p (loadBytes w.load))
    | none => core
  -- scalar slot
  let (c, page) := if op = 0x70 then c.tackRead r b ((ownPage r b x).getD 0) else (c, 0)
  let res : Option Word :=
    if isLoad op then match acc with
      | some (a, n) => (c.mapAddr r b (.tack l) a n).map (fun p => loadValue op (c.cellBytes r b p n))
      | none => none
    else if op = 0x70 then some page
    else if op = 0x74 then some (BitVec.ofNat 64 c.courseNow)
    else if op = 0x75 then some (BitVec.ofNat 64 (c.cellCycles r b l))
    else if isAmo op then none
    else old.tackResult s next
  let core := match res with | some v => core.setT (scA s) v | none => core
  -- sync slot and the next address
  let core := core.syncRegs old w.sync
  let go := old.tackNext s next
  let (core, go) := if syOp w.sync = 1 then
      (let (k, n) := old.loopEnter w.sync next; ({ core with loops := k.loops }, n))
    else (core, go)
  let (loops, go) := loopStep 3 core.loops go
  let core := { core with loops := loops }
  let st := storesOf old w
  let desc := if op = 0x72 then some (c.load (.tdm r.val b.val (c.physCell r b l)) x.toNat 64) else none
  let mail := op = 0x71 && (match ownPage r b x with | some p => p / 4096 = 3 | none => false)
  (c, {
    core := core
    next := go
    stores := st
    audit := if lsOp w.store = 1 || lsOp w.store = 2 then
      some (old.slotAddr w.store, old.storeData w.store, old.storeLanes w.store) else none
    regWrite := if op = 0x71 then (ownPage r b x).map (fun p => (p, old.t (scC s))) else none
    signal := if syOp w.sync = 0x0C then some (syBlk w.sync, syFlag w.sync, (old.t (syTs w.sync)).toNat % 2 ^ 32) else none
    descriptor := desc
    amo := if isAmo op then
        some (tackAmoOp op, 0x50 ≤ op, x.toNat,
          if tackAmoOp op = 11 then old.t (scA s) else old.t (scC s),
          if tackAmoOp op = 11 then old.t (scC s) else 0, scA s)
      else none
    external := c.outward r b l st || isAmo op || mail || (match desc with | some d => outwardDma d | none => false)
    ended := op = 0x7F })

/-- Record the bundle in the trace (Table FLT-6). -/
def Chip.traceBundle (c : Chip) (r : Region) (b : BlockIx) (l : Nat) : Chip :=
  let w : BitVec 32 := BitVec.ofNat 32 (c.cellPc r b l + c.cellCycles r b l % 65536 * 65536)
  c.modCell r b l (fun x => { x with trace := (if 256 ≤ x.trace.length then x.trace.drop 1 else x.trace) ++ [w] })

/-- The bundle issues. -/
def Chip.bundleGo (c : Chip) (r : Region) (b : BlockIx) (l : Nat) (e : WqE) (w : Bundle) : Chip :=
  let (c, f) := c.flightOf r b l e w
  let c := (c.traceBundle r b l).setCellState r b l 1
  (c.modCell r b l (fun x => { x with
    flight := some f
    amoSent := false
    amoDone := none
    barIn := false
    stalled := false
    passed := false })).blkShow r b

/-- The cell stalls for memory (CELL_STS `state` 4). -/
def Chip.cellStall (c : Chip) (r : Region) (b : BlockIx) (l : Nat) : Chip := c.setCellState r b l 4

/-- R215: the running invocation commits. -/
def Chip.commitEntry (c : Chip) (r : Region) (b : BlockIx) (n : Nat) : Chip :=
  c.modWq r b n (fun e => if e.state = .running then { e with state := .committed } else e)

/-- Does the block's DMA queue hold 64 descriptors, with those of bundles under way (R217)? -/
def Chip.dmaFull (c : Chip) (r : Region) (b : BlockIx) : Bool :=
  let coming := (c.blk r b).cells.filter (fun x => match x.2.flight with | some f => f.descriptor.isSome | none => false)
  64 ≤ (c.blk r b).dma.length + coming.length

/-- The memory and first byte of a SECDED word (Table CELL-12). -/
def Chip.sramKey (c : Chip) (r : Region) (b : BlockIx) (l : Nat) (x : SramSeen) : Nat :=
  let p := c.physCell r b l
  (match x.mem with
    | .spad => Space.spad r.val b.val p
    | .tdm => .tdm r.val b.val p
    | .bmem => .bmem r.val b.val
    | .imem => .imem r.val b.val p
    | .shadow => .shadow r.val b.val l).base + 8 * x.word

/-- A corrected error of a memory: written back, counted by memory (Table CELL-12). -/
def Chip.sramCorrected (c : Chip) (r : Region) (b : BlockIx) (m : SramMem) : Chip :=
  let u := UnitId.cblk r b
  let c := match m with
    | .spad | .tdm => c.bump u CBLK.ECC_COUNT_spad_ce
    | .bmem => c.bump u CBLK.ECC_COUNT_bmem_ce
    | .imem => c.bump u CBLK.ECC_COUNT_imem_ce
    | .shadow => c
  c.error u evErrCorrected 0x01

/-- A word of the instruction memory beyond correction is restored from the shadow; true when the shadow's word is bad, or
found so now (Table CELL-12). -/
def Chip.imemRestore (c : Chip) (r : Region) (b : BlockIx) (l word : Nat) (seen : List SramSeen) : Chip × Bool :=
  let sh := c.sramKey r b l ⟨.shadow, word, true⟩
  let mine := seen.filter (fun x => x.mem = .shadow && x.word = word)
  if c.bad.contains sh then (c, true)
  else if mine.any (·.double) then (({ c with bad := sh :: c.bad }).bump (.cblk r b) CBLK.ECC_COUNT_ue, true)
  else
    let c := if mine.isEmpty then c else c.sramCorrected r b .shadow
    let c := c.store (.imem r.val b.val (c.physCell r b l)) (8 * word) (memReadN c.mem sh 8)
    (c.sramCorrected r b .imem, false)

/-- The words of a bundle are fetched (16-byte units pc to pc + units): true when one cannot be had. -/
def Chip.fetchEcc (c : Chip) (r : Region) (b : BlockIx) (l units : Nat) (seen : List SramSeen) : Chip × Bool :=
  let pc := c.cellPc r b l
  (seen.filter (fun x => x.mem = .imem && 2 * pc ≤ x.word && x.word < 2 * (pc + units))).foldl (fun (a : Chip × Bool) x =>
    if a.2 then a
    else if x.double then a.1.imemRestore r b l x.word seen
    else (a.1.sramCorrected r b .imem, false)) (c, false)

/-- The words of local memories among what a bundle reads in which errors are met. -/
def Chip.dataEcc (c : Chip) (r : Region) (b : BlockIx) (l : Nat) (reads : List (Place × Nat)) (seen : List SramSeen) :
    List SramSeen :=
  seen.filter (fun x => x.mem ≠ .imem && x.mem ≠ .shadow && reads.any (fun p => match p.1 with
    | .loc _ _ => p.1.key < c.sramKey r b l x + 8 && c.sramKey r b l x < p.1.key + p.2
    | .far _ _ => false))

/-- The stalls of R235 once the wait is over and the checks have passed, then the issue. -/
def Chip.bundleMemory (c : Chip) (r : Region) (b : BlockIx) (l : Nat) (e : WqE) (w : Bundle) (seen : List SramSeen) : Chip :=
  let x := c.cell r b l
  let core := x.core
  let reads := c.readsOf r b l core w
  let need := reads.flatMap (fun p => c.lacks r b p.1 p.2 false) ++ c.storeLacks r b l (storesOf core w)
  let atomic := if isAmo (scOp w.scalar) then
      match core.tackAccess w.scalar with
      | some (a, n) => (match c.mapAddr r b (.tack l) a n with | some p => [(p, n)] | none => [])
      | none => []
    else []
  let met := c.dataEcc r b l (reads ++ atomic) seen
  let worse := (met.filter (·.double)).map (c.sramKey r b l)
  let c := if worse.isEmpty then c else { c with bad := worse ++ c.bad }
  let void := reads.findSome? (fun p => c.voidLine r b p.1 p.2 false) <|> (storesOf core w).findSome? (fun x =>
    (c.mapAddr r b (.tack l) x.1 x.2.length).bind (fun p => c.voidLine r b p x.2.length true))
  match (reads ++ atomic).find? (fun p => c.localBad p.1 p.2), void with
  | some p, _ => c.cellLocalUe r b l (p.1.key + c.goodBytes p.1 p.2)
  | none, some k => c.cellLintelUe r b l (windowAddr (keyRegion k).val (keyOffset k))
  | none, none =>
    if scOp w.scalar = 0x72 && c.dmaFull r b then
      let c := if x.stalled then c else c.bump (.cblk r b) CBLK.DMA_COUNT_dma_stalls
      (c.modCell r b l (fun x => { x with stalled := true })).cellStall r b l
    else if !need.isEmpty then (c.askLines r b l need).cellStall r b l
    else ((met.filter (fun x => !x.double)).foldl (fun c x => c.sramCorrected r b x.mem) c).bundleGo r b l e w

/-- BUNDLE_ISSUE (R235, R259); `seen` is what the SECDED decoders meet in the words it fetches and reads. -/
def Chip.bundleIssue (c : Chip) (r : Region) (b : BlockIx) (i : CellIx) (seen : List SramSeen) : Chip :=
  let l := i.val
  match c.entryOf r b l with
  | none => c
  | some e =>
    let x := c.cell r b l
    if !cellBusy (c.cellState r b l) || x.flight.isSome then c
    else match x.ue with
    | some a => c.cellLintelUe r b l a
    | none =>
      let (c, broken) := c.fetchEcc r b l (c.fetch r b l).1.units seen
      if broken then c.cellFault r b i
      else
        let (w, ok) := c.fetch r b l
        match c.decodeCheck r b l e w ok with
        | some cause => c.decodeStop r b l cause w
        | none =>
          let c := c.barArrive r b l w.sync
          if !x.passed && !c.syncReady r b l w.sync then c.cellWaits r b l (syOp w.sync = 0x08)
          else match c.addrCheck r b l x.core w with
            | .trap cause a => c.cellTrap r b l cause a
            | .fault cause => c.cellProgFault r b l cause 0
            | .fine =>
              let c := if syOp w.sync = 0x08 && !x.passed then c.courseWaitDone r b l else c
              (c.modCell r b l (fun x => { x with passed := true })).bundleMemory r b l e w seen

/-! ### Commit -/

/-- R258: a flag is raised to a value. -/
def Chip.signalFlag (c : Chip) (r : Region) (t flag v : Nat) : Chip :=
  if h : t < 16 then
    c.modBlk r ⟨t, h⟩ (fun s => { s with flags := Tab.put s.flags flag (max (Tab.get s.flags flag 0) v) })
  else c

/-- R217: a descriptor joins the block's queue. -/
def Chip.dmaQueue (c : Chip) (r : Region) (b : BlockIx) (l : Nat) (d : List Byte) : Chip :=
  c.modBlk r b (fun s => { s with
    nextDma := s.nextDma + 1
    dma := s.dma ++ [{ ix := s.nextDma, cell := l, words := (List.range 8).map (fun i => wordAt d (8 * i)) }] })

/-- R239: the bundle's writes become visible. `e` is the entry it belongs to. -/
def Chip.flightLands (c : Chip) (r : Region) (b : BlockIx) (l : Nat) (f : Flight) : Chip :=
  let u := UnitId.cblk r b
  let (core, c) := match f.amo, (c.cell r b l).amoDone with
    | some (_, _, _, _, _, rd), some old => (f.core.setT rd old, c)
    | some (op, wide, a, operand, swap, rd), none =>
      match c.mapAddr r b (.tack l) a (if wide then 8 else 4) with
      | some p =>
        let n := if wide then 8 else 4
        let old := leNat (c.cellBytes r b p n)
        (f.core.setT rd (BitVec.ofNat 64 old),
          c.cellStore r b p (leBytes n (atomicResult op wide old operand.toNat swap.toNat)))
      | none => (f.core, c)
    | none, _ => (f.core, c)
  -- a write that clears W1C bits goes first: what the bundle itself raises in the cycle wins (R55)
  let write := fun (c : Chip) (first : Bool) => match f.regWrite with
    | some (pos, v) =>
      if pos < 0x4000 && pos % 8 = 0 && first = (pos = 0x20 || pos = 0x40) then (c.cblkWrite r b pos v).1 else c
    | none => c
  let c := write c true
  let c := f.stores.foldl (fun c x => match c.mapAddr r b (.tack l) x.1 x.2.length with
    | some p => c.cellStore r b p x.2
    | none => c) c
  let c := match f.audit with | some (a, d, on) => c.auditStore r b a d on | none => c
  let c := match f.signal with | some (t, k, v) => c.signalFlag r t k v | none => c
  let c := match f.descriptor with | some d => c.dmaQueue r b l d | none => c
  let st := c.cellState r b l
  let c := (c.modCell r b l (fun x => { x with
    core := core
    flight := none
    amoSent := false
    amoDone := none
    ended := x.ended || f.ended
    beyond := 8192 ≤ f.next })).setCellPc r b l f.next
  let c := if f.ended && cellBusy st then c.setCellState r b l 0 else c
  let c := c.wrap u (CBLK.CELL_COUNT_bundles.plus (16 * l))
  let c : Chip := write c false
  if c.fld u CBLK.BLK_CTL_lcache = 0 then c.flushLines (blkNo r b) else c

/-- The Lintel place of a bundle's tack atomic (R207). -/
def Chip.amoFar (c : Chip) (r : Region) (b : BlockIx) (l : Nat) (f : Flight) : Option (Region × Nat) :=
  match f.amo with
  | some (_, wide, a, _, _, _) => (match c.mapAddr r b (.tack l) a (if wide then 8 else 4) with
    | some (.far q o) => some (q, o)
    | _ => none)
  | none => none

/-- A tack atomic on a Lintel address goes to its home Plinth once nothing else keeps its bundle from committing (R207,
R239). -/
def Chip.amoSend (c : Chip) (r : Region) (b : BlockIx) (l : Nat) (f : Flight) (q : Region) (o : Nat) : Chip :=
  let k := (Space.lintel q.val).base + o
  match f.amo with
  | some (op, wide, _, operand, swap, _) =>
    if (c.cell r b l).amoSent || !(c.memS (keyStack k)).room 1 then c
    else
      (c.memAsk (keyStack k) 1 0 0 (.atomic (blkNo r b) l (c.cell r b l).entry op wide k operand swap)).modCell r b l
        (fun x => { x with amoSent := true })
  | none => c

/-- The bundle under way is dropped: an error ended it (R239). Its entry, already over, may settle. -/
def Chip.flightDropped (c : Chip) (r : Region) (b : BlockIx) (l n : Nat) : Chip :=
  ((c.dropFlight r b l).modCell r b l (fun x => { x with ue := none })).settleEntry r b n

/-- The bundle commits: its writes become visible, and the invocation may be over (R214, R215, R239). -/
def Chip.flightCommits (c : Chip) (r : Region) (b : BlockIx) (l n : Nat) (f : Flight) : Chip :=
  let c := if f.external then c.commitEntry r b n else c
  let c := c.flightLands r b l f
  match c.wqOf r b n with
  | none => c.blkShow r b
  | some e =>
    if e.state ≠ .done && c.entryEnds r b e then c.endEntry r b e.n 0 none
    else (c.settleEntry r b e.n).blkShow r b

/-- BUNDLE_COMMIT. A bundle with a tack atomic on a Lintel address commits as its home applies the atomic. -/
def Chip.bundleCommit (c : Chip) (r : Region) (b : BlockIx) (l : Nat) : Chip :=
  let x := c.cell r b l
  match x.flight with
  | none => c
  | some f =>
    let runs := (c.entryOf r b l).isSome
    let own := c.storeLacks r b l f.stores
    let amoBad := match f.amo with
      | some (_, wide, a, _, _, _) => (match c.mapAddr r b (.tack l) a (if wide then 8 else 4) with
        | some p => c.localBad p (if wide then 8 else 4)
        | none => false)
      | none => false
    match x.ue with
    | some a => if runs then c.cellLintelUe r b l a else c.flightDropped r b l x.entry
    | none =>
      let amoAt := match f.amo with | some y => y.2.2.1 | none => 0
      if amoBad && runs then c.cellLocalUe r b l amoAt
      else if amoBad then c.flightDropped r b l x.entry
      else if !own.isEmpty then c.askLines r b l own
      else match c.amoFar r b l f with
        | some (q, o) => c.amoSend r b l f q o
        | none => c.flightCommits r b l x.entry f

/-- The home applies a cell's atomic (R197, R219), and its bundle commits with it. A bundle that was dropped has no atomic any
more; one whose lines to store were recalled meanwhile asks again. -/
def Chip.amoApply (c : Chip) (r : Region) (b : BlockIx) (l entry op : Nat) (wide : Bool) (k : Nat) (operand swap : Word) : Chip :=
  let x := c.cell r b l
  match x.flight with
  | some f =>
    if x.entry ≠ entry || !x.amoSent then c
    else if !(c.storeLacks r b l f.stores).isEmpty then c.modCell r b l (fun x => { x with amoSent := false })
    else
      let (c, old) := c.homeAtomic (keyRegion k).val (keyOffset k) op wide operand.toNat swap.toNat
      (c.modCell r b l (fun x => { x with amoDone := some (BitVec.ofNat 64 old) })).flightCommits r b l entry f
  | none => c

/-! ### The commands -/

/-- BUNDLE_ISSUE. -/
def execBundleIssue (r : Region) (b : BlockIx) (l : CellIx) (seen : List SramSeen) (s : State) :
    Host.Outcome State Fault Refusal :=
  s.onBlock r b (fun c => c.bundleIssue r b l seen)

/-- BUNDLE_COMMIT: a frozen region's cells stop at the end of their current bundle (Table FLT-5, step 1). A WRREG to an
unlocked debug page stops the model: the spec gives it no effect (R474). -/
def execBundleCommit (r : Region) (b : BlockIx) (l : CellIx) (s : State) : Host.Outcome State Fault Refusal :=
  let c := s.chip
  let debug := match (c.cell r b l.val).flight with
    | some f => (match f.regWrite with | some (pos, _) => c.ownDebug r b pos | none => false)
    | none => false
  if debug then .fault .debugPageLayout
  else s.on (fun c => if c.partStep r ≤ 1 && c.present (.cblk r b) && c.powered (.cblk r b) then c.bundleCommit r b l.val
    else c)

end Sys2Proof.Machine
end

