-- ==== Sys2Proof/Machine/Crypto.lean ====
section
/-! DEFINITION. The published functions that the spec names: SHA-384 (R458, R462) and ECDSA on brainpoolP384r1, the curve
of RFC 5639 (R462, R471, R472). PRESUMED (log 8): their definitions are the published standards', not the spec's. -/
namespace Sys2Proof.Machine

/-! ### SHA-384 -/

/-- The round constants, in two halves. -/
def shaRound1 : List Nat :=
  [0x428A2F98D728AE22, 0x7137449123EF65CD, 0xB5C0FBCFEC4D3B2F, 0xE9B5DBA58189DBBC,
   0x3956C25BF348B538, 0x59F111F1B605D019, 0x923F82A4AF194F9B, 0xAB1C5ED5DA6D8118,
   0xD807AA98A3030242, 0x12835B0145706FBE, 0x243185BE4EE4B28C, 0x550C7DC3D5FFB4E2,
   0x72BE5D74F27B896F, 0x80DEB1FE3B1696B1, 0x9BDC06A725C71235, 0xC19BF174CF692694,
   0xE49B69C19EF14AD2, 0xEFBE4786384F25E3, 0x0FC19DC68B8CD5B5, 0x240CA1CC77AC9C65,
   0x2DE92C6F592B0275, 0x4A7484AA6EA6E483, 0x5CB0A9DCBD41FBD4, 0x76F988DA831153B5,
   0x983E5152EE66DFAB, 0xA831C66D2DB43210, 0xB00327C898FB213F, 0xBF597FC7BEEF0EE4,
   0xC6E00BF33DA88FC2, 0xD5A79147930AA725, 0x06CA6351E003826F, 0x142929670A0E6E70,
   0x27B70A8546D22FFC, 0x2E1B21385C26C926, 0x4D2C6DFC5AC42AED, 0x53380D139D95B3DF,
   0x650A73548BAF63DE, 0x766A0ABB3C77B2A8, 0x81C2C92E47EDAEE6, 0x92722C851482353B]

def shaRound2 : List Nat :=
  [0xA2BFE8A14CF10364, 0xA81A664BBC423001, 0xC24B8B70D0F89791, 0xC76C51A30654BE30,
   0xD192E819D6EF5218, 0xD69906245565A910, 0xF40E35855771202A, 0x106AA07032BBD1B8,
   0x19A4C116B8D2D0C8, 0x1E376C085141AB53, 0x2748774CDF8EEB99, 0x34B0BCB5E19B48A8,
   0x391C0CB3C5C95A63, 0x4ED8AA4AE3418ACB, 0x5B9CCA4F7763E373, 0x682E6FF3D6B2B8A3,
   0x748F82EE5DEFB2FC, 0x78A5636F43172F60, 0x84C87814A1F0AB72, 0x8CC702081A6439EC,
   0x90BEFFFA23631E28, 0xA4506CEBDE82BDE9, 0xBEF9A3F7B2C67915, 0xC67178F2E372532B,
   0xCA273ECEEA26619C, 0xD186B8C721C0C207, 0xEADA7DD6CDE0EB1E, 0xF57D4F7FEE6ED178,
   0x06F067AA72176FBA, 0x0A637DC5A2C898A6, 0x113F9804BEF90DAE, 0x1B710B35131C471B,
   0x28DB77F523047D84, 0x32CAAB7B40C72493, 0x3C9EBE0A15C9BEBC, 0x431D67C49C100D4C,
   0x4CC5D4BECB3E42B6, 0x597F299CFC657E2A, 0x5FCB6FAB3AD6FAEC, 0x6C44198C4A475817]

/-- The starting value. -/
def shaStart : List Word :=
  [0xCBBB9D5DC1059ED8, 0x629A292A367CD507, 0x9159015A3070DD17, 0x152FECD8F70E5939,
   0x67332667FFC00B31, 0x8EB44A8768581511, 0xDB0C2E0D64F98FA7, 0x47B5481DBEFA4FA4]

/-- The mixing functions of the message schedule and of a round. -/
def shaSmall0 (x : Word) : Word := x.rotateRight 1 ^^^ x.rotateRight 8 ^^^ x >>> 7
def shaSmall1 (x : Word) : Word := x.rotateRight 19 ^^^ x.rotateRight 61 ^^^ x >>> 6
def shaBig0 (x : Word) : Word := x.rotateRight 28 ^^^ x.rotateRight 34 ^^^ x.rotateRight 39
def shaBig1 (x : Word) : Word := x.rotateRight 14 ^^^ x.rotateRight 18 ^^^ x.rotateRight 41

/-- One round on the eight working words and the window of the next sixteen schedule words. -/
def shaRound (st : List Word × List Word) (k : Nat) : List Word × List Word :=
  match st with
  | ([a, b, c, d, e, f, g, h], w :: rest) =>
    let t1 := h + shaBig1 e + ((e &&& f) ^^^ (~~~ e &&& g)) + BitVec.ofNat 64 k + w
    let t2 := shaBig0 a + ((a &&& b) ^^^ (a &&& c) ^^^ (b &&& c))
    let next := shaSmall1 (rest.getD 13 0) + rest.getD 8 0 + shaSmall0 (rest.getD 0 0) + w
    ([t1 + t2, a, b, c, d + t1, e, f, g], rest ++ [next])
  | _ => st

/-- One block of 16 words. -/
def shaBlock (hash : List Word) (block : List Word) : List Word :=
  let out := ((shaRound1 ++ shaRound2).foldl shaRound (hash, block)).1
  hash.zipWith (· + ·) out

/-- The big-endian word in bytes i … i+7. -/
def beWord (l : List Byte) (i : Nat) : Word := BitVec.ofNat 64 (beNat (slice l i 8))

/-- SHA-384 of a message. -/
def sha384 (l : List Byte) : BitVec 384 :=
  let pad := (128 + 111 - l.length % 128) % 128
  let m := (l ++ [0x80] ++ List.replicate pad 0 ++ (leBytes 16 (8 * l.length)).reverse).toArray
  let word := fun (i : Nat) => (List.range 8).foldl (fun n j => n * 256 + (m.getD (i + j) 0).toNat) 0
  let out := (List.range (m.size / 128)).foldl (fun h b =>
    shaBlock h ((List.range 16).map (fun i => BitVec.ofNat 64 (word (128 * b + 8 * i))))) shaStart
  BitVec.ofNat 384 ((out.take 6).foldl (fun n w => n * 2 ^ 64 + w.toNat) 0)

/-! ### The curve: y² = x³ + a x + b modulo p, the base point and its order -/

def curveP : Nat := 0x8CB91E82A3386D280F5D6F7E50E641DF152F7109ED5456B412B1DA197FB71123ACD3A729901D1A71874700133107EC53
def curveA : Nat := 0x7BC382C63D8C150C3C72080ACE05AFA0C2BEA28E4FB22787139165EFBA91F90F8AA5814A503AD4EB04A8C7DD22CE2826
def curveB : Nat := 0x04A8C7DD22CE28268B39B55416F0447C2FB77DE107DCD2A62E880EA53EEB62D57CB4390295DBC9943AB78696FA504C11
def curveQ : Nat := 0x8CB91E82A3386D280F5D6F7E50E641DF152F7109ED5456B31F166E6CAC0425A7CF3AB6AF6B7FC3103B883202E9046565
def baseX : Nat := 0x1D1C64F068CF45FFA2A63A81B7C13F6B8847A3E77EF14FE3DB7FCAFE0CBD10E8E826E03436D646AAEF87B2E247D4AF1E
def baseY : Nat := 0x8ABE1D7520F9C2A45CB1EB8E95CFD55262B70B29FEEC5864E19C054FF99129280E4646217791811142820341263C5315

/-- A point in Jacobian coordinates, the point at infinity with z = 0. -/
abbrev CurvePt := Nat × Nat × Nat

/-- Difference modulo p. -/
def subP (x y : Nat) : Nat := (x + curveP - y % curveP) % curveP

def ptDouble (p : CurvePt) : CurvePt :=
  let (x, y, z) := p
  let yy := y * y % curveP
  let s := 4 * x * yy % curveP
  let zz := z * z % curveP
  let m := (3 * x * x + curveA * (zz * zz % curveP)) % curveP
  let x' := subP (m * m) (2 * s)
  (x', subP (m * subP s x') (8 * yy * yy), 2 * y * z % curveP)

def ptAdd (p q : CurvePt) : CurvePt :=
  let (x1, y1, z1) := p
  let (x2, y2, z2) := q
  if z1 = 0 then q
  else if z2 = 0 then p
  else
    let zz1 := z1 * z1 % curveP
    let zz2 := z2 * z2 % curveP
    let u1 := x1 * zz2 % curveP
    let s1 := y1 * (zz2 * z2 % curveP) % curveP
    let h := subP (x2 * zz1) u1
    let r := subP (y2 * (zz1 * z1 % curveP)) s1
    if h = 0 then (if r = 0 then ptDouble p else (1, 1, 0))
    else
      let hh := h * h % curveP
      let hhh := hh * h % curveP
      let v := u1 * hh % curveP
      let x3 := subP (r * r) (hhh + 2 * v)
      (x3, subP (r * subP v x3) (s1 * hhh), z1 * z2 % curveP * h % curveP)

/-- `k` times a point, from the top of 384 bits. -/
def ptMul (k : Nat) (p : CurvePt) : CurvePt :=
  (List.range 384).foldl (fun a i => if k / 2 ^ (383 - i) % 2 = 1 then ptAdd (ptDouble a) p else ptDouble a) (1, 1, 0)

/-- A power modulo `m`, from the top of 384 bits. -/
def powMod (m b e : Nat) : Nat :=
  (List.range 384).foldl (fun a i => if e / 2 ^ (383 - i) % 2 = 1 then a * a % m * b % m else a * a % m) 1

/-- The inverse modulo a prime. -/
def invMod (m x : Nat) : Nat := powMod m (x % m) (m - 2)

/-- The x coordinate of a point; none for infinity. -/
def ptX (p : CurvePt) : Option Nat :=
  if p.2.2 = 0 then none else let i := invMod curveP p.2.2; some (p.1 * (i * i % curveP) % curveP)

/-- Is (x, y) on the curve? -/
def onCurve (x y : Nat) : Bool :=
  x < curveP && y < curveP && y * y % curveP = (x * x % curveP * x + curveA * x + curveB) % curveP

/-- Does the signature (r, then s) verify under the public key (x, then y) over the digest? -/
def ecdsaVerify (key : BitVec 768) (digest : BitVec 384) (sig : BitVec 768) : Bool :=
  let x := key.toNat / 2 ^ 384
  let y := key.toNat % 2 ^ 384
  let r := sig.toNat / 2 ^ 384
  let s := sig.toNat % 2 ^ 384
  if !onCurve x y || r = 0 || curveQ ≤ r || s = 0 || curveQ ≤ s then false
  else
    let w := invMod curveQ s
    match ptX (ptAdd (ptMul (digest.toNat * w % curveQ) (baseX, baseY, 1)) (ptMul (r * w % curveQ) (x, y, 1))) with
    | some v => v % curveQ = r
    | none => false

/-- The identity's private number: derived from the secret by a function the spec does not give (R471, log 8). -/
def identityPrivate (secret : BitVec 384) : Nat := 1 + (Config.identityScalar secret).toNat % (curveQ - 1)

/-- The public key of a private number: x, then y. -/
def publicKey (d : Nat) : BitVec 768 :=
  let p := ptMul d (baseX, baseY, 1)
  let i := invMod curveP p.2.2
  let ii := i * i % curveP
  BitVec.ofNat 768 (p.1 * ii % curveP * 2 ^ 384 + p.2.1 * (ii * i % curveP) % curveP)

/-- A signature over a digest with the `draw`-th nonce of the hardware random source (R471). -/
def ecdsaSign (d draw : Nat) (digest : BitVec 384) : BitVec 768 :=
  let k := 1 + (Config.signNonce draw).toNat % (curveQ - 1)
  let r := ((ptX (ptMul k (baseX, baseY, 1))).getD 0) % curveQ
  let s := invMod curveQ k * ((digest.toNat + r * d) % curveQ) % curveQ
  BitVec.ofNat 768 (r * 2 ^ 384 + s)

end Sys2Proof.Machine
end

