-- ==== Sys2Proof/Machine/Welt.lean ====
section
/-! DEFINITION. The host port and the transport of Welt: frames (R385 to R388), sessions and reliability (R389 to R392),
peers (R400), event messages (R63). -/
namespace Sys2Proof.Machine

def Chip.modSess (c : Chip) (k : Nat) (f : SessS → SessS) : Chip := c.setSess k (f (c.sess k))
def Chip.peer (c : Chip) (n : Nat) : SessS := Tab.get c.bridge.peers n {}
def Chip.setPeer (c : Chip) (n : Nat) (s : SessS) : Chip :=
  { c with bridge := { c.bridge with peers := Tab.put c.bridge.peers n s } }

/-- SESS_CTL `state`: 0 CLOSED, 1 OPEN, 2 LOST. -/
def Chip.sessState (c : Chip) (k : Nat) : Nat := c.fld .hostbr (HOSTBR.SESS_CTL_state.plus (0x40 * k))

/-- Set a session's state and its bit of `sessions_open`. -/
def Chip.setSessState (c : Chip) (k st : Nat) : Chip :=
  let c := c.setFld .hostbr (HOSTBR.SESS_CTL_state.plus (0x40 * k)) st
  let w := c.fld .hostbr HOSTBR.HOSTBR_STS_sessions_open
  c.setFld .hostbr HOSTBR.HOSTBR_STS_sessions_open
    (if st = 1 then w ||| 2 ^ k else w &&& (0xFFFF - 2 ^ k))

def Chip.txNext (c : Chip) (k : Nat) : Nat := c.fld .hostbr (HOSTBR.SESS_SEQ_tx_next.plus (0x40 * k))
def Chip.rxNext (c : Chip) (k : Nat) : Nat := c.fld .hostbr (HOSTBR.SESS_SEQ_rx_next.plus (0x40 * k))

/-- Do Welt commands count: from the end of SCRIPT, not in FAILED, not fail silent (R453, R406)? -/
def Chip.serves (c : Chip) : Bool :=
  let st := c.fld .boot BOOT.BOOT_STS_state
  (st = 7 || st = 8) && !c.boot.failSilent && !c.boot.shut && !c.boot.resetLow

/-- The session that EVENT, RESYNC, RESULT, RECV and CAPTURE messages use. -/
def Chip.eventSession (c : Chip) : Nat := c.fld .hostbr HOSTBR.HOSTBR_CTL_event_session

/-! ### Sending -/

/-- Bytes of the Ethernet frame that carries a Welt payload of `n` bytes (R401). -/
def Chip.frameBytes (c : Chip) (v6 : Bool) (n : Nat) : Nat :=
  14 + (if c.fld .hostport HOSTPORT.HP_CTL_vid = 0 then 0 else 4)
    + (if c.flag .hostport HOSTPORT.HP_CTL_macsec_en then 32 else 0) + (if v6 then 40 else 20) + 8 + 32 + n + 4

/-- Does a received PFC frame stop a priority now (R386)? -/
def Chip.pausedNow (c : Chip) (prio : Nat) : Bool :=
  match Tab.find c.host.paused prio with
  | some t => c.now < t
  | none => false

/-- May a frame of a priority leave now: link up, not paused, gate open (R386, R388)? -/
def Chip.canSend (c : Chip) (prio bytes : Nat) : Bool :=
  c.flag .hostport HOSTPORT.HP_STS_link_up && !c.pausedNow prio && c.hostAdmits prio bytes

/-- A frame leaves: with MACsec its SA's PN advances, and past 2^63 `pn_high` is set (R387). -/
def Chip.frameOut (c : Chip) : Chip :=
  if c.flag .hostport HOSTPORT.HP_CTL_macsec_en then
    let f := HOSTPORT.SA_PN_pn.plus (0x100 * c.fld .hostport HOSTPORT.MACSEC_CTL_tx_an)
    let before := c.fld .hostport f
    let c := c.wrap .hostport f
    c.raiseIf (decide (before ≤ 2 ^ 63 ∧ 2 ^ 63 < c.fld .hostport f)) .hostport HOSTPORT.ev_pn_high
  else c

/-- Payload bytes of a message list. -/
def weltBytes (l : List Welt) : Nat := l.foldl (fun n m => n + m.payload.length) 0

/-- Room in a window: 64 messages or 512 KiB of payload unacknowledged (R392). -/
def SessS.room (s : SessS) (n : Nat) : Bool := s.unacked.length < 64 && weltBytes s.unacked + n ≤ 524288

/-- A Welt message with its CRC (Table WELT-2). `flags` are W1 bits [13:8] and the status. -/
def mkWelt (type session job seq ack : Nat) (flags status : Nat) (argA : Word) (argB : Nat) (payload : List Byte) :
    Welt :=
  let w0 := setBits (setBits (setBits (setBits (setBits 0 63 60 1) 59 52 type) 51 48 session) 47 32 job) 31 0 seq
  let w1 := setBits (setBits (setBits (setBits 0 63 32 ack) 31 18 payload.length) 13 8 flags) 7 0 status
  let m : Welt := ⟨w0, w1, argA, BitVec.ofNat 64 (argB % 2 ^ 32), payload⟩
  { m with w3 := setBits m.w3 63 32 m.crcOf }

/-- A message as it leaves now: its sequence number and the current `ack` (R391). -/
def Welt.stamp (m : Welt) (seq ack : Nat) : Welt :=
  let m := { m with w0 := setBits m.w0 31 0 seq, w1 := setBits m.w1 63 32 ack }
  { m with w3 := setBits m.w3 63 32 m.crcOf }

/-- A message joins those that are sent and not acknowledged; into an empty window it starts `rto` (R392). -/
def SessS.sent (s : SessS) (m : Welt) (now : Nat) : SessS :=
  { s with
    unacked := s.unacked ++ [m]
    ackAt := if s.unacked.isEmpty then now else s.ackAt
    unsaid := 0
    unsaidBytes := 0 }

/-- May a message with n payload bytes of session k leave now: the session is OPEN, its window has room, its priority may send? -/
def Chip.sessSends (c : Chip) (k n : Nat) : Bool :=
  let sc := c.reg .hostbr (0x1000 + 0x40 * k)
  c.sessState k = 1 && (c.sess k).room n && c.canSend (getBits sc 61 59) (c.frameBytes (bitAt sc 62) n)

/-- Waiting messages of a session leave in their order while the session is OPEN, its window has room and its priority may send. -/
def Chip.pumpSess (c : Chip) (k : Nat) : Chip :=
  (c.sess k).waiting.foldl (fun c _ =>
    let s := c.sess k
    match s.waiting with
    | [] => c
    | m :: rest =>
      if c.sessSends k m.payload.length then
        let seq := c.txNext k
        let m' := m.stamp seq ((c.rxNext k + 2 ^ 32 - 1) % 2 ^ 32)
        let c := c.setSess k ({ s with waiting := rest }.sent m' c.now)
        (c.setFld .hostbr (HOSTBR.SESS_SEQ_tx_next.plus (0x40 * k)) (seq + 1)).frameOut
      else c) c

/-- Queue a sequenced message for a session and send what may go. -/
def Chip.weltSend (c : Chip) (k : Nat) (m : Welt) : Chip :=
  (c.modSess k (fun s => { s with waiting := s.waiting ++ [m] })).pumpSess k

/-- A reply of type t + 0x80 to a command (Table WELT-3); dropped when the session was opened again or lost since (R392). -/
def Chip.reply (c : Chip) (k epoch : Nat) (cmd : Welt) (status : Nat) (argA : Word := 0) (payload : List Byte := [])
    (last : Bool := true) (locked : Bool := false) : Chip :=
  if (c.sess k).epoch ≠ epoch || c.sessState k ≠ 1 then c
  else c.weltSend k (mkWelt ((cmd.type + 0x80) % 256) k cmd.job 0 0 (4 * bit last + 8 * bit locked) status argA cmd.seq
    payload)

/-- An ACK message (R391), where its priority may send. -/
def Chip.sendAck (c : Chip) (k : Nat) (nak : Bool) : Chip :=
  let sc := c.reg .hostbr (0x1000 + 0x40 * k)
  if !c.canSend (getBits sc 61 59) (c.frameBytes (bitAt sc 62) 0) then c
  else
  let m := mkWelt 0x02 k 0 0 ((c.rxNext k + 2 ^ 32 - 1) % 2 ^ 32) (2 * bit nak) 0 0 0 []
  (c.modSess k (fun s => { s with ackOut := some m, unsaid := 0, unsaidBytes := 0 })).frameOut

/-- The events that wait leave on the event session, then the samples' CAPTURE messages (R63, R392, R417). -/
def Chip.pumpEvents (c : Chip) : Chip :=
  let k := c.eventSession
  let free := fun (c : Chip) (n : Nat) => (c.sess k).waiting.isEmpty && c.sessSends k n
  let c := c.bridge.events.foldl (fun c e =>
    if free c 32 then
      let m := match e with
        | .event a ws => mkWelt 0x08 k 0 0 0 4 0 (BitVec.ofNat 64 a) 0 (ws.flatMap wordBytes)
        | .resync => mkWelt 0x09 k 0 0 0 4 0 0 0 []
      ({ c with bridge := { c.bridge with events := c.bridge.events.drop 1 } }).weltSend k m
    else c) c
  let c := if c.bridge.events.isEmpty then c.bridge.captures.foldl (fun (c : Chip) _ =>
    match c.bridge.captures with
    | [] => c
    | (r, off, total, bytes) :: rest =>
      if free c bytes.length then
        ({ c with bridge := { c.bridge with captures := rest } }).weltSend k
          (mkWelt 0x0C k 0 0 0 (4 * bit (off + bytes.length = total)) 0 (BitVec.ofNat 64 (off * 2 ^ 32 + r)) total bytes)
      else c) c else c
  c.setFld .hostbr HOSTBR.HOSTBR_STS_event_queued c.bridge.events.length

/-- Take an acknowledgement (R391). -/
def SessS.takeAck (s : SessS) (ack now : Nat) : SessS :=
  let d := (BitVec.ofNat 32 ack - s.acked).toNat
  if d = 0 || s.unacked.length < d then s
  else { s with unacked := s.unacked.drop d, acked := BitVec.ofNat 32 ack, retries := 0, ackAt := now }

/-- Frames that leave once more (R391, R392), under a session's or peer's control word; counted. -/
def Chip.framesAgain (c : Chip) (ctl : Word) (l : List Welt) : Chip :=
  l.foldl (fun c m => if c.canSend (getBits ctl 61 59) (c.frameBytes (bitAt ctl 62) m.payload.length) then c.frameOut else c)
    (c.bump .hostbr HOSTBR.WELT_RESEND_resends l.length)

/-- Every unacknowledged message leaves again, with the current `ack` in its header. -/
def SessS.again (s : SessS) (ack now : Nat) : SessS :=
  { s with unacked := s.unacked.map (fun m => m.stamp m.seq ack), ackAt := now, unsaid := 0, unsaidBytes := 0 }

/-- A session, or a peer, sends all its unacknowledged messages again. -/
def Chip.resendSess (c : Chip) (k : Nat) : Chip :=
  (c.framesAgain (c.reg .hostbr (0x1000 + 0x40 * k)) (c.sess k).unacked).modSess k
    (fun s => s.again ((c.rxNext k + 2 ^ 32 - 1) % 2 ^ 32) c.now)
def Chip.resendPeer (c : Chip) (n : Nat) : Chip :=
  let s := c.peer n
  (c.framesAgain (c.reg .hostbr (0x2000 + 0x20 * n)) s.unacked).setPeer n (s.again (s.rxNext - 1).toNat c.now)

/-- What every received header of a session gives. -/
def Chip.takeWeltAck (c : Chip) (k : Nat) (m : Welt) : Chip :=
  let c := c.modSess k (fun s => s.takeAck m.ack c.now)
  let c := if m.nak then c.resendSess k else c
  (c.pumpSess k).pumpEvents

/-! ### Receiving -/

/-- Ones'-complement sum of big-endian 16-bit words (IPv4 and UDP checksums). -/
def onesSum : List Byte → Nat
  | [] => 0
  | [a] => a.toNat * 256
  | a :: b :: t => a.toNat * 256 + b.toNat + onesSum t

/-- Fold a sum to 16 bits. -/
def fold16 (n : Nat) : Nat := let a := n % 65536 + n / 65536; a % 65536 + a / 65536

/-- A UDP datagram taken from a frame: source address (IPv4 or IPv6), source port, payload. -/
structure Datagram where
  v6 : Bool
  ip : Nat
  port : Nat
  payload : List Byte
  deriving DecidableEq, Repr

/-- What a received frame's network layer holds (Table WELT-1). -/
inductive NetIn where
  | udp (d : Datagram)
  | arp (mac : BitVec 48) (ip : BitVec 32)
  | neighbour (mac : BitVec 48) (ip : BitVec 128)
  | discard
  deriving DecidableEq, Repr

/-- Big-endian bytes i … i+n-1. -/
def beAt (l : List Byte) (i n : Nat) : Nat := beNat (slice l i n)

/-- UDP at an offset: the port it is for, the length, and a checksum of 0 or correct; IPv6 needs one (Table WELT-1). -/
def udpAt (l : List Byte) (o : Nat) (v6 : Bool) (src dst : List Byte) (wanted : Nat) : NetIn :=
  let n := beAt l (o + 4) 2
  let sum := beAt l (o + 6) 2
  let pseudo := onesSum (src ++ dst) + 17 + n
  let good := fold16 (pseudo + onesSum (slice l o n)) = 0xFFFF
  if n < 8 || l.length < o + n || beAt l (o + 2) 2 ≠ wanted then .discard
  else if (sum = 0 && v6) || (sum ≠ 0 && !good) then .discard
  else .udp ⟨v6, beNat src, beAt l o 2, slice l (o + 8) (n - 8)⟩

/-- The network layer of a frame for these addresses and UDP port (Table WELT-1). -/
def netOf (f : Frame) (ip4 : Nat) (ip6 : Nat) (udpPort : Nat) : NetIn :=
  let l := f.body
  if f.ethertype = 0x0800 then
    if beAt l 0 1 ≠ 0x45 || l.length < 20 || fold16 (onesSum (slice l 0 20)) ≠ 0xFFFF then .discard
    else if beAt l 6 2 % 16384 ≠ 0 || beAt l 9 1 ≠ 17 || beAt l 16 4 ≠ ip4 then .discard
    else udpAt l 20 false (slice l 12 4) (slice l 16 4) udpPort
  else if f.ethertype = 0x86DD then
    if beAt l 0 1 / 16 ≠ 6 || l.length < 40 then .discard
    else if beAt l 6 1 = 17 then
      if beAt l 24 16 = ip6 then udpAt l 40 true (slice l 8 16) (slice l 24 16) udpPort else .discard
    else if beAt l 6 1 = 58 && beAt l 40 1 = 135 && beAt l 48 16 = ip6 then
      .neighbour f.src (BitVec.ofNat 128 (beAt l 8 16))
    else .discard
  else if f.ethertype = 0x0806 then
    if beAt l 6 2 = 1 && beAt l 24 4 = ip4 then .arp f.src (BitVec.ofNat 32 (beAt l 14 4)) else .discard
  else .discard

/-- The bytes an ICV covers (R387). -/
def macsecBytes (f : Frame) (sci : Word) (an : Nat) (pn : Word) : List Byte :=
  leBytes 6 f.dst.toNat ++ leBytes 6 f.src.toNat ++ wordBytes sci ++ leBytes 1 an ++ wordBytes pn
    ++ leBytes 2 f.ethertype.toNat ++ f.body

/-- R387: the checks on a frame with MACsec on. -/
def Chip.macsecOk (c : Chip) (f : Frame) : Bool :=
  match f.secTag with
  | none => false
  | some (sci, an, pn) =>
    let b := 0x1000 + 0x100 * (4 + an.val)
    let sak := (List.range 4).foldl (fun n i => n + (c.reg .hostport (b + 8 * i)).toNat * 2 ^ (64 * i)) 0
    let salt := (c.reg .hostport (b + 0x20)).toNat % 2 ^ 32 * 2 ^ 64 + (c.reg .hostport (b + 0x28)).toNat
    sci = c.reg .hostport 0x160 && bitAt (c.reg .hostport (b + 0x30)) 63
      && (c.reg .hostport (b + 0x38)).toNat ≤ pn.toNat
      && Config.icvValid (BitVec.ofNat 256 sak) (BitVec.ofNat 96 salt) (macsecBytes f sci an.val pn)

/-- R387: the lowest acceptable PN follows the newest one at `replay_window`. -/
def Chip.macsecTaken (c : Chip) (f : Frame) : Chip :=
  match f.secTag with
  | none => c
  | some (_, an, pn) =>
    let fl := HOSTPORT.SA_PN_pn.plus (0x100 * (4 + an.val))
    c.peak .hostport fl (pn.toNat + 1 - c.fld .hostport HOSTPORT.REPLAY_WIN_replay_window)

/-- Bytes of the receive buffer: accepted commands not yet begun (R386), of one priority or all. -/
def Chip.rxHeld (c : Chip) (prio : Option Nat) : Nat :=
  c.bridge.sessions.foldl (fun n e => e.2.cmds.foldl (fun n m =>
    if prio = none || prio = some m.2.2 then n + 32 + m.1.payload.length else n) n) 0

/-- The session whose entry a message's source matches (R390). -/
def Chip.sourceOk (c : Chip) (k : Nat) (d : Datagram) (mac : BitVec 48) (page : Nat) (stride : Nat) : Bool :=
  let b := page + stride * k
  let w := c.reg .hostbr b
  bitAt w 63 && bitAt w 62 = d.v6 && getBits w 15 0 = d.port && getBits (c.reg .hostbr (b + 8)) 47 0 = mac.toNat
    && (if d.v6 then (c.reg .hostbr (b + 0x10)).toNat * 2 ^ 64 + (c.reg .hostbr (b + 0x18)).toNat = d.ip
        else getBits (c.reg .hostbr (b + 0x18)) 31 0 = d.ip)

/-- The command types of Table WELT-3, and the `op` values of IMAGE, ATTEST and UNLOCK. -/
def Welt.known (m : Welt) : Bool :=
  let op := getBits m.argA 7 0
  match m.type with
  | 0x10 | 0x20 | 0x21 | 0x30 | 0x40 | 0x41 | 0x42 | 0x50 => true
  | 0x60 => 1 ≤ op && op ≤ 6
  | 0x61 => op = 1
  | 0x62 => 1 ≤ op && op ≤ 3
  | _ => false

/-- A message that failed R390. -/
def Chip.badMessage (c : Chip) (source : Bool) : Chip :=
  (if source then c.bump .hostbr HOSTBR.WELT_COUNT_bad_source else c.bump .hostbr HOSTBR.WELT_COUNT_bad_crc).raise
    .hostbr HOSTBR.ev_bad_message

/-- R391, R392: is the accepted, unacknowledged traffic of the far end within 64 messages and 512 KiB? -/
def SessS.rxRoom (s : SessS) (n : Nat) : Bool := s.unsaid < 64 && s.unsaidBytes + n ≤ 524288

/-- A command of an OPEN session (R391): accepted in order, a duplicate acknowledged again, one ahead answered with a NAK.
A reserved type is answered BAD_TYPE. -/
def Chip.sessIn (c : Chip) (k prio : Nat) (m : Welt) : Chip :=
  let c := c.takeWeltAck k m
  if c.sessState k ≠ 1 then c
  else
    let d := (BitVec.ofNat 32 m.seq - BitVec.ofNat 32 (c.rxNext k)).toNat
    let s := c.sess k
    if d = 0 && s.rxRoom m.payload.length then
      let c := c.setFld .hostbr (HOSTBR.SESS_SEQ_rx_next.plus (0x40 * k)) (m.seq + 1)
      let c := c.modSess k (fun s =>
        { s with unsaid := s.unsaid + 1, unsaidBytes := s.unsaidBytes + m.payload.length })
      let c := c.awlCommand m
      if m.known then c.modSess k (fun s => { s with cmds := s.cmds ++ [(m, s.epoch, prio)] })
      else c.reply k s.epoch m 1
    else if 2 ^ 31 ≤ d then c.modSess k (fun s => { s with unsaid := s.unsaid + 1 })
    else (c.bump .hostbr HOSTBR.WELT_COUNT_out_of_window).sendAck k true

/-- Waiting XPOD messages of a peer leave while its entry is valid, its window has room and its priority may send (R400). -/
def Chip.pumpPeer (c : Chip) (n : Nat) : Chip :=
  let pc := c.reg .hostbr (0x2000 + 0x20 * n)
  (c.peer n).waiting.foldl (fun c _ =>
    let s := c.peer n
    match s.waiting with
    | [] => c
    | m :: rest =>
      if bitAt pc 63 && !s.lost && s.room m.payload.length
          && c.canSend (getBits pc 61 59) (c.frameBytes (bitAt pc 62) m.payload.length) then
        let m' := m.stamp s.txNext.toNat (s.rxNext - 1).toNat
        (c.setPeer n ({ s with waiting := rest, txNext := s.txNext + 1 }.sent m' c.now)).frameOut
      else c) c

/-- Queue an XPOD message that carries one PIECE packet (R400). -/
def Chip.peerSend (c : Chip) (n : Nat) (pkt : Packet) : Chip :=
  let s := c.peer n
  (c.setPeer n { s with waiting := s.waiting ++ [mkWelt 0x0D 0 0 0 0 4 0 0 0 pkt.bytes] }).pumpPeer n

/-- An XPOD message of a peer entry: its own pair of sequence spaces, no OPEN (R400). -/
def Chip.peerIn (c : Chip) (n : Nat) (m : Welt) : Chip :=
  let c := c.setPeer n ((c.peer n).takeAck m.ack c.now)
  let c := if m.nak then c.resendPeer n else c
  if m.type = 0x02 then c.pumpPeer n
  else
    let s := c.peer n
    let d := (BitVec.ofNat 32 m.seq - s.rxNext).toNat
    if d = 0 && s.rxRoom m.payload.length then c.setPeer n { s with
      rxNext := s.rxNext + 1
      cmds := s.cmds ++ [(m, 0, 0)]
      unsaid := s.unsaid + 1
      unsaidBytes := s.unsaidBytes + m.payload.length }
    else if 2 ^ 31 ≤ d then c.setPeer n { s with unsaid := s.unsaid + 1 }
    else
      let a := mkWelt 0x02 0 0 0 (s.rxNext - 1).toNat 2 0 0 0 []
      ((c.setPeer n { s with ackOut := some a }).bump .hostbr HOSTBR.WELT_COUNT_out_of_window).frameOut

/-- A UDP payload on the Welt port (R390). -/
def Chip.weltIn (c : Chip) (d : Datagram) (mac : BitVec 48) (prio : Nat) : Chip :=
  let m := Welt.ofBytes d.payload
  if m.version ≠ 1 || m.crc ≠ m.crcOf || m.len + 32 ≠ d.payload.length then c.badMessage false
  else if m.type = 0x0D then
    match (List.range 256).find? (fun n => c.sourceOk n d mac 0x2000 0x20) with
    | some n => c.peerIn n m
    | none => c.badMessage true
  else if !c.sourceOk m.session d mac 0x1000 0x40 then
    if m.type = 0x02 then
      match (List.range 256).find? (fun n => c.sourceOk n d mac 0x2000 0x20) with
      | some n => c.peerIn n m
      | none => c.badMessage true
    else c.badMessage true
  else
    let k := m.session
    if m.type = 0x01 then c.modSess k (fun s => { s with opens := s.opens ++ [m] })
    else if m.type = 0x02 then c.modSess k (fun s => { s with acks := s.acks ++ [m] })
    else c.sessIn k prio m

/-- PFC XOFF for a priority that holds more than `pfc_xoff` KiB (R386). -/
def Chip.pfcCheck (c : Chip) (prio : Nat) : Chip :=
  if c.flag .hostport HOSTPORT.HP_CTL_pfc_en && bitAt (c.reg .hostport 0x130) prio && !c.host.xoffSent.contains prio
      && 1024 * c.fld .hostport HOSTPORT.PFC_CTL_pfc_xoff < c.rxHeld (some prio) then
    { c with host := { c.host with xoffSent := prio :: c.host.xoffSent, lastOut := some (.pfc prio true) } }
  else c

/-- A discarded frame with an unsupported option (R385). -/
def Chip.hdrDiscard (c : Chip) : Chip := c.bump .hostport HOSTPORT.HP_COUNT_hdr_discards

/-- Bytes of a frame with its FCS; a SecTAG and its ICV take 16 each (R385, R401). -/
def Frame.bytes (f : Frame) : Nat :=
  14 + (if f.vlan.isSome then 4 else 0) + (if f.secTag.isSome then 32 else 0) + f.body.length + 4

/-- R385 to R390: a received Ethernet frame. -/
def Chip.frameIn (c : Chip) (f : Frame) : Chip :=
  let vid := c.fld .hostport HOSTPORT.HP_CTL_vid
  let prio := match f.vlan with | some (_, p) => p.toNat | none => 0
  let tagOk := match f.vlan with | some (v, _) => vid ≠ 0 && v.toNat = vid | none => vid = 0
  let group := f.dst.toNat / 2 ^ 40 % 2 = 1
  let resolving := f.ethertype = 0x0806 || f.ethertype = 0x86DD
  let macsec := c.flag .hostport HOSTPORT.HP_CTL_macsec_en
  if !c.flag .hostport HOSTPORT.HP_STS_link_up || !c.serves then c
  else if !f.fcsOk then c.bump .hostport HOSTPORT.HP_COUNT_fcs_errors
  else if 1048576 < c.rxHeld none + f.body.length then
    (c.bump .hostport HOSTPORT.HP_COUNT_rx_overflow).raise .hostport HOSTPORT.ev_rx_overflow
  else if f.stacked || !tagOk || 9216 < Frame.bytes f then c.hdrDiscard
  else if !(f.dst.toNat = c.fld .hostport HOSTPORT.MAC_ADDR_mac || (group && resolving)) then c.hdrDiscard
  else if macsec && !c.macsecOk f then c.bump .hostport HOSTPORT.HP_COUNT_macsec_discards
  else if !macsec && f.secTag.isSome then c.hdrDiscard
  else
    let c := if macsec then c.macsecTaken f else c
    let ip6 := (c.reg .hostport 0x120).toNat * 2 ^ 64 + (c.reg .hostport 0x128).toNat
    match netOf f (c.fld .hostport HOSTPORT.IPV4_ADDR_ipv4) ip6 (c.fld .hostbr HOSTBR.HOSTBR_CTL_udp_port) with
    | .discard => c.hdrDiscard
    | .arp mac ip => ({ c with host := { c.host with lastOut := some (.arpReply mac ip) } }).frameOut
    | .neighbour mac ip => ({ c with host := { c.host with lastOut := some (.neighbourAdvert mac ip) } }).frameOut
    | .udp d => if group then c.hdrDiscard else (c.weltIn d f.src prio).pfcCheck prio

/-! ### Taking a command -/

/-- Is a command accepted and not complete: a release, a teardown, an image command at the flash, a FABRIC_SEND whose packet waits
(R402)? -/
def Chip.bridgeBusy (c : Chip) : Bool :=
  c.bridge.jobs.any (fun j => j.releasing.isSome || j.tearing.isSome) || c.flashReply.isSome
    || (List.finRange 4).any (fun r => (Tab.get (c.xbar r).arrivals 19 []).any (fun a => a.reply.isSome))

/-- A command is complete (R402). -/
def Chip.cmdDone (c : Chip) : Chip := c.progress .hostbr c.bridgeBusy 1

/-- R393: the session served next, round robin among those with a command. -/
def Chip.nextSess (c : Chip) : Option Nat :=
  ((List.range 16).map (fun i => (c.bridge.served + 1 + i) % 16)).find? (fun k => !(c.sess k).cmds.isEmpty)

/-- Session k is served, when it is next: a command that must wait lets the other sessions go first. -/
def Chip.onTurn (c : Chip) (k : Nat) (f : Chip → Chip) : Chip :=
  if c.nextSess = some k then f { c with bridge := { c.bridge with served := k } } else c

/-- Begin the command at the head of a session if it is of this type (and `op`): R393. -/
def Chip.takeCmd (c : Chip) (k : Nat) (p : Welt → Bool) (f : Chip → Welt → Nat → Chip) : Chip :=
  match (c.sess k).cmds with
  | (m, ep, _) :: rest =>
    if p m then c.onTurn k (fun c =>
      let c := f (c.modSess k (fun s => { s with cmds := rest })) m ep
      c.progress .hostbr c.bridgeBusy 0)
    else c
  | [] => c

/-- Complete a command with one reply. -/
def Chip.answer (c : Chip) (k epoch : Nat) (m : Welt) (status : Nat) (argA : Word := 0) (payload : List Byte := [])
    (locked : Bool := false) : Chip :=
  (c.reply k epoch m status argA payload true locked).cmdDone

/-! ### The commands -/

/-- FRAME_RECEIVED. -/
def execFrameReceived (f : Frame) (s : State) : Host.Outcome State Fault Refusal := s.on (fun c => c.frameIn f)

/-- PFC_FRAME: each enabled priority is paused for its quanta, 0 ending its pause (R386). A quantum is 512 bit times of the
800 Gb/s port, one s-cycle (PRESUMED, log 276). -/
def execPfcFrame (enable : BitVec 8) (quanta : List (BitVec 16)) (s : State) : Host.Outcome State Fault Refusal :=
  s.on (fun c =>
    if !c.flag .hostport HOSTPORT.HP_CTL_pfc_en then c
    else (List.range 8).foldl (fun c i =>
      if enable.getLsbD i && bitAt (c.reg .hostport 0x130) i then
        let q := (quanta.getD i 0).toNat
        { c with host := { c.host with
            paused := if q = 0 then Tab.del c.host.paused i else Tab.put c.host.paused i (c.now + q) } }
      else c) c)

/-- Every session's waiting messages that may go. -/
def Chip.pumpAll (c : Chip) : Chip :=
  (c.bridge.peers.foldl (fun c e => c.pumpPeer e.1) ((List.range 16).foldl (fun c k => c.pumpSess k) c)).pumpEvents

/-- Messages and events that wait to leave go as soon as they may. -/
def Chip.hostSlot (c : Chip) : Chip :=
  if c.bridge.events.isEmpty && c.bridge.captures.isEmpty && c.bridge.sessions.all (fun e => e.2.waiting.isEmpty)
      && c.bridge.peers.all (fun e => e.2.waiting.isEmpty) then c
  else c.pumpAll

/-- PFC_PAUSE_EXPIRY: once the quanta have passed. -/
def execPfcPauseExpiry (prio : Fin 8) (s : State) : Host.Outcome State Fault Refusal :=
  s.on (fun c => if c.pausedNow prio.val then c else ({ c with host := { c.host with paused := Tab.del c.host.paused prio.val } }).pumpAll)

/-- PFC_XON. -/
def execPfcXon (prio : Fin 8) (s : State) : Host.Outcome State Fault Refusal :=
  s.on (fun c =>
    if c.host.xoffSent.contains prio.val
        && c.rxHeld (some prio.val) < 1024 * c.fld .hostport HOSTPORT.PFC_CTL_pfc_xon then
      { c with host := { c.host with
          xoffSent := c.host.xoffSent.filter (· ≠ prio.val)
          lastOut := some (.pfc prio.val false) } }
    else c)

/-- OPEN: both directions restart, the reply carries the serial (R391, Table WELT-5). -/
def execOpen (k : Sess) (s : State) : Host.Outcome State Fault Refusal :=
  s.on (fun c =>
    match (c.sess k.val).opens with
    | [] => c
    | m :: rest =>
      let c := c.modSess k.val (fun s => { s with
        opens := rest
        acks := []
        unacked := []
        waiting := []
        retries := 0
        acked := 0
        unsaid := 0
        unsaidBytes := 0
        lost := false
        epoch := s.epoch + 1 })
      let c := c.setReg .hostbr (0x1020 + 0x40 * k.val) (setBits (setBits 0 63 32 1) 31 0 1)
      let c := (c.setSessState k.val 1).raise .hostbr HOSTBR.ev_session_opened
      (c.reply k.val (c.sess k.val).epoch m 0 c.fuses.serial).pumpEvents)

/-- ACK. -/
def execAck (k : Sess) (s : State) : Host.Outcome State Fault Refusal :=
  s.on (fun c =>
    match (c.sess k.val).acks with
    | [] => c
    | m :: rest => (c.modSess k.val (fun s => { s with acks := rest })).takeWeltAck k.val m)

/-- ACK_DELAY_TIMEOUT. -/
def execAckDelayTimeout (k : Sess) (s : State) : Host.Outcome State Fault Refusal :=
  s.on (fun c => if (c.sess k.val).unsaid = 0 then c else c.sendAck k.val false)

/-- `retry_max`, 0 acting as 1. -/
def Chip.retryMax (c : Chip) : Nat := max 1 (c.fld .hostbr HOSTBR.HOSTBR_CTL_retry_max)

/-- Has no `ack` advanced for `rto` µs, 2 to 1,000 (R392)? An s-cycle is 0.64 ns. -/
def Chip.rtoPast (c : Chip) (s : SessS) : Bool :=
  let rto := max 2 (min 1000 (c.fld .hostbr HOSTBR.HOSTBR_CTL_rto))
  100000 * rto ≤ 64 * (c.now - s.ackAt)

/-- WELT_RESEND_TIMEOUT: resend, or after `retry_max` the session or peer is LOST (R392, R400). -/
def execWeltResendTimeout (peer : Bool) (ix : Fin 256) (s : State) : Host.Outcome State Fault Refusal :=
  s.on (fun c =>
    let st := if peer then c.peer ix.val else c.sess (ix.val % 16)
    if st.unacked.isEmpty || st.lost || !c.rtoPast st then c
    else if c.retryMax ≤ st.retries then
      let st := { st with lost := true, unacked := [], waiting := [] }
      if peer then ((c.setPeer ix.val st).setFld .hostbr (HOSTBR.PEER_CTL_state.plus (0x20 * ix.val)) 2).raise .hostbr
          HOSTBR.ev_peer_lost
      else ((c.setSess (ix.val % 16) st).setSessState (ix.val % 16) 2).error .hostbr HOSTBR.ev_session_lost 0x87
    else
      let st := { st with retries := st.retries + 1 }
      if peer then (c.setPeer ix.val st).resendPeer ix.val else (c.setSess (ix.val % 16) st).resendSess (ix.val % 16))

/-- R390, Table WELT-5: a write of SESS_CTL; `valid` 0 closes the session. -/
def Chip.opSessCtl (c : Chip) (k : Nat) (v : Word) : Chip × Bool :=
  let (c, no) := c.plainWrite .hostbr (0x1000 + 0x40 * k) v
  if bitAt v 63 then (c, no)
  else ((c.setSessState k 0).modSess k (fun s => { s with opens := [], waiting := [], unacked := [] }), no)

/-- R400: a write to a peer entry restarts both its sequence spaces. -/
def Chip.opPeerEntry (c : Chip) (n word : Nat) (v : Word) : Chip × Bool :=
  let (c, no) := c.plainWrite .hostbr (0x2000 + 0x20 * n + 8 * word) v
  let f := HOSTBR.PEER_CTL_state.plus (0x20 * n)
  (if no then c else (c.setPeer n {}).setFld .hostbr f (bit (bitAt (c.reg .hostbr (0x2000 + 0x20 * n)) 63)), no)

/-- SESSION_VALID_WRITE. -/
def execSessionValidWrite (k : Sess) (value : Word) (s : State) : Host.Outcome State Fault Refusal :=
  s.onReg .hostbr (fun c => c.opSessCtl k.val value) (0x1000 + 0x40 * k.val)

/-- PEER_ENTRY_WRITE. -/
def execPeerEntryWrite (n : Fin 256) (word : Fin 4) (value : Word) (s : State) : Host.Outcome State Fault Refusal :=
  s.onReg .hostbr (fun c => c.opPeerEntry n.val word.val value) (0x2000 + 0x20 * n.val + 8 * word.val)

/-- EVENT_MESSAGE: at most one message of a unit a course; with a full queue `event_queue_full` (R63). To carry EVENT_COUNT "as
read" does not clear its RC count, as an access would (R11): the count stays for software (DESIGN CHOICE, log 264). -/
def Chip.eventMessage (c : Chip) (u : UnitId) : Chip :=
  let k := unitKey u
  if !c.pendingAtChip u || c.bridge.told.contains u || Tab.find c.bridge.toldAt k = some c.courseCount then c
  else
    let ws := [c.reg u 0x20, c.reg u 0x38, c.reg u 0x40, c.reg u 0x48]
    let full := 1024 ≤ c.bridge.events.length
    let c := { c with bridge := { c.bridge with
      told := u :: c.bridge.told
      toldAt := Tab.put c.bridge.toldAt k c.courseCount
      resyncDue := c.bridge.resyncDue || full
      events := if full then c.bridge.events else c.bridge.events ++ [EvMsg.event k ws] } }
    ((c.awlEvent k ws).raiseIf full .chip CHIP.ev_event_queue_full).pumpEvents

/-- EVENT_MESSAGE. -/
def execEventMessage (u : UnitId) (s : State) : Host.Outcome State Fault Refusal := s.on (fun c => c.eventMessage u)

/-- RESYNC. -/
def execResync (s : State) : Host.Outcome State Fault Refusal :=
  s.on (fun c =>
    if c.bridge.resyncDue && c.bridge.events.length ≤ 512 then
      ({ c with bridge := { c.bridge with resyncDue := false, events := c.bridge.events ++ [EvMsg.resync] } }).pumpEvents
    else c)

/-- HOST_LINK_UP (R403). -/
def execHostLinkUp (s : State) : Host.Outcome State Fault Refusal :=
  s.on (fun c =>
    if !c.domOn 156 || !c.flag .hostport HOSTPORT.HP_CTL_enable || c.flag .hostport HOSTPORT.HP_STS_link_up
      || !c.linksRun then c
    else (((c.setReg .hostport 0x108 3).raise .hostport HOSTPORT.ev_link_up).linkSeen 64).pumpAll)

/-- The host link goes down (R403, R421). -/
def Chip.hostLinkLost (c : Chip) : Chip :=
  if c.flag .hostport HOSTPORT.HP_STS_link_up then (c.setReg .hostport 0x108 0).raise .hostport HOSTPORT.ev_link_down else c

/-- HOST_LINK_DOWN. -/
def execHostLinkDown (s : State) : Host.Outcome State Fault Refusal := s.on Chip.hostLinkLost

end Sys2Proof.Machine
end

