-- ==== Sys2Proof/Machine/Image.lean ====
section
/-! DEFINITION. Flash and the confirmation record (R454, R455), image headers (R458, R459, R462), image transfers (R463 to
R467), attestation and debug unlock (R471 to R473), and the TAP (R474, R495, R496). -/
namespace Sys2Proof.Machine

/-! ### Flash -/

/-- An erased byte. -/
def flashErased : Byte := 0xFF

/-- Flash bytes a … a+n-1. -/
def Chip.flashRead (c : Chip) (a n : Nat) : List Byte :=
  (List.range n).map (fun i => (Tab.find c.flash (a + i)).getD flashErased)

/-- Store flash bytes; an erased byte is not listed. -/
def flashWrite (m : List Host.Cell) (a : Nat) : List Byte → List Host.Cell
  | [] => m
  | b :: t => flashWrite (if b = flashErased then Tab.del m a else Tab.put m a b) (a + 1) t

/-- The effect of a completed flash operation. -/
def Chip.flashDo (c : Chip) : FlashOp → Chip
  | .erase base n => { c with flash := c.flash.filter (fun e => e.1 < base || base + n ≤ e.1) }
  | .program base l => { c with flash := flashWrite c.flash base l }

/-- Base of a slot in flash (Table BOOT-2); true is slot B. -/
def slotBase (b : Bool) : Nat := if b then 0x02000000 else 0x01000000

/-- A valid record entry (R455). -/
structure Rec where
  addr : Nat
  seq : Nat
  a : Nat
  b : Nat
  attempts : Nat
  deriving DecidableEq, Repr

/-- The entry at an address, if its magic and CRC match (R455). -/
def Chip.recAt (c : Chip) (addr : Nat) : Option Rec :=
  let l := c.flashRead addr 64
  if leAt l 0 4 = 0x4D485043 && leAt l 60 4 = crc32c (l.take 60) then
    some ⟨addr, leAt l 4 4, leAt l 8 1, leAt l 9 1, leAt l 10 1⟩
  else none

/-- The standing entry: the highest `seq` modulo 2^32 of the valid ones (R455). -/
def Chip.record (c : Chip) : Option Rec :=
  let at_ := (c.flash.filter (fun e => e.1 < 0x20000 && e.1 % 64 = 0 && e.2 = 0x43)).map (·.1)
  at_.foldl (fun best a =>
    match c.recAt a, best with
    | some r, some b => if (r.seq + 2 ^ 32 - b.seq) % 2 ^ 32 < 2 ^ 31 then some r else best
    | some r, none => some r
    | none, _ => best) none

/-- The bytes of an entry (R455). -/
def recBytes (seq a b attempts : Nat) : List Byte :=
  let l := leBytes 4 0x4D485043 ++ leBytes 4 seq ++ leBytes 1 a ++ leBytes 1 b ++ leBytes 1 attempts
    ++ List.replicate 49 0
  l ++ leBytes 4 (crc32c l)

/-- The flash operations that append an entry: at the next erased 64 bytes of the current sector, or, when it is full, in
the other sector after its erase (R455). -/
def Chip.recordOps (c : Chip) (a b attempts : Nat) : List FlashOp :=
  let (sector, seq) := match c.record with
    | some r => (r.addr / 0x10000 * 0x10000, (r.seq + 1) % 2 ^ 32)
    | none => (0, 0)
  let bytes := recBytes seq a b attempts
  match firstFrom 1024 0 (fun i => !c.flash.any (fun e => sector + 64 * i ≤ e.1 && e.1 < sector + 64 * i + 64)) with
  | some i => [.program (sector + 64 * i) bytes]
  | none => [.erase (0x10000 - sector) 0x10000, .program (0x10000 - sector) bytes]

/-- SLOT_STS and BOOT_STS `attempts` follow the record. -/
def Chip.syncRecord (c : Chip) : Chip :=
  match c.record with
  | some r =>
    let c := c.setFld .boot BOOT.SLOT_STS_sstate r.a
    let c := c.setFld .boot (BOOT.SLOT_STS_sstate.plus 8) r.b
    c.setFld .boot BOOT.BOOT_STS_attempts r.attempts
  | none => c

/-- The state of a slot in the record: 0 EMPTY, 1 PENDING, 2 CONFIRMED, 3 PREVIOUS. -/
def Rec.slot (r : Rec) (b : Bool) : Nat := if b then r.b else r.a

/-! ### Image headers -/

/-- A section of the table: type, offset, size, SHA-384 (Table BOOT-3). -/
structure Section where
  type : Nat
  offset : Nat
  size : Nat
  hash : List Byte
  deriving DecidableEq, Repr

/-- The sections of a header. -/
def hdrSections (h : List Byte) : List Section :=
  (List.range (leAt h 26 1)).map (fun i =>
    let b := 128 + 64 * i
    ⟨leAt h b 1, leAt h (b + 4) 4, leAt h (b + 8) 4, slice h (b + 16) 48⟩)

/-- Are bytes i … i+n-1 all 0? -/
def zeroAt (h : List Byte) (i n : Nat) : Bool := (slice h i n).all (· = 0)

/-- Do sections lie end to end from `at_`, ending at `stop`, with sizes that are multiples of 8 (R459)? -/
def sectionsFit (at_ stop : Nat) : List Section → Bool
  | [] => at_ = stop
  | s :: t => s.offset = at_ && s.size % 8 = 0 && sectionsFit (at_ + s.size) stop t

/-- R459: a full image's section types: at most one REPAIR, at most one EQ, then one or more SCRIPT; a delta's one DELTA. -/
def typesOk (delta : Bool) (l : List Nat) : Bool :=
  if delta then l = [4]
  else
    let l := if l.head? = some 1 then l.drop 1 else l
    let l := if l.head? = some 2 then l.drop 1 else l
    !l.isEmpty && l.all (· = 3)

/-- R458, R459: is a header well formed? -/
def hdrFormed (h : List Byte) : Bool :=
  let secs := hdrSections h
  let kind := leAt h 6 1
  let n := leAt h 26 1
  h.length = 4096 && leAt h 0 4 = 0x4D485031 && leAt h 4 2 = 1 && kind ≤ 1 && leAt h 7 1 ≤ 3
    && 4096 ≤ leAt h 8 4 && leAt h 8 4 ≤ 16777216 && 1 ≤ n && n ≤ 48 && zeroAt h 27 5
    && (kind = 1 || (zeroAt h 32 48 && zeroAt h 80 48))
    && (List.range 48).all (fun i =>
      if i < n then zeroAt h (128 + 64 * i + 1) 3 && zeroAt h (128 + 64 * i + 12) 4 else zeroAt h (128 + 64 * i) 64)
    && zeroAt h 3296 704 && typesOk (kind = 1) (secs.map (·.type)) && sectionsFit 4096 (leAt h 8 4) secs

/-- The image digest: SHA-384 of header bytes 0–3,999 (R458). -/
def imageDigest (h : List Byte) : BitVec 384 := sha384 (h.take 4000)

/-- A 48-byte big-endian number. -/
def be384 (l : List Byte) : BitVec 384 := BitVec.ofNat 384 (beNat l)

/-- The 48 big-endian bytes of a digest. -/
def digestBytes (d : BitVec 384) : List Byte := (leBytes 48 d.toNat).reverse

/-- R462: the status of a header: 0, or IMG_HEADER 67, KEY 68, SIGNATURE 69, TARGET 70, VERSION 71. -/
def Chip.hdrStatus (c : Chip) (h : List Byte) : Nat :=
  let key := leAt h 7 1
  let serial := BitVec.ofNat 64 (leAt h 16 8)
  let gradeBit := match c.fuses.grade with | .a => 0 | .b => 1
  let stepBit := match c.fuses.stepping with | .a1 => 0 | .b0 => 1
  if !hdrFormed h then 67
  else if !(c.fuses.keyPresent.getLsbD key && !c.fuses.keyRevoked.getLsbD key
      && sha384 (slice h 3200 96) = c.fuses.imageKeys.getD key 0) then 68
  else if !ecdsaVerify (BitVec.ofNat 768 (beNat (slice h 3200 96))) (imageDigest h)
      (BitVec.ofNat 768 (beNat (slice h 4000 96))) then 69
  else if leAt h 12 4 < c.fuses.versionFloor.toNat then 71
  else if !(leAt h 24 1 / 2 ^ gradeBit % 2 = 1 && leAt h 25 1 / 2 ^ stepBit % 2 = 1
      && (serial = 0 || serial = c.fuses.serial)) then 70
  else 0

/-- Does a section in flash match its hash? -/
def Chip.sectionOk (c : Chip) (base : Nat) (s : Section) : Bool :=
  digestBytes (sha384 (c.flashRead (base + s.offset) s.size)) = s.hash

/-- The booted slot: true is B. -/
def Chip.bootedSlot (c : Chip) : Bool := c.flag .boot BOOT.BOOT_STS_slot

/-- SLOT_STS `sec_version` and SLOT_DIGEST of a slot from its header. -/
def Chip.showSlot (c : Chip) (b : Bool) (h : List Byte) : Chip :=
  let c := c.setFld .boot (BOOT.SLOT_STS_sec_version.plus (8 * bit b)) (leAt h 12 4)
  let d := digestBytes (imageDigest h)
  (List.range 6).foldl (fun c i => c.setReg .boot (0x118 + 0x30 * bit b + 8 * i) (wordAt d (8 * i))) c

/-! ### Transfers -/

/-- XFER_STS follows the transfer. -/
def Chip.showXfer (c : Chip) : Chip :=
  match c.xfer with
  | none => c.setReg .boot 0x178 0
  | some x => c.setReg .boot 0x178 (setBits (setBits (setBits (setBits (setBits 0 63 63 1) 62 62 (bit x.delta)) 61 61
      (bit x.target)) 55 52 x.session) 24 0 x.received)

/-- R466: what an end without success leaves of the target: an erased header; a BEGIN that was still at work has its record
entry. -/
def Chip.targetEmptied (c : Chip) : Chip :=
  match c.xfer with
  | none => c
  | some x =>
    let opening := match c.flashReply with | some (_, _, m) => decide (getBits m.argA 7 0 = 1) | none => false
    let c := if opening then c.flashOps.foldl Chip.flashDo c else c
    c.flashDo (.erase (slotBase x.target) 4096)

/-- A transfer that fails or times out (R466). -/
def Chip.rejectXfer (c : Chip) : Chip :=
  (({ c.targetEmptied with xfer := none, flashOps := [] }).error .boot BOOT.ev_image_rejected 0x9D).showXfer

/-- The flash operations of a command, and its reply once they have completed (R463). -/
def Chip.flashThen (c : Chip) (k ep : Nat) (m : Welt) (ops : List FlashOp) : Chip :=
  { c with flashOps := c.flashOps ++ ops, flashReply := some (k, ep, m) }

/-- BEGIN (R463 to R465). -/
def Chip.imgBegin (c : Chip) (k : Nat) (m : Welt) (ep : Nat) : Chip :=
  let h := m.payload
  let delta := leAt h 6 1 = 1
  let st := if c.card then (if hdrFormed h then 0 else 67) else c.hdrStatus h
  let baseOk := slice h 32 48 = digestBytes (imageDigest c.boot.header)
  if c.xfer.isSome then c.answer k ep m 64
  else if c.flag .boot BOOT.BOOT_STS_trial then c.answer k ep m 65
  else if h.length ≠ 4096 then c.answer k ep m 2
  else if st ≠ 0 then c.answer k ep m st
  else if delta && !baseOk then c.answer k ep m 73
  else
    let target := !c.bootedSlot
    let (a, b, n) := match c.record with | some r => (r.a, r.b, r.attempts) | none => (0, 0, 0)
    let (a, b) := if target then (a, 0) else (0, b)
    let x : Xfer := { session := k, target := target, delta := delta, header := h, head := if delta then [] else h }
    (({ c with xfer := some x }).flashThen k ep m
      (c.recordOps a b n ++ [FlashOp.erase (slotBase target) 0x01000000])).showXfer

/-- Output of a delta operation: the first 4,096 bytes are held, the rest is programmed (R465, R466). -/
def Xfer.emit (x : Xfer) (l : List Byte) : Xfer × List FlashOp :=
  let head := x.head ++ l.take (4096 - x.head.length)
  let rest := l.drop (4096 - x.head.length)
  ({ x with head := head, output := x.output + l.length },
   if rest.isEmpty then []
   else [.program (slotBase x.target + (x.output + l.length - rest.length)) rest])

/-- R465: run the whole operations among the section bytes received; none on a failing one. -/
def Chip.deltaRun (c : Chip) (fuel : Nat) (x : Xfer) : Option (Xfer × List FlashOp) :=
  match fuel with
  | 0 => some (x, [])
  | k + 1 =>
    let rest := x.raw.drop x.taken
    if rest.length < 8 then some (x, [])
    else
      let w := wordAt rest 0
      let op := getBits w 63 56
      let n := getBits w 55 32
      let base := getBits w 31 0
      if op = 1 then
        if leAt c.boot.header 8 4 < base + n || 16777216 < x.output + n then none
        else
          let (x, ops) := { x with taken := x.taken + 8 }.emit (c.flashRead (slotBase c.bootedSlot + base) n)
          (c.deltaRun k x).map (fun e => (e.1, ops ++ e.2))
      else if op = 2 then
        if 16777216 < x.output + n then none
        else if rest.length < 8 + roundUp n 8 then some (x, [])
        else
          let (x, ops) := { x with taken := x.taken + 8 + roundUp n 8 }.emit (slice rest 8 n)
          (c.deltaRun k x).map (fun e => (e.1, ops ++ e.2))
      else none

/-- The sections that end with these received bytes (pod mode hashes them as they arrive, R464). -/
def endedSections (h : List Byte) (before after : Nat) : List Section :=
  (hdrSections h).filter (fun s => before < s.offset + s.size - 4096 && s.offset + s.size - 4096 ≤ after)

/-- CHUNK (R463 to R465). -/
def Chip.imgChunk (c : Chip) (k : Nat) (m : Welt) (ep : Nat) : Chip :=
  match c.xfer with
  | none => c.answer k ep m 66
  | some x =>
    let n := m.payload.length
    if x.session ≠ k then c.answer k ep m 64
    else if 8192 < n || leAt x.header 8 4 < 4096 + x.received + n then c.answer k ep m 2
    else if getBits m.argA 63 32 ≠ x.received then c.answer k ep m 66
    else
      let before := x.received
      let x := { x with received := before + n }
      let ended := endedSections x.header before x.received
      if x.delta then
        let x := { x with raw := x.raw ++ m.payload }
        let hashOk := ended.all (fun s => digestBytes (sha384 (x.raw.take s.size)) = s.hash)
        if !c.card && !hashOk then c.rejectXfer.answer k ep m 72
        else match c.deltaRun (x.raw.length + 1) x with
          | none => c.rejectXfer.answer k ep m 73
          | some (x, ops) =>
            let c := ({ c with xfer := some x }).showXfer
            if ops.isEmpty then c.answer k ep m 0 else c.flashThen k ep m ops
      else
        let op : FlashOp := .program (slotBase x.target + 4096 + before) m.payload
        let after := c.flashDo op
        if !c.card && !ended.all (fun s => after.sectionOk (slotBase x.target) s) then c.rejectXfer.answer k ep m 72
        else (({ c with xfer := some x }).showXfer).flashThen k ep m [op]

/-- COMMIT: the checks of R464 and R465, then header and record (R466). -/
def Chip.imgCommit (c : Chip) (k : Nat) (m : Welt) (ep : Nat) : Chip :=
  match c.xfer with
  | none => c.answer k ep m 66
  | some x =>
    let base := slotBase x.target
    if x.session ≠ k then c.answer k ep m 64
    else if 4096 + x.received ≠ leAt x.header 8 4 then c.answer k ep m 66
    else
      let st :=
        if !x.delta then 0
        else
          let img := c.flashDo (.program base x.head)
          let hs := c.hdrStatus x.head
          if hs ≠ 0 then hs
          else if leAt x.head 6 1 ≠ 0 || x.output ≠ leAt x.head 8 4 then 67
          else if !(hdrSections x.head).all (fun s => img.sectionOk base s) then 72
          else if digestBytes (imageDigest x.head) ≠ slice x.header 80 48 then 73
          else 0
      if st ≠ 0 then c.rejectXfer.answer k ep m st
      else
        let (a, b) := match c.record with | some r => (r.a, r.b) | none => (0, 0)
        let (a, b) := if x.target then (a, 1) else (1, b)
        c.flashThen k ep m ([.program base x.head] ++ c.recordOps a b 0)

/-- ABORT (R463, R466). -/
def Chip.imgAbort (c : Chip) (k : Nat) (m : Welt) (ep : Nat) : Chip :=
  match c.xfer with
  | none => c.answer k ep m 66
  | some x =>
    if x.session ≠ k then c.answer k ep m 64
    else (({ c.targetEmptied with xfer := none }).showXfer).answer k ep m 0

/-- CONFIRM (R467). -/
def Chip.imgConfirm (c : Chip) (k : Nat) (m : Welt) (ep : Nat) : Chip :=
  if !c.flag .boot BOOT.BOOT_STS_trial then c.answer k ep m 75
  else c.flashThen k ep m (if c.bootedSlot then c.recordOps 3 2 0 else c.recordOps 2 3 0)

/-- The flash operations of a command are done: its further effect and its reply (R463, R466, R467). -/
def Chip.flashFinish (c : Chip) : Chip :=
  match c.flashReply with
  | none => c.syncRecord
  | some (k, ep, m) =>
    let c := ({ c with flashReply := none }).syncRecord
    let op := getBits m.argA 7 0
    let c := if op = 3 then
        match c.xfer with
        | some x => (((c.showSlot x.target x.head).raise .boot BOOT.ev_image_committed) |> fun c =>
            ({ c with xfer := none }).showXfer)
        | none => c
      else if op = 5 then (c.setFld .boot BOOT.BOOT_STS_trial 0).raise .boot BOOT.ev_confirmed
      else c
    c.answer k ep m 0

/-- FLASH_POLL: the operation completed, or `flash_timeout` passed and it fails with FLASH (R494). -/
def Chip.flashPoll (c : Chip) (done : Bool) : Chip :=
  match c.flashOps with
  | [] => c
  | op :: rest =>
    if done then
      let c := { (c.flashDo op) with flashOps := rest }
      if rest.isEmpty then c.flashFinish else c
    else
      let c := match c.xfer with | some _ => c.rejectXfer | none => { c with flashOps := [] }
      match c.flashReply with
      | some (k, ep, m) => ({ c with flashReply := none }).answer k ep m 74
      | none => c

/-- Is a message IMAGE with this `op`? -/
def imageOp (op : Nat) (m : Welt) : Bool := m.type = 0x60 && getBits m.argA 7 0 = op

/-- An IMAGE command that may use the flash: it waits while the one before it is at work there (R463, R494). -/
def Chip.takeImage (c : Chip) (k op : Nat) (f : Chip → Welt → Nat → Chip) : Chip :=
  if c.flashReply.isSome then c else c.takeCmd k (imageOp op) f

/-- BEGIN. -/
def execBegin (k : Sess) (s : State) : Host.Outcome State Fault Refusal :=
  s.on (fun c => c.takeImage k.val 1 (fun c m ep => c.imgBegin k.val m ep))

/-- CHUNK. -/
def execChunk (k : Sess) (s : State) : Host.Outcome State Fault Refusal :=
  s.on (fun c => c.takeImage k.val 2 (fun c m ep => c.imgChunk k.val m ep))

/-- COMMIT. -/
def execCommit (k : Sess) (s : State) : Host.Outcome State Fault Refusal :=
  s.on (fun c => c.takeImage k.val 3 (fun c m ep => c.imgCommit k.val m ep))

/-- ABORT of a transfer. -/
def execImageAbort (k : Sess) (s : State) : Host.Outcome State Fault Refusal :=
  s.on (fun c => c.takeImage k.val 4 (fun c m ep => c.imgAbort k.val m ep))

/-- CONFIRM. -/
def execConfirm (k : Sess) (s : State) : Host.Outcome State Fault Refusal :=
  s.on (fun c => c.takeImage k.val 5 (fun c m ep => c.imgConfirm k.val m ep))

/-- STATUS: answered OK; the spec gives the reply's `arg_a` no layout, so it is a free value (log 34). -/
def execImageStatus (k : Sess) (s : State) : Host.Outcome State Fault Refusal :=
  s.on (fun c => c.takeCmd k.val (imageOp 6) (fun c m ep =>
    c.freeNext.answer k.val ep m 0 (BitVec.ofNat 64 (c.freeVal 64))))

/-- IMAGE_XFER_TIMEOUT: no message for `xfer_timeout`, the last one answered (R466). -/
def execImageXferTimeout (s : State) : Host.Outcome State Fault Refusal :=
  s.on (fun c => if c.xfer.isSome && c.flashReply.isNone then c.rejectXfer else c)

/-- FLASH_POLL. -/
def execFlashPoll (done : Bool) (s : State) : Host.Outcome State Fault Refusal := s.on (fun c => c.flashPoll done)

/-! ### Attestation and debug unlock -/

/-- CHIP_INFO `grade` and `stepping` (Table REG-8). -/
def Fuses.gradeCode (f : Fuses) : Nat := match f.grade with | .a => 0x0A | .b => 0x0B
def Fuses.steppingCode (f : Fuses) : Nat := match f.stepping with | .a1 => 0xA1 | .b0 => 0xB0

/-- The logical block count of the grade. -/
def Fuses.blockCount (f : Fuses) : Nat := match f.grade with | .a => 64 | .b => 48

/-- The identity public key (R471). -/
def Chip.identityKey (c : Chip) : BitVec 768 := publicKey (identityPrivate c.fuses.identitySecret)

/-- The big-endian bytes of a public key or a signature. -/
def keyBytes (k : BitVec 768) : List Byte := (leBytes 96 k.toNat).reverse

/-- FUSE_DIGEST: SHA-384 of every readable fuse item, in the order of Table BOOT-4 (R478). -/
def Chip.fuseDigest (c : Chip) : BitVec 384 :=
  let f := c.fuses
  sha384 (wordBytes f.serial ++ leBytes 3 (f.gradeCode + 256 * f.steppingCode + 65536 * f.blockCount) ++ leBytes 4 0x00010002
    ++ f.imageKeys.flatMap digestBytes ++ leBytes 1 f.keyRevoked.toNat ++ f.debugKeys.flatMap digestBytes
    ++ leBytes 1 f.versionFloor.toNat ++ f.repairs.flatMap wordBytes)

/-- The attestation report (Table BOOT-5). -/
def Chip.report (c : Chip) (nonce : List Byte) : List Byte :=
  leBytes 4 1 ++ leBytes 4 0 ++ wordBytes c.fuses.serial ++ leBytes 1 c.fuses.gradeCode
    ++ leBytes 1 c.fuses.steppingCode ++ leBytes 2 0 ++ leBytes 4 0x00010002 ++ nonce
    ++ digestBytes (imageDigest c.boot.header)
    ++ leBytes 1 (bit c.bootedSlot + 2 * c.fld .boot BOOT.BOOT_STS_trial)
    ++ leBytes 1 (getBits (c.reg .security 0x100) 2 0) ++ leBytes 2 0 ++ leBytes 4 (leAt c.boot.header 12 4)
    ++ leBytes 6 c.courseNow ++ leBytes 2 0 ++ digestBytes c.fuseDigest ++ keyBytes c.identityKey ++ leBytes 8 0

/-- ATTEST (R472): the report and its signature over the SHA-384 of the report. -/
def execAttest (k : Sess) (s : State) : Host.Outcome State Fault Refusal :=
  s.on (fun c => c.takeCmd k.val (fun m => m.type = 0x61) (fun c m ep =>
    if m.payload.length ≠ 48 then c.answer k.val ep m 2
    else
      let rep := c.report m.payload
      let sig := ecdsaSign (identityPrivate c.fuses.identitySecret) c.sec.draws (sha384 rep)
      let c := { c with sec := { c.sec with draws := c.sec.draws + 1 } }
      (c.wrap .security SECURITY.SEC_COUNT_attestations).answer k.val ep m 0 0 (rep ++ keyBytes sig)))

/-- CHALLENGE: a fresh nonce from the random source, a free value (R473, log 5). -/
def execChallenge (k : Sess) (s : State) : Host.Outcome State Fault Refusal :=
  s.on (fun c => c.takeCmd k.val (fun m => m.type = 0x62 && getBits m.argA 7 0 = 1) (fun c m ep =>
    let n := (List.range 6).foldl (fun n i => n * 2 ^ 64 + (Config.freeValue (c.free + i)).toNat) 0
    let nonce := BitVec.ofNat 384 n
    let c := { c with free := c.free + 6, sec := { c.sec with nonce := some nonce } }
    (c.setFld .security SECURITY.SEC_STS_challenge 1).answer k.val ep m 0 0 (digestBytes nonce)))

/-- R473: the checks on a token, in order; 0 when all pass. -/
def Chip.tokenStatus (c : Chip) (l : List Byte) : Nat :=
  let key := leAt l 4 1
  if l.length ≠ 256 then 2
  else if leAt l 0 4 ≠ 1 || 4 ≤ leAt l 5 1 || leAt l 6 2 ≠ 0 then 77
  else if BitVec.ofNat 64 (leAt l 8 8) ≠ c.fuses.serial then 70
  else if c.sec.nonce ≠ some (be384 (slice l 16 48)) then 76
  else if !(key < 2 && c.fuses.debugKeyPresent.getLsbD key
      && sha384 (slice l 64 96) = c.fuses.debugKeys.getD key 0) then 68
  else if !ecdsaVerify (BitVec.ofNat 768 (beNat (slice l 64 96))) (sha384 (l.take 160))
      (BitVec.ofNat 768 (beNat (slice l 160 96))) then 69
  else if c.anyHeld then 78
  else 0

/-- TOKEN: consumes the nonce; unlocks its scope or refuses (R473). -/
def execToken (k : Sess) (s : State) : Host.Outcome State Fault Refusal :=
  s.on (fun c => c.takeCmd k.val (fun m => m.type = 0x62 && getBits m.argA 7 0 = 2) (fun c m ep =>
    let st := c.tokenStatus m.payload
    let scope := leAt m.payload 5 1
    let c := ({ c with sec := { c.sec with nonce := none } }).setFld .security SECURITY.SEC_STS_challenge 0
    let c := if st = 0 then
        let c := if scope % 2 = 1 then c.setFld .security SECURITY.SEC_STS_debug_open 1 else c
        let c := if scope / 2 % 2 = 1 then c.setFld .security SECURITY.SEC_STS_jtag_open 1 else c
        (c.bump .security SECURITY.SEC_COUNT_unlocks).error .security SECURITY.ev_debug_unlocked 0x9F
      else (c.bump .security SECURITY.SEC_COUNT_unlock_refused).error .security SECURITY.ev_unlock_refused 0x9E
    c.answer k.val ep m st))

/-- RELOCK (R473). -/
def execRelock (k : Sess) (s : State) : Host.Outcome State Fault Refusal :=
  s.on (fun c => c.takeCmd k.val (fun m => m.type = 0x62 && getBits m.argA 7 0 = 3) (fun c m ep =>
    let c := (c.setFld .security SECURITY.SEC_STS_debug_open 0).setFld .security SECURITY.SEC_STS_jtag_open 0
    (c.raise .security SECURITY.ev_relocked).answer k.val ep m 0))

/-- NONCE_EXPIRY (R473). -/
def execNonceExpiry (s : State) : Host.Outcome State Fault Refusal :=
  s.on (fun c => ({ c with sec := { c.sec with nonce := none } }).setFld .security SECURITY.SEC_STS_challenge 0)

/-! ### The TAP -/

/-- Bits of a word, least significant first. -/
def bitsOf (n w : Nat) : List Bool := (List.range n).map (fun i => w / 2 ^ i % 2 = 1)

/-- R496: the identification code of the stepping. -/
def idcodeOf : Stepping → Nat
  | .a1 => 0x1640076B
  | .b0 => 0x2640076B

/-- IDCODE. -/
def execIdcode (s : State) : Host.Outcome State Fault Refusal :=
  s.on (fun c => { c with tap := { c.tap with ir := 0xFE, tdo := bitsOf 32 (idcodeOf c.fuses.stepping) } })

/-- BYPASS: TDI reaches TDO through one bit (R474). -/
def execBypass (tdi : Bool) (s : State) : Host.Outcome State Fault Refusal :=
  s.on (fun c => { c with tap := { c.tap with ir := 0xFF, tdo := [c.tap.bypass], bypass := tdi } })

/-- BOUNDARY_SCAN: accepted while RESET_N is low, or with the JTAG scope unlocked (R474): the register is shifted out and
takes the new bits. -/
def execBoundaryScan (ir : BitVec 8) (dr : List Bool) (s : State) : Host.Outcome State Fault Refusal :=
  s.on (fun c =>
    if c.boot.resetLow || c.flag .security SECURITY.SEC_STS_jtag_open then
      { c with tap := { c.tap with ir := ir, tdo := c.tap.boundary, boundary := dr } }
    else c)

/-- TAP_RESET: TRST_N resets the TAP asynchronously (R495). -/
def execTapReset (s : State) : Host.Outcome State Fault Refusal := s.on (fun c => { c with tap := {} })

end Sys2Proof.Machine
end

