-- ==== Sys2Proof/Machine/Mortar.lean ====
section
/-! DEFINITION. Collectives in the Mortar array (R301 to R325, R497): groups, partials and their order of combination, the
stages of a piece, aborts, the census and the cross-pod stage. -/
namespace Sys2Proof.Machine

def Chip.mort (c : Chip) (r : Region) : MortS := Tab.get c.morts r.val {}
def Chip.modMort (c : Chip) (r : Region) (f : MortS → MortS) : Chip :=
  { c with morts := Tab.put c.morts r.val (f (c.mort r)) }

/-! ### PIECE fields (Table COLL-3) -/

end Sys2Proof.Machine

namespace Sys2Proof
open Sys2Proof.Machine
def Packet.phase (p : Packet) : Nat := getBits p.w1 47 45
def Packet.group (p : Packet) : Nat := getBits p.w1 44 35
def Packet.frag (p : Packet) : Nat := getBits p.w1 34 32
def Packet.inst (p : Packet) : Nat := getBits p.w1 31 17
def Packet.ext (p : Packet) : Bool := bitAt p.w1 16
def Packet.piece (p : Packet) : Nat := getBits p.w1 15 0
def Packet.digest (p : Packet) : Nat := getBits p.w3 31 0
end Sys2Proof

namespace Sys2Proof.Machine

/-! ### The group table (Table COLL-10) -/

/-- Offset of group g's entry from group 0's (R325). -/
def grpOff (g : Nat) : Nat := 4096 * (g / 8) + 512 * (g % 8)
/-- A field of a group's entry. -/
def Chip.grp (c : Chip) (r : Region) (g : Nat) (f : Fld) : Nat := c.fld (.mortar r) (f.plus (grpOff g))

/-- Is the entry in use and in range (Table COLL-6, check 1)? -/
def Chip.grpOk (c : Chip) (r : Region) (g : Nat) : Bool :=
  let stops := c.grp r g MORTAR.GRP_A_stop_count
  let n := c.grp r g MORTAR.GRP_A_member_count
  c.grp r g MORTAR.GRP_A_valid = 1 && stops ≠ 0 && stops ≤ 64 && c.grp r g MORTAR.GRP_A_own_pos < stops && n ≠ 0 && n ≤ 4096

def Chip.isAnchor (c : Chip) (r : Region) (g : Nat) : Bool := c.grp r g MORTAR.GRP_A_anchor = 1

/-- The 32-bit entry i of a paired array at `pos` (R325). -/
def Chip.grpWord (c : Chip) (r : Region) (g pos i : Nat) : Word :=
  let w := c.reg (.mortar r) (pos + grpOff g + 8 * (i / 2))
  if i % 2 = 0 then w &&& 0xFFFFFFFF else w >>> 32

/-- Insert by an order. -/
def insertBy {α : Type} (le : α → α → Bool) (x : α) : List α → List α
  | [] => [x]
  | y :: t => if le x y then x :: y :: t else y :: insertBy le x t

/-- Sort by an order; equal elements keep theirs. -/
def sortBy {α : Type} (le : α → α → Bool) (l : List α) : List α := l.foldr (insertBy le) []

/-- LOST_EP of a region (R425). -/
def Chip.lostEp (c : Chip) (r : Region) (e : Nat) : Bool := bitAt (c.reg (.mortar r) (0x200 + 8 * (e / 64))) (e % 64)

/-- Effective local members: member index and EPID, in ascending member index (R321). -/
def Chip.effMembers (c : Chip) (r : Region) (g : Nat) : List (Nat × Nat) :=
  if c.lost r c.pysum then []
  else
    let l := ((List.range 16).map (fun i => c.grpWord r g 0x1020 i)).filter (fun w => bitAt w 31)
    sortBy (fun a b => a.1 ≤ b.1) ((l.map (fun w => (getBits w 27 16, getBits w 11 0))).filter (fun m => !c.lostEp r m.2))

/-- Effective stops in listed order: listed position, Pysum, anchor EPID (R321). -/
def Chip.effStops (c : Chip) (r : Region) (g : Nat) : List (Nat × Nat × Nat) :=
  ((List.range (min 64 (c.grp r g MORTAR.GRP_A_stop_count))).map (fun k =>
    let w := c.grpWord r g 0x1060 k
    (k, getBits w 21 16, getBits w 11 0))).filter (fun s => !c.lost r s.2.1)

/-- This stop's effective position. -/
def Chip.effPos (c : Chip) (r : Region) (g : Nat) : Option Nat :=
  (c.effStops r g).findIdx? (fun s => s.1 = c.grp r g MORTAR.GRP_A_own_pos)

/-- The EPID of the next effective stop's anchor. -/
def Chip.nextStop (c : Chip) (r : Region) (g : Nat) : Nat :=
  let l := c.effStops r g
  match c.effPos r g with
  | some k => (l.getD ((k + 1) % l.length) (0, 0, 0)).2.2
  | none => 0

/-- Is this stop the head of piece p (R307)? -/
def Chip.isHead (c : Chip) (r : Region) (g p : Nat) : Bool :=
  c.effPos r g = some (p % (c.effStops r g).length)

/-- The regions of `region_mask`, ascending. -/
def Chip.maskRegions (c : Chip) (r : Region) (g : Nat) : List Region :=
  (List.finRange 4).filter (fun k => c.grp r g MORTAR.GRP_A_region_mask / 2 ^ k.val % 2 = 1)

/-- Effective members of the Pysum that the anchor serves, with the region that lists each. -/
def Chip.pysumMembers (c : Chip) (r : Region) (g : Nat) : List (Nat × Nat) :=
  sortBy (fun a b => a.1 ≤ b.1) ((c.maskRegions r g).flatMap (fun k => c.effMembers k g))

/-- The anchor region of a group in this Pysum, as region r's entry names it. -/
def Chip.anchorOf (c : Chip) (r : Region) (g : Nat) : Option Region :=
  if c.isAnchor r g then some r else c.regionOfEpid (c.grp r g MORTAR.GRP_B_anchor_epid)

/-- Pods of the cross-pod ring; 0 or 1 means none (Table COLL-10). -/
def Chip.pods (c : Chip) (r : Region) (g : Nat) : Nat :=
  let q := min 32 (c.grp r g MORTAR.GRP_B_xpod_count)
  if q ≤ 1 then 1 else q

/-- Is this pod the global head of piece p (R323)? -/
def Chip.isGlobalHead (c : Chip) (r : Region) (g p : Nat) : Bool :=
  p / max 1 (c.effStops r g).length % c.pods r g = c.grp r g MORTAR.GRP_B_xpod_pos

/-! ### The descriptor (Tables COLL-1 and COLL-2) -/

def dColl (d : Word) : Nat := getBits d 63 62
def dOp (d : Word) : Nat := getBits d 61 59
def dIn (d : Word) : Nat := getBits d 58 56
def dOut (d : Word) : Nat := getBits d 55 53
def dExact (d : Word) : Bool := bitAt d 52
def dStoch (d : Word) : Bool := bitAt d 51
def dRoot (d : Word) : Nat := getBits d 47 36
def dCount (d : Word) : Nat := getBits d 28 0

/-- R304: is D valid for a group of n members? -/
def dValid (d : Word) (n : Nat) : Bool :=
  let float := dIn d < 3 && dOut d < 3
  let plain := dIn d = dOut d && !dExact d && !dStoch d
  dColl d ≠ 3 && dOp d ≤ 5 && dIn d ≤ 3 && dOut d ≤ 3 && getBits d 50 48 = 0 && getBits d 35 29 = 0
    && 1 ≤ dCount d && dCount d ≤ 2 ^ 28 && dRoot d < n
    && (match dOp d with
        | 0 => float || (dIn d = 3 && plain)
        | 1 | 2 => plain
        | _ => dIn d = 3 && plain)

/-- Bytes of an element of a D format, and its floating-point format; none for I32. -/
def dSize (f : Nat) : Nat := if f = 1 ∨ f = 2 then 2 else 4
def dFp (f : Nat) : Option Fp := match f with | 0 => some .fp32 | 1 => some .bf16 | 2 => some .fp16 | _ => none

/-- R305: elements of a piece, pieces, elements of a fragment, fragments of a piece. -/
def dPieceE (d : Word) : Nat := if dExact d then 8192 else 16384
def dPieces (d : Word) : Nat := ceilDiv (dCount d) (dPieceE d)
def dFragE (d : Word) (p f : Nat) : Nat :=
  let ef := dPieceE d / 8
  min (dPieceE d) (dCount d - p * dPieceE d) - f * ef |> min ef
def dFrags (d : Word) (p : Nat) : Nat := ceilDiv (min (dPieceE d) (dCount d - p * dPieceE d)) (dPieceE d / 8)

/-! ### Partials -/

/-- The exact element that a long accumulator holds. -/
def ExactE.ofAcc (l : LAcc) : ExactE := ⟨l.a, l.nan, l.pinf, l.ninf, l.allNegZero⟩

/-- R313: records combine without loss. -/
def ExactE.join (x y : ExactE) : ExactE :=
  ⟨x.a + y.a, x.nan || y.nan, x.pinf || y.pinf, x.ninf || y.ninf, x.negz && y.negz⟩

/-- R312: one step of the instance's operation on FP32 or I32 words. -/
def joinWord (d : Word) (a b : Nat) : Nat :=
  let s := fun (x : Nat) => (BitVec.ofNat 32 x).toInt
  if dIn d = 3 then
    match dOp d with
    | 0 => (a + b) % 2 ^ 32
    | 1 => if s a < s b then b else a
    | 2 => if s b < s a then b else a
    | 3 => a &&& b
    | 4 => a ||| b
    | _ => a ^^^ b
  else match dOp d with
    | 0 => addFp32 a b
    | 1 => Fp.fp32.vmax a b
    | _ => Fp.fp32.vmin a b

/-- Element-wise combination of two partials. -/
def Part.join (d : Word) : Part → Part → Part
  | .words a, .words b => .words (List.zipWith (joinWord d) a b)
  | .exact a, .exact b => .exact (List.zipWith ExactE.join a b)
  | p, _ => p

/-- Table COLL-2: the identity, `n` elements of it. -/
def Part.identity (d : Word) (n : Nat) : Part :=
  if dExact d then .exact (List.replicate n {})
  else .words (List.replicate n (
    if dIn d = 3 then [0, 0x80000000, 0x7FFFFFFF, 0xFFFFFFFF, 0, 0].getD (dOp d) 0
    else [0x80000000, 0xFF800000, 0x7F800000].getD (dOp d) 0))

/-- One level of `tree` (R312). -/
def pairParts (d : Word) : List Part → List Part
  | a :: b :: t => Part.join d a b :: pairParts d t
  | l => l

/-- `tree` (R312); `fuel` is the list's length. -/
def treeParts (d : Word) : Nat → List Part → Option Part
  | 0, l => l.head?
  | k + 1, l => match l with
    | [] => none
    | [a] => some a
    | l => treeParts d k (pairParts d l)

/-- Contributions widened exactly (R304, R313). -/
def Part.widen (d : Word) (n : Nat) (payload : List Byte) : Part :=
  let sz := dSize (dIn d)
  let raw := (List.range n).map (fun i => leAt payload (sz * i) sz)
  match dFp (dIn d) with
  | none => .words raw
  | some f =>
    if dExact d then .exact (raw.map (fun b => ExactE.ofAcc (LAcc.add {} false (f.val b))))
    else .words (if f = .fp32 then raw else raw.map (fun b => Fp.fp32.round .even (f.val b)))

/-- Trailing zero bits of A. -/
def trailing (a : BitVec 320) : Nat := ((List.range 320).find? (fun i => a.getLsbD i)).getD 0

/-- Table COLL-7: the record of an element, with the escape index it takes when it needs one. -/
def ExactE.record (x : ExactE) (escapes : Nat) : Word × Bool :=
  let j := if x.a = 0 then 0 else trailing x.a
  let w := x.a.toInt / 2 ^ j
  let fits : Bool := decide (-(2 ^ 49 : Int) ≤ w) && decide (w < 2 ^ 49)
  let win := if fits then (BitVec.ofInt 50 w).toNat else escapes % 1024
  let r : Word := setBits (setBits 0 58 50 j) 49 0 win
  (setBits (setBits (setBits (setBits (setBits r 63 63 (bit (!fits))) 62 62 (bit x.nan)) 61 61 (bit x.pinf))
    60 60 (bit x.ninf)) 59 59 (bit x.negz), !fits)

/-- The element of a record, its escaped value given. -/
def ExactE.ofRecord (w : Word) (big : BitVec 320) : ExactE :=
  let a := if bitAt w 63 then big
    else BitVec.ofInt 320 ((BitVec.ofNat 50 (getBits w 49 0)).toInt * 2 ^ getBits w 58 50)
  ⟨a, bitAt w 62, bitAt w 61, bitAt w 60, bitAt w 59⟩

/-- Lists of at most `n`. -/
def groupsOf {α : Type} (n : Nat) : Nat → List α → List (List α)
  | 0, _ => []
  | k + 1, l => if l.isEmpty then [] else l.take n :: groupsOf n k (l.drop n)

/-- R315: the payload of a partial, and the payloads of its escape packets. -/
def Part.encode : Part → List Byte × List (List Byte)
  | .words l => (l.flatMap (fun w => leBytes 4 w), [])
  | .exact l =>
    let (recs, big) := l.foldl (fun (acc : List Word × List (BitVec 320)) x =>
      let (w, esc) := x.record acc.2.length
      (acc.1 ++ [w], if esc then acc.2 ++ [x.a] else acc.2)) ([], [])
    (recs.flatMap wordBytes, (groupsOf 204 (big.length + 1) big).map (fun g => g.flatMap (fun a => leBytes 40 a.toNat)))

/-- The partial of a whole set of records and escaped values (R315). -/
def Part.ofRecords (recs : List Word) (big : List (BitVec 320)) : Part :=
  .exact (recs.map (fun w => ExactE.ofRecord w (big.getD (getBits w 9 0) 0)))

/-- R312 to R314: the one rounding of a fragment into `out_fmt`. -/
def Part.result (d : Word) (seed : Word) (g inst base neff : Nat) (p : Part) : List Byte :=
  let rnd := fun (i : Nat) => if dStoch d then
      Rnd.stoch (stochBits seed (BitVec.ofNat 64 (2 ^ 63 + g * 2 ^ 32 + inst)) (BitVec.ofNat 64 (base + i))) else Rnd.even
  let sz := dSize (dOut d)
  match p with
  | .words l => (l.zipIdx).flatMap (fun e => leBytes sz (match dFp (dIn d), dFp (dOut d) with
      | some _, some .fp32 => e.1
      | some _, some f => if dOp d = 0 then f.round (rnd e.2) (Fp.fp32.val e.1) else f.round .even (Fp.fp32.val e.1)
      | _, _ => e.1))
  | .exact l => (l.zipIdx).flatMap (fun e =>
      let acc : LAcc := ⟨e.1.a, e.1.pinf, e.1.ninf, e.1.nan, neff, e.1.negz⟩
      leBytes sz (match dFp (dOut d) with | some f => acc.read f (rnd e.2) | none => 0))

/-! ### Instances and fragments -/

def Chip.grpS (c : Chip) (r : Region) (g : Nat) : GroupS := Tab.get (c.mort r).groups g {}
def Chip.modGrp (c : Chip) (r : Region) (g : Nat) (f : GroupS → GroupS) : Chip :=
  c.modMort r (fun m => { m with groups := Tab.put m.groups g (f (Tab.get m.groups g {})) })
def Chip.instS (c : Chip) (r : Region) (g i : Nat) : Option InstS := Tab.find (c.grpS r g).insts i
def Chip.modInst (c : Chip) (r : Region) (g i : Nat) (f : InstS → InstS) : Chip :=
  c.modGrp r g (fun s => match Tab.find s.insts i with
    | some x => { s with insts := Tab.put s.insts i (f x) }
    | none => s)

/-- Key of a fragment. -/
def fragKey (p f : Nat) : Nat := 8 * p + f
def InstS.frag (i : InstS) (p f : Nat) : FragS := Tab.get i.frags (fragKey p f) {}
def Chip.modFrag (c : Chip) (r : Region) (g i p f : Nat) (h : FragS → FragS) : Chip :=
  c.modInst r g i (fun s => { s with frags := Tab.put s.frags (fragKey p f) (h (s.frag p f)) })

/-- R309: where an instance lies against the region's window: late, open, or beyond it. -/
inductive Window where
  | late | inside | beyond
  deriving DecidableEq, Repr

def Chip.windowOf (c : Chip) (r : Region) (g i : Nat) : Window :=
  let s := c.grpS r g
  let d := (i + 32768 - s.low) % 32768
  if 16384 ≤ d || s.done.contains i then .late else if d < 2 then .inside else .beyond

/-- Offset of program slot i from slot 0 (R330). -/
def slotOff (i : Nat) : Nat := 4096 * (i / 8) + 512 * (i % 8)

/-- Journal cells reserved for a choice of a slot's tokens (R346). -/
def Chip.choiceCells (c : Chip) (r : Region) (slot : Nat) : Nat :=
  ceilDiv (4 * c.fld (.mortar r) (MORTAR.SLOT_H2_out_elems.plus (slotOff slot))) 512

/-- Journal cells in use (R317, R346). -/
def Chip.journalUsed (c : Chip) (r : Region) : Nat :=
  let m := c.mort r
  let a := m.groups.foldl (fun n e => e.2.insts.foldl (fun n i => i.2.frags.foldl (fun n f => n + f.2.cells) n) n) 0
  m.ctxs.foldl (fun n e => e.2.tokens.foldl (fun n t => n + t.choices.length * c.choiceCells r e.2.slot) n) a

/-- Open fragments (R317). -/
def MortS.fragsOpen (m : MortS) : Nat :=
  m.groups.foldl (fun n e => e.2.insts.foldl (fun n i => n + i.2.frags.length) n) 0

/-- A fragment whose inputs are all present and that is not sent on (R324): at the head a stop partial not launched, the partial
to round that waits for the census, the result that waits for it. -/
def FragS.unsent (f : FragS) (head : Bool) : Bool :=
  (head && f.mine.isSome && f.lap = 0 && f.back.isNone && !f.passed) || (f.whole.isSome && f.result.isNone)
    || (f.result.isSome && !f.delivered)

/-- R324: `pending`: a lap packet to forward, or a fragment whose inputs are all present and that is not sent on. -/
def Chip.mortPending (c : Chip) (r : Region) : Bool :=
  let m := c.mort r
  m.queue.any (fun e => e.1.kind = 1 && (e.1.phase = 2 || e.1.phase = 3 || e.1.phase = 6)) ||
  m.groups.any (fun g => g.2.insts.any (fun i => i.2.frags.any (fun f => f.2.unsent (c.isHead r g.1 (f.1 / 8)))))

/-- MORTAR_STS, `journal_peak` and `pending` follow the state. -/
def Chip.mortShow (c : Chip) (r : Region) : Chip :=
  let u := UnitId.mortar r
  let n := c.journalUsed r
  let c := c.follow u MORTAR.MORTAR_STS_journal_used MORTAR.MORTAR_PEAK_journal_peak (min n 0xFFFF)
  let c := c.setFld u MORTAR.MORTAR_STS_frags_open (min (c.mort r).fragsOpen 4096)
  c.progress u (c.mortPending r) 0

/-! ### Sending -/

/-- A packet that the Mortar builds (R306). -/
def Chip.piecePacket (c : Chip) (r : Region) (g i phase dst p f : Nat) (ext : Bool) (d : Word) (digest : Nat)
    (payload : List Byte) : Packet :=
  mkPacket 1 (c.grp r g MORTAR.GRP_A_tc) false dst (c.epid r) (c.grp r g MORTAR.GRP_A_job_id)
    (setBits (setBits (setBits (setBits (setBits (setBits 0 47 45 phase) 44 35 g) 34 32 f) 31 17 i) 16 16 (bit ext)) 15 0 p)
    d digest payload

/-- A fragment leaves with its escape packets; PROGRESS counts it (R324). -/
def Chip.sendFrag (c : Chip) (r : Region) (g i phase dst p f : Nat) (x : InstS) (body : List Byte × List (List Byte)) : Chip :=
  let c := c.send r (c.piecePacket r g i phase dst p f false x.d x.digest body.1)
  let c := body.2.foldl (fun c e => c.send r (c.piecePacket r g i phase dst p f true x.d x.digest e)) c
  c.progress (.mortar r) (bitAt (c.reg (.mortar r) 0x80) 63)

/-- The same over the cross-pod ring (R323, R400). -/
def Chip.crossFrag (c : Chip) (r : Region) (g i phase p f : Nat) (x : InstS) (body : List Byte × List (List Byte)) : Chip :=
  let n := c.grp r g MORTAR.GRP_B_xpod_next
  let c := c.peerSend n (c.piecePacket r g i phase (c.epid r) p f false x.d x.digest body.1)
  let c := body.2.foldl (fun c e => c.peerSend n (c.piecePacket r g i phase (c.epid r) p f true x.d x.digest e)) c
  c.progress (.mortar r) (bitAt (c.reg (.mortar r) 0x80) 63)

/-! ### Completion and aborts -/

/-- R309: an instance completes in a region, and the window moves. -/
def Chip.instDone (c : Chip) (r : Region) (g i status : Nat) : Chip :=
  c.modGrp r g (fun s =>
    let done := i :: s.done
    let k := if done.contains s.low then (if done.contains ((s.low + 1) % 32768) then 2 else 1) else 0
    let low := (s.low + k) % 32768
    { s with
      insts := Tab.del s.insts i
      last := status
      low := low
      done := done.filter (fun n => (n + 32768 - low) % 32768 < 2) })

/-- R317: a piece is released in a region; with the last the instance is complete. -/
def Chip.releasePiece (c : Chip) (r : Region) (g i p : Nat) : Chip :=
  match c.instS r g i with
  | none => c
  | some x =>
    if x.released.contains p then c
    else
      let mine := x.frags.filter (fun e => e.1 / 8 = p)
      let c := c.wrap (.mortar r) MORTAR.MORTAR_COUNT_frags_done mine.length
      let c := c.modInst r g i (fun s => { s with
        frags := s.frags.filter (fun e => e.1 / 8 ≠ p)
        released := p :: s.released })
      if dPieces x.d ≤ x.released.length + 1 then c.instDone r g i 0 else c

/-- Table COLL-8: the payload of an ABORT that region r decides. -/
def Chip.abortBytes (c : Chip) (r : Region) (g status : Nat) (member : Option Nat) : List Byte :=
  let anchor := (c.anchorOf r g).getD r
  let census := (c.grpS anchor g).census
  let neff := (List.range 4096).foldl (fun n k => if census / 2 ^ k % 2 = 1 then n + 1 else n) 0
  leBytes 1 status ++ leBytes 1 (bit member.isSome) ++ leBytes 2 (member.getD 0)
    ++ leBytes 1 (c.pysum + 64 * r.val) ++ leBytes 1 0 ++ leBytes 2 neff
    ++ leBytes 4 (c.fld (.mortar r) MORTAR.MORTAR_STS_epoch) ++ leBytes 4 0

/-- Table FLT-10: the code of a status that has one. -/
def abortCode (status : Nat) : Option Nat :=
  match status with
  | 1 => some 0x60 | 2 => some 0x61 | 3 => some 0x63 | 4 => some 0x62 | _ => none

/-- An instance ends early in one region: counted, logged first come, completed (R320, Table COLL-9). The region that decides
it (`own`) captures `detail`. -/
def Chip.abortHere (c : Chip) (r : Region) (g i : Nat) (payload : List Byte) (own : Bool) (detail : List Word) : Chip :=
  if c.windowOf r g i ≠ .inside then c
  else
    let u := UnitId.mortar r
    let status := leAt payload 0 1 % 16
    let c := c.bump u MORTAR.MORTAR_COUNT_aborts
    let ev := if status = 1 then MORTAR.ev_mismatch else MORTAR.ev_abort
    let c := match abortCode status with
      | some code => if own then c.error u ev code detail else c.raise u ev
      | none => c.raise u ev
    let c := if c.flag u MORTAR.ABORT_LOG_valid then c
      else
        let w : Word := setBits (setBits (setBits (setBits 0 63 63 1) 62 62 (leAt payload 1 1 % 2)) 61 58 status) 57 46
          (leAt payload 2 2)
        c.setReg u 0x128 (setBits (setBits (setBits (setBits w 45 40 (leAt payload 4 1 % 64)) 39 38 (leAt payload 4 1 / 64))
          37 28 g) 27 13 i)
    c.instDone r g i status

/-- The D and digest that the packets of an instance carry (R306): its own where it is open, else those given. -/
def Chip.pairOf (c : Chip) (r : Region) (g i : Nat) (d : Word) (digest : Nat) : Word × Nat :=
  match c.instS r g i with
  | some x => (x.d, x.digest)
  | none => (d, digest)

/-- R320: an abort at the anchor goes to the next stop, the members, the member regions and the cross-pod ring. -/
def Chip.abortAnchor (c : Chip) (r : Region) (g i : Nat) (payload : List Byte) (own : Bool) (detail : List Word) (d : Word)
    (digest : Nat) : Chip :=
  if c.windowOf r g i ≠ .inside then c
  else
    let (d, digest) := c.pairOf r g i d digest
    let c := c.abortHere r g i payload own detail
    let pkt := fun (c : Chip) (dst : Nat) => c.piecePacket r g i 5 dst 0 0 false d digest payload
    let c := if 1 < (c.effStops r g).length then c.send r (pkt c (c.nextStop r g)) else c
    let c := (c.pysumMembers r g).foldl (fun c m => c.send r (pkt c m.2)) c
    let c := (c.maskRegions r g).foldl (fun c k => if k = r then c else c.abortHere k g i payload false detail) c
    if 1 < c.pods r g then c.peerSend (c.grp r g MORTAR.GRP_B_xpod_next) (pkt c (c.epid r)) else c

/-- R320: region r decides that an instance ends; it informs its anchor. `detail` is what its capture holds. -/
def Chip.abortInst (c : Chip) (r : Region) (g i status : Nat) (member : Option Nat) (detail : List Word) (d : Word)
    (digest : Nat) : Chip :=
  let payload := c.abortBytes r g status member
  let (d, digest) := c.pairOf r g i d digest
  if c.isAnchor r g then c.abortAnchor r g i payload true detail d digest
  else
    let c := c.abortHere r g i payload true detail
    match c.anchorOf r g with
    | some a => c.abortAnchor a g i payload false detail d digest
    | none => c

/-- An open instance ends by a decision of the region itself; its capture names the instance's D. -/
def Chip.endInst (c : Chip) (r : Region) (g i status : Nat) (x : InstS) : Chip :=
  c.abortInst r g i status none [0, x.d] x.d x.digest

/-! ### The stages of a fragment (Table COLL-5) -/

/-- Set bits of a bitmap below `k`. -/
def rankIn (census k : Nat) : Nat := (List.range k).foldl (fun n j => if census / 2 ^ j % 2 = 1 then n + 1 else n) 0

/-- The receiving members of this Pysum for a piece (R307, R497). -/
def Chip.receivers (c : Chip) (r : Region) (g p : Nat) (d : Word) : List (Nat × Nat) :=
  let all := c.pysumMembers r g
  let census := (c.grpS r g).census
  match dColl d with
  | 0 => all
  | 1 => all.filter (fun m => m.1 = dRoot d)
  | _ =>
    let k := p * rankIn census 4096 / max 1 (dPieces d)
    all.filter (fun m => census / 2 ^ m.1 % 2 = 1 && rankIn census m.1 = k)

/-- DELIVER to the receiving members of the Pysum. -/
def Chip.deliverFrag (c : Chip) (r : Region) (g i p f : Nat) (x : InstS) (res : List Byte) : Chip :=
  (c.receivers r g p x.d).foldl (fun c m => c.sendFrag r g i 4 m.2 p f x (res, []))
    (c.modFrag r g i p f (fun s => { s with delivered := true }))

/-- R497: a REDUCE whose root the census in force does not show. -/
def Chip.rootGone (c : Chip) (r : Region) (g : Nat) (d : Word) : Bool :=
  dColl d = 1 && (c.grpS r g).census / 2 ^ dRoot d % 2 = 0

/-- The final stage at a head that has the result: DELIVER, and lap 2 starts at once (R307, R308). -/
def Chip.startLap2 (c : Chip) (r : Region) (g i p f : Nat) : Chip :=
  match c.instS r g i with
  | none => c
  | some x =>
    let s := x.frag p f
    match s.result with
    | none => c
    | some res =>
      if s.delivered || !(c.grpS r g).censusOk then c
      else if c.rootGone r g x.d then c.endInst r g i 2 x
      else
        let c := c.modFrag r g i p f (fun s => { s with lap := 2, sentAt := c.courseCount, relaunches := 0 })
        let c := c.deliverFrag r g i p f x res
        c.sendFrag r g i 3 (c.nextStop r g) p f x (res, [])

/-- The final stage: the head, or the global head, rounds once when it has the census (R307, R497). -/
def Chip.finalStage (c : Chip) (r : Region) (g i p f : Nat) : Chip :=
  match c.instS r g i with
  | none => c
  | some x =>
    let s := x.frag p f
    let gs := c.grpS r g
    match s.whole with
    | none => c
    | some part =>
      if s.result.isSome || !gs.censusOk then c
      else if c.rootGone r g x.d then c.endInst r g i 2 x
      else
        let base := p * dPieceE x.d + f * (dPieceE x.d / 8)
        let res := part.result x.d (c.reg (.mortar r) 0x158) g i base (rankIn gs.census 4096)
        let c := c.modFrag r g i p f (fun s => { s with result := some res, cells := s.cells + ceilDiv (32 + res.length) 512 })
        let c := if 1 < c.pods r g then
            (c.modFrag r g i p f (fun s => { s with cross := 2, crossAt := c.courseCount, crossTries := 0 })).crossFrag
              r g i 3 p f x (res, [])
          else c
        c.startLap2 r g i p f

/-- The pod partial is back at the pod head: the final stage, or the cross-pod ring (R323). -/
def Chip.podPartial (c : Chip) (r : Region) (g i p f : Nat) : Chip :=
  match c.instS r g i with
  | none => c
  | some x =>
    let s := x.frag p f
    match s.back with
    | none => c
    | some part =>
      if c.pods r g = 1 then
        (c.modFrag r g i p f (fun s => { s with whole := some part })).finalStage r g i p f
      else if c.isGlobalHead r g p then
        if s.cross ≠ 0 || s.whole.isSome then c
        else (c.modFrag r g i p f (fun s => { s with cross := 1, crossAt := c.courseCount, crossTries := 0 })).crossFrag
          r g i 2 p f x part.encode
      else match s.crossIn with
        | some q => c.crossFrag r g i 2 p f x (Part.join x.d q part).encode
        | none => c

/-- R307, R308: the head launches lap 1 of a fragment whose stop partial is complete (per fragment: DEDUCED, log 166). -/
def Chip.launchFrag (c : Chip) (r : Region) (g i p f : Nat) : Chip :=
  match c.instS r g i with
  | none => c
  | some x =>
    let s := x.frag p f
    match s.mine with
    | none => c
    | some part =>
      if s.lap ≠ 0 || s.back.isSome || s.whole.isSome || s.passed then c
      else (c.modFrag r g i p f (fun s => { s with lap := 1, sentAt := c.courseCount, relaunches := 0 })).sendFrag
        r g i 2 (c.nextStop r g) p f x part.encode

/-- Lap 1 at a stop that is not the head: incoming partial + own (R307, R312). -/
def Chip.forwardLap1 (c : Chip) (r : Region) (g i p f : Nat) : Chip :=
  match c.instS r g i with
  | none => c
  | some x =>
    let s := x.frag p f
    match s.lapIn, s.mine with
    | some a, some b => c.sendFrag r g i 2 (c.nextStop r g) p f x (Part.join x.d a b).encode
    | _, _ => c

/-- The stop stage: region partials of `region_mask` in ascending region, identities where a region has no effective
member (R307, R312). -/
def Chip.stopStage (c : Chip) (r : Region) (g i p f : Nat) : Chip :=
  match c.instS r g i with
  | none => c
  | some x =>
    let s := x.frag p f
    if s.mine.isSome then c
    else
      let n := dFragE x.d p f
      let parts := (c.maskRegions r g).map (fun k =>
        match Tab.find s.parts k.val with
        | some q => some q
        | none => if (c.effMembers k g).isEmpty then some (Part.identity x.d n) else none)
      if parts.any (·.isNone) then c
      else
        let l := parts.filterMap id
        let own := (treeParts x.d l.length l).getD (Part.identity x.d n)
        let c := c.modFrag r g i p f (fun s => { s with mine := some own })
        if c.isHead r g p then if c.grp r g MORTAR.GRP_A_course_step = 0 then c.launchFrag r g i p f else c
        else c.forwardLap1 r g i p f

/-- The region stage: contributions of the effective local members in ascending member index (R307, R312). -/
def Chip.regionStage (c : Chip) (r : Region) (g i p f : Nat) : Chip :=
  match c.instS r g i with
  | none => c
  | some x =>
    let s := x.frag p f
    let mem := c.effMembers r g
    if s.regionDone || mem.any (fun m => (Tab.find s.contribs m.1).isNone) then c
    else
      let n := dFragE x.d p f
      let l := mem.map (fun m => Part.widen x.d n (Tab.get s.contribs m.1 []))
      let part := (treeParts x.d l.length l).getD (Part.identity x.d n)
      let c := c.modFrag r g i p f (fun s => { s with regionDone := true })
      if c.isAnchor r g then
        (c.modFrag r g i p f (fun s => { s with parts := Tab.put s.parts r.val part })).stopStage r g i p f
      else c.sendFrag r g i 1 (c.grp r g MORTAR.GRP_B_anchor_epid) p f x part.encode

/-- LAP2 of a fragment has passed, or returned; with the last fragment the piece is released here and in the member
regions (R317). A global head waits for cross-lap 2 as well. -/
def Chip.lap2Passed (c : Chip) (r : Region) (g i p f : Nat) : Chip :=
  let c := c.modFrag r g i p f (fun s => { s with passed := true, lap := 0 })
  match c.instS r g i with
  | none => c
  | some x =>
    let waits := fun (s : FragS) => !s.passed || (1 < c.pods r g && c.isHead r g p && c.isGlobalHead r g p && !s.crossPassed)
    if (List.range (dFrags x.d p)).any (fun f => waits (x.frag p f)) then c
    else
      let c := (c.maskRegions r g).foldl (fun c k => if k = r then c else c.releasePiece k g i p) c
      c.releasePiece r g i p

/-- An instance opens in a region (R309): a stop without effective members has its stop partials at once (R307). -/
def Chip.openInst (c : Chip) (r : Region) (g i : Nat) (d : Word) (digest : Nat) : Chip :=
  match c.instS r g i with
  | some _ => c
  | none =>
    let x : InstS := { d := d, digest := digest, openedAt := c.courseCount }
    let c := c.modGrp r g (fun s => { s with insts := Tab.put s.insts i x })
    if c.isAnchor r g && (c.maskRegions r g).all (fun k => (c.effMembers k g).isEmpty) then
      (List.range (dPieces d)).foldl (fun c p =>
        if c.isHead r g p then (List.range (dFrags d p)).foldl (fun c f => c.stopStage r g i p f) c else c) c
    else c

/-! ### The census (R497) -/

/-- `lap_timeout`, `replay_max`, `inst_timeout`, `xpod_timeout` with their limits (Table COLL-9). -/
def Chip.lapTimeout (c : Chip) (r : Region) : Nat := max 2 (c.fld (.mortar r) MORTAR.MORTAR_CTL_lap_timeout)
def Chip.lapReplays (c : Chip) (r : Region) : Nat := max 1 (c.fld (.mortar r) MORTAR.MORTAR_CTL_replay_max)
def Chip.instTimeout (c : Chip) (r : Region) : Nat := max 64 (c.fld (.mortar r) MORTAR.MORTAR_CTL_inst_timeout)
def Chip.xpodTimeout (c : Chip) (r : Region) : Nat := max 64 (c.fld (.mortar r) MORTAR.MORTAR_CTL_xpod_timeout)

/-- The bits of the effective members of this Pysum's regions. -/
def Chip.ownBits (c : Chip) (r : Region) (g : Nat) : Nat :=
  (c.pysumMembers r g).foldl (fun n m => n ||| 2 ^ m.1) 0

/-- A CENSUS packet of the current epoch to the next stop. -/
def Chip.sendCensus (c : Chip) (r : Region) (g bits : Nat) : Chip :=
  c.send r (c.piecePacket r g (c.fld .plumb PLUMB.PLUMB_STS_epoch % 32768) 6 (c.nextStop r g) 0 0 false 0 0 (leBytes 512 bits))

/-- The census is in force: pieces that waited for it go on. -/
def Chip.storeCensus (c : Chip) (r : Region) (g bits : Nat) : Chip :=
  let c := c.modGrp r g (fun s => { s with census := bits, censusOk := true })
  (c.grpS r g).insts.foldl (fun c e => e.2.frags.foldl (fun c f =>
    (c.finalStage r g e.1 (f.1 / 8) (f.1 % 8)).startLap2 r g e.1 (f.1 / 8) (f.1 % 8)) c) c

/-- Does a round answer for itself here: this anchor stands at effective position 0? -/
def Chip.censusDue (c : Chip) (r : Region) (g : Nat) : Bool :=
  let s := c.grpS r g
  c.grpOk r g && c.isAnchor r g && c.grp r g MORTAR.GRP_A_job_id = c.holder (.mortar r) && c.effPos r g = some 0
    && !s.started && c.courseCount ≠ s.dueFrom.getD (c.mort r).takenAt

/-- Is a CENSUS that reaches an anchor which did not start the round of its first lap? It lacks own bits; an anchor without
members takes the first one so, and one that repeats it as late as a relaunch would (DEDUCED, log 52). -/
def Chip.censusLapOne (c : Chip) (r : Region) (g bits : Nat) : Bool :=
  let own := c.ownBits r g
  if own ≠ 0 then bits &&& own ≠ own
  else match (c.grpS r g).lapOne with
    | none => true
    | some (b, t) => bits = b && c.lapTimeout r ≤ c.since t

/-- A CENSUS of the current epoch at an anchor. At the starting anchor the first lap's return starts the second, whose return
ends the round. -/
def Chip.censusIn (c : Chip) (r : Region) (g bits : Nat) : Chip :=
  match (c.grpS r g).round with
  | some t =>
    if t.lap = 1 then
      let c := c.modGrp r g (fun s => { s with round := some ⟨2, bits, c.courseCount, 0⟩ })
      (c.sendCensus r g bits).storeCensus r g bits
    else c.modGrp r g (fun s => { s with round := none })
  | none =>
    if c.effPos r g = some 0 then c
    else if c.censusLapOne r g bits then
      (c.modGrp r g (fun s => { s with lapOne := some (bits, c.courseCount) })).sendCensus r g (bits ||| c.ownBits r g)
    else (c.sendCensus r g bits).storeCensus r g bits

/-! ### Checks (Table COLL-6) -/

/-- What a capture keeps of a PIECE (R310): W1, D and the source, which is also the stop or region whose partial differed (R311;
DEDUCED, log 270). -/
def pieceDetail (pkt : Packet) : List Word := [pkt.w1, pkt.w2, BitVec.ofNat 64 pkt.src]

/-- A discard that raises no event: counted and captured (R310; its event number and code: DESIGN CHOICE, log 269). -/
def Chip.dropPiece (c : Chip) (r : Region) (pkt : Packet) : Chip :=
  c.capture (.mortar r) MORTAR.ev_bad_contrib 0x64 (pieceDetail pkt)

/-- A discard with its event and its capture (R310). -/
def Chip.badPiece (c : Chip) (r : Region) (f : Fld) (ev : Nat) (pkt : Packet) : Chip :=
  (c.bump (.mortar r) f).error (.mortar r) ev 0x64 (pieceDetail pkt)

/-- Checks 2 and 7: a late packet, a duplicate. -/
def Chip.latePiece (c : Chip) (r : Region) (pkt : Packet) : Chip :=
  (c.bump (.mortar r) MORTAR.MORTAR_DISCARD_late).dropPiece r pkt
def Chip.dupPiece (c : Chip) (r : Region) (pkt : Packet) : Chip :=
  (c.bump (.mortar r) MORTAR.MORTAR_DISCARD_duplicates).dropPiece r pkt

def Chip.badContrib (c : Chip) (r : Region) (pkt : Packet) : Chip :=
  c.badPiece r MORTAR.MORTAR_DISCARD_bad_contrib MORTAR.ev_bad_contrib pkt

/-- What becomes of a packet: consumed, or it waits (and is a CONTRIB that the limits of R317 hold). -/
inductive Fate where
  | gone
  | waits (full : Bool)
  deriving DecidableEq, Repr

/-- The exact packets of a source: the packet joins what has come, and a whole set gives its partial. -/
def FragS.assemble (s : FragS) (d : Word) (n : Nat) (pkt : Packet) : FragS × Option Part :=
  let key := pkt.phase * 4096 + pkt.src
  if !dExact d then (s, some (.words ((List.range n).map (fun i => leAt pkt.payload (4 * i) 4))))
  else
    let cur := if pkt.ext then
        let (recs, big) := Tab.get s.building key ([], [])
        (recs, big ++ (List.range (pkt.len / 40)).map (fun i => BitVec.ofNat 320 (leAt pkt.payload (40 * i) 40)))
      else ((List.range n).map (fun i => wordAt pkt.payload (8 * i)), [])
    let need := (cur.1.filter (fun w => bitAt w 63)).length
    if need ≤ cur.2.length then ({ s with building := Tab.del s.building key }, some (Part.ofRecords cur.1 cur.2))
    else ({ s with building := Tab.put s.building key cur }, none)

/-- Check 6: is the packet of its fragment's length (R305, R315)? An escape packet has the values its records still want; where
no record waits for values, whole ones, and check 7 decides. -/
def FragS.shapeOk (s : FragS) (d : Word) (n : Nat) (pkt : Packet) (dup : Bool) : Bool :=
  if n = 0 then false
  else if pkt.ext then
    dExact d && pkt.phase ≠ 0 && pkt.phase ≠ 3 && (match Tab.find s.building (pkt.phase * 4096 + pkt.src) with
      | some (recs, big) => pkt.len = 40 * min 204 ((recs.filter (fun w => bitAt w 63)).length - big.length)
      | none => dup && pkt.len % 40 = 0 && 1 ≤ pkt.len / 40 && pkt.len / 40 ≤ 204)
  else pkt.len = n * (match pkt.phase with
    | 0 => dSize (dIn d)
    | 3 => dSize (dOut d)
    | _ => if dExact d then 8 else 4)

/-- Check 7 and R318: has this fragment come before, or is its piece done? -/
def Chip.isDuplicate (c : Chip) (r : Region) (g : Nat) (x : InstS) (pkt : Packet) (member : Nat) : Bool :=
  let s := x.frag pkt.piece pkt.frag
  let rel := x.released.contains pkt.piece
  let head := c.isHead r g pkt.piece
  match pkt.phase with
  | 0 => rel || (Tab.find s.contribs member).isSome
  | 1 => rel || (match c.regionOfEpid pkt.src with | some k => (Tab.find s.parts k.val).isSome | none => false)
  | 2 => rel || (if head then s.lap ≠ 1 else s.passed)
  | _ => head && (rel || s.lap ≠ 2)

/-- An accepted fragment takes its stage. -/
def Chip.acceptPiece (c : Chip) (r : Region) (g i : Nat) (x : InstS) (pkt : Packet) (member : Nat) (fresh : Bool) : Chip :=
  let p := pkt.piece
  let f := pkt.frag
  let n := dFragE x.d p f
  let cells := if fresh then pkt.cells else 0
  match pkt.phase with
  | 0 =>
    let c := c.modInst r g i (fun s => { s with members := if s.members.contains pkt.src then s.members else pkt.src :: s.members })
    (c.modFrag r g i p f (fun s => { s with contribs := Tab.put s.contribs member pkt.payload, cells := s.cells + cells })).regionStage
      r g i p f
  | 1 =>
    let (s, part) := (x.frag p f).assemble x.d n pkt
    let c := c.modFrag r g i p f (fun _ => { s with cells := s.cells + cells })
    match part, c.regionOfEpid pkt.src with
    | some q, some k => (c.modFrag r g i p f (fun s => { s with parts := Tab.put s.parts k.val q })).stopStage r g i p f
    | _, _ => c
  | 2 =>
    let (s, part) := (x.frag p f).assemble x.d n pkt
    let c := c.modFrag r g i p f (fun _ => { s with cells := s.cells + cells })
    match part with
    | none => c
    | some q =>
      if c.isHead r g p then
        (c.modFrag r g i p f (fun s => { s with lap := 0, back := some q })).podPartial r g i p f
      else
        let had := (x.frag p f).mine.isSome
        let c := c.modFrag r g i p f (fun s => { s with lapIn := some q })
        if had then c.forwardLap1 r g i p f else c.stopStage r g i p f
  | _ =>
    if c.isHead r g p then c.lap2Passed r g i p f
    else if x.released.contains p then c.sendFrag r g i 3 (c.nextStop r g) p f x (pkt.payload, [])
    else
      let s := x.frag p f
      let c := if s.delivered then c else c.deliverFrag r g i p f x pkt.payload
      (c.sendFrag r g i 3 (c.nextStop r g) p f x (pkt.payload, [])).lap2Passed r g i p f

/-- Does a packet bring input that the journal has not yet (R317)? A relaunched lap and escape packets of a journalled fragment
take no further cells but their own. -/
def FragS.fresh (s : FragS) (phase : Nat) : Bool := phase = 0 || phase = 1 || (phase = 2 && s.lapIn.isNone && s.back.isNone)

/-- R310: a PIECE at a Mortar. -/
def Chip.pieceIn (c : Chip) (r : Region) (pkt : Packet) : Chip × Fate :=
  let g := pkt.group
  let i := pkt.inst
  let ph := pkt.phase
  let n := c.grp r g MORTAR.GRP_A_member_count
  if pkt.mcast || ph = 7 || ph = 4 then (c.badContrib r pkt, .gone)
  else if !c.grpOk r g || pkt.job ≠ c.grp r g MORTAR.GRP_A_job_id || ((ph = 1 || ph = 2 || ph = 3 || ph = 6) && !c.isAnchor r g) then
    (c.badPiece r MORTAR.MORTAR_DISCARD_no_group MORTAR.ev_no_group pkt, .gone)
  else if ph = 6 then
    if pkt.len ≠ 512 then (c.badContrib r pkt, .gone)
    else if i ≠ c.fld .plumb PLUMB.PLUMB_STS_epoch % 32768 then (c.dropPiece r pkt, .gone)
    else (c.censusIn r g (leNat pkt.payload), .gone)
  else match c.windowOf r g i with
  | .late => (c.latePiece r pkt, .gone)
  | .beyond => (c, .waits false)
  | .inside =>
    let member := (c.effMembers r g).find? (fun m => m.2 = pkt.src)
    let mIx := match member with | some m => m.1 | none => 0
    if ph = 5 then
      if pkt.len ≠ 16 then (c.badContrib r pkt, .gone)
      else if c.isAnchor r g then (c.abortAnchor r g i pkt.payload false [] pkt.w2 pkt.digest, .gone)
      else (c.abortHere r g i pkt.payload false [], .gone)
    else if ph = 0 && member.isNone then (c.badContrib r pkt, .gone)
    else if !dValid pkt.w2 n then (c.abortInst r g i 2 none (pieceDetail pkt) pkt.w2 pkt.digest, .gone)
    else
      let x : InstS := (c.instS r g i).getD { d := pkt.w2, digest := pkt.digest, openedAt := c.courseCount }
      let s := x.frag pkt.piece pkt.frag
      let lost := ph = 1 && (match c.regionOfEpid pkt.src with | some k => !(c.maskRegions r g).contains k | none => true)
      if x.d ≠ pkt.w2 || x.digest ≠ pkt.digest then
        if ph = 0 && x.members.contains pkt.src then (c.badContrib r pkt, .gone)
        else (c.abortInst r g i 1 (if ph = 0 then some mIx else none) (pieceDetail pkt) x.d x.digest, .gone)
      else if !s.shapeOk x.d (dFragE x.d pkt.piece pkt.frag) pkt (c.isDuplicate r g x pkt mIx) || lost then
        (c.badContrib r pkt, .gone)
      else if c.isDuplicate r g x pkt mIx then (c.dupPiece r pkt, .gone)
      else if c.jobHalted pkt.job && (c.instS r g i).isNone then (c.abortInst r g i 5 none (pieceDetail pkt) pkt.w2 pkt.digest, .gone)
      else
        let fresh := s.fresh ph
        let room := c.fld (.xbar r) XBAR.BUF_ALLOT_journal - c.journalUsed r
        if ph = 0 && (room < 256 + pkt.cells
            || (4096 ≤ (c.mort r).fragsOpen && (Tab.find x.frags (fragKey pkt.piece pkt.frag)).isNone)) then (c, .waits true)
        else if (ph = 1 || ph = 2) && fresh && room < pkt.cells then (c, .waits false)
        else if ph = 3 && !(c.grpS r g).censusOk then (c, .waits false)
        else
          let c := c.openInst r g i pkt.w2 pkt.digest
          match c.instS r g i with
          | some x => (c.acceptPiece r g i x pkt mIx fresh, .gone)
          | none => (c, .gone)

/-- A buffer entry that the Mortar held is freed (R105). -/
def Chip.dropHeld (c : Chip) (r : Region) : Option Nat → Chip
  | some id => c.freePacket r id
  | none => c

/-- The first packet of the wanted kind that can go is taken; CONTRIBs that must wait move to the waiting list. -/
def Chip.takePiece (c : Chip) (r : Region) (want : Packet → Bool) : List (Packet × Option Nat) → Chip
  | [] => c
  | e :: t =>
    if e.1.kind ≠ 1 || !want e.1 then c.takePiece r want t
    else
      let drop := fun (c : Chip) => c.modMort r (fun m => { m with queue := m.queue.erase e, streamTurn := true })
      match c.pieceIn r e.1 with
      | (c', .gone) => ((drop c').dropHeld r e.2).mortShow r
      | (_, .waits full) =>
        if e.1.phase = 0 && !e.1.mcast then
          let c := c.modMort r (fun m => { m with queue := m.queue.erase e, waiting := m.waiting ++ [(e.1, e.2, full)] })
          (c.raiseIf full (.mortar r) MORTAR.ev_journal_full).mortShow r
        else c.takePiece r want t

/-- CONTRIB_ADMIT: the first waiting CONTRIB that may go (R309, R317). -/
def Chip.admitContrib (c : Chip) (r : Region) : List (Packet × Option Nat × Bool) → Chip
  | [] => c
  | (pkt, id, told) :: t =>
    match c.pieceIn r pkt with
    | (c', .gone) => ((c'.modMort r (fun m => { m with waiting := m.waiting.erase (pkt, id, told) })).dropHeld r id).mortShow r
    | (_, .waits full) =>
      let c := if full && !told then
          (c.modMort r (fun m => { m with waiting := m.waiting.map (fun e => if e = (pkt, id, told) then (pkt, id, true) else e) })).raise
            (.mortar r) MORTAR.ev_journal_full
        else c
      c.admitContrib r t

/-! ### Boundaries, jobs and declarations -/

/-- R308: at offset 6 of a boundary the heads of groups with `course_step` launch what is complete. -/
def Chip.courseLaunch (c : Chip) (r : Region) : Chip :=
  ((c.mort r).groups.foldl (fun c e =>
    if c.grp r e.1 MORTAR.GRP_A_course_step = 1 && c.isAnchor r e.1 then
      e.2.insts.foldl (fun c i => i.2.frags.foldl (fun c f =>
        if c.isHead r e.1 (f.1 / 8) then c.launchFrag r e.1 i.1 (f.1 / 8) (f.1 % 8) else c) c) c
    else c) c).mortShow r

/-- A relaunch is counted and told (R318). -/
def Chip.countRelaunch (c : Chip) (r : Region) : Chip :=
  (c.bump (.mortar r) MORTAR.MORTAR_COUNT_relaunches).raise (.mortar r) MORTAR.ev_relaunch

/-- R321: have the members or stops of a group that region r lists changed between `old` and `c`? The ring is the anchor's. -/
def Chip.groupChanged (c old : Chip) (r : Region) (g : Nat) : Bool :=
  c.effMembers r g ≠ old.effMembers r g
    || (c.isAnchor r g && (c.effStops r g ≠ old.effStops r g || c.pysumMembers r g ≠ old.pysumMembers r g))

/-- R497: does the change from `old` start the group's census anew: what region r lists changed, or an endpoint of another stop's
Pysum, whose members region r does not list (DEDUCED, log 53)? -/
def Chip.censusStale (c old : Chip) (r : Region) (g : Nat) : Bool :=
  c.groupChanged old r g || (List.range 64).any (fun k =>
    c.reg (.mortar r) (0x200 + 8 * k) ≠ old.reg (.mortar r) (0x200 + 8 * k) && (List.range 64).any (fun j =>
      let e := 64 * k + j
      c.lostEp r e != old.lostEp r e && (c.effStops r g).any (fun s => c.targetOf r e = some s.2.1 && s.2.1 ≠ c.pysum)))

/-- R321, R425: the region after a change of LOST_MAP and LOST_EP, `old` being the chip before it: every open instance of a
group that lost a member or a stop ends REFORMED; groups that lost nothing go on. -/
def Chip.reform (c old : Chip) (r : Region) : Chip :=
  if c.holder (.mortar r) = 0 then c
  else
    let gs := (List.range 1024).filter (fun g => c.grpOk r g && c.grp r g MORTAR.GRP_A_job_id = c.holder (.mortar r))
    let hit := gs.filter (fun g => c.groupChanged old r g)
    let c := (gs.filter (fun g => c.censusStale old r g)).foldl (fun c g => c.modGrp r g (fun s =>
      { s with censusOk := false, lapOne := none, started := false, round := none, dueFrom := some c.courseCount })) c
    if hit.isEmpty then c
    else
      let c := (c.wrap (.mortar r) MORTAR.MORTAR_STS_epoch).raise (.mortar r) MORTAR.ev_reformed
      (hit.foldl (fun c g => (c.grpS r g).insts.foldl (fun c i => c.endInst r g i.1 5 i.2) c) c).mortShow r

/-- R309, R322, R369: a job takes the MORTAR unit. -/
def Chip.mortTake (c : Chip) (r : Region) (job : Nat) (exact : Bool) (seed : Word) : Chip :=
  let u := UnitId.mortar r
  let c := c.modMort r (fun m => { m with groups := [], ctxs := [], batches := [], takenAt := c.courseCount })
  let c := c.setReg u 0x150 (setBits (setBits 0 63 48 job) 0 0 (bit exact))
  ((c.setReg u 0x158 seed).setFld u MORTAR.MORTAR_STS_epoch 0).mortShow r

/-- R322: every open instance ends with RELEASED in this region; of the groups only their last status stays, for GRP_STS. -/
def Chip.releaseInsts (c : Chip) (r : Region) : Chip :=
  let c := (c.mort r).groups.foldl (fun c e => e.2.insts.foldl (fun c i =>
    c.abortHere r e.1 i.1 (c.abortBytes r e.1 6 none) true []) c) c
  c.modMort r (fun m => { m with groups := m.groups.map (fun e => (e.1, { last := e.2.last })) })

/-! ### The cross-pod ring (R323, R400) -/

/-- The region whose entry of a group is an anchor's. -/
def Chip.groupAnchor (c : Chip) (g : Nat) : Option Region := (List.finRange 4).find? (fun r => c.grpOk r g && c.isAnchor r g)

/-- Does a cross-lap 1 packet bring input that the journal has not yet? -/
def FragS.freshCross (s : FragS) : Bool := s.crossIn.isNone && s.whole.isNone

/-- A cross-lap fragment that passed the checks. -/
def Chip.acceptCross (c : Chip) (r : Region) (g i : Nat) (x : InstS) (pkt : Packet) : Chip :=
  let p := pkt.piece
  let f := pkt.frag
  if pkt.phase = 2 then
    let (s, part) := (x.frag p f).assemble x.d (dFragE x.d p f) pkt
    let c := c.modFrag r g i p f (fun _ => { s with cells := s.cells + if s.freshCross then pkt.cells else 0 })
    match part with
    | none => c
    | some q =>
      if c.isGlobalHead r g p then
        (c.modFrag r g i p f (fun s => { s with cross := 0, whole := some q })).finalStage r g i p f
      else (c.modFrag r g i p f (fun s => { s with crossIn := some q })).podPartial r g i p f
  else if c.isGlobalHead r g p then
    let c := c.modFrag r g i p f (fun s => { s with cross := 0, crossPassed := true })
    if (x.frag p f).passed then c.lap2Passed r g i p f else c
  else
    let had := (x.frag p f).result.isSome
    let c := if had then c else c.modFrag r g i p f (fun s =>
      { s with result := some pkt.payload, cells := s.cells + pkt.cells })
    (c.crossFrag r g i 3 p f x (pkt.payload, [])).startLap2 r g i p f

/-- An XPOD message's PIECE, checked as Table COLL-6 checks LAP1; it reaches the anchor of its group. -/
def Chip.crossIn (c : Chip) (pkt : Packet) : Chip × Fate :=
  let g := pkt.group
  let i := pkt.inst
  let ph := pkt.phase
  match c.groupAnchor g with
  | none => (c.badPiece ((c.regionOfEpid pkt.dst).getD 0) MORTAR.MORTAR_DISCARD_no_group MORTAR.ev_no_group pkt, .gone)
  | some r =>
    if pkt.kind ≠ 1 || pkt.mcast || pkt.payload.length ≠ pkt.len || !(ph = 2 || ph = 3 || ph = 5) then (c.badContrib r pkt, .gone)
    else if pkt.job ≠ c.grp r g MORTAR.GRP_A_job_id || c.pods r g = 1 then
      (c.badPiece r MORTAR.MORTAR_DISCARD_no_group MORTAR.ev_no_group pkt, .gone)
    else match c.windowOf r g i with
    | .late => (c.latePiece r pkt, .gone)
    | .beyond => (c, .waits false)
    | .inside =>
      if ph = 5 then
        (if pkt.len ≠ 16 then c.badContrib r pkt else c.abortAnchor r g i pkt.payload false [] pkt.w2 pkt.digest, .gone)
      else if !dValid pkt.w2 (c.grp r g MORTAR.GRP_A_member_count) then
        (c.abortInst r g i 2 none (pieceDetail pkt) pkt.w2 pkt.digest, .gone)
      else
        let x : InstS := (c.instS r g i).getD { d := pkt.w2, digest := pkt.digest, openedAt := c.courseCount }
        let s := x.frag pkt.piece pkt.frag
        let dup := x.released.contains pkt.piece || (c.isGlobalHead r g pkt.piece && s.cross ≠ ph - 1)
        if x.d ≠ pkt.w2 || x.digest ≠ pkt.digest then (c.abortInst r g i 1 none (pieceDetail pkt) x.d x.digest, .gone)
        else if !c.isHead r g pkt.piece || !s.shapeOk x.d (dFragE x.d pkt.piece pkt.frag) pkt dup then (c.badContrib r pkt, .gone)
        else if dup then (c.dupPiece r pkt, .gone)
        else if c.jobHalted pkt.job && (c.instS r g i).isNone then
          (c.abortInst r g i 5 none (pieceDetail pkt) pkt.w2 pkt.digest, .gone)
        else if ph = 2 && s.freshCross && c.fld (.xbar r) XBAR.BUF_ALLOT_journal - c.journalUsed r < pkt.cells then (c, .waits false)
        else
          let c := c.openInst r g i pkt.w2 pkt.digest
          match c.instS r g i with
          | some x => ((c.acceptCross r g i x pkt).mortShow r, .gone)
          | none => (c, .gone)

/-! ### The commands -/

/-- CONTRIB_ADMIT. -/
def execContribAdmit (r : Region) (s : State) : Host.Outcome State Fault Refusal :=
  s.onLive r (fun c => c.admitContrib r (c.mort r).waiting)

/-- CENSUS_ROUND_START (R497). -/
def execCensusRoundStart (r : Region) (group : Fin 1024) (s : State) : Host.Outcome State Fault Refusal :=
  s.onLive r (fun c =>
    let g := group.val
    if !c.censusDue r g then c
    else
      let bits := c.ownBits r g
      let c := c.modGrp r g (fun s => { s with started := true, dueFrom := none, round := some ⟨1, bits, c.courseCount, 0⟩ })
      (c.sendCensus r g bits).mortShow r)

/-- CENSUS_RELAUNCH (R497). -/
def execCensusRelaunch (r : Region) (group : Fin 1024) (s : State) : Host.Outcome State Fault Refusal :=
  s.onLive r (fun c =>
    let g := group.val
    match (c.grpS r g).round with
    | none => c
    | some t =>
      if c.since t.sentAt < c.lapTimeout r then c
      else if t.relaunches < c.lapReplays r then
        let c := c.modGrp r g (fun s =>
          { s with round := some { t with sentAt := c.courseCount, relaunches := t.relaunches + 1 } })
        (c.countRelaunch r).sendCensus r g t.bits
      else
        let c := (c.grpS r g).insts.foldl (fun c i => c.endInst r g i.1 4 i.2) c
        (c.modGrp r g (fun s => { s with
          round := none
          started := false
          dueFrom := some c.courseCount })).mortShow r)

/-- LAP_RELAUNCH (R318). -/
def execLapRelaunch (r : Region) (group : Fin 1024) (inst : BitVec 15) (piece : BitVec 16) (frag : Fin 8) (s : State) :
    Host.Outcome State Fault Refusal :=
  s.onLive r (fun c =>
    let g := group.val
    let i := inst.toNat
    let p := piece.toNat
    let f := frag.val
    match c.instS r g i with
    | none => c
    | some x =>
      let t := x.frag p f
      if t.lap = 0 || c.since t.sentAt < c.lapTimeout r then c
      else if c.lapReplays r ≤ t.relaunches then (c.endInst r g i 4 x).mortShow r
      else
        let c := (c.modFrag r g i p f (fun t => { t with sentAt := c.courseCount, relaunches := t.relaunches + 1 })).countRelaunch r
        let body := if t.lap = 1 then (match t.mine with | some q => q.encode | none => ([], [])) else (t.result.getD [], [])
        (c.sendFrag r g i (t.lap + 1) (c.nextStop r g) p f x body).mortShow r)

/-- INSTANCE_TIMEOUT (R319). -/
def execInstanceTimeout (r : Region) (group : Fin 1024) (inst : BitVec 15) (s : State) : Host.Outcome State Fault Refusal :=
  s.onLive r (fun c => match c.instS r group.val inst.toNat with
    | some x =>
      if c.since x.openedAt < c.instTimeout r then c
      else (c.endInst r group.val inst.toNat 3 x).mortShow r
    | none => c)

/-- XPOD_LAP_TIMEOUT (R323). -/
def execXpodLapTimeout (r : Region) (group : Fin 1024) (inst : BitVec 15) (piece : BitVec 16) (frag : Fin 8) (s : State) :
    Host.Outcome State Fault Refusal :=
  s.onLive r (fun c =>
    let g := group.val
    let i := inst.toNat
    let p := piece.toNat
    let f := frag.val
    match c.instS r g i with
    | none => c
    | some x =>
      let t := x.frag p f
      if t.cross = 0 || c.since t.crossAt < c.xpodTimeout r then c
      else if c.lapReplays r ≤ t.crossTries then (c.endInst r g i 4 x).mortShow r
      else
        let c := (c.modFrag r g i p f (fun t => { t with crossAt := c.courseCount, crossTries := t.crossTries + 1 })).countRelaunch r
        let body := if t.cross = 1 then (match t.back with | some q => q.encode | none => ([], [])) else (t.result.getD [], [])
        (c.crossFrag r g i (t.cross + 1) p f x body).mortShow r)

/-- XPOD: the first accepted message of a peer (R400); a fragment that must wait stays in front. -/
def execXpod (peer : Fin 256) (s : State) : Host.Outcome State Fault Refusal :=
  s.on (fun c =>
    let n := peer.val
    match (c.peer n).cmds with
    | [] => c
    | (m, _) :: rest =>
      match (c.setPeer n { c.peer n with cmds := rest }).crossIn (Packet.ofBytes m.payload) with
      | (c', .gone) => c'
      | (_, .waits _) => c)

end Sys2Proof.Machine
end

