-- ==== Sys2Proof/Machine/Stream.lean ====
section
/-! DEFINITION. Stream operators (R326 to R354): program slots, stream contexts, element programs, sort, top-k, mixture
dispatch and combine. -/
namespace Sys2Proof.Machine

/-! ### STREAM fields (Table STR-1) -/

end Sys2Proof.Machine

namespace Sys2Proof
open Sys2Proof.Machine
def Packet.slot (p : Packet) : Nat := getBits p.w1 47 40
def Packet.streamLast (p : Packet) : Bool := bitAt p.w1 39
def Packet.isTable (p : Packet) : Bool := bitAt p.w1 38
def Packet.isFlush (p : Packet) : Bool := bitAt p.w1 37
def Packet.bypass (p : Packet) : Bool := bitAt p.w1 36
def Packet.streamNo (p : Packet) : Nat := getBits p.w1 31 16
def Packet.firstElem (p : Packet) : Nat := getBits p.w3 31 0
/-- Key of the packet's context (R327). -/
def Packet.ctxKey (p : Packet) : Nat := p.src * 65536 + p.streamNo
end Sys2Proof

namespace Sys2Proof.Machine

/-! ### Program slots (R330 to R332) -/

/-- A field of a slot's header. -/
def Chip.slotFld (c : Chip) (r : Region) (i : Nat) (f : Fld) : Nat := c.fld (.mortar r) (f.plus (slotOff i))

/-- What a slot's header holds (Table STR-3). -/
structure SlotH where
  valid : Bool
  job : Nat
  kind : Nat
  inFmt : Nat
  outFmt : Nat
  exact : Bool
  stoch : Bool
  idx : Bool
  descending : Bool
  nInstr : Nat
  outSlot : Nat
  k : Nat
  outNone : Bool
  rowLen : Nat
  outLen : Nat
  rowUnits : Nat
  outElems : Nat
  resFmt : Nat
  replyTc : Nat
  combineEpid : Nat
  maxChoices : Nat
  deriving DecidableEq, Repr

/-- The header of slot i; `out_len` 0 acts as 8,192. -/
def Chip.slotH (c : Chip) (r : Region) (i : Nat) : SlotH :=
  let f := c.slotFld r i
  { valid := f MORTAR.SLOT_H0_valid = 1
    job := f MORTAR.SLOT_H0_job_id
    kind := f MORTAR.SLOT_H0_kind
    inFmt := f MORTAR.SLOT_H0_in_fmt
    outFmt := f MORTAR.SLOT_H0_out_fmt
    exact := f MORTAR.SLOT_H0_exact = 1
    stoch := f MORTAR.SLOT_H0_rnd = 1
    idx := f MORTAR.SLOT_H0_idx = 1
    descending := f MORTAR.SLOT_H0_descending = 1
    nInstr := f MORTAR.SLOT_H0_n_instr
    outSlot := f MORTAR.SLOT_H0_out_slot
    k := f MORTAR.SLOT_H0_k_m1 + 1
    outNone := f MORTAR.SLOT_H0_out_none = 1
    rowLen := f MORTAR.SLOT_H1_row_len_m1 + 1
    outLen := (let n := f MORTAR.SLOT_H1_out_len; if n = 0 then 8192 else n)
    rowUnits := f MORTAR.SLOT_H2_row_units
    outElems := f MORTAR.SLOT_H2_out_elems
    resFmt := f MORTAR.SLOT_H2_res_fmt
    replyTc := f MORTAR.SLOT_H2_reply_tc
    combineEpid := f MORTAR.SLOT_H2_combine_epid
    maxChoices := f MORTAR.SLOT_H2_max_choices }

/-- Bytes of an element of a stream format: 0 FP32, 1 BF16, 2 FP16, 3 I32, 4 E4M3, 5 E5M2, 6 U32. -/
def strSize (f : Nat) : Nat := match f with | 1 | 2 => 2 | 4 | 5 => 1 | _ => 4
/-- Its floating-point format. -/
def strFp (f : Nat) : Option Fp :=
  match f with | 0 => some .fp32 | 1 => some .bf16 | 2 => some .fp16 | 4 => some .e4m3 | 5 => some .e5m2 | _ => none

/-- Instruction word j and constant k of slot i (R330). -/
def Chip.slotInstr (c : Chip) (r : Region) (i j : Nat) : Word := c.reg (.mortar r) (0xA0040 + slotOff i + 8 * j)
def Chip.slotConst (c : Chip) (r : Region) (i k : Nat) : Nat :=
  let w := c.reg (.mortar r) (0xA0140 + slotOff i + 8 * (k / 2))
  if k % 2 = 0 then getBits w 31 0 else getBits w 63 32

def seOp (w : Word) : Nat := getBits w 63 56
def seCidx (w : Word) : Nat := getBits w 42 37

/-- R332, Table STR-4: is the instruction word one of the table's? -/
def seOk (w : Word) : Bool :=
  let op := seOp w
  (op ≤ 0x0A || (0x10 ≤ op && op ≤ 0x12) || op = 0x18 || op = 0x19 || (0x20 ≤ op && op ≤ 0x27) || op = 0x30 || op = 0x38
    || op = 0x39) && getBits w 36 0 = 0 && seCidx w < 50

/-- EMIT or EMITP. -/
def seEmits (w : Word) : Bool := seOp w = 0x38 || seOp w = 0x39

/-- The instructions of a slot's program. -/
def Chip.slotProg (c : Chip) (r : Region) (i n : Nat) : List Word := (List.range n).map (fun j => c.slotInstr r i j)

/-- R331: may a context open on the slot? `row_units` of a DISPATCH lies in 1 to 255 (Table STR-3). -/
def Chip.slotOk (c : Chip) (r : Region) (i : Nat) : Bool :=
  let h := c.slotH r i
  let prog := c.slotProg r i h.nInstr
  let float := fun (f : Nat) => decide (f ≤ 2)
  h.valid && h.kind ≤ 3 && h.inFmt ≤ 6 && h.outFmt ≤ 6 && h.outLen % 16 = 0 && 16 ≤ h.outLen && h.outLen ≤ 8192
    && (!h.exact || h.kind = 3) && (!h.idx || h.kind ≤ 2)
    && (match h.kind with
      | 0 => 1 ≤ h.nInstr && h.nInstr ≤ 32 && prog.all seOk && (match prog.getLast? with | some w => seEmits w | none => false)
          && !(prog.dropLast).any seEmits
      | 3 => h.nInstr = 0 && float h.outFmt && float h.resFmt && 1 ≤ h.maxChoices && h.maxChoices ≤ 8 && 1 ≤ h.rowUnits
          && 1 ≤ h.outElems && h.outElems * strSize h.resFmt ≤ 8192
      | _ => h.nInstr = 0 && h.outFmt = h.inFmt)

/-- Does the program use the gather table? -/
def Chip.slotGathers (c : Chip) (r : Region) (i : Nat) : Bool :=
  let h := c.slotH r i
  h.kind = 0 && (c.slotProg r i h.nInstr).any (fun w => seOp w = 0x30)

/-! ### Contexts -/

def Chip.ctx (c : Chip) (r : Region) (k : Nat) : Option CtxS := Tab.find (c.mort r).ctxs k
def Chip.modCtx (c : Chip) (r : Region) (k : Nat) (f : CtxS → CtxS) : Chip :=
  c.modMort r (fun m => match Tab.find m.ctxs k with
    | some x => { m with ctxs := Tab.put m.ctxs k (f x) }
    | none => m)

/-- STREAM_STS, SORT_STS and the sort unit's `pending` follow the state (R353, R354). -/
def Chip.streamShow (c : Chip) (r : Region) : Chip :=
  let m := c.mort r
  let c := c.setFld (.mortar r) MORTAR.STREAM_STS_contexts_used m.ctxs.length
  let c := c.setFld (.mortar r) MORTAR.STREAM_STS_table_used (m.ctxs.foldl (fun n e => n + 4 * e.2.table.length) 0)
  let s := UnitId.sort r
  let c := c.setFld s SORT.SORT_STS_dispatch_open (m.ctxs.filter (fun e => e.2.kind = 3)).length
  let c := c.setFld s SORT.SORT_STS_batches_open m.batches.length
  let c := c.setFld s SORT.SORT_STS_sort_records
    (m.ctxs.foldl (fun n e => if e.2.kind = 1 then n + e.2.recs.length else n) 0)
  let busy := m.ctxs.any (fun e => e.2.kind = 1 && e.2.ended)
    || m.batches.any (fun b => b.2.closed.isSome && b.2.writes = 0 && b.2.invokedAt.isNone)
  (c.progress s busy 0).mortShow r

/-- Bytes of an output record: an element and its index; 64 for a dispatch (R328). -/
def SlotH.tokBytes (h : SlotH) : Nat := if h.kind = 3 then 64 else strSize h.outFmt + (if h.idx then 4 else 0)

/-- Payload bytes of a full output packet (R328). -/
def SlotH.fullBytes (h : SlotH) : Nat := if h.kind = 3 then h.outLen else h.outLen / h.tokBytes * h.tokBytes

/-- An output packet of a context (R328). -/
def Chip.ctxPacket (c : Chip) (r : Region) (x : CtxS) (last : Bool) (status : Nat) (w2 : Word) (units : Nat)
    (payload : List Byte) : Packet :=
  let h := c.slotH r x.slot
  mkPacket 6 x.tc false (if h.kind = 3 && x.kind = 3 then h.combineEpid else x.dst) (c.epid r) x.job
    (setBits (setBits (setBits (setBits (setBits 0 47 40 h.outSlot) 39 39 (bit last)) 36 36 (bit h.outNone)) 31 16 x.stream)
      15 12 status) w2 units payload

/-- Which unit's PROGRESS counts a context's packets: the sort unit for sort, top-k and dispatch (R354). -/
def Chip.sortSent (c : Chip) (r : Region) (x : CtxS) : Chip :=
  if x.kind = 0 then c else c.progress (.sort r) (bitAt (c.reg (.sort r) 0x80) 63)

/-- Send the full packets of a context's output, and with `all` the rest too (R328). -/
def Chip.ctxDrain (c : Chip) (r : Region) (k : Nat) (all : Bool) : Nat → Chip
  | 0 => c
  | fuel + 1 =>
    match c.ctx r k with
    | none => c
    | some x =>
      let h := c.slotH r x.slot
      let n := max 1 h.fullBytes
      if x.out.length < n && !(all && !x.out.isEmpty) then c
      else
        let body := x.out.take n
        let pkt := c.ctxPacket r x false 0 x.w2 (x.sent / h.tokBytes) body
        let c := c.modCtx r k (fun x => { x with out := x.out.drop n, sent := x.sent + body.length })
        ((c.send r pkt).sortSent r x).ctxDrain r k all fuel

/-- Drain with enough steps for the bytes at hand. -/
def Chip.ctxOut (c : Chip) (r : Region) (k : Nat) (all : Bool) : Chip :=
  match c.ctx r k with
  | some x => c.ctxDrain r k all (x.out.length + 1)
  | none => c

/-- The end packet (R328). -/
def Chip.ctxEnd (c : Chip) (r : Region) (k status : Nat) : Chip :=
  let c := c.ctxOut r k true
  match c.ctx r k with
  | none => c
  | some x =>
    let h := c.slotH r x.slot
    (c.send r (c.ctxPacket r x true status (setBits x.w2 31 0 x.amax) (x.sent / h.tokBytes) [])).sortSent r x

/-- The context closes: what it still holds is freed. -/
def Chip.ctxClose (c : Chip) (r : Region) (k : Nat) : Chip :=
  let c : Chip := match c.ctx r k with
    | some x => x.segs.foldl (fun (c : Chip) (s : SegS) => c.dropHeld r s.store) c
    | none => c
  c.modMort r (fun m => { m with
    ctxs := Tab.del m.ctxs k
    batches := m.batches.filter (fun b => !(b.2.ctx = k && b.2.closed.isNone)) })

/-- A stream that ends OK. -/
def Chip.ctxDone (c : Chip) (r : Region) (k : Nat) : Chip :=
  ((c.ctxEnd r k 0).wrap (.mortar r) MORTAR.STREAM_COUNT_streams_done).ctxClose r k

/-- R329: a failure of a stream is counted, told and captured. -/
def Chip.streamBlame (c : Chip) (r : Region) (x : CtxS) (status : Nat) : Chip :=
  let u := UnitId.mortar r
  let c := c.bump u MORTAR.STREAM_COUNT_stream_fails
  let c := if status = 6 then c.bump u MORTAR.STREAM_COUNT_stream_timeouts else c
  let c := c.raiseIf (decide (status = 5 ∧ x.kind = 1)) (.sort r) SORT.ev_capacity
  let c := c.error u MORTAR.ev_stream_fail 0x65 [x.w1, x.w2, BitVec.ofNat 64 (x.src + 2 ^ 32 * getBits x.w3 31 0)]
  (c.raiseIf (decide (status = 6)) u MORTAR.ev_stream_timeout).raiseIf (decide (status = 1)) u MORTAR.ev_slot_invalid

/-- R329: a stream fails: the end packet once, counts, capture; the context is FAILED from now on, or closed with `last`. -/
def Chip.ctxFail (c : Chip) (r : Region) (k status : Nat) (last : Bool) : Chip :=
  match c.ctx r k with
  | none => c
  | some x =>
    let c := (c.ctxEnd r k status).streamBlame r x status
    if last then c.ctxClose r k
    else
      let c := x.segs.foldl (fun c s => c.dropHeld r s.store) c
      let c := c.modMort r (fun m => { m with batches := m.batches.filter (fun b => !(b.2.ctx = k && b.2.closed.isNone)) })
      c.modCtx r k (fun x => { x with
        failed := true
        at_ := c.courseCount
        ended := false
        recs := []
        table := []
        out := []
        bytes := []
        segs := []
        tokens := [] })

/-- R322, R329: a context whose unit the job releases ends with RELEASED: a failure, but nothing is sent. -/
def Chip.ctxRelease (c : Chip) (r : Region) (k : Nat) : Chip :=
  match c.ctx r k with
  | none => c
  | some x => (if x.failed then c else c.streamBlame r x 7).ctxClose r k

/-! ### Element programs (R333 to R336) -/

/-- Registers and predicate of a run. -/
structure SeS where
  x : List Nat
  p : Bool
  deriving DecidableEq, Repr

/-- The signed value of 32 bits. -/
def s32 (n : Nat) : Int := (BitVec.ofNat 32 n).toInt

/-- FTOI (Table STR-4). -/
def ftoi (a : Nat) : Nat :=
  match Fp.fp32.val a with
  | .nan => 0
  | .inf neg => if neg then 2 ^ 31 else 2 ^ 31 - 1
  | .fin neg m e =>
    let k := if 0 ≤ e then m * 2 ^ e.toNat
      else
        let d := 2 ^ (-e).toNat
        let q := m / d
        let t := m % d
        if d < 2 * t ∨ (2 * t = d ∧ q % 2 = 1) then q + 1 else q
    if neg then (BitVec.ofInt 32 (-(Int.ofNat (min k (2 ^ 31))))).toNat else min k (2 ^ 31 - 1)

/-- One instruction but for GATHER and EMIT: operands a, b, c. -/
def SeS.step (s : SeS) (w : Word) (b : Nat) : SeS :=
  let a := s.x.getD (getBits w 52 50) 0
  let cc := s.x.getD (getBits w 46 44) 0
  let v := Fp.fp32.val
  let f := fun (y : Val) => Fp.fp32.round .even y
  let put := fun (n : Nat) => { s with x := s.x.set (getBits w 55 53) (n % 2 ^ 32) }
  match seOp w with
  | 0x01 => put (f (Val.add (v a) (v b)))
  | 0x02 => put (f (Val.add (v a) (Val.neg (v b))))
  | 0x03 => put (f (Val.mul (v a) (v b)))
  | 0x04 => put (f (Val.add (Val.mul (v a) (v b)) (v cc)))
  | 0x05 => put (Fp.fp32.vmax a b)
  | 0x06 => put (Fp.fp32.vmin a b)
  | 0x07 => put (Fp.fp32.abs a)
  | 0x08 => put (if 2 ^ 31 ≤ a then a - 2 ^ 31 else a + 2 ^ 31)
  | 0x09 => put b
  | 0x0A => put (if s.p then a else b)
  | 0x10 => { s with p := Val.lt (v a) (v b) }
  | 0x11 => { s with p := Val.le (v a) (v b) }
  | 0x12 => { s with p := Val.eqv (v a) (v b) }
  | 0x18 => put (f (.fin (decide (s32 a < 0)) (s32 a).natAbs 0))
  | 0x19 => put (ftoi a)
  | 0x20 => put (a + b)
  | 0x21 => put (a &&& b)
  | 0x22 => put (a ||| b)
  | 0x23 => put (a ^^^ b)
  | 0x24 => put (a <<< (b % 32))
  | 0x25 => put (a >>> (b % 32))
  | 0x26 => { s with p := decide (s32 a < s32 b) }
  | 0x27 => { s with p := decide (a = b) }
  | _ => s

/-- What a run of the program on one element gives. -/
inductive SeOut where
  | emit (v : Nat)
  | nothing
  | indexRange
  deriving DecidableEq, Repr

/-- R333: run a program; `cst` reads an operand b that `cidx` names. -/
def seRun (cst : Nat → Nat) (table : List Nat) : List Word → SeS → SeOut
  | [], _ => .nothing
  | w :: t, s =>
    let a := s.x.getD (getBits w 52 50) 0
    let b := if bitAt w 43 then cst (seCidx w) else s.x.getD (getBits w 49 47) 0
    match seOp w with
    | 0x38 => .emit a
    | 0x39 => if s.p then .emit a else .nothing
    | 0x30 => if table.length ≤ a then .indexRange
        else seRun cst table t { s with x := s.x.set (getBits w 55 53) (table.getD a 0) }
    | _ => seRun cst table t (s.step w b)

/-- An element as x0 holds it (R333). -/
def loadElem (fmt : Nat) (raw : Nat) : Nat :=
  match strFp fmt with
  | some .fp32 | none => raw
  | some f => Fp.fp32.round .even (f.val raw)

/-- `stream` of R335. -/
def strKey (x : CtxS) : Word := BitVec.ofNat 64 (2 ^ 62 + x.src * 2 ^ 40 + x.stream * 2 ^ 24 + x.slot * 2 ^ 16)

/-- R334 to R336: a register written in a format, and the amax after it. -/
def emitValue (fmt : Nat) (rnd : Rnd) (amax v : Nat) : Nat × Nat :=
  match strFp fmt with
  | none => (v, amax)
  | some .fp32 => (v, amax)
  | some f => (f.round rnd (Fp.fp32.val v), amaxOf amax .fp32 v)

/-- R333, R338: the elements of a packet; the context after them, and whether GATHER left the table. -/
def elemRun (h : SlotH) (prog : List Word) (cst : Nat → Nat) (seed : Word) : List Nat → CtxS → CtxS × Bool
  | [], x => (x, false)
  | raw :: t, x =>
    let e := x.units
    let done := { x with units := e + 1 }
    match seRun cst x.table prog ⟨[loadElem h.inFmt raw, 0, 0, 0, 0, 0, 0, 0], false⟩ with
    | .nothing => elemRun h prog cst seed t done
    | .indexRange => (x, true)
    | .emit v =>
      let rnd := if h.stoch then Rnd.stoch (stochBits seed (strKey x) (BitVec.ofNat 64 e)) else Rnd.even
      let (b, amax) := emitValue h.outFmt rnd x.amax v
      elemRun h prog cst seed t { done with
        amax := amax
        out := x.out ++ leBytes (strSize h.outFmt) b ++ (if h.idx then leBytes 4 e else []) }

/-! ### Sort and top-k (R339 to R342) -/

/-- `order_key` (R339). -/
def orderKey (fmt bits : Nat) : Nat :=
  let w := 8 * strSize fmt
  match strFp fmt with
  | none => if fmt = 3 then bits ^^^ 2 ^ 31 else bits
  | some f => match f.val bits with
    | .nan => 2 ^ w + bits
    | _ => if 2 ^ (w - 1) ≤ bits then 2 ^ w - 1 - bits else bits + 2 ^ (w - 1)

/-- The stable order of the sort unit: ascending, or descending. -/
def orderLe (h : SlotH) (a b : Nat × Nat) : Bool :=
  if h.descending then orderKey h.inFmt b.1 ≤ orderKey h.inFmt a.1 else orderKey h.inFmt a.1 ≤ orderKey h.inFmt b.1

/-- Output bytes of records. -/
def tokBytes (h : SlotH) (l : List (Nat × Nat)) : List Byte :=
  l.flatMap (fun e => leBytes (strSize h.outFmt) e.1 ++ (if h.idx then leBytes 4 e.2 else []))

/-- R342: elements join the open row; a whole row leaves. The count tells rows. -/
def topkRun (h : SlotH) : List Nat → CtxS → Nat → CtxS × Nat
  | [], x, n => (x, n)
  | raw :: t, x, n =>
    let row := x.recs ++ [(raw, x.recs.length)]
    let x := { x with units := x.units + 1 }
    if row.length = h.rowLen then
      topkRun h t { x with recs := [], out := x.out ++ tokBytes h ((sortBy (orderLe h) row).take h.k) } (n + 1)
    else topkRun h t { x with recs := row } n

/-! ### Dispatch and combine (R343 to R351) -/

/-- The expert table (Table STR-6). -/
def Chip.expertA (c : Chip) (r : Region) (x : Nat) : Word := c.reg (.sort r) (0x1000 + 16 * x)
def Chip.expertOk (c : Chip) (r : Region) (x : Nat) : Bool :=
  let w := c.expertA r x
  let n := getBits w 12 0
  x < 512 && bitAt w 63 && 1 ≤ n && n ≤ 4096

/-- R345: the choices of a route record, expert and gate in ascending expert; none where the record fails. -/
def Chip.routeOf (c : Chip) (r : Region) (h : SlotH) (rec : List Byte) : Option (List (Nat × Nat)) :=
  let n := leAt rec 4 1
  let ch := (List.range (min n 8)).map (fun i => (leAt rec (8 + 2 * i) 2, leAt rec (24 + 4 * i) 4))
  let xs := ch.map (·.1)
  if n = 0 || h.maxChoices < n || xs.any (fun x => !c.expertOk r x) || xs.eraseDups.length ≠ xs.length
      || leAt rec 5 3 ≠ 0 || leAt rec 56 8 ≠ 0 then none
  else some (sortBy (fun a b => a.1 ≤ b.1) ch)

/-- The open batch of an expert. -/
def MortS.openBatch (m : MortS) (x : Nat) : Option (Nat × BatchS) :=
  m.batches.find? (fun b => b.2.expert = x && b.2.closed.isNone)

/-- R346: can a choice of expert x take its place now? A batch holds tokens of one context (DEDUCED, log 56). -/
def MortS.halfFree (m : MortS) (k x : Nat) : Bool :=
  match m.openBatch x with
  | some (_, b) => b.ctx = k
  | none => !m.batches.any (fun b => b.2.expert = x && b.2.closed.isSome && b.2.number % 2 = Tab.get m.numbers x 0 % 2)

/-- Free batch handles. -/
def MortS.freeHandles (m : MortS) : Nat := 1024 - m.batches.length

/-- R346: may the token be dispatched now? -/
def Chip.tokenFits (c : Chip) (r : Region) (k : Nat) (x : CtxS) (ch : List (Nat × Nat)) : Bool :=
  let m := c.mort r
  let new := (ch.filter (fun e => (m.openBatch e.1).isNone)).length
  ch.all (fun e => m.halfFree k e.1) && new ≤ m.freeHandles
    && c.journalUsed r + ch.length * c.choiceCells r x.slot + 256 ≤ c.fld (.xbar r) XBAR.BUF_ALLOT_journal

/-- Close the batches that satisfy a test, together (R347). -/
def Chip.closeBatches (c : Chip) (r : Region) (p : BatchS → Bool) : Chip :=
  c.modMort r (fun m => { m with
    closings := m.closings + 1
    batches := m.batches.map (fun b => if b.2.closed.isNone && p b.2 then (b.1, { b.2 with closed := some m.closings }) else b) })

/-- The row of a choice is appended to its expert's open batch and written by fabric WRITEs (R345). The class of the WRITEs is
the stream's (DEDUCED, log 57). -/
def Chip.placeRow (c : Chip) (r : Region) (k : Nat) (x : CtxS) (row : List Byte) (expert gate : Nat) : Chip × ChoiceS :=
  let a := c.expertA r expert
  let epid := getBits a 62 51
  let m := c.mort r
  let (c, key) := match m.openBatch expert with
    | some (key, _) => (c, key)
    | none =>
      let hd := (firstFrom 1024 0 (fun i => m.batches.all (fun b => b.1 % 1024 ≠ i))).getD 0
      let key := 1024 * (Tab.get m.gens hd 0) + hd
      let b : BatchS := ⟨k, expert, Tab.get m.numbers expert 0, epid, 0, 0, none, none, none⟩
      (c.modMort r (fun m => { m with
        batches := Tab.put m.batches key b
        numbers := Tab.put m.numbers expert (b.number + 1) }), key)
  let b := (Tab.find (c.mort r).batches key).getD ⟨k, expert, 0, epid, 0, 0, none, none, none⟩
  let size := getBits a 12 0
  let off := getBits (c.reg (.sort r) (0x1008 + 16 * expert)) 51 0 + (b.number % 2 * size + b.count) * row.length
  let addr := epid * 2 ^ 52 + off
  let parts := splitParts (row.length / 4096 + 2) addr row.length 0
  let c := parts.foldl (fun c e =>
    let (c, id) := c.fabOwn r x.tc 1 false false (getBits a 39 16) (key % 65536) epid x.job (BitVec.ofNat 64 (addr + e.1)) e.2
      (slice row e.1 e.2)
    (c.modFab r (fun f => { f with owners := Tab.put f.owners id (.batch key) })).progress (.sort r)
      (bitAt (c.reg (.sort r) 0x80) 63)) c
  let c := c.modMort r (fun m => { m with
    batches := Tab.put m.batches key { b with count := b.count + 1, writes := b.writes + parts.length } })
  let c := if b.count + 1 = size then c.closeBatches r (fun y => y.expert = expert) else c
  (c, ⟨expert, gate, key, b.count, none, false, none⟩)

/-- Combine output record (Table STR-7). -/
def combineRec (token status cause expert : Nat) : List Byte :=
  leBytes 4 token ++ leBytes 1 status ++ leBytes 1 cause ++ leBytes 2 expert ++ List.replicate 56 0

/-- R350: element n of a token whose choices are all there: the value before it is rounded, or the accumulator. -/
def combineElem (h : SlotH) (ch : List ChoiceS) (rnd : Rnd) (amax n : Nat) : Nat × Nat :=
  let terms := ch.map (fun e => (e.gate, (e.data.getD []).getD n 0))
  let f := (strFp h.outFmt).getD .fp32
  if h.exact then
    let acc := terms.foldl (fun (a : LAcc) t => a.add true (Val.mul (Fp.fp32.val t.1) (Fp.fp32.val t.2))) {}
    let v := acc.val
    (acc.read f rnd, if f = .fp32 then amax else amaxOf amax .fp32 (Fp.fp32.round .even v))
  else
    let prods := terms.map (fun t => Fp.fp32.round .even (Val.mul (Fp.fp32.val t.1) (Fp.fp32.val t.2)))
    let acc := match prods with
      | [] => 0
      | a :: l => l.foldl addFp32 a
    if f = .fp32 then (acc, amax) else (f.round rnd (Fp.fp32.val acc), amaxOf amax .fp32 acc)

/-- The results of an OK token, and the amax after them. -/
def combineRow (h : SlotH) (seed key : Word) (t : TokenS) (amax : Nat) : List Byte × Nat :=
  (List.range h.outElems).foldl (fun (acc : List Byte × Nat) n =>
    let rnd := if h.stoch then Rnd.stoch (stochBits seed key (BitVec.ofNat 64 (t.token * 2 ^ 13 + n))) else Rnd.even
    let (b, amax) := combineElem h t.choices rnd acc.2 n
    (acc.1 ++ leBytes (strSize h.outFmt) b, amax)) ([], amax)

/-- Is the token complete (R350)? -/
def TokenS.complete (t : TokenS) : Bool := t.route || t.choices.all (fun e => e.outcome.isSome)

/-- R351: status, cause and expert of a complete token. -/
def TokenS.verdict (t : TokenS) : Nat × Nat × Nat :=
  if t.route then (1, 0, 0)
  else match t.choices.find? (fun e => e.outcome ≠ some (0, 0)) with
    | some e => let (s, k) := e.outcome.getD (0, 0); (s, k, e.expert)
    | none => (0, 0, 0)

/-- R351: the record of a complete token leaves. -/
def Chip.sendToken (c : Chip) (r : Region) (k : Nat) (t : TokenS) : Chip :=
  match c.ctx r k with
  | none => c
  | some x =>
    let h := c.slotH r x.slot
    let u := UnitId.sort r
    let (st, cause, expert) := t.verdict
    let (row, amax) := if st = 0 then combineRow h (c.reg u 0x130) (strKey x) t x.amax else ([], x.amax)
    let bytes := combineRec t.token st cause expert ++ row ++ List.replicate (roundUp row.length 64 - row.length) 0
    let c := c.wrap u SORT.DISPATCH_COUNT_tokens_combined
    let c := if st = 0 then c
      else (c.bump u SORT.DISPATCH_COUNT_token_faults).error u SORT.ev_token_fault 0x66
        [setBits (setBits (setBits 0 31 0 t.token) 39 32 st) 56 48 expert]
    let c := c.modCtx r k (fun x => { x with
      amax := amax
      out := x.out ++ bytes
      tokens := x.tokens.filter (fun y => y.n ≠ t.n) })
    c.ctxOut r k false

/-- Complete tokens leave in dispatch order; after the last of an ended stream, the end packet. -/
def Chip.settleTokens (c : Chip) (r : Region) (k : Nat) : Chip :=
  match c.ctx r k with
  | none => c
  | some x =>
    let c := (x.tokens.filter (·.complete)).foldl (fun c t => c.sendToken r k t) c
    match c.ctx r k with
    | some y => if y.ended && y.tokens.isEmpty then c.ctxDone r k else c
    | none => c

/-- R343 to R347: dispatch what the waiting bytes of a context allow; `flush` and `last` act where their packets end. -/
def Chip.dispatchRun (c : Chip) (r : Region) (k : Nat) : Nat → Chip
  | 0 => c
  | fuel + 1 =>
    match c.ctx r k with
    | none => c
    | some x =>
      let h := c.slotH r x.slot
      let n := 64 + 64 * h.rowUnits
      let tokenStep := fun (_ : Unit) =>
        if x.bytes.length < n then c
        else
          let rec_ := x.bytes.take n
          let eat := fun (c : Chip) => c.modCtx r k (fun y => { y with
            bytes := y.bytes.drop n
            segs := y.segs.map (fun s => { s with upto := s.upto - n })
            nextTok := y.nextTok + 1 })
          match c.routeOf r h rec_ with
          | none =>
            let t : TokenS := ⟨x.nextTok, leAt rec_ 0 4, [], true⟩
            ((eat c).modCtx r k (fun y => { y with tokens := y.tokens ++ [t] })).sendToken r k t |>.dispatchRun r k fuel
          | some ch =>
            if !c.tokenFits r k x ch then c
            else
              let (c, done) := ch.foldl (fun (acc : Chip × List ChoiceS) e =>
                let (c, d) := acc.1.placeRow r k x (rec_.drop 64) e.1 e.2
                (c, acc.2 ++ [d])) (c, [])
              let t : TokenS := ⟨x.nextTok, leAt rec_ 0 4, done, false⟩
              ((eat c).modCtx r k (fun y => { y with tokens := y.tokens ++ [t] })).dispatchRun r k fuel
      match x.segs with
      | s :: rest =>
        if s.upto < n && s.last then
          let c := c.closeBatches r (fun b => b.ctx = k)
          let c := x.segs.foldl (fun c s => c.dropHeld r s.store) c
          c.modCtx r k (fun y => { y with segs := [], bytes := [], ended := true })
        else if s.upto < n && s.flush then
          let c := (c.closeBatches r (fun b => b.ctx = k)).ctxOut r k true
          (c.modCtx r k (fun y => { y with segs := { s with flush := false } :: rest })).dispatchRun r k fuel
        else if s.upto = 0 then
          ((c.dropHeld r s.store).modCtx r k (fun y => { y with segs := rest })).dispatchRun r k fuel
        else tokenStep ()
      | [] => tokenStep ()

/-- Dispatch with enough steps. -/
def Chip.dispatchAll (c : Chip) (r : Region) (k : Nat) : Chip :=
  match c.ctx r k with
  | some x => (c.dispatchRun r k (x.bytes.length / 64 + 2 * x.segs.length + 2)).settleTokens r k
  | none => c

/-- The answer to a WRITE of a batch (R347). -/
def Chip.batchWritten (c : Chip) (r : Region) (key status : Nat) : Chip :=
  c.modMort r (fun m => match Tab.find m.batches key with
    | some b => { m with batches := Tab.put m.batches key { b with
        writes := b.writes - 1
        bad := if status = 0 ∨ b.bad.isSome then b.bad else some status } }
    | none => m)

/-- A batch ends: `judge` gives the outcome of each of its choices; complete tokens leave (R349, R350). -/
def Chip.endBatch (c : Chip) (r : Region) (key : Nat) (judge : ChoiceS → Nat × Nat) : Chip :=
  match Tab.find (c.mort r).batches key with
  | none => c
  | some b =>
    let c := c.modMort r (fun m => { m with
      batches := Tab.del m.batches key
      gens := Tab.put m.gens (key % 1024) ((key / 1024 + 1) % 64) })
    let c := c.modCtx r b.ctx (fun x => { x with tokens := x.tokens.map (fun t =>
      { t with choices := t.choices.map (fun e => if e.batch = key then { e with outcome := some (judge e) } else e) }) })
    (c.settleTokens r b.ctx).streamShow r

/-- The INVOKE of a batch (R347). -/
def Chip.batchInvoke (c : Chip) (r : Region) (key : Nat) (b : BatchS) : Chip :=
  match c.ctx r b.ctx with
  | none => c.endBatch r key (fun _ => (0, 0))
  | some x =>
    let h := c.slotH r x.slot
    let a := c.expertA r b.expert
    let base := getBits (c.reg (.sort r) (0x1008 + 16 * b.expert)) 51 0 + b.number % 2 * getBits a 12 0 * (64 * h.rowUnits)
    let payload := leBytes 4 b.count ++ leBytes 4 (64 * h.rowUnits) ++ leBytes 4 b.number ++ leBytes 4 h.outElems
    let pkt := mkPacket 4 x.tc false b.epid (c.epid r) x.job
      (setBits (setBits (setBits (setBits 0 47 42 (getBits a 50 45)) 41 37 (getBits a 44 40)) 35 33 h.replyTc) 15 0 (key % 65536))
      (BitVec.ofNat 64 (b.epid * 2 ^ 52 + base)) (setBits (0 : Word) 31 20 (c.epid r)).toNat payload
    let c := (c.send r pkt).bump (.sort r) SORT.DISPATCH_COUNT_batches_invoked
    let c := c.modMort r (fun m => { m with batches := Tab.put m.batches key { b with invokedAt := some c.courseCount } })
    c.progress (.sort r) (bitAt (c.reg (.sort r) 0x80) 63)

/-- R348, R349: a RESULT at the sort unit. -/
def Chip.expertResult (c : Chip) (r : Region) (p : Packet) : Chip :=
  let key := p.memTag
  let unclaimed := (c.bump (.sort r) SORT.UNCLAIMED_unclaimed).error (.sort r) SORT.ev_unclaimed 0x67 [p.w1, p.w2]
  match Tab.find (c.mort r).batches key with
  | none => unclaimed
  | some b =>
    if b.invokedAt.isNone || p.src ≠ b.epid then unclaimed
    else if p.isLast then
      c.endBatch r key (fun e =>
        if p.resStatus ≠ 0 then (2, p.resStatus) else if e.badForm || e.data.isNone then (3, 0) else (0, 0))
    else
      match c.ctx r b.ctx with
      | none => c
      | some x =>
        let h := c.slotH r x.slot
        let sz := strSize h.resFmt
        let ix := getBits p.w3 19 0
        let mine := fun (e : ChoiceS) => e.batch = key && e.pos = ix
        if x.tokens.any (fun t => t.choices.any (fun e => mine e && (e.data.isSome || e.badForm))) then unclaimed
        else
          let good := p.len = h.outElems * sz
          let data := (List.range h.outElems).map (fun i => loadElem h.resFmt (leAt p.payload (sz * i) sz))
          c.modCtx r b.ctx (fun x => { x with tokens := x.tokens.map (fun t =>
            { t with choices := t.choices.map (fun e =>
                if !mine e then e else if good then { e with data := some data } else { e with badForm := true }) }) })

/-! ### A STREAM packet (R329) -/

/-- Does the sort unit, too, belong to the packet's job? -/
def Chip.streamUnits (c : Chip) (r : Region) (kind job : Nat) : Bool :=
  c.holder (.mortar r) = job && c.held (.mortar r) && (kind = 0 || (c.holder (.sort r) = job && c.held (.sort r)))

/-- The elements of a payload. -/
def rawElems (fmt : Nat) (payload : List Byte) : List Nat :=
  (List.range (payload.length / strSize fmt)).map (fun i => leAt payload (strSize fmt * i) (strSize fmt))

/-- A packet that passed the checks does its work; true when the buffer entry stays with the context. -/
def Chip.streamWork (c : Chip) (r : Region) (k : Nat) (x : CtxS) (h : SlotH) (pkt : Packet) (store : Option Nat) : Chip × Bool :=
  let elems := rawElems h.inFmt pkt.payload
  let x := if pkt.isTable then x else { x with data := true }
  let c := c.modCtx r k (fun _ => x)
  let finish := fun (c : Chip) =>
    if pkt.streamLast then c.ctxDone r k else if pkt.isFlush then c.ctxOut r k true else c.ctxOut r k false
  if pkt.isTable then
    let c := c.modCtx r k (fun x => { x with table := x.table ++ elems.map (loadElem h.inFmt) })
    (finish c, false)
  else match h.kind with
  | 0 =>
    let cst := fun (i : Nat) => if i < 48 then c.slotConst r x.slot i
      else if i = 48 then getBits pkt.w2 31 0 else getBits pkt.w2 63 32
    let (y, out) := elemRun h (c.slotProg r x.slot h.nInstr) cst (c.reg (.mortar r) 0x158) elems x
    let c := c.modCtx r k (fun _ => y)
    if out then (c.ctxFail r k 4 pkt.streamLast, false) else (finish c, false)
  | 1 =>
    let c := c.modCtx r k (fun x => { x with
      recs := x.recs ++ elems.zipIdx.map (fun e => (e.1, x.units + e.2))
      units := x.units + elems.length
      ended := pkt.streamLast })
    (c, false)
  | 2 =>
    let (y, rows) := topkRun h elems x 0
    let (y, rows) := if pkt.streamLast && !y.recs.isEmpty then
        ({ y with recs := [], out := y.out ++ tokBytes h ((sortBy (orderLe h) y.recs).take h.k) }, rows + 1) else (y, rows)
    let c := (c.modCtx r k (fun _ => y)).wrap (.sort r) SORT.SORT_COUNT_rows_topk rows
    (finish c, false)
  | _ =>
    let c := c.modCtx r k (fun x => { x with
      bytes := x.bytes ++ pkt.payload
      units := x.units + pkt.len / 64
      segs := x.segs ++ [⟨store, x.bytes.length + pkt.len, pkt.isFlush, pkt.streamLast⟩] })
    (c.dispatchAll r k, true)

/-- The first check of Table STR-2 that fails, in its order; 0 when none does. `x` is the context before the packet. -/
def Chip.streamCheck (c : Chip) (r : Region) (x : Option CtxS) (h : SlotH) (pkt : Packet) : Nat :=
  let unit := if h.kind = 3 then 64 else strSize h.inFmt
  let n := pkt.len / unit
  let sorted := (c.mort r).ctxs.foldl (fun n e => if e.2.kind = 1 then n + e.2.recs.length else n) 0
  let got := match x with | some y => if pkt.isTable then y.table.length else y.units | none => 0
  if (match x with | some y => decide (y.slot ≠ pkt.slot) | none => !c.slotOk r pkt.slot) || h.job ≠ pkt.job
      || !c.streamUnits r h.kind pkt.job then 1
  else if pkt.firstElem ≠ got || (pkt.isTable && (match x with | some y => y.data | none => false)) then 2
  else if getBits pkt.w1 35 32 ≠ 0 || getBits pkt.w1 11 0 ≠ 0 || pkt.len % unit ≠ 0
      || (pkt.isTable && !c.slotGathers r pkt.slot) then 3
  else if pkt.isTable && 16384 < got + n then 5
  else if h.kind = 1 && !pkt.isTable && 524288 < sorted + n then 5
  else 0

/-- R329: a STREAM packet; none when it waits at its input (R327, R338). The flag tells that its buffer entry stays held. A stream
that fails while no context is free keeps none (DESIGN CHOICE, log 271). -/
def Chip.streamIn (c : Chip) (r : Region) (pkt : Packet) (store : Option Nat) : Option (Chip × Bool) :=
  let k := pkt.ctxKey
  let m := c.mort r
  let h := c.slotH r pkt.slot
  match c.ctx r k with
  | some x =>
    let c := c.modCtx r k (fun x => { x with at_ := c.courseCount })
    if x.failed then
      let c := c.bump (.mortar r) MORTAR.STREAM_DISCARD_stream_discards
      some (if pkt.streamLast then c.ctxClose r k else c, false)
    else
      let st := c.streamCheck r (some x) h pkt
      let y := { x with w1 := pkt.w1, w2 := pkt.w2, w3 := pkt.w3, at_ := c.courseCount }
      if st = 0 && pkt.isTable && 2097152 < m.ctxs.foldl (fun n e => n + 4 * e.2.table.length) 0 + 4 * (pkt.len / strSize h.inFmt) then
        none
      else
        let c := c.modCtx r k (fun _ => y)
        some (if st = 0 then c.streamWork r k y h pkt store else (c.ctxFail r k st pkt.streamLast, false))
  | none =>
    let st := c.streamCheck r none h pkt
    let count := fun (kind : Nat) => (m.ctxs.filter (fun e => e.2.kind = kind)).length
    let full : Bool := decide (256 ≤ m.ctxs.length)
    if (full && pkt.firstElem = 0) || (st = 0 && ((h.kind = 1 && 4 ≤ count 1) || (h.kind = 3 && 16 ≤ count 3)))
        || (st = 0 && pkt.isTable && 2097152 < m.ctxs.foldl (fun n e => n + 4 * e.2.table.length) 0 + 4 * (pkt.len / strSize h.inFmt))
    then none
    else
      let y : CtxS := { src := pkt.src, stream := pkt.streamNo, slot := pkt.slot, kind := if st = 1 then 0 else h.kind,
                        dst := pkt.dst, tc := pkt.tc, job := pkt.job, w1 := pkt.w1, w2 := pkt.w2, w3 := pkt.w3,
                        at_ := c.courseCount }
      let c := c.modMort r (fun m => { m with ctxs := Tab.put m.ctxs k y })
      some (if st = 0 then c.streamWork r k y h pkt store else (c.ctxFail r k st (pkt.streamLast || full), false))

/-- The first STREAM of a list that need not wait, and the chip that has taken it; a context's packets keep their order. -/
def Chip.nextStream (c : Chip) (r : Region) (skip : List Nat) :
    List (Packet × Option Nat) → Option ((Packet × Option Nat) × Chip × Bool)
  | [] => none
  | e :: t =>
    if e.1.kind ≠ 6 || skip.contains e.1.ctxKey then c.nextStream r skip t
    else match c.streamIn r e.1 e.2 with
      | none => c.nextStream r (e.1.ctxKey :: skip) t
      | some (c', keeps) => some (e, c', keeps)

/-! ### Whose turn it is (R337) -/

/-- The queued packets of TC0, or the others. -/
def MortS.ofClass (m : MortS) (tc0 : Bool) : List (Packet × Option Nat) := m.queue.filter (fun e => decide (e.1.tc = 0) == tc0)

/-- Is there a collective fragment, or a STREAM packet, among these that need not wait? -/
def Chip.fragmentGoes (c : Chip) (r : Region) (l : List (Packet × Option Nat)) : Bool :=
  l.any (fun e => e.1.kind = 1 && (c.pieceIn r e.1).2 = .gone)
def Chip.streamGoes (c : Chip) (r : Region) (l : List (Packet × Option Nat)) : Bool := (c.nextStream r [] l).isSome

/-- R337: the queued packets from which one of a kind may be taken now: of TC0 as long as one of those can go; none where the
other kind is next. -/
def Chip.mortTurn (c : Chip) (r : Region) (stream : Bool) : Option (List (Packet × Option Nat)) :=
  let m := c.mort r
  let first := m.ofClass true
  let l := if c.fragmentGoes r first || c.streamGoes r first then first else m.ofClass false
  let other := if stream then c.fragmentGoes r l else c.streamGoes r l
  if other && m.streamTurn != stream then none else some (if l.isEmpty then m.queue else l)

/-! ### Jobs -/

/-- R369: a job takes the sort unit. -/
def Chip.sortTake (c : Chip) (r : Region) (job : Nat) (exact : Bool) (seed : Word) : Chip :=
  let c := c.setReg (.sort r) 0x128 (setBits (setBits 0 63 48 job) 0 0 (bit exact))
  (c.setReg (.sort r) 0x130 seed).modMort r (fun m => { m with numbers := [] })

/-- R322, R329: the job releases the MORTAR unit: open instances and contexts end RELEASED and nothing is sent. -/
def Chip.mortRelease (c : Chip) (r : Region) : Chip :=
  let m := c.mort r
  let c := m.queue.foldl (fun c e => c.dropHeld r e.2) c
  let c := m.waiting.foldl (fun c e => c.dropHeld r e.2.1) c
  let c := m.ctxs.foldl (fun c e => c.ctxRelease r e.1) c
  let c := (c.releaseInsts r).modMort r (fun m => { m with queue := [], waiting := [], ctxs := [], batches := [] })
  c.streamShow r

/-- R329: the job releases the sort unit: the contexts that depend on it end RELEASED. -/
def Chip.sortRelease (c : Chip) (r : Region) : Chip :=
  let c := ((c.mort r).ctxs.filter (fun e => e.2.kind ≠ 0)).foldl (fun c e => c.ctxRelease r e.1) c
  let c := c.modMort r (fun m => { m with batches := [], numbers := [] })
  c.streamShow r

/-! ### The commands -/

/-- Take a PIECE of a phase, where it is a fragment's turn. -/
def Chip.pieceStep (c : Chip) (r : Region) (want : Packet → Bool) : Chip :=
  match c.mortTurn r false with
  | some l => c.takePiece r want l
  | none => c

/-- CONTRIB, with the packets that no phase may bring here (phases 4 and 7, multicast copies). -/
def execContrib (r : Region) (s : State) : Host.Outcome State Fault Refusal :=
  s.onLive r (fun c => c.pieceStep r (fun p => p.phase = 0 || p.phase = 4 || p.phase = 7 || p.mcast))

/-- REGION_PARTIAL. -/
def execRegionPartial (r : Region) (s : State) : Host.Outcome State Fault Refusal :=
  s.onLive r (fun c => c.pieceStep r (fun p => p.phase = 1 && !p.mcast))

/-- LAP1. -/
def execLap1 (r : Region) (s : State) : Host.Outcome State Fault Refusal :=
  s.onLive r (fun c => c.pieceStep r (fun p => p.phase = 2 && !p.mcast))

/-- LAP2. -/
def execLap2 (r : Region) (s : State) : Host.Outcome State Fault Refusal :=
  s.onLive r (fun c => c.pieceStep r (fun p => p.phase = 3 && !p.mcast))

/-- ABORT. -/
def execAbort (r : Region) (s : State) : Host.Outcome State Fault Refusal :=
  s.onLive r (fun c => c.pieceStep r (fun p => p.phase = 5 && !p.mcast))

/-- CENSUS. -/
def execCensus (r : Region) (s : State) : Host.Outcome State Fault Refusal :=
  s.onLive r (fun c => c.pieceStep r (fun p => p.phase = 6 && !p.mcast))

/-- STREAM: the next STREAM packet, where it is its turn (R337). -/
def execStream (r : Region) (s : State) : Host.Outcome State Fault Refusal :=
  s.onLive r (fun c => match (c.mortTurn r true).bind (c.nextStream r []) with
    | some (e, c, keeps) =>
      let c := c.modMort r (fun m => { m with queue := m.queue.erase e, streamTurn := false })
      (if keeps then c else c.dropHeld r e.2).streamShow r
    | none => c)

/-- SORT_OUTPUT: the sort of context `ctx` (65,536 * source + stream). -/
def execSortOutput (r : Region) (ctx : Nat) (s : State) : Host.Outcome State Fault Refusal :=
  s.onLive r (fun c => match c.ctx r ctx with
    | some x =>
      if x.kind ≠ 1 || !x.ended || x.failed then c
      else
        let h := c.slotH r x.slot
        let c := c.modCtx r ctx (fun x => { x with recs := [], out := x.out ++ tokBytes h (sortBy (orderLe h) x.recs) })
        ((c.wrap (.sort r) SORT.SORT_COUNT_records_sorted x.recs.length).ctxDone r ctx).streamShow r
    | none => c)

/-- `stream_timeout` and `batch_timeout` with their limits. -/
def Chip.streamTimeout (c : Chip) (r : Region) : Nat := max 16 (c.fld (.mortar r) MORTAR.STREAM_CTL_stream_timeout)
def Chip.batchTimeout (c : Chip) (r : Region) : Nat := max 4 (c.fld (.sort r) SORT.SORT_CTL_batch_timeout)

/-- STREAM_TIMEOUT. A stream whose `last` has arrived waits for no packet. -/
def execStreamTimeout (r : Region) (src : BitVec 12) (strm : BitVec 16) (s : State) : Host.Outcome State Fault Refusal :=
  s.onLive r (fun c =>
    let k := src.toNat * 65536 + strm.toNat
    match c.ctx r k with
    | some x =>
      if c.since x.at_ < c.streamTimeout r || x.ended || x.segs.any (·.last) then c
      else if x.failed then (c.ctxClose r k).streamShow r
      else (c.ctxFail r k 6 false).streamShow r
    | none => c)

/-- TOKEN_DISPATCH: the waiting tokens of the first dispatch context that can go. -/
def execTokenDispatch (r : Region) (s : State) : Host.Outcome State Fault Refusal :=
  s.onLive r (fun c =>
    let can := fun (e : Nat × CtxS) =>
      let h := c.slotH r e.2.slot
      e.2.kind = 3 && 64 + 64 * h.rowUnits ≤ e.2.bytes.length && (match c.routeOf r h e.2.bytes with
        | some ch => c.tokenFits r e.1 e.2 ch
        | none => true)
    match (c.mort r).ctxs.find? can with
    | some e => (c.dispatchAll r e.1).streamShow r
    | none => c)

/-- BATCH_INVOKE: of the closed batches whose WRITEs are all answered, the first in closing order; batches that closed
together go in ascending expert index (R347). -/
def execBatchInvoke (r : Region) (s : State) : Host.Outcome State Fault Refusal :=
  s.onLive r (fun c =>
    let l := (c.mort r).batches.filter (fun b => b.2.closed.isSome && b.2.invokedAt.isNone)
    let l := sortBy (fun a b => a.2.closed.getD 0 < b.2.closed.getD 0
      || (a.2.closed = b.2.closed && a.2.expert ≤ b.2.expert)) l
    let ready := fun (e : Nat × BatchS) => e.2.writes = 0
      && !l.any (fun f => f.2.closed = e.2.closed && f.2.expert < e.2.expert)
    match l.find? ready with
    | none => c
    | some (key, b) =>
      match b.bad with
      | some st => c.endBatch r key (fun _ => (4, st))
      | none => (c.batchInvoke r key b).streamShow r)

/-- EXPERT_RESULT: the first RESULT handed to the sort unit. -/
def execExpertResult (r : Region) (s : State) : Host.Outcome State Fault Refusal :=
  s.onLive r (fun c => match c.fromInbox r 5 (fun _ => true) with
    | some (p, c) => (c.expertResult r p).streamShow r
    | none => c)

/-- BATCH_TIMEOUT. -/
def execBatchTimeout (r : Region) (handle : Fin 1024) (s : State) : Host.Outcome State Fault Refusal :=
  s.onLive r (fun c => match (c.mort r).batches.find? (fun b => b.1 % 1024 = handle.val) with
    | some (key, b) =>
      match b.invokedAt with
      | some n => if c.since n < c.batchTimeout r then c else c.endBatch r key (fun _ => (5, 0))
      | none => c
    | none => c)

end Sys2Proof.Machine
end

