-- ==== Sys2Proof/Machine/Repoint.lean ====
section
/-! DEFINITION. The repointing engine's commits and wear windows (R410 to R414), the progress watch (R415), and the
partition sequence up to its reset (R405, R406, R416 to R418). The steps that perform register script entries stand in
Boot.lean. -/
namespace Sys2Proof.Machine

/-! ### Die-to-die links -/

/-- Is the die-to-die link between two regions up (D2D_STS)? -/
def Chip.d2dUp (c : Chip) (i j : Region) : Bool := i ≠ j && c.flag (.d2d i j) D2D.D2D_STS_up && c.flag (.d2d j i) D2D.D2D_STS_up

/-- Both ends' D2D_STS: `up` unless an end is in reset or a direction is beyond its spares, `fallback` in the second case (R113),
and `spares_free` of the outgoing direction. -/
def Chip.showD2d (c : Chip) : Chip :=
  (List.finRange 4).foldl (fun c i => (List.finRange 4).foldl (fun c j =>
    if i = j then c
    else
      let lost := c.repoint.wiresLost.contains (4 * i.val + j.val) || c.repoint.wiresLost.contains (4 * j.val + i.val)
      let c := c.setFld (.d2d i j) D2D.D2D_STS_up (bit (c.boot.coresUp && !lost && !c.inReset i && !c.inReset j))
      let c := c.setFld (.d2d i j) D2D.D2D_STS_fallback (bit lost)
      c.setFld (.d2d i j) D2D.D2D_STS_spares_free (16 - (Tab.get c.repoint.wires (4 * i.val + j.val) []).length)) c) c

/-- R410, R113: a direction with no spare wire left takes its link down. -/
def Chip.d2dLost (c : Chip) (src dst : Region) : Chip :=
  let k := 4 * src.val + dst.val
  if c.repoint.wiresLost.contains k then c
  else
    let c := (c.modRepoint (fun s => { s with wiresLost := k :: s.wiresLost })).showD2d
    let c := c.modXbar src (fun x => { x with wireDown := Tab.del x.wireDown dst.val })
    let c := c.capture (.d2d dst src) D2D.ev_wire_fault 0x1A
    (c.raise (.d2d src dst) D2D.ev_fallback).raise (.d2d dst src) D2D.ev_fallback

/-- R410: a wire fault: the direction holds its cells until a spare wire commits. -/
def Chip.wireFault (c : Chip) (src dst : Region) (wire code : Nat) : Chip :=
  if src = dst then c
  else
    let u := UnitId.d2d dst src
    let c := (c.bump u D2D.D2D_COUNT_wire_faults).error u D2D.ev_wire_fault code [BitVec.ofNat 64 wire]
    let e := Element.wire src dst wire
    if !c.spareFree e then (c.repointAsk e true).d2dLost src dst
    else
      let c := c.modXbar src (fun x =>
        let l := Tab.get x.wireDown dst.val []
        { x with wireDown := Tab.put x.wireDown dst.val (if l.contains wire then l else l ++ [wire]) })
      c.repointAsk e true

/-! ### Lanes -/

/-- Does a lane carry a logical lane in a direction? -/
def Chip.laneCarries (c : Chip) (p : Port) (l : Lane) (rx : Bool) : Bool :=
  let sp := c.fld (.port p) (if rx then PORT.PORT_STS_rx_spare_for else PORT.PORT_STS_tx_spare_for)
  if l.val = 8 then sp ≠ 15 else sp ≠ l.val

/-- R93, R94, R97: a lane is lost in a direction. Its traffic stops until lane 8 has its place, which is asked for; with the
spare in use the port goes to QUIET. -/
def Chip.laneFailed (c : Chip) (p : Port) (l : Lane) (rx : Bool) (code : Nat) : Chip :=
  if !c.linked p then c
  else
    let c := c.portError p evOverride code l.val
    let e := Element.lane p l rx
    if !c.laneCarries p l rx then c
    else if c.spareFree e then
      (c.modPort p (fun s => { s with deadLane := (l.val, rx) :: s.deadLane.filter (· ≠ (l.val, rx)) })).repointAsk e true
    else ((c.repointAsk e true).portError p PORT.ev_spare_exhausted 0x15 l.val).toQuiet p

/-! ### Placing a spare -/

/-- The logical cell that a physical cell serves. -/
def Chip.logicalCell (c : Chip) (r : Region) (b : BlockIx) (p : Nat) : Option Nat :=
  (List.range 8).find? (fun l => c.physCell r b l = p)

/-- CELL_MAP: logical cell l moves to physical cell sp; the one it leaves is out of use. -/
def Chip.moveCell (c : Chip) (r : Region) (b : BlockIx) (l sp : Nat) : Chip :=
  let u := UnitId.cblk r b
  let p := c.physCell r b l
  let w := setBits (c.reg u 0x110) (4 * l + 3) (4 * l) sp
  c.setReg u 0x110 (setBits w (36 + p) (36 + p) 1)

/-- A recorded repair (Table FLT-12a) as a unit comes up; rows and pseudo-channels are the memory block's (R193). -/
def Chip.applyRepair (c : Chip) (w : Word) : Chip :=
  let r := regionOf (getBits w 59 58)
  let n := getBits w 57 52
  let el := getBits w 47 0
  match getBits w 63 60 with
  | 0 => c.setFld (.port (portOf (16 * r.val + n % 16))) (if bitAt w 48 then PORT.PORT_STS_rx_spare_for
      else PORT.PORT_STS_tx_spare_for) el
  | 1 =>
    let b : BlockIx := ⟨n % 16, Nat.mod_lt _ (by decide)⟩
    match c.logicalCell r b el, c.spareCell r b with
    | some l, some sp => c.moveCell r b l sp
    | _, _ => c.setReg (.cblk r b) 0x110 (setBits (c.reg (.cblk r b) 0x110) (36 + el % 9) (36 + el % 9) 1)
  | 2 => c.setFld (.bufbank r ⟨n % 4, Nat.mod_lt _ (by decide)⟩) BUFBANK.BANK_STS_spare_for el
  | _ => c

/-- What follows for an element that failed for good with no spare left: R94, R203, R413, R190, R192, R410. -/
def Chip.spentElem (c : Chip) : Element → Chip
  | .lane p l _ => if c.linked p then (c.portError p PORT.ev_spare_exhausted 0x15 l.val).toQuiet p else c
  | .cell r b l => c.blockSpent r b l.val
  | .subbank r i s => c.modXbar r (fun x => { x with subLost := Tab.put x.subLost i.val (Tab.get x.subLost i.val 0 ||| 2 ^ s.val) })
  | .row s _ _ _ _ => c.raise (.memblk s) MEMBLK.ev_spares_low
  | .pc s p =>
    let c := c.modMem s (fun m => { m with failed := m.failed.filter (· ≠ p.val) })
    if (c.memS s).noSpare.contains p.val then c
    else (c.modMem s (fun m => { m with noSpare := m.noSpare ++ [p.val] })).error (.memblk s) MEMBLK.ev_spares_exhausted 0x3A
      [BitVec.ofNat 64 p.val]
  | .wire src dst _ => c.d2dLost src dst

/-- A hard request, with what follows when no spare is left; a pseudo-channel has stopped answering (R191). -/
def Chip.hardAsk (c : Chip) (e : Element) : Chip :=
  if c.spareFree e then
    let c := match e with
      | .pc s p => if (c.memS s).failed.contains p.val then c
          else c.modMem s (fun m => { m with failed := m.failed ++ [p.val] })
      | _ => c
    c.repointAsk e true
  else (c.repointAsk e true).spentElem e

/-! ### Commits -/

/-- Cells of a region's buffer in one sub-bank. -/
def XbarS.subUsed (x : XbarS) (bank sub : Nat) : Nat := x.placed (· = 16 * bank + sub)

/-- s-cycles of 1 µs, rounded up: 1 µs is 1,562.5. -/
abbrev microsecond : Nat := 1563

/-- May a request commit at this boundary: the delay or the preparation its owning chapter asks for (R93, R190, R191, R202,
R410, R413)? -/
def Chip.mayCommit (c : Chip) (q : RepointReq) : Bool :=
  let aged := microsecond ≤ c.now - q.at_
  match q.elem with
  | .lane _ _ _ | .wire _ _ _ => aged
  | .row _ _ _ _ _ => true
  | .subbank r i s => (c.xbar r).subUsed i.val s.val = 0
  | .pc _ _ => if q.hard then aged else q.copied
  | .cell r b l => if q.hard then aged && !cellBusy (c.cellState r b l.val) else q.copied

/-- REPAIR_LOG's word for an element (Table FLT-12a), read before the commit. -/
def Chip.logWord (c : Chip) (q : RepointReq) : Word :=
  let mk := fun (kind unit rx el : Nat) =>
    setBits (setBits (setBits (setBits (setBits (setBits 0 63 60 kind) 59 58 (elemRegion q.elem).val) 57 52 unit) 51 51
      (bit q.hard)) 48 48 rx) 47 0 el
  match q.elem with
  | .lane p l rx => mk 0 (p.val % 16) (bit rx) l.val
  | .cell r b l => mk 1 b.val 0 (c.physCell r b l.val)
  | .subbank _ i s => mk 2 i.val 0 s.val
  | .row s pc rank bank row =>
    mk 3 (s.val % 2) 0 (((row.toNat * 32 + bank.val) * 4 + rank.val) * 128 + pc.val)
  | .pc s pc => mk 4 (s.val % 2) 0 pc.val
  | .wire src _ w => mk 5 src.val 1 w

/-- The spare takes the element's place. -/
def Chip.placeSpare (c : Chip) (q : RepointReq) : Chip :=
  match q.elem with
  | .lane p l rx =>
    -- a port in electrical idle wakes first (R94); one without a link has no lane to move and no far end to tell
    let c := c.inState p 8 (fun c => c.setFld (.port p) PORT.PORT_STS_state 9)
    if !c.linked p then c else if rx then c.sendControl p 0x10 l.val else c.moveLane p l.val false
  | .cell r b l =>
    match c.spareCell r b with
    | none => c
    | some sp =>
      let u := UnitId.cblk r b
      let c := if q.hard then
          let c := { c with mem := memMove c.mem (Space.shadow r.val b.val l.val).base (Space.imem r.val b.val sp).base (2 ^ 40) }
          let c := (c.clearSpace (.tdm r.val b.val sp)).clearSpace (.spad r.val b.val sp)
          c.setFld u CBLK.BLK_STS_state_lost (c.fld u CBLK.BLK_STS_state_lost ||| 2 ^ l.val)
        else c
      let c := (c.moveCell r b l.val sp).raise u CBLK.ev_cell_repointed
      c.modBlk r b (fun s => { s with
        wq := s.wq.map (fun e => if e.awaits = some l.val then { e with awaits := none } else e)
        copying := if s.copying = some l.val then none else s.copying })
  | .subbank r i s => (c.setFld (.bufbank r i) BUFBANK.BANK_STS_spare_for s.val).raise (.bufbank r i) BUFBANK.ev_spare_used
  | .row s pc rank bank row => (c.spareRow s pc.val rank.val bank.val row.toNat).raise (.memblk s) MEMBLK.ev_row_spared
  | .pc s pc =>
    let u := UnitId.memblk s
    let c := (c.sparePc s pc.val).raise u MEMBLK.ev_pc_spared
    let c := c.setFld u MEMBLK.MEM_STS_copy_pct 0
    if q.hard then
      (c.modMem s (fun m => { m with
        failed := m.failed.filter (· ≠ pc.val)
        lost := Tab.put m.lost pc.val [] })).error u evErrUncorrected 0x39 [BitVec.ofNat 64 pc.val]
    else c
  | .wire src dst w =>
    let k := 4 * src.val + dst.val
    let c := c.modRepoint (fun s => { s with wires := Tab.put s.wires k (Tab.get s.wires k [] ++ [w]) })
    (c.modXbar src (fun x =>
      let l := (Tab.get x.wireDown dst.val []).filter (· ≠ w)
      { x with wireDown := Tab.put x.wireDown dst.val l })).showD2d

/-- R414: a committed action joins REPAIR_LOG; a full log takes no more. -/
def Chip.repairLogged (c : Chip) (w : Word) : Chip :=
  if c.logFull then c
  else
    let c := c.setReg .repoint (0x1000 + 8 * c.repoint.log.length) w
    let c := c.modRepoint (fun s => { s with log := s.log ++ [w] })
    let c := c.setFld .repoint REPOINT.LOG_STS_entries c.repoint.log.length
    c.raiseIf c.logFull .repoint REPOINT.ev_log_full

/-- Hard requests that waited in their units join the queue while it has room (R411). -/
def Chip.repointRefill (c : Chip) : Chip :=
  c.repoint.waiting.foldl (fun c e =>
    if 64 ≤ c.repoint.queue.length then c
    else
      let q : RepointReq := ⟨e, true, c.now, c.courseCount, false⟩
      (c.modRepoint (fun s => { s with queue := s.queue ++ [q], waiting := s.waiting.erase e })).bump .repoint
        REPOINT.RP_COUNT_hard) c

/-- One request commits; every request for its element leaves the queue, and one whose spare has gone since finds none. -/
def Chip.commitOne (c : Chip) (q : RepointReq) : Chip :=
  let others := (c.repoint.queue.filter (fun x => x.elem = q.elem)).length - 1
  let c := (c.modRepoint (fun s => { s with queue := s.queue.filter (fun x => x.elem ≠ q.elem) })).bump .repoint
    REPOINT.RP_COUNT_dropped others
  if !c.spareFree q.elem then
    let c := c.raise .repoint REPOINT.ev_spare_exhausted
    match q.hard, q.elem with
    | true, e => c.spentElem e
    | false, .row s _ _ _ _ => c.raise (.memblk s) MEMBLK.ev_spares_low
    | false, _ => c
  else
    let w := c.logWord q
    let c := ((c.placeSpare q).repairLogged w).setFld .repoint REPOINT.RP_STS_last_course c.courseNow
    c.raise .repoint REPOINT.ev_repointed

/-- R411: the order of commits: hard before proactive, lower regions before higher, then as they came. -/
def repointOrder (l : List RepointReq) : List RepointReq :=
  let pick := fun (hard : Bool) => (List.finRange 4).flatMap (fun r => l.filter (fun q => q.hard = hard && elemRegion q.elem = r))
  pick true ++ pick false

/-- The requests that may commit at this boundary, in their order: at most one action per unit instance; regions in their
partition sequence pass (R411, R44). -/
def Chip.commitDue (c : Chip) (which : Element → Bool) : Chip :=
  let step := fun (c : Chip) (q : RepointReq) =>
    let u := elemUnit q.elem
    if !which q.elem || c.repoint.acted.contains u || !c.repoint.queue.contains q || c.partStep (elemRegion q.elem) ≠ 0
      || !c.mayCommit q then c
    else (c.commitOne q).modRepoint (fun s => { s with acted := u :: s.acted })
  (((repointOrder c.repoint.queue).foldl step c).repointRefill).repointCount

/-- Offset 1 of a boundary (Table CLK-5). -/
def Chip.repointBoundary (c : Chip) : Chip := (c.modRepoint (fun s => { s with acted := [] })).commitDue (fun _ => true)

/-! ### Wear windows -/

/-- The elements of a table of counts that are past a limit. -/
def wornPast (limit : Nat) (t : Tab Nat) : List Nat := (t.filter (fun e => limit < e.2)).map (·.1)

/-- R412, Table FLT-4: the lanes, sub-banks, pseudo-channels and wires that the window's counts find past their limits. -/
def Chip.wornElems (c : Chip) : List Element :=
  let limit := fun (f : Fld) => max 1 (c.fld .repoint f)
  (List.finRange 64).flatMap (fun p => (wornPast (1024 * limit REPOINT.WEAR_LIMIT_lane_limit) (c.port p).laneWear).map (fun l =>
      Element.lane p ⟨l % 9, Nat.mod_lt _ (by decide)⟩ true))
    ++ (List.finRange 4).flatMap (fun r => (wornPast (limit REPOINT.WEAR_LIMIT_bank_limit) (c.xbar r).bankWear).map (fun k =>
      Element.subbank r ⟨k / 16 % 4, Nat.mod_lt _ (by decide)⟩ ⟨k % 16, Nat.mod_lt _ (by decide)⟩))
    ++ (List.finRange 8).flatMap (fun s => (wornPast (16 * limit REPOINT.WEAR_LIMIT_pc_limit) (c.memS s).pcWear).map (fun p =>
      Element.pc s ⟨p % 64, Nat.mod_lt _ (by decide)⟩))
    ++ c.repoint.wireWear.flatMap (fun e => (wornPast (limit REPOINT.WEAR_LIMIT_wire_limit) e.2).map (fun w =>
      Element.wire (regionOf (e.1 / 4)) (regionOf e.1) w))

/-- R412: the cells whose ageing oscillators, as read per block and physical cell, are slower than their fused baselines by more
than `age_limit` per mille. -/
def Chip.agedCells (c : Chip) (rings : List (Fin 64 × Fin 9 × Nat)) : List Element :=
  let limit := max 1 (c.fld .repoint REPOINT.WEAR_LIMIT_age_limit)
  rings.filterMap (fun e =>
    let r := regionOf (e.1.val / 16)
    let b : BlockIx := ⟨e.1.val % 16, Nat.mod_lt _ (by decide)⟩
    if 1000 * e.2.2 < (1000 - limit) * Tab.get c.fuses.ringBase (9 * e.1.val + e.2.1.val) 0 then
      (c.logicalCell r b e.2.1.val).map (fun l => Element.cell r b ⟨l % 8, Nat.mod_lt _ (by decide)⟩)
    else none)

/-- R412: the end of a wear window of 4,096 courses: the counts and the oscillators are held to their limits, and the counts
restart. Rows ask at once and not here. -/
def Chip.wearEnd (c : Chip) (rings : List (Fin 64 × Fin 9 × Nat)) : Chip :=
  let c := (c.wornElems ++ c.agedCells rings).foldl (fun c e => c.wearAsk e) c
  let c := (List.finRange 8).foldl (fun c s => c.modMem s (fun m => { m with pcWear := [] })) c
  let c := c.forPorts (fun c p => c.modPort p (fun s => { s with laneWear := [] }))
  let c := c.forRegions (fun c r => c.modXbar r (fun x => { x with bankWear := [] }))
  c.modRepoint (fun s => { s with windowAt := c.courseCount, wireWear := [] })

/-! ### The partition sequence -/

/-- PART_STS `step` and `in_reset` of a region. -/
def Chip.setPart (c : Chip) (r : Region) (step : Nat) : Chip :=
  let w := setBits (c.reg .repoint 0x120) (16 * r.val + 14) (16 * r.val + 12) step
  c.setReg .repoint 0x120 (setBits w (16 * r.val + 15) (16 * r.val + 15) (bit (step ≠ 0)))

def Chip.part (c : Chip) (r : Region) : PartS := Tab.get c.repoint.parts r.val {}
def Chip.setPartS (c : Chip) (r : Region) (p : PartS) : Chip :=
  c.modRepoint (fun s => { s with parts := Tab.put s.parts r.val p })

/-- R416: the sequence of a region starts, unless it runs. -/
def Chip.partStart (c : Chip) (r : Region) (p : PartS) : Chip :=
  if c.partStep r ≠ 0 then c
  else
    let c := (c.setPartS r p).raise (.region r) REGION.ev_hang
    let w := setBits (setBits (setBits 0 63 56 p.code) 55 54 r.val) 47 0 c.courseNow
    (c.setReg .repoint 0x128 w).setPart r 1

/-- R405: an uncorrectable error in region logic state: all five steps, whether or not progress has stopped. -/
def Chip.logicUe (c : Chip) (u : UnitId) (r : Region) : Chip :=
  ((c.error u evErrUncorrected 0x03).raise (.region r) REGION.ev_logic_ue).partStart r { code := 0x03 }

/-- R415: the stall of a unit, once per episode; in a region unit it starts the sequence as `hang_action` selects. -/
def Chip.stall (c : Chip) (u : UnitId) : Chip :=
  let progress := c.reg u 0x80
  match unitRegion u with
  | none => c.error u evProgressStall 0x04 [progress]
  | some r =>
    if c.partStep r ≠ 0 then c
    else
      let c := c.error u evProgressStall 0x04 [progress]
      let act := c.fld (.region r) REGION.PART_CTL_hang_action
      if act = 0 then c
      else c.partStart r { code := 0x04, full := act ≠ 1, stalled := regAddr u 0, stalledProgress := progress }

/-- PROGRESS_CTL `window` of a unit. -/
def Chip.watchWindow (c : Chip) (u : UnitId) : Nat := min 4096 (max 4 (getBits (c.reg u 0x88) 12 0))

/-- R415: one unit's watch at offset 8 of a boundary. -/
def Chip.watchUnit (c : Chip) (u : UnitId) : Chip :=
  let ctl := c.reg u 0x88
  let p := c.reg u 0x80
  let k := unitKey u
  let count := getBits p 47 0
  let (last, n, told) := (Tab.find c.repoint.watch k).getD (0, 0, false)
  if !bitAt ctl 63 || !bitAt p 63 || last ≠ count then
    c.modRepoint (fun s => { s with watch := if count = 0 then Tab.del s.watch k else Tab.put s.watch k (count, 0, false) })
  else
    let due := c.watchWindow u ≤ n + 1 && !told
    let c := c.modRepoint (fun s => { s with watch := Tab.put s.watch k (count, n + 1, told || due) })
    if due then c.stall u else c

/-- The units with a progress watch (UNIT_CAPS). -/
def Chip.watched (c : Chip) : List UnitId :=
  ((List.finRange 4).flatMap regionUnits ++ chipUnits).filter (fun u => hasProgress (unitType u) && c.present u)

/-- Offset 8 of a boundary. -/
def Chip.watchBoundary (c : Chip) : Chip :=
  c.watched.foldl (fun c u => match unitRegion u with
    | some r => if c.partStep r ≠ 0 then c else c.watchUnit u
    | none => c.watchUnit u) c

/-- The sample of a region (R417, Table FLT-6). -/
def Chip.sample (c : Chip) (r : Region) : List Byte :=
  let p := c.part r
  let kib := min 1536 (c.fld (.region r) REGION.PART_CTL_spad_kib)
  let tack := c.flag (.region r) REGION.PART_CTL_sample_tack
  let trace := c.flag (.region r) REGION.PART_CTL_sample_trace
  let blocks := (List.finRange 16).filter (fun b => c.present (.cblk r b))
  let regs := ((regionUnits r).filter (fun u => c.present u)).flatMap (fun u =>
    (List.range 32).flatMap (fun i => wordBytes (c.headerWord u (8 * i))))
  let cells := blocks.flatMap (fun b => (List.range 8).flatMap (fun l =>
    let phys := c.physCell r b l
    let head := leBytes 2 b.val ++ leBytes 1 l ++ leBytes 1 phys ++ leBytes 4 0
      ++ wordBytes (c.reg (.cblk r b) (CBLK.CELL_STS_state.pos + 16 * l))
      ++ wordBytes (c.reg (.cblk r b) (CBLK.CELL_COUNT_bundles.pos + 16 * l))
      ++ wordBytes (c.reg (.cblk r b) 0x108)
    slice head 0 64
      ++ (if tack then c.load (.tdm r.val b.val phys) 0 65536 else [])
      ++ (if trace then slice ((c.cell r b l).trace.flatMap (fun t => leBytes 4 t.toNat)) 0 1024 else [])
      ++ c.load (.spad r.val b.val phys) 0 (1024 * kib)))
  let total := 64 + regs.length + cells.length
  let head := leBytes 8 c.courseNow ++ leBytes 1 r.val ++ leBytes 1 p.code ++ leBytes 2 (8 * blocks.length) ++ leBytes 4 total
    ++ leBytes 8 p.stalled ++ wordBytes p.stalledProgress ++ wordBytes c.fuses.serial
  slice head 0 64 ++ regs ++ cells

/-- CAPTURE messages of a sample: 8,192 bytes each (R417). -/
def captureParts (fuel r off total : Nat) (l : List Byte) : List (Nat × Nat × Nat × List Byte) :=
  match fuel with
  | 0 => []
  | k + 1 => if l.isEmpty then [] else (r, off, total, l.take 8192) :: captureParts k r (off + 8192) total (l.drop 8192)

/-- R417, R380: bytes of the capture buffer that the sample may fill: none without a buffer that passes the checks. -/
def Chip.captureRoom (c : Chip) (r : Region) : Nat :=
  let n := c.fld (.region r) REGION.CAPTURE_BUF_cap_log2
  let base := c.fld (.region r) REGION.CAPTURE_BUF_cap_base
  let dst := regionOf (c.fld (.region r) REGION.PART_CTL_capture_region)
  if n < 12 || dst = r || c.inReset dst || base % 4096 ≠ 0 || !c.outsideArea dst base (2 ^ n) then 0 else 2 ^ n

/-- Step 2: the sample goes to the capture buffer and, message by message, to the event session. -/
def Chip.captureSample (c : Chip) (r : Region) : Chip :=
  let l := c.sample r
  let room := c.captureRoom r
  let dst := regionOf (c.fld (.region r) REGION.PART_CTL_capture_region)
  let stored := l.take room
  let c := if stored.isEmpty then c else c.writeLintel dst.val (c.fld (.region r) REGION.CAPTURE_BUF_cap_base) stored
  let c := (c.setFld .repoint REPOINT.LAST_CAPTURE_sample_bytes l.length).setFld .repoint
    REPOINT.LAST_CAPTURE_stored_bytes stored.length
  let c := c.raiseIf (decide (stored.length < l.length)) .repoint REPOINT.ev_capture_truncated
  let parts := captureParts (l.length / 8192 + 1) r.val 0 l.length l
  ({ c with bridge := { c.bridge with captures := c.bridge.captures ++ parts } }).pumpEvents

/-- Is the sample of a region still on its way to the session? -/
def Chip.streaming (c : Chip) (r : Region) : Bool := c.bridge.captures.any (fun e => e.1 = r.val)

/-- LOST_MAP and LOST_EP of a region are loaded from the declaration. -/
def Chip.loadLost (c : Chip) (r : Region) : Chip :=
  let c := c.setReg (.fabmem r) 0x140 (c.declaredOr 0x008)
  (List.range 64).foldl (fun c k => c.setReg (.mortar r) (0x200 + 8 * k) (c.declaredOr (0x040 + 8 * k))) c

/-- BLOCK_MAP from the fuses; fields of absent blocks read 0 (R226). -/
def Chip.loadBlockMap (c : Chip) (r : Region) : Chip :=
  let w := c.fuses.blockMap.getD r.val 0
  c.setReg (.region r) 0x120 (match c.fuses.grade with | .a => w | .b => setBits w 63 48 0)

/-- Is a space of the memory map inside a region: 0 to 3 its Lintel memory, the others its compute die? -/
def keyInRegion (r : Region) (k : Nat) : Bool :=
  let s := k / 2 ^ 40
  if s < 0x100 then s = r.val
  else if s < 0x1000 then (s - 0x100) / 16 = r.val
  else (s % 0x1000) / 256 = r.val

/-- Every unit of a region, with its compute die and stacks, is as after reset (R418). Spares in use and what has failed for
good are kept: the repointing records live in the always-on domain. -/
def Chip.clearRegion (c : Chip) (r : Region) : Chip :=
  let mine := fun (p : Port) => portRegion p = r
  let c := c.resetRegs (fun u => unitScope u = r.val)
  let c := { c with
    mem := c.mem.filter (fun e => !keyInRegion r e.1)
    bad := c.bad.filter (fun k => !keyInRegion r k)
    fabs := Tab.del c.fabs r.val
    cobs := Tab.del c.cobs r.val
    morts := Tab.del c.morts r.val
    blocks := c.blocks.filter (fun e => e.1 / 16 ≠ r.val)
    bridge := { c.bridge with holds := c.bridge.holds.filter (fun e => e.1 / 2 ^ 37 ≠ r.val) } }
  let c := (List.finRange 2).foldl (fun c i => (c.dropCopies (regionStack r i)).modMem (regionStack r i) (fun m =>
    ({ noSpare := m.noSpare } : MemS))) c
  let c := c.setXbar r { subLost := (c.xbar r).subLost }
  let c := c.forPorts (fun c p => if mine p then c.modPort p (fun s => ({ deadFrom := s.deadFrom } : PortS)) else c)
  let c := (List.finRange 16).foldl (fun c b => (List.range 8).foldl (fun c l => c.setCellState r b l 6) c) c
  (c.loadBlockMap r).showD2d

/-- Step 3 (R416, R418). -/
def Chip.partReset (c : Chip) (r : Region) : Chip :=
  let f := 16 * r.val
  let w := c.reg .repoint 0x120
  let c := c.setReg .repoint 0x120 (setBits w (f + 11) f (getBits w (f + 11) f + 1))
  let c := (c.setPart r 3).raise .repoint REPOINT.ev_partition_reset
  -- packets queued elsewhere for the region's endpoint, then its ports
  let c := c.discardQueued (64 + r.val)
  let quiet := fun (c : Chip) (p : Port) => if portRegion p = r && c.portState p ≠ 0 then c.toQuiet p else c
  let up := (List.finRange 64).filter (fun p => portRegion p = r && c.portState p ≠ 0)
  let c := c.forPorts quiet
  let c := (List.range 4).foldl (fun c k => c.dropOutput r (16 + k)) c
  -- cells that cross to or from the region, or through it, are lost, and their packets with them
  let onLinks := (List.finRange 4).flatMap (fun i =>
    (c.xbar i).cells.flatMap (fun e => if i = r || e.1 = r.val then e.2 else []))
  let gone := fun (i : Region) (o src id : Nat) => onLinks.any (fun x => x = ⟨i.val, o, src, id⟩)
  let cut := (List.finRange 4).flatMap (fun i => ((c.xbar i).pairs.filter (fun p =>
    i ≠ r && p.src ≠ r.val && gone i p.out p.src p.ent.id)).map (fun p => (p.src, p.ent.id)))
  let c := cut.foldl (fun c e => c.descDone (regionOf e.1) e.2) c
  let c := c.forRegions (fun c i => if i = r then c else c.modXbar i (fun x => { x with
    pairs := x.pairs.filter (fun p => p.src ≠ r.val && !gone i p.out p.src p.ent.id)
    cells := (Tab.del x.cells r.val).map (fun e => (e.1, e.2.filter (fun y => y.dst ≠ r.val)))
    staging := x.staging.map (fun e => (e.1, e.2.filter (fun s =>
      (s.src ≠ r.val || s.landed = s.cells) && !gone i e.1 s.src s.id))) }))
  let c := c.dropSharers r
  let c := c.awlRingLost r
  let gone := c.repoint.queue.filter (fun q => elemRegion q.elem = r)
  let c := (c.modRepoint (fun s => { s with
    queue := s.queue.filter (fun q => elemRegion q.elem ≠ r)
    waiting := s.waiting.filter (fun e => elemRegion e ≠ r) })).bump .repoint REPOINT.RP_COUNT_dropped gone.length
  let c := c.repointRefill.repointCount
  let c := c.clearRegion r
  up.foldl (fun c p => c.setFld (.port p) PORT.PORT_STS_state 1) c

/-! ### The commands -/

/-- LANE_FAILURE. -/
def execLaneFailure (p : Port) (lane : Lane) (rx : Bool) (s : State) : Host.Outcome State Fault Refusal :=
  s.on (fun c => c.laneFailed p lane rx 0x14)

/-- ELASTIC_BUFFER_ERROR (R47). -/
def execElasticBufferError (at_ : ElasticAt) (s : State) : Host.Outcome State Fault Refusal :=
  s.on (fun c => match at_ with
    | .lane p l => c.laneFailed p l true 0x18
    | .wire src dst w => c.wireFault src dst w 0x18)

/-- D2D_WIRE_FAULT. -/
def execD2dWireFault (src dst : Region) (wire : Nat) (s : State) : Host.Outcome State Fault Refusal :=
  s.on (fun c => c.wireFault src dst wire 0x19)

/-- LOGIC_UE: SECDED meets an error in the logic state of a region unit: an uncorrectable one, or one that it corrects and
writes back (R405). -/
def execLogicUe (u : UnitId) (corrected : Bool) (s : State) : Host.Outcome State Fault Refusal :=
  s.on (fun c => match unitRegion u with
    | some r => if corrected then c.error u evErrCorrected 0x01 else c.logicUe u r
    | none => c)

/-- R406: one EVENT message for the CHIP unit if it can be sent, then every transmitter is idle until RESET_N. -/
def Chip.goSilent (c : Chip) (tell : Bool) : Chip :=
  if c.boot.failSilent then c
  else
    let c := c.error .chip evErrUncorrected 0x89
    let ws := [c.reg .chip 0x20, c.reg .chip 0x38, c.reg .chip 0x40, c.reg .chip 0x48]
    let c := if tell then
        ({ c with bridge := { c.bridge with events := .event (regAddr .chip 0) ws :: c.bridge.events } }).pumpEvents
      else c
    let c := c.forPorts (fun c p => if c.portState p ≠ 0 then c.leaveTo p 0 else c)
    let c := c.hostLinkLost
    { c with boot := { c.boot with failSilent := true } }

/-- FAIL_SILENT. -/
def execFailSilent (s : State) : Host.Outcome State Fault Refusal := s.on (fun c => c.goSilent true)

/-- PROGRESS_STALL: the tally of a watched unit, as it now stands, has reached its window (R415). -/
def execProgressStall (u : UnitId) (s : State) : Host.Outcome State Fault Refusal :=
  s.on (fun c =>
    let k := unitKey u
    match Tab.find c.repoint.watch k with
    | some (last, n, false) =>
      if hasProgress (unitType u) && c.present u && bitAt (c.reg u 0x88) 63 && bitAt (c.reg u 0x80) 63
        && c.watchWindow u ≤ n then
        (c.modRepoint (fun s => { s with watch := Tab.put s.watch k (last, n, true) })).stall u
      else c
    | _ => c)

/-- PART_CTL `reset_now` (R416): all steps but the capture. -/
def Chip.opResetNow (c : Chip) (r : Region) : Chip := c.partStart r { code := 0x05, capture := false }

/-- RESET_NOW. -/
def execResetNow (r : Region) (s : State) : Host.Outcome State Fault Refusal :=
  s.onReg (.region r) (fun c => (c.opResetNow r, false)) 0x110

/-- CAPTURE_STREAM_CUTOFF (R417). -/
def execCaptureStreamCutoff (r : Region) (s : State) : Host.Outcome State Fault Refusal :=
  s.on (fun c => if c.partStep r = 2 && c.streaming r then
    ({ c with bridge := { c.bridge with captures := c.bridge.captures.filter (fun e => e.1 ≠ r.val) } }).raise .repoint
      REPOINT.ev_capture_truncated
    else c)

/-- REPOINT_REQUEST (R411). -/
def execRepointRequest (e : Element) (hard : Bool) (s : State) : Host.Outcome State Fault Refusal :=
  s.on (fun c => if hard then c.hardAsk e else c.wearAsk e)

/-- REPOINT_COMMIT: the actions that the boundary just placed has not yet committed (R411). -/
def execRepointCommit (s : State) : Host.Outcome State Fault Refusal :=
  s.on (fun c => if c.atBoundary then c.commitDue (fun _ => true) else c)

/-- WEAR_WINDOW_END. -/
def execWearWindowEnd (rings : List (Fin 64 × Fin 9 × Nat)) (s : State) : Host.Outcome State Fault Refusal :=
  s.on (fun c => if c.since c.repoint.windowAt < 4096 then c else c.wearEnd rings)

/-- SUBBANK_TAKEOVER: at a boundary the spare serves a sub-bank under sparing that is empty (R413). -/
def execSubbankTakeover (r : Region) (i : Fin 4) (s : State) : Host.Outcome State Fault Refusal :=
  s.on (fun c => if c.atBoundary then
    c.commitDue (fun e => match e with | .subbank r' i' _ => r' = r && i' = i | _ => false) else c)

/-- SUBBANK_SPARE_TIMEOUT (R413). -/
def execSubbankSpareTimeout (r : Region) (i : Fin 4) (s : State) : Host.Outcome State Fault Refusal :=
  s.on (fun c =>
    let old := fun (q : RepointReq) => !q.hard && decide (256 ≤ c.since q.course) && (match q.elem with
      | .subbank r' i' _ => r' = r && i' = i | _ => false)
    let n := (c.repoint.queue.filter old).length
    if n = 0 then c
    else (((c.modRepoint (fun s => { s with queue := s.queue.filter (fun q => !old q) })).bump .repoint
      REPOINT.RP_COUNT_dropped n).repointRefill).repointCount)

end Sys2Proof.Machine
end

