-- ==== Sys2Proof/Machine/Plumb.lean ====
section
/-! DEFINITION. Plumb: views (R420, R421), rounds (R422, R423), decisions (R424 to R428) and job policy (R429). -/
namespace Sys2Proof.Machine

/-- The Pysums of the pod (PLUMB_PRESENT). -/
def Chip.presentPod (c : Chip) (n : Nat) : Bool := bitAt (c.reg .plumb 0x108) n
/-- R428: no PLUMB flit is sent in card mode or when `present` holds only the own bit. -/
def Chip.plumbActive (c : Chip) : Bool := !c.card && c.reg .plumb 0x108 ≠ BitVec.ofNat 64 (2 ^ c.pysum)

/-- TABLE_DIGEST (R433). -/
def Chip.tableDigest (c : Chip) : Nat :=
  crc32c ((List.range 64).flatMap (fun d =>
    ([0, 0x008, 0x010] ++ (List.range 64).map (fun k => 0x040 + 8 * k)).flatMap (fun o => wordBytes (c.domReg d o))))

/-! ### Views -/

/-- VIEW of a domain. -/
def Chip.showView (c : Chip) (d : Nat) : Chip :=
  let c := c.noteLinks d
  c.setReg .plumb (0x120 + 8 * (d / 32)) (setBits (c.reg .plumb (0x120 + 8 * (d / 32))) (2 * (d % 32) + 1) (2 * (d % 32))
    (c.viewCode d))

/-- Every view. -/
def Chip.showViews (c : Chip) : Chip := (List.range 64).foldl (fun c d => c.showView d) c

/-- The own view, 128 bits. -/
def Chip.ownView (c : Chip) : BitVec 128 :=
  BitVec.ofNat 128 ((c.reg .plumb 0x128).toNat * 2 ^ 64 + (c.reg .plumb 0x120).toNat)

/-! ### The coordinator -/

/-- The order of coordinators: present Pysums not lost, lowest first (R422). -/
def Chip.coordOrder (c : Chip) : List Nat :=
  (List.range 64).filter (fun n => (c.presentPod n || n = c.pysum) && !c.lostPysum n)

/-- The current coordinator: the first of the order, or the one that missed rounds or an accepted DECIDE moved it to. In card
mode the Pysum is its own (R428). -/
def Chip.coordinator (c : Chip) : Nat :=
  if !c.plumbActive then c.pysum else c.plumb.moved.getD ((c.coordOrder.head?).getD c.pysum)

/-- PLUMB_STS follows. -/
def Chip.showCoord (c : Chip) : Chip :=
  let n := c.coordinator
  let c := c.setFld .plumb PLUMB.PLUMB_STS_active (bit c.plumbActive)
  if c.fld .plumb PLUMB.PLUMB_STS_coordinator = n then c
  else (c.setFld .plumb PLUMB.PLUMB_STS_coordinator n).raise .plumb PLUMB.ev_coordinator_changed

/-- R422: after `decide_miss` rounds without an accepted DECIDE the next in the order is the coordinator. -/
def Chip.coordMove (c : Chip) : Chip :=
  if c.plumb.misses < max 1 (c.fld .plumb PLUMB.PLUMB_CTL_decide_miss) then c
  else
    let now := c.coordinator
    let next := c.coordOrder.find? (fun n => decide (now < n))
    (c.modPlumb (fun s => { s with moved := next, misses := 0 })).showCoord

/-! ### Messages -/

/-- The lowest ACTIVE peer port towards a Pysum. -/
def Chip.portTo (c : Chip) (n : Nat) : Option Port :=
  (List.finRange 64).find? (fun p => c.portActive p && c.portRole p = 2 && c.fld (.port p) PORT.PORT_STS_far_pysum = n)

/-- A PLUMB payload (Table FLT-9). -/
def Chip.plumbPayload (c : Chip) (msg hops epoch : Nat) (view : BitVec 128) (restore declared : Word) : List Byte :=
  pad240 (leBytes 1 msg ++ leBytes 1 c.pysum ++ leBytes 1 hops ++ leBytes 1 (c.fld .chip CHIP.POSITION_pod_id)
    ++ leBytes 6 c.plumb.round ++ leBytes 4 epoch ++ leBytes 4 c.tableDigest ++ leBytes 6 0 ++ leBytes 16 view.toNat
    ++ wordBytes restore ++ wordBytes declared)

/-- A PLUMB flit on the way to a Pysum. -/
def Chip.plumbTo (c : Chip) (n : Nat) (payload : List Byte) : Chip :=
  match c.portTo n with
  | some p => c.sendSeq p 6 payload
  | none => c

/-- A payload relayed: `hops` becomes 1. -/
def relayed (l : List Byte) : List Byte := l.take 2 ++ [1] ++ l.drop 3

/-- R422: the REPORT of a round, on the path of Table FLT-8. -/
def Chip.sendReport (c : Chip) : Chip :=
  let k := c.coordinator
  let s := c.pysum
  if !c.plumbActive || k = s then c
  else
    let l := c.plumbPayload 1 0 (c.fld .plumb PLUMB.PLUMB_STS_epoch) c.ownView c.plumb.restore 0
    if sameLine s k then c.plumbTo k l
    else if (c.portTo (s / 8 * 8 + k % 8)).isSome then c.plumbTo (s / 8 * 8 + k % 8) l
    else c.plumbTo (k / 8 * 8 + s % 8) l

/-- Has half the course passed? -/
def Chip.halfPast (c : Chip) : Bool := c.course.running && c.courseCycles ≤ 2 * c.phase

/-- A REPORT: the coordinator keeps it when it is in time; another Pysum relays it once (R422). -/
def Chip.takeReport (c : Chip) (l : List Byte) : Chip :=
  let origin := leAt l 1 1 % 64
  if c.coordinator = c.pysum then
    if c.courseCycles < 2 * c.phase then c
    else
      let rep : ReportS := ⟨leAt l 14 4, BitVec.ofNat 128 (leAt l 24 16), wordAt l 40⟩
      c.modPlumb (fun s => { s with reports := Tab.put s.reports origin rep })
  else if leAt l 2 1 = 0 then c.plumbTo c.coordinator (relayed l)
  else c

/-- A DECIDE: accepted, relayed along the other line, and applied at the next boundary (R422, R424, R425). -/
def Chip.takeDecide (c : Chip) (l : List Byte) : Chip :=
  let from_ := leAt l 1 1 % 64
  let epoch := leAt l 10 4
  let own := c.fld .plumb PLUMB.PLUMB_STS_epoch
  if c.coordinator < from_ || epoch < own then c
  else
    let base := (c.coordOrder.head?).getD c.pysum
    let c := (c.modPlumb (fun s => { s with
      decided := true
      misses := 0
      moved := if from_ = base then none else some from_ })).showCoord
    let s := c.pysum
    let c := if leAt l 2 1 = 0 then
        let peers := (List.range 64).filter (fun n => n ≠ s && (if from_ / 8 = s / 8 then n % 8 = s % 8
          else from_ % 8 = s % 8 && n / 8 = s / 8))
        peers.foldl (fun c n => c.plumbTo n (relayed l)) c
      else c
    if leAt l 14 4 ≠ c.tableDigest then c.error .plumb PLUMB.ev_table_mismatch 0x83
    else if epoch = own then c
    else c.modPlumb (fun s => { s with next := some (epoch, wordAt l 48, c.courseCount) })

/-- A PLUMB flit on a port (R423, R80). -/
def Chip.plumbIn (c : Chip) (p : Port) (l : List Byte) : Chip :=
  let msg := leAt l 0 1
  if c.portRole p ≠ 2 || !c.plumb.opened || leAt l 3 1 % 32 ≠ c.fld .chip CHIP.POSITION_pod_id || !(msg = 1 || msg = 2)
      || leAt l 4 6 ≠ c.plumb.round then c.protocolError p
  else if !c.plumbActive then c
  else if msg = 1 then c.takeReport l else c.takeDecide l

/-! ### The coordinator's evaluation -/

/-- Silence (R421): present Pysums whose REPORT is missing from the round, and since when. -/
def Chip.noteSilence (c : Chip) : Chip :=
  c.modPlumb (fun s => { s with silent := (List.range 64).foldl (fun t n =>
    if !c.plumbActive || !c.presentPod n || n = c.pysum || (Tab.find s.reports n).isSome then Tab.del t n
    else if (Tab.find t n).isSome then t else Tab.put t n c.courseCount) s.silent })

/-- The views of a domain in the round: the coordinator's own with silence, and the REPORTs' of equal digest (R424). -/
def Chip.viewsOf (c : Chip) (digest d : Nat) : List Nat :=
  let silent := (c.plumb.silent.filter (fun e => bitAt (c.domReg d 0x008) e.1)).map (·.2)
  c.viewCode d silent :: (c.plumb.reports.filter (fun e => e.2.digest = digest)).map (fun e => e.2.view.toNat / 4 ^ d % 4)

/-- One valid domain in the round: its count of rounds down, its split episode; true when it is to be declared. -/
def Chip.evalDomain (c : Chip) (digest d : Nat) : Chip × Bool :=
  let v := c.viewsOf digest d
  let down := v.contains 3 && !v.contains 1
  let split := v.contains 3 && v.contains 1
  let n := if down then Tab.get c.plumb.down d 0 + 1 else 0
  let c := if split && !c.plumb.split.contains d then c.error .plumb PLUMB.ev_split_view 0x84 else c
  let c := c.modPlumb (fun s => { s with
    down := if n = 0 then Tab.del s.down d else Tab.put s.down d n
    split := if split then d :: s.split.filter (· ≠ d) else s.split.filter (· ≠ d) })
  (c, max 1 (c.fld .plumb PLUMB.PLUMB_CTL_confirm) ≤ n)

/-- R424, R426: the declared mask after the round's evaluation. -/
def Chip.evaluate (c : Chip) : Chip × Word :=
  let digest := c.tableDigest
  let c := c.showViews.noteSilence
  let c := if c.plumb.reports.any (fun e => e.2.digest ≠ digest) then c.error .plumb PLUMB.ev_table_mismatch 0x83 else c
  let asked := c.plumb.reports.foldl (fun w e => if e.2.digest = digest then w ||| e.2.restore else w) c.plumb.restore
  (List.range 64).foldl (fun (a : Chip × Word) d =>
    if !a.1.domValid d || !a.1.flag .plumb PLUMB.PLUMB_CTL_enable then a
    else
      let (c, lost) := a.1.evalDomain digest d
      let bit := BitVec.ofNat 64 (2 ^ d)
      if bitAt a.2 d then
        (c, if bitAt asked d && !(c.viewsOf digest d).contains 3 then a.2 &&& ~~~ bit else a.2)
      else (c, if lost then a.2 ||| bit else a.2)) (c, c.reg .plumb 0x118)

/-- DECIDE of a round (Table FLT-8): sent to every peer, and taken by the coordinator itself. -/
def Chip.decideRound (c : Chip) : Chip :=
  if c.coordinator ≠ c.pysum || c.plumb.decided then c
  else
    let (c, mask) := c.evaluate
    let own := c.fld .plumb PLUMB.PLUMB_STS_epoch
    let new := mask ≠ c.reg .plumb 0x118
    let epoch := if new then (own + 1) % 2 ^ 32 else own
    let c := c.modPlumb (fun s => { s with
      decided := true
      misses := 0
      next := if new then some (epoch, mask, c.courseCount) else s.next })
    if !c.plumbActive then c
    else
      let l := c.plumbPayload 2 0 epoch 0 0 mask
      (List.range 64).foldl (fun c n => if n = c.pysum then c else c.plumbTo n l) c

/-! ### A declaration takes effect -/

/-- R37: the master that the rules choose. -/
def Chip.chooseMaster (c : Chip) : Option Nat :=
  let ok := fun n => c.presentPod n && !c.lostPysum n
  let backup := c.fld .course COURSE.TICK_CTL_backup_master
  match c.course.strapMaster with
  | some m => if !c.lostPysum m then some m else if ok backup then some backup else (List.range 64).find? ok
  | none => if ok backup then some backup else (List.range 64).find? ok

/-- R429: is a job struck by the change from `old`? -/
def Chip.struck (c old : Chip) (job : Nat) : Bool :=
  (List.finRange 4).any (fun r =>
    c.partStep r = 0 &&
    ((c.holder (.mortar r) = job && (List.range 1024).any (fun g => c.grpOk r g && c.grp r g MORTAR.GRP_A_job_id = job &&
        ((c.effMembers r g).length < (old.effMembers r g).length
          || (c.isAnchor r g && (c.effStops r g).length < (old.effStops r g).length))))
      || (old.fab r).ledger.any (fun e => getBits e.w1 63 48 = job && (match old.targetOf r e.head.dst with
        | some t => !old.lost r t && c.lost r t
        | none => false))
      || (List.range 16).any (fun i =>
        let p := portOf (16 * r.val + i)
        let e := c.fld (.port p) PORT.PORT_STS_far_epid
        let at_ := 0x040 + 8 * (e / 64)
        getBits (c.reg (.xbar r) (0x118 + 8 * (i / 4))) (16 * (i % 4) + 15) (16 * (i % 4)) = job && c.portRole p ≠ 2
          && bitAt (c.declaredOr at_) (e % 64) && !bitAt (old.declaredOr at_) (e % 64))))

/-- R429, policy stop: the job halts in this Pysum. -/
def Chip.haltJob (c : Chip) (job : Nat) : Chip :=
  if c.jobHalted job then c
  else
    let halt := fun (j : Job) => if j.id = job then { j with halted := true } else j
    let c := { c with bridge := { c.bridge with jobs := c.bridge.jobs.map halt } }
    let c := (List.finRange 4).foldl (fun c r => (List.finRange 16).foldl (fun c b =>
      if c.holder (.cblk r b) = job then c.abortBlock r b 9 else c) c) c
    let c := if c.flag .plumb PLUMB.POLICY_STOP_valid then c
      else c.setReg .plumb 0x148 (setBits (setBits 0 63 63 1) 15 0 job)
    c.raise .plumb PLUMB.ev_policy_stop

/-- R429: the job policies act on what changed from `old`; a Pysum that finds itself declared halts every job (R425). -/
def Chip.policyActs (c old : Chip) : Chip :=
  let self := c.selfDeclared && !old.selfDeclared
  let c' := c.bridge.jobs.foldl (fun d j => if self || (j.policy ≠ 1 && c.struck old j.id) then d.haltJob j.id else d) c
  if self then c'.error .plumb PLUMB.ev_self_declared 0x85 else c'

/-- Some regions take over the declaration: their maps, their ledgers' lost targets, their groups (R425, R175, R321). -/
def Chip.takeLost (c old : Chip) (l : List Region) : Chip :=
  let c := l.foldl (fun c r => c.loadLost r) c
  l.foldl (fun c r => (c.targetsLost r).reform old r) c

/-- R425, steps 1 to 4: a new epoch takes effect, at a boundary after the one that opened its round. Regions in their partition
sequence take the declaration as they resume or rebuild (R44, R418). -/
def Chip.epochLoad (c : Chip) : Chip :=
  match c.plumb.next with
  | none => c
  | some (epoch, mask, at_) =>
    if c.courseCount ≤ at_ then c
    else
      let old := c
      let gone := c.reg .plumb 0x118 &&& ~~~ mask
      let c := (c.setFld .plumb PLUMB.PLUMB_STS_epoch epoch).setReg .plumb 0x118 mask
      let c := c.modPlumb (fun s => { s with
        next := none
        restore := s.restore &&& ~~~ gone
        moved := s.moved.filter (fun n => !c.lostPysum n) })
      let c := (c.bump .plumb PLUMB.PLUMB_COUNT_decisions).error .plumb PLUMB.ev_declared 0x82
      let c := c.raiseIf (gone ≠ 0) .plumb PLUMB.ev_restored
      let c := c.takeLost old ((List.finRange 4).filter (fun r => c.partStep r = 0))
      if c.card then c
      else match c.chooseMaster with
        | some m => c.modCourse (fun s => { s with chosen := some (m, c.courseCount) })
        | none => c

/-- R425 as a whole: the epoch, the coordinator that follows from it, and the job policies. -/
def Chip.epochApply (c : Chip) : Chip := (c.epochLoad.showCoord).policyActs c

/-- A coordinator's evidence over rounds is its own: it starts afresh when another Pysum has the rounds (R424). -/
def Chip.roundsKept (c : Chip) : Chip :=
  if c.coordinator = c.pysum then c else c.modPlumb (fun s => { s with silent := [], down := [] })

/-- Offset 4 of a boundary: the last round's DECIDE applies, and a round opens. -/
def Chip.plumbBoundary (c : Chip) : Chip :=
  let old := c
  let missed := c.plumbActive && c.plumb.opened && !c.plumb.decided
  let c := c.epochLoad
  let c := if missed then
      (c.bump .plumb PLUMB.PLUMB_COUNT_missed).modPlumb (fun s => { s with misses := s.misses + 1 })
    else c
  let c := (c.coordMove.showCoord).policyActs old
  let c := (c.modPlumb (fun s => { s with
    round := c.courseNow
    opened := true
    decided := false
    reports := [] })).roundsKept
  (c.wrap .plumb PLUMB.PLUMB_COUNT_rounds).showViews.sendReport

/-! ### Steps 1 and 2 of a partition sequence -/

/-- The region resumes where it stopped: withheld credits return (R416), and it takes a declaration that passed it by. -/
def Chip.partResume (c : Chip) (r : Region) : Chip :=
  let d := (c.setPart r 0).forPorts (fun c p => if portRegion p = r then
    c.modPort p (fun s => { s.owed.foldl (fun s e => s.giveBack e.1 e.2) s with owed := [] }) else c)
  (d.takeLost d [r]).policyActs d

/-- Step 2 or 3 begins, when the one before it has ended. -/
def Chip.partAdvance (c : Chip) (r : Region) : Chip :=
  let p := c.part r
  match c.partStep r with
  | 1 => if p.capture then (c.setPart r 2).captureSample r else c.partReset r
  | 2 =>
    if c.streaming r then c
    else
      let c := c.raise .repoint REPOINT.ev_capture_done
      if p.full then c.partReset r else c.partResume r
  | _ => c

/-! ### The commands -/

/-- VIEW_HOLD_EXPIRY: the view of a domain as it now stands (R421). -/
def execViewHoldExpiry (d : Fin 64) (s : State) : Host.Outcome State Fault Refusal := s.on (fun c => c.showView d.val)

/-- REPORT: a PLUMB flit. -/
def execReport (p : Port) (header : Word) (payload : List Byte) (s : State) : Host.Outcome State Fault Refusal :=
  s.on (fun c => c.far p (fun c => c.hearingActive p (fun c => c.rxSeq p header (fun c => c.plumbIn p payload))))

/-- DECIDE_SEND: half the course of a round has passed. -/
def execDecideSend (s : State) : Host.Outcome State Fault Refusal :=
  s.on (fun c => if c.plumb.opened && c.halfPast then c.decideRound else c)

/-- DECIDE: a PLUMB flit. -/
def execDecide (p : Port) (header : Word) (payload : List Byte) (s : State) : Host.Outcome State Fault Refusal :=
  s.on (fun c => c.far p (fun c => c.hearingActive p (fun c => c.rxSeq p header (fun c => c.plumbIn p payload))))

/-- COORDINATOR_CHANGE. -/
def execCoordinatorChange (s : State) : Host.Outcome State Fault Refusal := s.on Chip.coordMove

/-- PLUMB_EPOCH_APPLY: at the boundary just placed, a DECIDE of an earlier round (R425). -/
def execPlumbEpochApply (s : State) : Host.Outcome State Fault Refusal :=
  s.on (fun c => if c.atBoundary then c.epochApply else c)

/-- A write to RESTORE (R426). -/
def Chip.opRestore (c : Chip) (v : Word) : Chip := c.modPlumb (fun p => { p with restore := p.restore ||| v })

/-- RESTORE. -/
def execRestore (value : Word) (s : State) : Host.Outcome State Fault Refusal :=
  s.onReg .plumb (fun c => (c.opRestore value, false)) 0x130

end Sys2Proof.Machine
end

