-- ==== Sys2Proof/Machine/Power.lean ====
section
/-! DEFINITION. The power unit: switched domains (R436 to R440, R447), the frequency and voltage loops (R441, R442, R451),
sensors (R435, R443), overrides (R445) and the shutdown (R446). -/
namespace Sys2Proof.Machine

def Chip.modPwr (c : Chip) (f : PowerS → PowerS) : Chip := { c with pwr := f c.pwr }

/-! ### Switched domains -/

/-- The request bit of a domain: register offset and bit (Table PWR-6). -/
def domPlace (d : Nat) : Nat × Nat :=
  if d < 64 then (0, d)
  else if d < 128 then (8, d - 64)
  else if d < 136 then (16, d - 128)
  else if d < 152 then (16, d - 136 + 8)
  else if d < 156 then (16, d - 152 + 24)
  else (16, 28)

/-- Is the domain asked for: its bit in DOM_CB, DOM_PORT or DOM_MISC? -/
def Chip.domAsked (c : Chip) (d : Nat) : Bool := bitAt (c.reg .power (0x138 + (domPlace d).1)) (domPlace d).2

def Chip.setAsked (c : Chip) (d : Nat) (on : Bool) : Chip :=
  let (o, i) := domPlace d
  c.setReg .power (0x138 + o) (setBits (c.reg .power (0x138 + o)) i i (bit on))

/-- DOM_CB_STS, DOM_PORT_STS, DOM_MISC_STS. -/
def Chip.setDomOn (c : Chip) (d : Nat) (on : Bool) : Chip :=
  let (o, i) := domPlace d
  c.setReg .power (0x150 + o) (setBits (c.reg .power (0x150 + o)) i i (bit on))

/-- The unit of a domain (Table PWR-1). -/
def domUnit (d : Nat) : UnitId :=
  if d < 64 then .cblk (regionOf (d / 16)) ⟨d % 16, Nat.mod_lt _ (by decide)⟩
  else if d < 128 then .port (portOf (d - 64))
  else if d < 136 then .memblk ⟨(d - 128) % 8, Nat.mod_lt _ (by decide)⟩
  else if d < 152 then .bufbank (regionOf ((d - 136) / 4)) ⟨(d - 136) % 4, Nat.mod_lt _ (by decide)⟩
  else if d < 156 then .mortar (regionOf (d - 152))
  else .hostport

/-- Domains of absent blocks are never powered (R437). -/
def Chip.domExists (c : Chip) (d : Nat) : Bool := c.present (domUnit d)

/-- R438: place in the order of ramps: host, banks, Mortars, stacks, ports, compute blocks, lower numbers first. -/
def rampKey (d : Nat) : Nat :=
  (if d = 156 then 0 else if 136 ≤ d && d < 152 then 1 else if 152 ≤ d then 2 else if 128 ≤ d then 3
    else if 64 ≤ d then 4 else 5) * 256 + d

/-- Every domain in that order. -/
def rampOrder : List Nat :=
  [156] ++ (List.range 16).map (136 + ·) ++ (List.range 4).map (152 + ·) ++ (List.range 8).map (128 + ·)
    ++ (List.range 64).map (64 + ·) ++ List.range 64

/-- R438: at most 8 domains ramp at once; the others wait in order of request. -/
def Chip.rampFill (c : Chip) : Chip :=
  c.modPwr (fun s =>
    let n := 8 - s.ramping.length
    { s with
      ramping := s.ramping ++ s.rampWait.take n
      rampWait := s.rampWait.drop n })

/-- A domain is asked to come on: nothing happens to one that is on or waking; one not yet down stays on. -/
def Chip.domTurnOn (c : Chip) (d : Nat) : Chip :=
  let c := c.setAsked d true
  let c := c.modPwr (fun s => { s with falling := s.falling.filter (· ≠ d), faulted := s.faulted.filter (· ≠ d) })
  if c.domOn d || c.pwr.ramping.contains d || c.pwr.rampWait.contains d then c
  else (c.modPwr (fun s => { s with rampWait := s.rampWait ++ [d] })).rampFill

/-- A domain is asked to go off. -/
def Chip.domTurnOff (c : Chip) (d : Nat) : Chip :=
  let c := (c.setAsked d false).modPwr (fun s => { s with
    ramping := s.ramping.filter (· ≠ d)
    rampWait := s.rampWait.filter (· ≠ d) })
  let c := if c.domOn d && !c.pwr.falling.contains d then c.modPwr (fun s => { s with falling := s.falling ++ [d] }) else c
  c.rampFill

/-- R439: is turning a domain off refused? -/
def Chip.domRefused (c : Chip) (d : Nat) : Bool :=
  let u := domUnit d
  let byRegion := match unitRegion u with
    | some r =>
      c.partStep r ≠ 0
        || (128 ≤ d && d < 136 && (regionUnits r).any (fun v => c.held v))
    | none => true
  let wq := match u with | .cblk r b => !(c.blk r b).wq.isEmpty | _ => false
  let room := match u with
    | .bufbank r i => decide (c.capacityWith r (fun k => c.bankServes r.val k && k ≠ i.val) < c.commitment r)
    | _ => false
  c.held u || byRegion || wq || room

/-- R439: one domain of a write. -/
def Chip.domBit (c : Chip) (d : Nat) (on : Bool) : Chip :=
  if !c.domExists d then c
  else if on then c.domTurnOn d
  else if !c.domAsked d then c
  else if c.domRefused d then
    let c := c.raise .power POWER.ev_domain_refused
    if c.flag .power POWER.DOM_REFUSED_valid then c else c.setReg .power 0x168 (setBits (setBits 0 63 63 1) 7 0 d)
  else c.domTurnOff d

/-- R439: a write to DOM_CB, DOM_PORT or DOM_MISC; `host` is RO. -/
def Chip.opDomains (c : Chip) (which : Nat) (v : Word) : Chip :=
  let doms := if which = 0 then List.range 64 else if which = 1 then (List.range 64).map (64 + ·)
    else (List.range 28).map (128 + ·)
  doms.foldl (fun c d => c.domBit d (bitAt v (domPlace d).2)) c

/-- A block leaves every directory. -/
def Chip.dropBlock (c : Chip) (b : Nat) : Chip :=
  (List.finRange 8).foldl (fun c s =>
    let dir := ((c.memS s).dir.map (fun e => (e.1, { e.2 with
        owner := if e.2.owner = some b then none else e.2.owner
        sharers := e.2.sharers.filter (· ≠ b) }))).filter (fun e => e.2.owner.isSome || !e.2.sharers.isEmpty)
    (c.modMem s (fun m => { m with dir := dir, recalls := m.recalls.filter (fun x => x.1 ≠ b) })).dirCount s) c

/-- Is a space of the memory map a compute block's? -/
def keyInBlock (r b k : Nat) : Bool :=
  let s := k / 2 ^ 40
  if s < 0x100 then false
  else if s < 0x1000 then s = 0x100 + 16 * r + b
  else (s % 0x1000) / 16 = 16 * r + b

/-- R437: a block as after reset: cells unloaded, program table and memories clear; recorded repairs stand. -/
def Chip.blockFresh (c : Chip) (r : Region) (b : BlockIx) : Chip :=
  let c := (c.dropBlock (blkNo r b)).resetRegs (· = .cblk r b)
  let c := { c with
    mem := c.mem.filter (fun e => !keyInBlock r.val b.val e.1)
    bad := c.bad.filter (fun k => !keyInBlock r.val b.val k)
    blocks := Tab.del c.blocks (blkNo r b) }
  let c := (List.range 8).foldl (fun c l => c.setCellState r b l 6) c
  c.repairs.foldl (fun c w => if getBits w 63 60 = 1 && getBits w 59 58 = r.val && getBits w 57 52 = b.val
    then c.applyRepair w else c) c

/-- Packets with cells in a bank that loses power are lost (R437, R409). -/
def Chip.bankLost (c : Chip) (r : Region) (i : Nat) : Chip :=
  ((c.xbar r).store.filter (fun e => e.2.places.any (fun k => k / 16 = i))).foldl (fun c e =>
    let gone := fun (x : XbarS) => { x with
      pairs := x.pairs.filter (fun p => !(p.src = r.val && p.ent.id = e.1))
      staging := x.staging.map (fun o => (o.1, o.2.filter (fun s => !(s.src = r.val && s.id = e.1 && s.landed < s.cells)))) }
    let c := c.forRegions (fun c q => c.modXbar q gone)
    (c.modXbar r (fun x => { x with queue := x.queue.filter (fun q => q.id ≠ e.1) })).freePacket r e.1) c

/-- A domain's contents are lost (R437). -/
def Chip.domClear (c : Chip) (d : Nat) : Chip :=
  match domUnit d with
  | .cblk r b => c.blockFresh r b
  | .port p =>
    let c := if c.portState p ≠ 0 then c.toQuiet p else c
    (c.resetRegs (· = .port p)).modPort p (fun s => ({ deadFrom := s.deadFrom } : PortS))
  | .memblk s =>
    -- the controller stays powered; its stack's contents are gone
    { c with mem := c.mem.filter (fun e => !keyInStack s e.1), bad := c.bad.filter (fun k => !keyInStack s k) }
  | .bufbank r i => (c.bankLost r i.val).recount r
  | .mortar r =>
    let c := (c.mortRelease r).resetRegs (· = .mortar r)
    ({ c with morts := Tab.del c.morts r.val }).loadLost r
  | .hostport =>
    let c := (c.resetRegs (· = .hostport)).setFld .hostport HOSTPORT.HP_STS_link_up 0
    { c with host := {} }
  | _ => c

/-- A domain goes down. -/
def Chip.domDown (c : Chip) (d : Nat) : Chip :=
  let c := (c.domClear d).setDomOn d false
  (c.modPwr (fun s => { s with
    falling := s.falling.filter (· ≠ d)
    ramping := s.ramping.filter (· ≠ d)
    rampWait := s.rampWait.filter (· ≠ d) })).rampFill

/-- Is a falling domain's unit idle (R438, R440)? -/
def Chip.domIdle (c : Chip) (d : Nat) : Bool :=
  match domUnit d with
  | .cblk r b => (c.blk r b).wq.isEmpty && (c.blk r b).dma.isEmpty
  | .memblk s => (c.memS s).queue.isEmpty
  | .bufbank r i => (c.xbar r).bankUsed i.val = 0
  | .mortar r => (c.mort r).queue.isEmpty
  | _ => true

/-- R438: power-down runs in the reverse order of the ramps among the domains that could go down. -/
def Chip.mayFall (c : Chip) (d : Nat) : Bool :=
  c.pwr.falling.contains d && c.domIdle d
    && (c.pwr.falling.filter (fun e => c.domIdle e)).all (fun e => decide (rampKey e ≤ rampKey d))

/-- A domain comes up as after reset (R437): STS reads 1. -/
def Chip.domUp (c : Chip) (d : Nat) : Chip :=
  let c := (c.setDomOn d true).modPwr (fun s => { s with ramping := s.ramping.filter (· ≠ d) })
  let c := match domUnit d with
    | .cblk r b =>
      -- ready from the end of boot or partition reset (R227)
      let c := c.blockFresh r b
      if c.fld .boot BOOT.BOOT_STS_state = 8 && c.partStep r = 0 then c.setFld (.cblk r b) readyFld 1 else c
    | .port p =>
      let c := c.setFld (.port p) PORT.PORT_STS_state 1
      c.repairs.foldl (fun (c : Chip) w => if getBits w 63 60 = 0 && 16 * getBits w 59 58 + getBits w 57 52 = p.val
        then c.applyRepair w else c) c
    | .memblk s => c.memInit s
    | .bufbank r i =>
      (c.repairs.foldl (fun (c : Chip) w => if getBits w 63 60 = 2 && getBits w 59 58 = r.val && getBits w 57 52 = i.val
        then c.applyRepair w else c) c).recount r
    | _ => c
  c.rampFill

/-! ### Clocks -/

/-- A byte of a register's die r with clock and voltage codes interleaved (Tables PWR-3, PWR-6). -/
def Chip.dieByte (c : Chip) (pos r : Nat) (volt : Bool) : Nat :=
  let lo := 16 * r + (if volt then 8 else 0)
  getBits (c.reg .power pos) (lo + 7) lo

/-- Codes beyond the limits of R451 act as the limits. -/
def clampCode (volt : Bool) (v : Nat) : Nat := if volt then min 180 (max 130 v) else min 90 (max 40 v)

def Chip.fqFloor (c : Chip) (r : Nat) : Nat := clampCode false (c.dieByte 0x90 r false)
def Chip.fqCeil (c : Chip) (r : Nat) : Nat := clampCode false (c.dieByte 0x98 r false)
def Chip.fqNow (c : Chip) (r : Nat) : Nat := c.dieByte 0x110 r false
def Chip.mvNow (c : Chip) (r : Nat) : Nat := c.dieByte 0x110 r true

/-- Is an override in force on compute die r (Table PWR-4)? -/
def Chip.overridden (c : Chip) (r : Nat) : Bool :=
  c.pwr.trips.any (fun t => t = r || 4 ≤ t) || c.pwr.ocps.any (fun o => o = r || o = 4)

/-- `throttled_us` up to now: µs with some ACLK below its floor (OVERRIDE_COUNT). -/
def Chip.belowSettle (c : Chip) : Chip :=
  match c.pwr.belowFrom with
  | none => c
  | some t =>
    let us := (c.now - t) * 16 / 25000
    (c.bump .power POWER.OVERRIDE_COUNT_throttled_us (us - c.pwr.belowGiven)).modPwr (fun s => { s with belowGiven := us })

/-- After a change of clock or window: since when some clock has been below its floor, and which dies an override holds
below theirs in this course (R39). -/
def Chip.belowNote (c : Chip) : Chip :=
  let below := (List.range 4).filter (fun r => c.fqNow r < c.fqFloor r && !c.boot.shut && c.boot.coresUp)
  let held := below.filter (fun r => c.overridden r)
  let c := c.belowSettle
  c.modPwr (fun s => { s with
    belowFrom := if below.isEmpty then none else if s.belowFrom.isSome then s.belowFrom else some c.now
    belowGiven := if below.isEmpty || s.belowFrom.isNone then 0 else s.belowGiven
    heldBelow := s.heldBelow ++ held.filter (fun r => !s.heldBelow.contains r) })

/-- Set ACLKr. -/
def Chip.setFq (c : Chip) (r v : Nat) : Chip :=
  (c.setReg .power 0x110 (setBits (c.reg .power 0x110) (16 * r + 7) (16 * r) v)).belowNote

/-- Set die r's rail. -/
def Chip.setMv (c : Chip) (r v : Nat) : Chip :=
  c.setReg .power 0x110 (setBits (c.reg .power 0x110) (16 * r + 15) (16 * r + 8) v)

/-- 1,500 MHz in 25 MHz units: the protective clock. -/
abbrev protectiveFq : Nat := 60

/-- The dies an override begins or ends on. -/
def diesOf (n : Nat) : List Nat := if n < 4 then [n] else [0, 1, 2, 3]

/-- R445: an override begins on the dies of `n`; what it finds in POLICY_CEIL serves until it ends. -/
def Chip.overrideOn (c : Chip) (n ev code : Nat) (count : Fld) (f : PowerS → PowerS) : Chip :=
  let new := (diesOf n).filter (fun r => !c.overridden r)
  let c := c.modPwr (fun s => { s with ceilHeld := new.foldl (fun t r => Tab.put t r (c.reg .power 0x98)) s.ceilHeld })
  let c := (((c.modPwr f).raise .power evOverride).error .power ev code [BitVec.ofNat 64 n]).bump .power count
  (diesOf n).foldl (fun c r => c.setFq r protectiveFq) c

/-- R445: overrides end: a die with none left returns to its floor. -/
def Chip.overrideOff (c : Chip) (dies : List Nat) (f : PowerS → PowerS) : Chip :=
  let c := c.modPwr f
  dies.foldl (fun c r => if c.overridden r then c
    else (c.modPwr (fun s => { s with ceilHeld := Tab.del s.ceilHeld r })).setFq r (c.fqFloor r)) c

/-- Effective `throttle_c`, `trip_c` and `power_cap` (Table PWR-6). -/
def Chip.throttleC (c : Chip) : Nat := c.fld .power POWER.PWR_CTL_throttle_c
def tripOf (ctl : Word) : Nat := min 110 (max (getBits ctl 31 24 + 5) (getBits ctl 23 16))
def Chip.tripC (c : Chip) : Nat := tripOf (c.reg .power 0x100)
/-- `trip_c` for the end of a trip in force (R445). -/
def Chip.tripHeld (c : Chip) (n : Nat) : Nat := tripOf ((Tab.find c.pwr.tripCtl n).getD (c.reg .power 0x100))
def Chip.powerCap (c : Chip) : Nat := min 1650 (max 400 (c.fld .power POWER.PWR_CTL_power_cap))

/-- TEMP_STS of die n: compute die r is r, base die r is 4 + r. -/
def Chip.tempOf (c : Chip) (n : Nat) : Nat := getBits (c.reg .power 0x118) (8 * n + 7) (8 * n)

/-- R446: every switched domain and region core goes down; PD_AON stays. -/
def Chip.shutdown (c : Chip) (code : Nat) : Chip :=
  if c.boot.shut then c
  else
    let c := c.forPorts (fun c p => if c.linked p then c.leaveTo p 0 else c)
    let c := rampOrder.reverse.foldl (fun c d => if c.domOn d then c.domDown d else c) c
    let c := c.forRegions Chip.clearRegion
    let c := c.modPwr (fun s => { s with
      ramping := []
      rampWait := []
      falling := [] })
    let c := c.setFld .power POWER.LAST_SHUTDOWN_fault_code code
    let b := { c.boot with
      shut := true
      coresUp := false
      thermtrip := c.boot.thermtrip || code = 0x94 }
    ({ c with boot := b }).showD2d

/-- R441: one step of the frequency loop of die r. -/
def Chip.fqStep (c : Chip) (r : Nat) : Chip :=
  if c.overridden r || c.boot.shut || !c.boot.coresUp then c
  else
    let fq := c.fqNow r
    let lo := c.fqFloor r
    let hi := c.fqCeil r
    let hot := c.tempOf r
    let watts := c.fld .power POWER.PWR_STS_pin_w
    let down := c.throttleC < hot || c.powerCap < watts
    let up := hot < c.throttleC - 3 && watts < c.powerCap - 25
    let was := c.pwr.throttling.contains r
    let went := fun (c : Chip) (d : Bool) => c.modPwr (fun s => { s with
      throttling := if d then r :: s.throttling.filter (· ≠ r) else s.throttling.filter (· ≠ r) })
    if fq < lo then (went c false).setFq r lo
    else if hi < fq then (went c true).setFq r hi
    else if c.pwr.short.contains r then (went c true).setFq r (max lo (fq - 1))
    else
      let c := went (c.raiseIf (down && !was) .power POWER.ev_throttling) down
      if down then c.setFq r (max lo (fq - 1)) else if up then c.setFq r (min hi (fq + 1)) else c

/-- The fused margin target of die r at the frequency in force (R442, Table BOOT-4). -/
def Chip.marginTarget (c : Chip) (r : Nat) : Nat := Tab.get c.fuses.marginTarget (256 * r + c.fqNow r) 0

/-- The voltage codes that bound die r's rail; in an override the floor does not, and the ceiling is the one it found (R442,
R445, R451). -/
def Chip.mvFloor (c : Chip) (r : Nat) : Nat := if c.overridden r then 0 else clampCode true (c.dieByte 0x90 r true)
def Chip.mvCeil (c : Chip) (r : Nat) : Nat :=
  clampCode true (getBits ((Tab.find c.pwr.ceilHeld r).getD (c.reg .power 0x98)) (16 * r + 15) (16 * r + 8))

/-- R442: one step of the voltage loop of die r, given the margin that its monitors show. -/
def Chip.mvStep (c : Chip) (r margin : Nat) : Chip :=
  if c.boot.shut || !c.boot.coresUp then c
  else
    let mv := c.mvNow r
    let low := decide (margin < c.marginTarget r)
    let high := decide (c.marginTarget r < margin)
    let lo := c.mvFloor r
    let hi := c.mvCeil r
    let stuck := low && hi ≤ mv
    let c := c.modPwr (fun s => { s with
      short := if stuck then r :: s.short.filter (· ≠ r) else s.short.filter (· ≠ r) })
    if mv < lo then c.setMv r lo
    else if hi < mv then c.setMv r hi
    else if low then c.setMv r (min hi (mv + 1))
    else if high then c.setMv r (max lo (mv - 1))
    else c

/-! ### Samples -/

/-- R435: an input sample: mV, 0.1 A, W. -/
def Chip.inputSample (c : Chip) (mv dA w : Nat) : Chip :=
  let c := c.setReg .power 0x108 (setBits (setBits (setBits 0 63 48 mv) 47 32 dA) 31 16 w)
  let e := c.pwr.energyRest + w
  let c := (c.wrap .power POWER.ENERGY_energy_mj (e / 100)).modPwr (fun s => { s with energyRest := e % 100 })
  let c := if mv < 11400 || 12600 < mv then c.error .power POWER.ev_vin_range 0x93 [BitVec.ofNat 64 mv] else c
  let low := decide (mv < 10800)
  let twice := low && c.pwr.vinLow
  let c := c.modPwr (fun s => { s with vinLow := low })
  if twice then c.shutdown 0x95 else c

/-- The sensors of one die that passed their self-check. -/
def goodSensors (l : List (Option (BitVec 8))) : List Nat := l.filterMap (·.map BitVec.toNat)

/-- R443, R445: one die's sample. -/
def Chip.dieSample (c : Chip) (n : Nat) (l : List (Option (BitVec 8))) : Chip :=
  let good := goodSensors l
  let hot := if good.isEmpty then c.tripC else good.foldl max 0
  let c := if l.any Option.isNone || l.isEmpty then c.error .power POWER.ev_sensor_fail 0x96 [BitVec.ofNat 64 n] else c
  let c := c.setReg .power 0x118 (setBits (c.reg .power 0x118) (8 * n + 7) (8 * n) hot)
  let c := if good.isEmpty then c else c.peak .power POWER.TEMP_PEAK_peak_c hot
  if c.tripC ≤ hot && !c.pwr.trips.contains n && !c.boot.shut then
    c.overrideOn n POWER.ev_trip_override 0x90 POWER.OVERRIDE_COUNT_trip_overrides (fun s => { s with
      trips := s.trips ++ [n]
      tripCtl := Tab.put s.tripCtl n (c.reg .power 0x100) })
  else c

/-- R443, R446: a sample of every die: the compute dies' sensors, then the base dies'. -/
def Chip.sensorSample (c : Chip) (compute base : List (Option (BitVec 8))) : Chip :=
  let c := (List.range 4).foldl (fun c r => c.dieSample r ((compute.drop (8 * r)).take 8)) c
  let c := (List.range 4).foldl (fun c r => c.dieSample (4 + r) ((base.drop (4 * r)).take 4)) c
  if (goodSensors (compute.take 32) ++ goodSensors (base.take 16)).any (fun t => decide (120 ≤ t)) then c.shutdown 0x94 else c

/-- The number of a rail: die r, or 4 for the input. -/
def railNo : Rail → Nat
  | .die r => r.val
  | .input => 4

/-- R447: a domain's regulator fails. -/
def Chip.railFault (c : Chip) (d : Nat) : Chip :=
  if !c.domOn d && !c.pwr.ramping.contains d then c
  else
    let u := domUnit d
    let held := unitScope u < 4 && c.held u
    let c := c.error .power POWER.ev_rail_fault 0x92 [BitVec.ofNat 64 d]
    let start := match unitRegion u with
      | some r => if held then c.partStart r { code := 0x92 } else c
      | none => c
    (start.domDown d).modPwr (fun s => { s with faulted := d :: s.faulted.filter (· ≠ d) })

/-! ### The commands -/

/-- INPUT_SAMPLE. -/
def execInputSample (mv dA w : BitVec 16) (s : State) : Host.Outcome State Fault Refusal :=
  s.on (fun c => c.inputSample mv.toNat dA.toNat w.toNat)

/-- SENSOR_SAMPLE. -/
def execSensorSample (compute base : List (Option (BitVec 8))) (s : State) : Host.Outcome State Fault Refusal :=
  s.on (fun c => c.sensorSample compute base)

/-- TRIP_OVERRIDE_END: the trips of compute and base die r whose sensor is below `trip_c` − 10 °C end. -/
def execTripOverrideEnd (r : Region) (s : State) : Host.Outcome State Fault Refusal :=
  s.on (fun c =>
    let ended := c.pwr.trips.filter (fun n => n % 4 = r.val && decide (c.tempOf n + 10 < c.tripHeld n))
    if ended.isEmpty then c
    else c.overrideOff (ended.flatMap diesOf) (fun s => { s with
      trips := s.trips.filter (fun n => !ended.contains n)
      tripCtl := ended.foldl Tab.del s.tripCtl }))

/-- OVERCURRENT. -/
def execOvercurrent (at_ : Rail) (s : State) : Host.Outcome State Fault Refusal :=
  s.on (fun c =>
    let n := railNo at_
    if c.pwr.ocps.contains n || c.boot.shut then c
    else c.overrideOn n POWER.ev_ocp_override 0x91 POWER.OVERRIDE_COUNT_ocp_overrides (fun s =>
      { s with ocps := s.ocps ++ [n] }))

/-- OVERCURRENT_END. -/
def execOvercurrentEnd (at_ : Rail) (s : State) : Host.Outcome State Fault Refusal :=
  s.on (fun c =>
    let n := railNo at_
    if c.pwr.ocps.contains n then c.overrideOff (diesOf n) (fun s => { s with ocps := s.ocps.filter (· ≠ n) }) else c)

/-- FREQUENCY_STEP. -/
def execFrequencyStep (r : Region) (s : State) : Host.Outcome State Fault Refusal := s.on (fun c => c.fqStep r.val)

/-- VOLTAGE_STEP. -/
def execVoltageStep (r : Region) (margin : BitVec 16) (s : State) : Host.Outcome State Fault Refusal :=
  s.on (fun c => c.mvStep r.val margin.toNat)

/-- RAIL_FAULT of a switched domain. -/
def execRailFault (dom : Fin 157) (s : State) : Host.Outcome State Fault Refusal := s.on (fun c => c.railFault dom.val)

/-- DOMAIN_WRITE. -/
def execDomainWrite (which : Fin 3) (value : Word) (s : State) : Host.Outcome State Fault Refusal :=
  s.onReg .power (fun c => (c.opDomains which.val value, false)) (0x138 + 8 * which.val)

/-- DOMAIN_RAMP_DONE. -/
def execDomainRampDone (dom : Fin 157) (s : State) : Host.Outcome State Fault Refusal :=
  s.on (fun c => if c.pwr.ramping.contains dom.val then c.domUp dom.val else c)

/-- DOMAIN_POWER_DOWN. -/
def execDomainPowerDown (dom : Fin 157) (s : State) : Host.Outcome State Fault Refusal :=
  s.on (fun c => if c.mayFall dom.val then c.domDown dom.val else c)

/-- BANK_DRAIN_DONE (R440): a bank turned off whose `cells_used` is 0. -/
def execBankDrainDone (r : Region) (i : Fin 4) (s : State) : Host.Outcome State Fault Refusal :=
  s.on (fun c =>
    let d := 136 + 4 * r.val + i.val
    if c.pwr.falling.contains d && (c.xbar r).bankUsed i.val = 0 then c.domDown d else c)

end Sys2Proof.Machine
end

