-- ==== Sys2Proof/Machine/Forward.lean ====
section
/-! DEFINITION. Forwarding: the ingress checks (R105), meters and diversion (R103, R136, R169), the match of the crossbar
(R110 to R113), die-to-die cells, the output schedulers (R131 to R135, R140, R144), buffer errors (R409) and fences at
ingress (R173). -/
namespace Sys2Proof.Machine

/-! ### Ingress -/

/-- The job of a port (PORT_JOB). -/
def Chip.portJob (c : Chip) (r : Region) (i : Nat) : Nat :=
  getBits (c.reg (.xbar r) (0x118 + 8 * (i / 4))) (16 * (i % 4) + 15) (16 * (i % 4))

/-- Does the ledger of region r record a MEM_REQ from this input (R169)? -/
def Chip.ledgered (c : Chip) (r : Region) (inp : Nat) : Bool :=
  match inputPort r inp with | some p => c.portRole p ≠ 2 | none => true

/-- Check 7 of Table FWD-3: does the packet have a route (R118, R117, R425)? A port on the endpoint side needs no output for
its unicast packets (R80). A recorded MEM_REQ passes when its route names a lost Pysum: its ledger completes it. -/
def Chip.routeOk (c : Chip) (r : Region) (inp : Nat) (pkt : Packet) : Bool :=
  let role := match inputPort r inp with | some p => c.portRole p | none => 3
  if pkt.mcast then
    pkt.dst < 1024 && bitAt (c.reg (.xbar r) (0x9000 + 16 * pkt.dst)) 63
      && (if role = 2 then pkt.hops = 1 else pkt.hops = 0)
  else if role = 0 then true
  else
    let (valid, t, _, _) := c.routeEntry r pkt.dst
    valid && (if c.lost r t then pkt.kind = 2 && pkt.op ≠ 12 && c.ledgered r inp else (c.ingressWay r inp pkt).isSome)

/-- The number of the first check of Table FWD-3 that fails; 0 when all pass. -/
def Chip.ingressCheck (c : Chip) (r : Region) (inp : Nat) (a : Arrival) : Nat :=
  let pkt := a.pkt
  let role := match inputPort r inp with | some p => c.portRole p | none => 3
  let edge := inp < 16 && role ≤ 1
  let srcBad := match inputPort r inp with
    | some p => edge && c.flag (.xbar r) XBAR.XBAR_CTL_strict_src && pkt.src ≠ c.fld (.port p) PORT.PORT_STS_far_epid
    | none => pkt.src ≠ c.epid r
  let tooBig := match inputPort r inp with
    | some p => decide (c.grantOf p pkt.tc < (c.xbar r).usedBy inp pkt.tc + pkt.cells)
    | none => false
  if a.badFrame || 8192 < pkt.len then 1
  else if pkt.version ≠ 2 || 8 ≤ pkt.kind || getBits pkt.w0 10 0 ≠ 0 then 2
  else if pkt.crc ≠ pkt.crcOf || pkt.payload.length ≠ pkt.len then 3
  else if tooBig then 4
  else if srcBad then 5
  else if edge && pkt.job ≠ c.portJob r inp then 6
  else if c.routeOk r inp pkt then 0 else 7

/-- Answer a FABRIC_SEND whose packet has been stored (check 0) or has failed a check (R399). -/
def Chip.answerSend (c : Chip) (a : Arrival) (check : Nat) : Chip :=
  match a.reply with
  | some (k, ep, m) => c.answer k ep m (if check = 0 then 0 else 4) (BitVec.ofNat 64 check)
  | none => c

/-- A packet that failed a check is discarded whole: counter, event, capture; its credits return (R105). -/
def Chip.ingressFail (c : Chip) (r : Region) (inp : Nat) (a : Arrival) (check : Nat) : Chip :=
  let u := UnitId.xbar r
  let (f, ev, code) :=
    if check ≤ 2 then (XBAR.XBAR_COUNT_hdr_errors, XBAR.ev_hdr_error, 0x20)
    else if check = 3 then (XBAR.XBAR_COUNT_crc_errors, XBAR.ev_pkt_crc_error, 0x21)
    else if check ≤ 6 then (XBAR.XBAR_COUNT_policy_discards, XBAR.ev_policy_violation, 0x22)
    else (XBAR.XBAR_COUNT_unroutable, XBAR.ev_unroutable, 0x23)
  let c := (c.bump u f).error u ev code [a.pkt.w0, BitVec.ofNat 64 (256 * inp + check)]
  (c.returnCredits r inp a.pkt.tc (min 17 a.pkt.cells)).answerSend a check

/-- What becomes of a stored packet that may join its queue: it has gone on, or waits for what `rest` says. -/
inductive Next where
  | gone
  | waits (told : Bool) (rest : Option (List (Nat × Nat × Option Nat)))
  deriving DecidableEq, Repr

/-- A multicast packet's copies join their queues; while the pool is empty the others wait (R109, R116, R117). With no copy
to make, its cells are free. -/
def Chip.forwardCopies (c : Chip) (r : Region) (id : Nat) (st : Stored) (h : Held) : Chip × Next :=
  let (c, owed) := match h.rest with
    | some l => (c, l)
    | none => c.owedCopies r id st.pkt (if st.inp < 16 then some (16 * r.val + st.inp) else none)
  if h.rest.isNone && owed.isEmpty then (c.freePacket r id, .gone)
  else
    let (c, rest) := c.putCopies r id st.inp st.pkt owed
    if rest.isEmpty then (c, .gone)
    else (c.raiseIf (!h.told) (.xbar r) XBAR.ev_copy_pool_empty, .waits true (some rest))

/-- A packet that no unit holds back goes on: to its copies' queues, or to its one queue. A packet that a port on the endpoint
side brought is for the own region endpoint alone, multicast or not (R80). -/
def Chip.forwardOn (c : Chip) (r : Region) (id : Nat) (st : Stored) (h : Held) : Chip × Next :=
  let near := match inputPort r st.inp with | some p => decide (c.portRole p = 0) | none => false
  if st.pkt.mcast && !near then c.forwardCopies r id st h else (c.goOn r id st.pkt, .gone)

/-- A MEM_REQ passes the combining unit, which may hold it and its cells (R163). -/
def Chip.forwardReq (c : Chip) (r : Region) (id : Nat) (st : Stored) (h : Held) : Chip × Next :=
  let (c, held) := if h.rest.isSome then (c, false) else c.combJoin r id st.pkt
  if held then (c, .gone) else c.forwardOn r id st h

/-- A stored packet of a diverted kind goes to the Mortar array with its cells (R103). -/
def Chip.divert (c : Chip) (r : Region) (id : Nat) (pkt : Packet) : Chip :=
  { c with morts := Tab.put c.morts r.val { c.mort r with queue := (c.mort r).queue ++ [(pkt, some id)] } }

/-- Where a stored packet that passed its checks and its meter goes: first to the unit its kind is diverted to, then to its
queue (R103, R109, R169, R170, R173). A STREAM that a program of the region's own Mortar array emits at input 16 is not
diverted to it again (R326). -/
def Chip.forwardPacket (c : Chip) (r : Region) (id : Nat) (st : Stored) (h : Held) : Chip × Next :=
  let pkt := st.pkt
  let wait : Chip × Next := (c, .waits h.told none)
  if h.settled then c.forwardOn r id st h
  else match pkt.kind with
  | 1 => if !pkt.mcast && pkt.dst = c.epid r then (c.divert r id pkt, .gone) else c.forwardOn r id st h
  | 2 =>
    if h.rest.isSome || !c.ledgered r st.inp then c.forwardReq r id st h
    else if pkt.op = 12 then wait
    else
      let (c, w) := c.ledgerTake r st.inp pkt
      match w with
      | .wait => (c, .waits h.told none)
      | .gone => (c.freePacket r id, .gone)
      | .pass => c.forwardReq r id st h
  | 3 => if c.rspHere r pkt then wait else c.forwardOn r id st h
  | 6 => if !pkt.bypass && st.inp ≠ 16 then (c.divert r id pkt, .gone) else c.forwardOn r id st h
  | _ => c.forwardOn r id st h

/-- The waiting packet at the head of an input and class is tried: metered unless it has been, then forwarded (R136, R137). A
settled packet and one of an input that is not a port with role 0 or 1 meets no meter. -/
def Chip.tryHead (c : Chip) (r : Region) (k : Nat) : Chip :=
  match (c.xbar r).heldHead k with
  | none => c
  | some (h, st) =>
    let (c, pass) := match inputPort r st.inp with
      | some p => if h.checked || 2 ≤ c.portRole p then (c, true) else c.meter p st.pkt h.told
      | none => (c, true)
    if !pass then c.setHead r k (some { h with told := true })
    else
      -- what is told of a hold is no word on copy descriptors
      let h := if h.checked then h else { h with checked := true, told := false }
      let (c, next) := (c.setHead r k (some h)).forwardPacket r h.id st h
      match next with
      | .gone => (c.setHead r k none).recount r
      | .waits told rest => c.setHead r k (some { h with told := told, rest := rest })

/-- Does the ledger take a recorded MEM_REQ now (R162, R169)? -/
def Chip.ledgerOpen (c : Chip) (r : Region) (inp : Nat) (pkt : Packet) : Bool := (c.ledgerTake r inp pkt).2 ≠ .wait

/-- Can the head of an input and class go on now, its meter apart? -/
def Chip.canGo (c : Chip) (r : Region) (k : Nat) : Bool :=
  match (c.xbar r).heldHead k with
  | none => false
  | some (h, st) =>
    if !h.checked then !h.told
    else if h.rest.isSome then decide (c.copiesUsed r < 16384)
    else if h.settled || st.pkt.kind ≠ 2 then st.pkt.kind ≠ 3 || h.settled
    else st.pkt.op ≠ 12 && c.ledgerOpen r st.inp st.pkt

/-- The class of an input whose waiting head can go now; of a stopped input, only the one that stops it (R109). -/
def Chip.heldReady (c : Chip) (r : Region) (inp : Nat) : Option Nat :=
  let x := c.xbar r
  (List.range 8).find? (fun t => c.canGo r (8 * inp + t) && (!x.inputStopped inp || match x.heldHead (8 * inp + t) with
    | some (h, _) => h.rest.isSome
    | none => false))

/-- May a packet be stored at an input now: it is not stopped (R109), the buffer has free cells (R413), and at a region
endpoint input the allotment has room (R108)? -/
def Chip.mayStore (c : Chip) (r : Region) (inp : Nat) (pkt : Packet) : Bool :=
  let n := min 17 pkt.cells
  !(c.xbar r).inputStopped inp && c.roomFor r n
    && (inp < 16 || (c.xbar r).endpointUsed + n ≤ c.fld (.xbar r) XBAR.BUF_ALLOT_endpoint)

/-- The next arrival of an input is checked and stored; it goes its way, or waits behind its like (R105, R107, R137). -/
def Chip.storeNext (c : Chip) (r : Region) (inp : Nat) : Chip :=
  match Tab.get (c.xbar r).arrivals inp [] with
  | [] => c
  | a :: rest =>
    if !c.mayStore r inp a.pkt then c
    else
      let put := fun (x : XbarS) =>
        { x with arrivals := if rest.isEmpty then Tab.del x.arrivals inp else Tab.put x.arrivals inp rest }
      let c := c.modXbar r put
      let check := if a.settled then 0 else c.ingressCheck r inp a
      if check ≠ 0 then c.ingressFail r inp a check
      else
        let c := match inputPort r inp with | some p => c.awlPacket p false a.pkt | none => c
        let k := 8 * inp + a.pkt.tc
        let first := (Tab.get (c.xbar r).held k []).isEmpty
        let (c, id) := (c.answerSend a 0).keep r inp a.pkt
        let c := c.modXbar r (fun x =>
          { x with held := Tab.put x.held k (Tab.get x.held k [] ++ [{ id := id, settled := a.settled }]) })
        if first then c.tryHead r k else c

/-! ### Output schedulers -/

/-- `guard` of a port. -/
def Chip.guarded (c : Chip) (p : Port) : Bool := c.flag (.port p) PORT.SCHED_CTL_guard

/-- The head of a class in a port's staging. -/
def Chip.portHead (c : Chip) (p : Port) (tc : Nat) : Option Staged :=
  stagingHead (Tab.get (c.xbar (portRegion p)).staging (p.val % 16) []) tc

/-- Is a class eligible at a port but for its gate: its head has its first cell in staging, and the link has all its credits
(R89, R132)? A Pysum whose own domain is declared sends nothing to its peers (R425). -/
def Chip.ready1 (c : Chip) (p : Port) (tc : Nat) : Bool :=
  match c.portHead p tc with
  | some s => 1 ≤ s.landed && s.pkt.cells ≤ c.credit p tc && !c.plumbOnly p
  | none => false

/-- Does the gate admit the class's head now (R140)? -/
def Chip.gateAdmits (c : Chip) (p : Port) (tc : Nat) : Bool :=
  match c.portHead p tc with
  | some s => (c.gateView p).admits (c.guarded p) tc (guardCycles s.pkt.len)
  | none => false

/-- The packet as it leaves: one that an uncorrectable word met has its CRC inverted (R409). -/
def Staged.out (s : Staged) : Packet :=
  if s.damaged then { s.pkt with w3 := setBits s.pkt.w3 63 32 (2 ^ 32 - 1 - s.pkt.crc) } else s.pkt

/-- QDELAY of a port and class (R145). -/
def Chip.noteDelay (c : Chip) (p : Port) (tc : Nat) (storedAt : Nat) : Chip :=
  let d := 24 * tc
  let t := c.now - storedAt
  ((c.bump (.port p) (PORT.QDELAY_packets.plus d)).peak (.port p) (PORT.QDELAY_delay_max.plus d) t).bump (.port p)
    (PORT.QDELAY_SUM_delay_sum.plus d) t

/-- Does a packet at a region endpoint wait for the host: RESULT with `host`, DATA, STREAM with `bypass` (R399)? -/
def hostBound (p : Packet) : Bool := (p.kind = 5 && p.isHost) || p.kind = 0 || (p.kind = 6 && p.bypass)

/-- Can the event session take a host-bound packet now, to send or, while it is CLOSED, to discard it (R392, R399)? -/
def Chip.hostTakes (c : Chip) (pkt : Packet) : Bool :=
  let k := c.eventSession
  c.sessState k = 0 || ((c.sess k).waiting.isEmpty && c.sessSends k pkt.bytes.length)

/-- A packet that reached the region endpoint goes to its unit; one that was damaged fails its integrity check there. A
host-bound one leaves by the command that starts it. -/
def Chip.endpointTake (c : Chip) (r : Region) (pkt : Packet) : Chip :=
  if pkt.crc ≠ pkt.crcOf then (c.bump (.xbar r) XBAR.XBAR_COUNT_crc_errors).raise (.xbar r) XBAR.ev_pkt_crc_error
  else match pkt.kind with
  | 1 => { c with morts := Tab.put c.morts r.val { c.mort r with queue := (c.mort r).queue ++ [(pkt, none)] } }
  | 3 =>
    let key := pkt.tc * 2 ^ 20 + pkt.seq
    match Tab.find (c.fab r).owners key with
    | some (.dma b ix part) =>
      (c.modFab r (fun f => { f with owners := Tab.del f.owners key })).dmaAnswer r ⟨b % 16, Nat.mod_lt _ (by decide)⟩ ix
        part pkt
    | some (.batch k) => (c.modFab r (fun f => { f with owners := Tab.del f.owners key })).batchWritten r k pkt.status
    | none => c
  | k => if hostBound pkt then c else c.toInbox r k pkt

/-- A packet leaves the staging of a local output whole: to the link of a port, or to the unit behind a region endpoint. -/
def Chip.handOver (c : Chip) (r : Region) (o : Nat) (st : Staged) : Chip :=
  let c := c.modXbar r (fun x => { x with staging := Tab.put x.staging o ((Tab.get x.staging o []).erase st) })
  if o < 16 then
    let p := portOf (16 * r.val + o)
    (c.awlPacket p true st.out).sendPacket p st.out
  else c.endpointTake r st.out

/-- The scheduler starts a packet: `vtime` moves, a TC0 packet draws from the monitor bucket, and the next of its class becomes
the head (R131, R133, R144). It is handed over once its last cell has landed. -/
def Chip.schedStart (c : Chip) (r : Region) (o : Nat) (st : Staged) : Chip :=
  let w := if o < 16 then (c.port (portOf (16 * r.val + o))).wfq else Tab.get (c.xbar r).chans (o - 16) {}
  let w := w.start st.tc
  let (w, excess) := if st.tc = 0 then w.keystone c.now st.pkt.size else (w, 0)
  let c := c.modSched r o (fun _ => w)
  let c := if excess = 0 then c
    else if o < 16 then
      let p := portOf (16 * r.val + o)
      (c.bump (.port p) PORT.KEYSTONE_MON_excess_bytes excess).raise (.port p) PORT.ev_keystone_excess
    else (c.bump (.xbar r) (XBAR.KEYSTONE_EP_excess_bytes.plus (8 * (o - 16))) excess).raise (.xbar r) XBAR.ev_keystone_excess
  let c := c.modXbar r (fun x => { x with staging := Tab.put x.staging o ((Tab.get x.staging o []).map (fun y =>
    if y = st then { st with started := true } else y)) })
  (if st.landed = st.cells then c.handOver r o { st with started := true } else c).tagOutput r o

/-- Can the transmitter of a port start a packet: ACTIVE and not on its way into idle, nothing started or waiting to leave, no
replay under way and room in the replay buffer (R82, R85, R87, R96, R131)? -/
def Chip.canStart (c : Chip) (p : Port) : Bool :=
  let s := c.port p
  c.portActive p && !s.idleEntering && s.txWait.isEmpty && s.replayQ.isEmpty && decide (s.replay.length < 2048)
    && (Tab.get (c.xbar (portRegion p)).staging (p.val % 16) []).all (fun x => !x.started)

/-- R131: the transmitter of a port starts the chosen packet. An idle link that has traffic wakes (R96). -/
def Chip.portStart (c : Chip) (p : Port) : Chip :=
  if c.portState p = 8 && c.portTraffic p then c.setFld (.port p) PORT.PORT_STS_state 9
  else if !c.canStart p then c
  else
    match (c.port p).wfq.choose (fun t => c.ready1 p t && c.gateAdmits p t) with
    | none => c
    | some tc =>
      match c.portHead p tc with
      | none => c
      | some st =>
        let tooBig := (c.gateView p).overruns tc (2 * ceilDiv st.pkt.size 240)
        let c := c.modPort p (fun s => { s with blocked := Tab.del s.blocked tc })
        let c := if tooBig then c.bump (.port p) PORT.GATE_COUNT_gate_overruns else c
        let c := (c.noteDelay p tc st.storedAt).setCredit p tc (c.credit p tc - st.pkt.cells)
        c.schedStart (portRegion p) (p.val % 16) st

/-- R131, R135: the packet that a region endpoint channel takes next. A host-bound head is eligible while the host can take it:
until then it waits in staging, and its class alone (R114, R399). -/
def Chip.channelNext (c : Chip) (r : Region) (k : Nat) : Option Staged :=
  let l := Tab.get (c.xbar r).staging (16 + k) []
  if l.any (·.started) then none
  else ((Tab.get (c.xbar r).chans k {}).choose (fun t => match stagingHead l t with
    | some s => 1 ≤ s.landed && (!hostBound s.pkt || c.hostTakes s.pkt)
    | none => false)).bind (stagingHead l)

/-- R135: a channel of a region endpoint starts the chosen packet; a host-bound one leaves with RESULT_MESSAGE or RECV. -/
def Chip.channelStart (c : Chip) (r : Region) (k : Nat) : Chip :=
  match c.channelNext r k with
  | some st => if hostBound st.pkt then c else c.schedStart r (16 + k) st
  | none => c

/-- The first channel of a region that takes a whole host-bound packet next, and the packet. -/
def Chip.hostHead (c : Chip) (r : Region) (want : Packet → Bool) : Option (Nat × Staged) :=
  (List.range 4).findSome? (fun k => match c.channelNext r k with
    | some st => if hostBound st.pkt && want st.pkt && st.landed = st.cells then some (k, st) else none
    | none => none)

/-! ### Die-to-die -/

/-- Does a direction hold its cells for a spare wire (R410)? -/
def Chip.wireHeld (c : Chip) (i j : Region) : Bool := !(Tab.get (c.xbar i).wireDown j.val []).isEmpty

/-- The hops from region i to region j: the direct link, or by the lowest-numbered live third region when it is lost (R113). -/
def Chip.d2dPath (c : Chip) (i j : Region) : Option (List (Region × Region)) :=
  if c.d2dUp i j then some [(i, j)]
  else if c.inReset i || c.inReset j then none
  else match (List.finRange 4).find? (fun k => k ≠ i && k ≠ j && c.d2dUp i k && c.d2dUp k j) with
    | some k => some [(i, k), (k, j)]
    | none => none

/-- The links that a cell from region i to region j takes; none when it stays. -/
def Chip.d2dLinks (c : Chip) (i j : Region) : List (Region × Region) := if i = j then [] else (c.d2dPath i j).getD []

/-- Can a cell cross now? -/
def Chip.d2dOpen (c : Chip) (i j : Region) : Bool :=
  i = j || match c.d2dPath i j with
    | some l => l.all (fun e => !c.wireHeld e.1 e.2)
    | none => false

/-- Has a link room for one more cell: fewer than 8 in the present slot, and a place in its retry buffer (R113)? -/
def Chip.linkRoom (c : Chip) (e : Region × Region) : Bool :=
  Tab.get (c.xbar e.1).sent e.2.val 0 < 8 && (Tab.get (c.xbar e.1).cells e.2.val []).length < 64

/-- A cell leaves on a link. -/
def Chip.linkSend (c : Chip) (e : Region × Region) (x : Crossing) : Chip :=
  (c.modXbar e.1 (fun s => { s with
    cells := Tab.put s.cells e.2.val (Tab.get s.cells e.2.val [] ++ [x])
    sent := Tab.put s.sent e.2.val (Tab.get s.sent e.2.val 0 + 1) })).wrap (.d2d e.1 e.2) D2D.D2D_COUNT_cells_sent

/-- A cell lands in the egress staging of an output; the last one of a packet that has started sends it on its way. -/
def Chip.landCell (c : Chip) (dst : Region) (out src id : Nat) : Chip :=
  match (Tab.get (c.xbar dst).staging out []).find? (fun s => s.src = src && s.id = id) with
  | none => c
  | some s =>
    let s' := { s with landed := s.landed + 1 }
    let c := c.modXbar dst (fun x => { x with staging := Tab.put x.staging out ((Tab.get x.staging out []).map (fun y =>
      if y = s then s' else y)) })
    if s'.started && s'.landed = s'.cells then c.handOver dst out s' else c

/-- Cells that wait on a lost link take the path that replaces it (R113). -/
def Chip.rerouteCells (c : Chip) (src dst : Region) : Chip :=
  (Tab.get (c.xbar src).cells dst.val []).foldl (fun c x =>
    match c.d2dLinks src (regionOf x.dst) with
    | e :: _ => c.modXbar src (fun s => { s with
        cells := Tab.put (Tab.put s.cells dst.val ((Tab.get s.cells dst.val []).erase x)) e.2.val
          (Tab.get s.cells e.2.val [] ++ [x]) })
    | [] => c) c

/-- A parity error of one wire counts in the wear window (R412). -/
def Chip.wireWorn (c : Chip) (src dst : Region) (wire : Nat) : Chip :=
  c.modRepoint (fun s =>
    let t := Tab.get s.wireWear (4 * src.val + dst.val) []
    { s with wireWear := Tab.put s.wireWear (4 * src.val + dst.val) (Tab.put t wire (Tab.get t wire 0 + 1)) })

/-- A cell that crosses from src to dst (R113): checked, resent once, or a wire fault; it lands, or goes on by the second link
of its path. -/
def Chip.d2dCell (c : Chip) (src dst : Region) (crcOk resendOk : Bool) (wire : Nat) : Chip :=
  if src = dst then c
  else if !c.d2dUp src dst then c.rerouteCells src dst
  else match Tab.get (c.xbar src).cells dst.val [] with
  | [] => c
  | x :: rest =>
    let onward := if x.dst = dst.val then none else some (dst, regionOf x.dst)
    if c.wireHeld src dst || !(onward.all c.linkRoom) then c
    else
      let c := if crcOk then c else (c.bump (.d2d src dst) D2D.D2D_COUNT_resends).wireWorn src dst wire
      if crcOk || resendOk then
        let c := c.modXbar src (fun s => { s with
          cells := if rest.isEmpty then Tab.del s.cells dst.val else Tab.put s.cells dst.val rest })
        match onward with
        | none => c.landCell dst x.out x.src x.id
        | some e => c.linkSend e x
      else c.wireFault src dst wire 0x19

/-! ### The match (R111, R112) -/

/-- The output, 20 * region + local output, of a final output: a port's, or the endpoint channel that the input uses. The spec
leaves the choice of a channel open (DESIGN CHOICE, log 262). -/
def globalOut (src inp out : Nat) : Nat :=
  if out < 64 then 20 * (out / 16) + out % 16 else 20 * (out - 64) + 16 + (20 * src + inp) % 4

/-- A request of the match: input (20 * region + input), output (20 * region + local output), class, its head descriptor, and
whether egress staging has room for the whole head packet (R112). -/
structure Req where
  inp : Nat
  out : Nat
  tc : Nat
  ent : QEnt
  fits : Bool
  invoke : Bool
  deriving DecidableEq, Repr

/-- Is an INVOKE that no block has taken on its way to region j, or at its endpoint? The next stays in its queue until the
block's free entry is taken (R213). -/
def Chip.invokeComing (c : Chip) (j : Region) : Bool :=
  !(Tab.get (c.xbar j).inbox 4 []).isEmpty
    || (List.range 4).any (fun k => (Tab.get (c.xbar j).staging (16 + k) []).any (fun s => s.pkt.kind = 4))

/-- Does a queue's head ask for its output now: the output is there and takes packets, for an INVOKE a block is free for it
(R213, R439), and the die-to-die path is open (R113)? -/
def Chip.asks (c : Chip) (q : Region) (e : QEnt) (pkt : Packet) : Bool :=
  let j := regionOf (globalOut q.val e.inp e.out / 20)
  !c.inReset j && c.d2dOpen q j
    && (if e.out < 64 then c.linked (portOf e.out)
      else pkt.kind ≠ 4 || (!c.invokeComing j && match c.invokeWay j pkt with | .waits _ => false | _ => true))

/-- What the scan of a region's queues has met: heads by input, final output and class; outputs behind a SEAL; requests. -/
structure Scan where
  seen : List (Nat × Nat × Nat) := []
  sealed : List Nat := []
  reqs : List Req := []

/-- The next descriptor of the scan: a queue's head asks unless its input or output is paired, or a SEAL goes before it
(R122). -/
def Chip.scanStep (c : Chip) (q : Region) (busyIn busyOut : List Nat) (a : Scan) (e : QEnt) : Scan :=
  let key := (e.inp, e.out, e.tc)
  let a' := { a with seen := key :: a.seen, sealed := if c.isSeal q e then e.out :: a.sealed else a.sealed }
  if a.seen.contains key then { a' with seen := a.seen }
  else match c.entPacket q e with
  | none => a'
  | some pkt =>
    let i := 20 * q.val + e.inp
    let o := globalOut q.val e.inp e.out
    if a.sealed.contains e.out || busyIn.contains i || busyOut.contains o || !c.asks q e pkt then a'
    else
      let room := stagedCells (Tab.get (c.xbar (regionOf (o / 20))).staging (o % 20) []) e.tc + pkt.cells ≤ 32
      { a' with reqs := a.reqs ++ [⟨i, o, e.tc, e, room, pkt.kind = 4 && 64 ≤ e.out⟩] }

/-- R111, step 1: the requests of all inputs that are not paired. -/
def Chip.requests (c : Chip) : List Req :=
  let pairs := (List.finRange 4).flatMap (fun r => (c.xbar r).pairs.map (fun p => (20 * p.src + p.inp, 20 * r.val + p.out)))
  (List.finRange 4).flatMap (fun q =>
    if c.inReset q then []
    else ((c.xbar q).queue.foldl (c.scanStep q (pairs.map (·.1)) (pairs.map (·.2))) {}).reqs)

/-- The first request in the order that starts at `from_` and wraps at `n`, by a numbering. -/
def firstAfter (n from_ : Nat) (l : List Req) (num : Req → Nat) : Option Req :=
  l.foldl (fun (best : Option Req) q => match best with
    | none => some q
    | some b => if (num q + n - from_ % n) % n < (num b + n - from_ % n) % n then some q else some b) none

/-- R111, step 2: the grant of one output over the requests for it: TC0, then TC1 to TC6 from the class pointer, then TC7 when
there is no other request; in a class the first input from the input pointer, if its packet fits. Inputs count 20 * region +
input over all regions, and the class pointer starts at TC1 (DESIGN CHOICE, log 261). -/
def XbarS.grant (x : XbarS) (o : Nat) (l : List Req) : Option Req :=
  let of := fun (t : Nat) => (firstAfter 80 (Tab.get x.inPtr o 0) (l.filter (fun q => q.tc = t)) (·.inp)).filter (·.fits)
  let cp := Tab.get x.classPtr o 1
  let classes := 0 :: (List.range 6).map (fun i => (cp - 1 + i) % 6 + 1)
  (classes ++ if l.all (fun q => q.tc = 7) then [7] else []).findSome? of

/-- R111, step 3: the grant that an input accepts: TC0 first, and of several the lowest output (DESIGN CHOICE, log 261); else
the first output from its output pointer, over all 80. -/
def XbarS.accept (x : XbarS) (i : Nat) (grants : List Req) : Option Req :=
  let mine := grants.filter (fun q => q.inp = i)
  match firstAfter 80 0 (mine.filter (fun q => q.tc = 0)) (·.out) with
  | some q => some q
  | none => firstAfter 80 (Tab.get x.outPtr (i % 20) 0) mine (·.out)

/-- A match as it grows: accepted requests, those of the first iteration, and the links that pairs and grants use. -/
structure MatchS where
  got : List Req := []
  first : List Req := []
  links : List (Region × Region) := []

/-- R113: a grant to another region's input, or to an INVOKE, is issued while every link of its path carries fewer than 8 cells
a slot, and no other INVOKE is on its way to the region. -/
def Chip.issue (c : Chip) (a : MatchS × List Req) (q : Req) : MatchS × List Req :=
  let path := c.d2dLinks (regionOf (q.inp / 20)) (regionOf (q.out / 20))
  let full := path.any (fun e => 8 ≤ (a.1.links.filter (· = e)).length)
  let second := q.invoke && (a.1.got ++ a.2).any (fun g => g.invoke && g.out / 20 = q.out / 20)
  if full || second then a else ({ a.1 with links := a.1.links ++ path }, a.2 ++ [q])

/-- The grants of a region in the order in which it issues them: to each sending region in turn, its outputs round-robin
(R113). -/
def Chip.grantOrder (c : Chip) (j : Region) (l : List Req) : List Req :=
  (List.finRange 4).flatMap (fun i =>
    let at_ := if i = j then 0 else Tab.get (c.xbar j).grantPtr i.val 0
    let mine := l.filter (fun q => q.inp / 20 = i.val && q.out / 20 = j.val)
    (List.range 20).flatMap (fun k => mine.filter (fun q => q.out % 20 = (at_ + k) % 20)))

/-- One request, grant and accept iteration over the inputs and outputs that are still unmatched. -/
def Chip.matchStep (c : Chip) (reqs : List Req) (m : MatchS) : MatchS :=
  let free := reqs.filter (fun q => m.got.all (fun g => g.inp ≠ q.inp && g.out ≠ q.out))
  let wanted := (List.range 80).filterMap (fun o =>
    (c.xbar (regionOf (o / 20))).grant (o % 20) (free.filter (fun q => q.out = o)))
  let (m, grants) := ((List.finRange 4).flatMap (fun j => c.grantOrder j wanted)).foldl c.issue (m, [])
  let got := (grants.map (·.inp)).eraseDups.filterMap (fun i => (c.xbar (regionOf (i / 20))).accept i grants)
  { m with got := m.got ++ got }

/-- The match of a cell slot: three iterations over all regions' inputs and outputs. A pair under way uses its links too. -/
def Chip.matchAll (c : Chip) : MatchS :=
  let links := (List.finRange 4).flatMap (fun r => (c.xbar r).pairs.flatMap (fun p => c.d2dLinks (regionOf p.src) r))
  let reqs := c.requests
  let m := c.matchStep reqs { links := links }
  c.matchStep reqs (c.matchStep reqs { m with first := m.got })

/-- A match takes effect: its descriptor leaves the queue, the pair forms, and staging makes room (packet mode). -/
def Chip.pairUp (c : Chip) (r : Region) (q : Req) : Chip :=
  let src := regionOf (q.inp / 20)
  let o := q.out % 20
  match Tab.find (c.xbar src).store q.ent.id with
  | none => c
  | some stored =>
    let pkt := stored.pkt
    let out := if q.ent.w0 = pkt.w0 then pkt else Packet.seal { pkt with w0 := q.ent.w0 }
    let st : Staged := ⟨out, q.tc, pkt.cells, 0, stored.storedAt, src.val, q.ent.id, stored.damaged, false⟩
    let c := c.modXbar src (fun x => { x with queue := x.queue.erase q.ent })
    (c.modXbar r (fun x => { x with
      pairs := x.pairs ++ [⟨src.val, q.inp % 20, o, q.ent, pkt.cells⟩]
      staging := Tab.put x.staging o (Tab.get x.staging o [] ++ [st]) })).tagOutput r o

/-- Pointers move on a grant accepted in iteration 1. -/
def Chip.movePtrs (c : Chip) (q : Req) : Chip :=
  let o := q.out % 20
  let c := c.modXbar (regionOf (q.out / 20)) (fun x => { x with
    inPtr := Tab.put x.inPtr o ((q.inp + 1) % 80)
    classPtr := if 1 ≤ q.tc && q.tc ≤ 6 then Tab.put x.classPtr o (q.tc % 6 + 1) else x.classPtr })
  c.modXbar (regionOf (q.inp / 20)) (fun x => { x with outPtr := Tab.put x.outPtr (q.inp % 20) ((q.out + 1) % 80) })

/-- The round robin of a region's grants goes on after the last output that it matched to a sending region (R113). -/
def Chip.moveGrantPtr (c : Chip) (r : Region) (q : Req) : Chip :=
  if q.inp / 20 = r.val then c
  else c.modXbar r (fun x => { x with grantPtr := Tab.put x.grantPtr (q.inp / 20) ((q.out % 20 + 1) % 20) })

/-- The match of a cell slot for the outputs of region r. The slots of the four regions follow one another (DESIGN CHOICE, log
260): each sees the inputs and outputs that the others have left. -/
def Chip.matchSlot (c : Chip) (r : Region) : Chip :=
  let m := c.matchAll
  let mine := fun (l : List Req) => l.filter (fun q => q.out / 20 = r.val)
  let c := (mine m.first).foldl Chip.movePtrs c
  (mine m.got).foldl (fun c q => (c.pairUp r q).moveGrantPtr r q) c

/-- One cell of a pair crosses: it lands at once, or leaves on the first link of its path (R111, R113). -/
def Chip.crossCell (c : Chip) (r : Region) (p : Pair) : Chip :=
  let src := regionOf p.src
  let go := fun (c : Chip) =>
    let c := c.modXbar r (fun x => { x with
      pairs := if p.left ≤ 1 then x.pairs.erase p
        else x.pairs.map (fun y => if y = p then { y with left := p.left - 1 } else y) })
    if p.left ≤ 1 then c.descDone src p.ent.id else c
  if src = r then go (c.landCell r p.out p.src p.ent.id)
  else match c.d2dLinks src r with
  | [] => c
  | e :: _ => if c.d2dOpen src r && c.linkRoom e then go (c.linkSend e ⟨r.val, p.out, p.src, p.ent.id⟩) else c

/-- A new cell slot on the links to region r (R113). -/
def Chip.slotBegin (c : Chip) (r : Region) : Chip :=
  c.forRegions (fun c i => c.modXbar i (fun x => { x with sent := Tab.del x.sent r.val }))

/-- Every pair of region r moves one cell. -/
def Chip.crossSlot (c : Chip) (r : Region) : Chip :=
  (c.xbar r).pairs.foldl (fun c p => c.crossCell r p) (c.slotBegin r)

/-! ### Buffer errors -/

/-- A packet leaves every list that waits for it before it crosses: queues, waiting heads, the combining unit, the Mortar
array's. -/
def Chip.forgetPacket (c : Chip) (r : Region) (id : Nat) : Chip :=
  let c := c.modXbar r (fun x => { x with
    queue := x.queue.filter (fun e => e.id ≠ id)
    held := (x.held.map (fun e => (e.1, e.2.filter (fun h => h.id ≠ id)))).filter (fun e => !e.2.isEmpty) })
  let c := (c.modFab r (fun f => { f with combining := (f.combining.map (fun e =>
    { e with parts := e.parts.filter (fun p => p.1 ≠ id) })).filter (fun e => !e.parts.isEmpty) })).combCount r
  { c with morts := Tab.put c.morts r.val { c.mort r with
    queue := (c.mort r).queue.filter (fun e => e.2 ≠ some id)
    waiting := (c.mort r).waiting.filter (fun e => e.2.1 ≠ some id) } }

/-- R409: an uncorrectable word of a stored packet, in the cell that a free value names: discarded whole before it begins to
cross, else sent with its CRC inverted. The sub-bank asks for its spare (R413). -/
def Chip.bufferUe (c : Chip) (r : Region) (id : Nat) : Chip :=
  match Tab.find (c.xbar r).store id with
  | none => c
  | some st =>
    let place := st.places.getD (c.freeVal 8 % max 1 st.places.length) 0
    let i : Fin 4 := ⟨place / 16 % 4, Nat.mod_lt _ (by decide)⟩
    let s : Fin 16 := ⟨place % 16, Nat.mod_lt _ (by decide)⟩
    let c := c.freeNext.error (.bufbank r i) evErrUncorrected 0x25 [st.pkt.w0]
    let c := c.hardAsk (.subbank r i s)
    let crossing := (List.finRange 4).any (fun q => (c.xbar q).pairs.any (fun p => p.src = r.val && p.ent.id = id))
    -- copies that have not begun to cross are discarded, those that have are sent with the CRC inverted
    let waiting := ((c.xbar r).queue.filter (fun e => e.id = id)).length
    let owed := (c.xbar r).held.foldl (fun n e => e.2.foldl (fun n h =>
      if h.id = id then n + ((h.rest.map List.length).getD 0) else n) n) 0
    let c := c.forgetPacket r id
    if crossing then
      let c := c.forRegions (fun c q => c.modXbar q (fun x => { x with staging := x.staging.map (fun o => (o.1,
        o.2.map (fun s => if s.src = r.val && s.id = id && s.landed < s.cells then { s with damaged := true } else s))) }))
      (List.range (waiting + owed)).foldl (fun c _ => c.descDone r id) c
    else c.freePacket r id

/-- R409: a word corrected in one sub-bank as its cells are read is written back and counted. -/
def Chip.bufferFixed (c : Chip) (r : Region) (i : Fin 4) (s : Fin 16) : Chip :=
  let k := 16 * i.val + s.val
  (c.error (.bufbank r i) evErrCorrected 0x01).modXbar r (fun x => { x with
    bankWear := Tab.put x.bankWear k (Tab.get x.bankWear k 0 + 1) })

/-! ### The commands -/

/-- PACKET_STORED: at an input, a waiting packet that can go now, or else the next arrival. -/
def execPacketStored (r : Region) (inp : Fin 20) (s : State) : Host.Outcome State Fault Refusal :=
  s.on (fun c =>
    if c.inReset r then c
    else match c.heldReady r inp.val with
      | some t => c.tryHead r (8 * inp.val + t)
      | none => c.storeNext r inp.val)

/-- METER_HOLD_RELEASE: the packet that a class's meter holds is coloured again (R137), unless its input is stopped (R109). -/
def execMeterHoldRelease (p : Port) (tc : Tc) (s : State) : Host.Outcome State Fault Refusal :=
  s.on (fun c =>
    let r := portRegion p
    let k := 8 * (p.val % 16) + tc.val
    if c.inReset r || (c.xbar r).inputStopped (p.val % 16) then c
    else match (c.xbar r).heldHead k with
      | some (h, _) => if h.checked then c else c.tryHead r k
      | none => c)

/-- CELL_SLOT_MATCH: one cell slot of a region, with the sub-banks of its buffer, by bank, in which reads met words to correct
(R409). -/
def execCellSlotMatch (r : Region) (fixed : List (Fin 4 × Fin 16)) (s : State) : Host.Outcome State Fault Refusal :=
  s.on (fun c => if c.inReset r then c
    else ((fixed.filter (fun e => c.powered (.bufbank r e.1))).foldl (fun c e => c.bufferFixed r e.1 e.2) c
      |>.matchSlot r).crossSlot r)

/-- D2D_CELL. -/
def execD2dCell (src dst : Region) (crcOk resendOk : Bool) (wire : Nat) (s : State) : Host.Outcome State Fault Refusal :=
  s.on (fun c => c.d2dCell src dst crcOk resendOk wire)

/-- PACKET_TRANSMIT_START. -/
def execPacketTransmitStart (o : Outlet) (s : State) : Host.Outcome State Fault Refusal :=
  s.on (fun c => match o with
    | .port p => if c.inReset (portRegion p) then c else c.portStart p
    | .channel r k => if c.inReset r then c else c.channelStart r k.val)

/-- BUFFER_UE: in the words of a stored packet. -/
def execBufferUe (r : Region) (pkt : Nat) (s : State) : Host.Outcome State Fault Refusal := s.on (fun c => c.bufferUe r pkt)

/-- FABRIC_FENCE: the first FENCE that waits at ingress opens while fewer than 1,024 are open (R173); one of a job that is torn
down is answered at once (R177). -/
def execFabricFence (r : Region) (s : State) : Host.Outcome State Fault Refusal :=
  s.onLive r (fun c =>
    match (c.xbar r).findHead (fun h p => h.checked && !h.settled && p.kind = 2 && p.op = 12) with
    | none => c
    | some (k, h, st) =>
      let take := fun (f : Chip → Chip) => ((f (c.setHead r k none)).freePacket r h.id).recount r
      if c.tearing r st.pkt.job then take (fun c => c.answerReq r st.pkt 10)
      else if 1024 ≤ (c.fab r).fences.length then c
      else take (fun c => c.openFence r (k / 8) st.pkt))

end Sys2Proof.Machine
end

