-- ==== Sys2Proof/Machine/Registers.lean ====
section
/-! DEFINITION. The register space as software reaches it: what each register's write and read does (R11, R50, R60, R64),
and the rows that write or read one register by its address. -/
namespace Sys2Proof.Machine

/-! ### Writes -/

/-- Table FWD-6: a PORT_JOB write; a port's field is refused when the XBAR unit or that PORT unit is held. -/
def Chip.opPortJob (c : Chip) (r : Region) (pos : Nat) (v : Word) : Chip × Bool :=
  let u := UnitId.xbar r
  let old := c.reg u pos
  let k := (pos - 0x118) / 8
  let no := (List.range 4).filter (fun i =>
    getBits old (16 * i + 15) (16 * i) ≠ getBits v (16 * i + 15) (16 * i)
      && (c.held u || c.held (.port (portOf (16 * r.val + 4 * k + i)))))
  let w := (List.range 4).foldl (fun (w : Word) i =>
    if no.contains i then w else setBits w (16 * i + 15) (16 * i) (getBits v (16 * i + 15) (16 * i))) old
  ((c.setReg u pos w).raiseIf (!no.isEmpty) u evLockedWrite, !no.isEmpty)

/-- R68: an EPID_MAP write that would give two regions one EPID is ignored as a whole. -/
def Chip.opEpidMap (c : Chip) (v : Word) : Chip × Bool :=
  let (c', no) := c.plainWrite .chip 0x120 v
  let clash := (List.finRange 4).any (fun i => (List.finRange 4).any (fun j => decide (i < j) && c'.epid i = c'.epid j))
  if clash then (c.raise .chip CHIP.ev_epid_conflict, false) else (c', no)

/-- PART_CTL: its RW fields, and `reset_now` (R416). -/
def Chip.opPartCtl (c : Chip) (r : Region) (v : Word) : Chip × Bool :=
  let (c, no) := c.plainWrite (.region r) 0x110 v
  (if bitAt v 7 then c.opResetNow r else c, no)

/-- A domain entry of Plumb: a link counts from its first ACTIVE after the entry was written (R421). -/
def Chip.opDomEntry (c : Chip) (pos : Nat) (v : Word) : Chip × Bool :=
  let d := (pos / 4096 - 1) * 4 + pos % 4096 / 0x400
  let (c, no) := c.plainWrite .plumb pos v
  if no then (c, no)
  else (c.modPlumb (fun p => { p with seen := Tab.del p.seen d, downFrom := Tab.del p.downFrom d }), no)

/-- A write to a port's registers from 0x100 on. -/
def Chip.portWrite (c : Chip) (p : Port) (pos : Nat) (v : Word) : Chip × Bool :=
  if pos = 0x100 then c.opPortCtl p v
  else if pos = 0x138 then c.opCreditCfg p false v
  else if pos = 0x140 then c.opCreditCfg p true v
  else if pos = 0x158 then (c.opLinkInject p v, false)
  else if 0x1000 ≤ pos && pos < 0x1240 && pos % 0x40 = 0x28 then (c.opLaneInject p ((pos - 0x1000) / 0x40) v, false)
  else if pos = 0x2008 then c.opWfqWeight p v
  else if pos = 0x2010 then (c.opGateTakeover p v, false)
  else if h : 0x2040 ≤ pos ∧ pos < 0x20C0 then c.opMeter p ⟨(pos - 0x2040) / 16, by omega⟩ (pos % 16 = 8) v
  else if h : 0x3000 ≤ pos ∧ pos < 0x3200 then (c.opGateEntry p ⟨(pos - 0x3000) / 8, by omega⟩ v, false)
  else c.plainWrite (.port p) pos v

/-- A write to a XBAR unit's registers from 0x100 on. -/
def Chip.xbarWrite (c : Chip) (r : Region) (pos : Nat) (v : Word) : Chip × Bool :=
  if pos = 0x108 then c.opBufAllot r v
  else if 0x118 ≤ pos && pos < 0x138 then c.opPortJob r pos v
  else if h : 0x9000 ≤ pos ∧ pos < 0xD000 then c.opMcastWord r ⟨(pos - 0x9000) / 16, by omega⟩ (pos % 16 = 8) v
  else c.plainWrite (.xbar r) pos v

/-- A write to a COBBLER unit's registers from 0x100 on. -/
def Chip.cobblerWrite (c : Chip) (r : Region) (pos : Nat) (v : Word) : Chip × Bool :=
  if pos = 0x108 then (c.poolFree r 16 (getBits v 36 0), false)
  else if 0x120 ≤ pos && pos < 0x1E0 && (pos - 0x120) % 0x30 < 0x10 then
    c.opPoolConfig r ((pos - 0x120) / 0x30) ((pos - 0x120) % 0x30 = 8) v
  else if 0x1E0 ≤ pos && pos < 0x200 then c.opReserve r ((pos - 0x1E0) / 8) v
  else c.plainWrite (.cobbler r) pos v

/-- A write to the host bridge's registers from 0x100 on. -/
def Chip.hostbrWrite (c : Chip) (pos : Nat) (v : Word) : Chip × Bool :=
  if 0x1000 ≤ pos && pos < 0x1400 && pos % 0x40 = 0 then c.opSessCtl ((pos - 0x1000) / 0x40) v
  else if 0x2000 ≤ pos && pos < 0x4000 then c.opPeerEntry ((pos - 0x2000) / 0x20) (pos % 0x20 / 8) v
  else
    let (c, no) := c.plainWrite .hostbr pos v
    (c.pumpEvents, no)

/-- A write to the host port's registers from 0x100 on. A port taken out of service has no link (DEDUCED, log 275). -/
def Chip.hostportWrite (c : Chip) (pos : Nat) (v : Word) : Chip × Bool :=
  if pos = 0x100 then
    let (c, no) := c.plainWrite .hostport pos v
    (if c.flag .hostport HOSTPORT.HP_CTL_enable then c else c.hostLinkLost, no)
  else if pos = 0x148 then (c.opHostTakeover v, false)
  else if 0x2000 ≤ pos && pos < 0x2100 then (c.opHostGateEntry ((pos - 0x2000) / 8) v, false)
  else c.plainWrite .hostport pos v

/-- A write to the Awl's registers from 0x100 on. -/
def Chip.awlRegWrite (c : Chip) (pos : Nat) (v : Word) : Chip × Bool :=
  if pos = 0x100 then c.opAwlMode v
  else if pos = 0x108 then c.opAwlStart v
  else if 0x118 ≤ pos && pos < 0x140 then c.opAwlSet pos v
  else c.plainWrite .awl pos v

/-- A write to a summary mask may change which units are pending (R62). -/
def Chip.maskWrite (c : Chip) (u : UnitId) (pos : Nat) (v : Word) : Chip × Bool :=
  let (c, no) := c.plainWrite u pos v
  (c.settle, no)

/-- A permitted write to a unit's position, with every effect the owning chapter gives it; and whether a field was
refused (R60). -/
def Chip.unitWrite (c : Chip) (u : UnitId) (pos : Nat) (v : Word) : Chip × Bool :=
  match c.headerWrite u pos v with
  | some x => x
  | none =>
    match u with
    | .port p => c.portWrite p pos v
    | .xbar r => c.xbarWrite r pos v
    | .cobbler r => c.cobblerWrite r pos v
    | .cblk r b => c.cblkWrite r b pos v
    | .region r => if pos = 0x108 then c.maskWrite u pos v else if pos = 0x110 then c.opPartCtl r v
                   else c.plainWrite u pos v
    | .chip => if pos = 0x120 then c.opEpidMap v else if pos = 0x130 then c.maskWrite u pos v else c.plainWrite u pos v
    | .course => if pos = 0x100 then c.opCourseCtl v else c.plainWrite u pos v
    | .plumb => if pos = 0x130 then (c.opRestore v, false)
                else if 0x1000 ≤ pos then c.opDomEntry pos v else c.plainWrite u pos v
    | .hostbr => c.hostbrWrite pos v
    | .hostport => c.hostportWrite pos v
    | .power => if pos = 0x138 || pos = 0x140 || pos = 0x148 then (c.opDomains ((pos - 0x138) / 8) v, false)
                else c.plainWrite u pos v
    | .awl => c.awlRegWrite pos v
    | _ => c.plainWrite u pos v

/-! ### Reads -/

/-- GRP_STS of a group (Table COLL-10): open instances, the last status, the effective members and stops. -/
def Chip.grpStsWord (c : Chip) (r : Region) (g : Nat) : Word :=
  let s := c.grpS r g
  let lowest := ((List.range 2).map (fun k => (s.low + k) % 32768)).find? (fun i => (Tab.find s.insts i).isSome)
  let anchor := c.isAnchor r g
  let n := if anchor then rankIn s.census 4096 else (c.effMembers r g).length
  let w := setBits (setBits 0 63 49 (lowest.getD 0)) 48 48 (bit lowest.isSome)
  setBits (setBits (setBits w 47 44 s.last) 43 31 n) 30 24 (if anchor then (c.effStops r g).length else 0)

/-- A peak field and the level it follows now (R129, R145, R178, R180, R200, R324). -/
def Chip.levelOf (c : Chip) (u : UnitId) (pos : Nat) : Option (Fld × Nat) :=
  match u with
  | .xbar r => if pos = 0x110 then some (XBAR.BUF_STS_peak_used, (c.xbar r).used) else none
  | .port p =>
    let tc := (pos - 0x2100) / 24
    if 0x2100 ≤ pos && pos < 0x21C0 && (pos - 0x2100) % 24 = 0 then
      some (PORT.QDEPTH_depth_peak.plus (24 * tc), c.depthOf p tc)
    else none
  | .fabmem r => if pos = 0x118 then some (FABMEM.LEDGER_STS_peak, (c.fab r).ledger.length) else none
  | .combine r => if pos = 0x108 then some (COMBINE.COMB_STS_entries_peak, (c.fab r).combining.length) else none
  | .memblk s => if pos = MEMBLK.DIR_STS_entries_peak.pos then some (MEMBLK.DIR_STS_entries_peak, (c.memS s).dir.length) else none
  | .mortar r => if pos = MORTAR.MORTAR_PEAK_journal_peak.pos then some (MORTAR.MORTAR_PEAK_journal_peak, c.journalUsed r) else none
  | _ => none

/-- A word with its peak field at least at the present level: the field itself is 0 from a read to the next change, and the
most since that read is what the read returns (DEDUCED, log 70). -/
def Chip.withPeak (c : Chip) (u : UnitId) (pos : Nat) (w : Word) : Word :=
  match c.levelOf u pos with
  | some (f, n) => setBits w f.hi f.lo (max (getBits w f.hi f.lo) (min n (2 ^ (f.hi + 1 - f.lo) - 1)))
  | none => w

/-- POOL_STS with `free_min`, the fewest since the last read (DEDUCED, log 70). -/
def Chip.poolStsWord (c : Chip) (r : Region) (pos : Nat) (w : Word) : Word :=
  let k := (pos - 0x120) / 0x30
  if 0x120 ≤ pos && pos < 0x1E0 && (pos - 0x120) % 0x30 = 0x10 then
    match (c.pool r k).minFrom with
    | some n => setBits w 50 32 (min n (c.pool r k).free)
    | none => w
  else w

/-- The word that a read of a unit's position returns. Write-only fields read 0. -/
def Chip.readWord (c : Chip) (u : UnitId) (pos : Nat) : Word :=
  if pos < 0x90 then c.headerWord u pos
  else
    let w := c.withPeak u pos (c.reg u pos &&& ~~~ accMask (unitType u) pos .wo)
    match u with
    | .mortar r => if 0x1000 ≤ pos && pos < 0x81000 && pos % 512 = 0x160 then c.grpStsWord r ((pos - 0x1000) / 512) else w
    | .cobbler r => c.poolStsWord r pos w
    | .region r => if pos = 0x100 then c.regionSum r else w
    | .chip => if pos = 0x128 then c.chipSum else w
    | .course => if pos = 0x110 then BitVec.ofNat 64 c.phase else w
    | .plumb => if pos = 0x140 then BitVec.ofNat 64 c.tableDigest
      else if pos = 0x120 then c.viewWord 0 else if pos = 0x128 then c.viewWord 1 else w
    | .hostbr => if pos = 0x108 then setBits w 20 16 c.bridge.scheds.length else w
    | _ => w

/-- A permitted read of a unit's position: the value, and what the read clears (R11, R13, R360). After it `free_min` counts from
the present number (DEDUCED, log 70). -/
def Chip.unitRead (c : Chip) (u : UnitId) (pos : Nat) : Chip × Word :=
  let c := if u = .power then c.belowSettle else c
  let w := c.readWord u pos
  match u with
  | .cobbler r =>
    let k := (pos - 0x120) / 0x30
    if 0x120 ≤ pos && pos < 0x1E0 && (pos - 0x120) % 0x30 = 0x20 then (c.opPoolRead r k, w)
    else if 0x120 ≤ pos && pos < 0x1E0 && (pos - 0x120) % 0x30 = 0x10 then
      ((c.readClear u pos).modPool r k (fun p => { p with minFrom := some p.free }), w)
    else (c.readClear u pos, w)
  | _ => (c.readClear u pos, w)

/-! ### Accesses by address -/

/-- Is the address an unlocked debug page? The spec gives such a page no layout (R474). -/
def Chip.debugPage (c : Chip) (a : Nat) : Bool := c.accessStatus a = 0 && 512 ≤ a % 2 ^ 22 / 4096

/-- A host-bridge read: the status and the value. An unlocked debug page returns a free value. -/
def Chip.hostRead (c : Chip) (a : Nat) : Chip × Nat × Word :=
  let st := c.accessStatus a
  if st ≠ 0 then (c.accessFault a st, st, 0)
  else if c.debugPage a then (c.freeNext, 0, BitVec.ofNat 64 (c.freeVal 64))
  else match addrUnit a with
    | some u => let (c, w) := c.unitRead u (a % 2 ^ 22); (c, 0, w)
    | none => (c, st, 0)

/-- A host-bridge write: the status, and whether a field was refused. -/
def Chip.hostWrite (c : Chip) (a : Nat) (v : Word) : Chip × Nat × Bool :=
  let st := c.accessStatus a
  if st ≠ 0 then (c.accessFault a st, st, false)
  else match addrUnit a with
    | some u => let (c, no) := c.unitWrite u (a % 2 ^ 22) v; (c, 0, no)
    | none => (c, st, false)

/-- What hardware sets in the cycle of a write: EVENT bits are set and counted after it, other W1C bits stay 1 (R55). A set of
ERR_CAPTURE0 `valid` is an error that arrives in the cycle of the release: it is loaded as a new capture (R58), with the event
bit and code that the word carries there; its detail is open, six free values (log 108). -/
def Chip.setAfter (c : Chip) (u : UnitId) (pos : Nat) (hw : Word) : Chip :=
  let known := BitVec.ofNat 64 (eventBits (unitType u))
  if pos = 0x20 then c.raiseAll u (hw &&& known)
  else if pos = 0x40 then
    if !bitAt hw 63 then c
    else
      let b := getBits hw 61 56
      let detail := (List.range 6).map (fun i => BitVec.ofNat 64 (Config.freeValue (c.free + i)).toNat)
      let c := { c with free := c.free + 6 }
      if bitAt known b then c.error u b (getBits hw 55 48) detail else c.capture u b (getBits hw 55 48) detail
  else
    let m := hw &&& accMask (unitType u) pos .w1c
    if m = 0 then c else c.setReg u pos (c.reg u pos ||| m)

/-! ### The commands -/

/-- REGISTER_WRITE. A write to an unlocked debug page stops the model: the spec gives it no effect (R474). -/
def execRegisterWrite (addr : BitVec 40) (value hwSet : Word) (s : State) : Host.Outcome State Fault Refusal :=
  let c := s.chip
  let a := addr.toNat
  if c.debugPage a then .fault .debugPageLayout
  else
    let (c, st, no) := c.hostWrite a value
    let c := match addrUnit a with
      | some u => if st = 0 then c.setAfter u (a % 2 ^ 22) hwSet else c
      | none => c
    .next (s.put (c.accessed st 0 no))

/-- RC_READ: the value, then the fields' updates of the same cycle start from 0 (R13). -/
def execRcRead (addr : BitVec 40) (hwUpdate : Word) (s : State) : Host.Outcome State Fault Refusal :=
  s.on (fun c =>
    let (c, st, w) := c.hostRead addr.toNat
    let pos := addr.toNat % 2 ^ 22
    let c := match addrUnit addr.toNat with
      | some u =>
        let m := hwUpdate &&& accMask (unitType u) pos .rc
        if st = 0 then c.setReg u pos (c.reg u pos ||| m) else c
      | none => c
    c.accessed st w false)

/-- EVENT_FORCE_WRITE. -/
def execEventForceWrite (u : UnitId) (value : Word) (s : State) : Host.Outcome State Fault Refusal :=
  s.onReg u (fun c => (c.opForce u value, false)) 0x30

/-- CAPTURE_RELEASE. -/
def execCaptureRelease (u : UnitId) (s : State) : Host.Outcome State Fault Refusal :=
  s.onReg u (fun c => (c.releaseCapture u, false)) 0x40

/-- POLICY_WRITE; a unit without an adaptive loop has no such registers (R52). -/
def execPolicyWrite (u : UnitId) (ceil : Bool) (value : Word) (s : State) : Host.Outcome State Fault Refusal :=
  s.onReg u (fun c => if hasPolicy (unitType u) then c.opPolicy u ceil value else (c, false)) (if ceil then 0x98 else 0x90)

/-- EPID_MAP_WRITE. -/
def execEpidMapWrite (value : Word) (s : State) : Host.Outcome State Fault Refusal :=
  s.onReg .chip (fun c => c.opEpidMap value) 0x120

end Sys2Proof.Machine
end

