-- ==== Sys2Proof/Machine/WeltCmd.lean ====
section
/-! DEFINITION. The Welt commands of the driver: register batches (R394, R395), bulk memory (R396), program loads (R397),
job control (R398, R177), and fabric traffic to and from the host (R399). A command waits at the head of its session until
its row begins it (R393). -/
namespace Sys2Proof.Machine

/-- The command at the head of a session. -/
def Chip.headCmd (c : Chip) (k : Nat) : Option Welt := (c.sess k).cmds.head?.map (·.1)

/-! ### Register batches -/

/-- The entries of a batch: control word and data (R394). -/
def batchEntries (l : List Byte) : List (Word × Word) :=
  (List.range (l.length / 16)).map (fun i => (wordAt l (16 * i), wordAt l (16 * i + 8)))

/-- Is a batch well formed: 1 to 512 entries, no reserved bit of a control word set? -/
def batchFormed (l : List Byte) : Bool :=
  16 ≤ l.length && l.length ≤ 8192 && l.length % 16 = 0 && (batchEntries l).all (fun e => e.1 >>> 41 = 0)

/-- A batch under way. -/
structure BatchRun where
  chip : Chip
  out : List Byte := []
  locked : Bool := false
  ended : Bool := false
  /-- It met a write to an unlocked debug page, whose effect the spec does not give (R474). -/
  stuck : Bool := false

/-- One entry of a batch. -/
def BatchRun.entry (x : BatchRun) (stop : Bool) (e : Word × Word) : BatchRun :=
  if x.ended || x.stuck then x
  else
    let a := getBits e.1 39 0
    if bitAt e.1 40 && x.chip.debugPage a then { x with stuck := true }
    else
      let (c, st, w, no) :=
        if bitAt e.1 40 then (let (c, st, no) := x.chip.hostWrite a e.2; (c, st, (0 : Word), no))
        else (let (c, st, w) := x.chip.hostRead a; (c, st, w, false))
      let ctl := setBits (setBits e.1 50 48 st) 51 51 (bit no)
      { x with
        chip := c
        out := x.out ++ wordBytes ctl ++ wordBytes w
        locked := x.locked || no
        ended := stop && st ≠ 0 }

/-- A batch is performed: its entries in order, then its reply. -/
def Chip.runBatch (c : Chip) (k epoch : Nat) (m : Welt) : Chip × Bool :=
  let x := (batchEntries m.payload).foldl (fun (x : BatchRun) e => x.entry m.stopOnError e) { chip := c }
  (x.chip.answer k epoch m 0 0 x.out x.locked, x.stuck)

/-- REG_BATCH: performed now, or scheduled (R395); and whether it met an unlocked debug page. -/
def Chip.regBatch (c : Chip) (k : Nat) : Chip × Bool :=
  match (c.sess k).cmds with
  | [] => (c, false)
  | (m, ep, _) :: rest =>
    if m.type ≠ 0x10 || c.nextSess ≠ some k then (c, false)
    else
      let c := { c with bridge := { c.bridge with served := k } }.modSess k (fun x => { x with cmds := rest })
      if !batchFormed m.payload then (c.answer k ep m 2, false)
      else if m.at then
        let n := getBits m.argA 47 0
        if c.lateFor n then ((c.raise .course COURSE.ev_late_schedule).answer k ep m 8, false)
        else if 16 ≤ c.bridge.scheds.length then (c.answer k ep m 9, false)
        else ({ c with bridge := { c.bridge with scheds := c.bridge.scheds ++ [⟨k, ep, n, m⟩] } }, false)
      else c.runBatch k ep m

/-- Is a scheduled batch due: offset 32 of its boundary has come (R395)? -/
def Chip.schedDue (c : Chip) (e : Sched) : Bool :=
  courseBefore e.course c.courseNow || (e.course = c.courseNow && 32 ≤ c.phase)

/-- The first scheduled batch that is due, by boundary and in order of receipt (R395). -/
def Chip.schedBatch (c : Chip) : Chip × Bool :=
  let due := c.bridge.scheds.filter c.schedDue
  match due.find? (fun e => due.all (fun x => !courseBefore x.course e.course)) with
  | none => (c, false)
  | some e => ({ c with bridge := { c.bridge with scheds := c.bridge.scheds.erase e } }).runBatch e.session e.epoch e.msg

/-- REG_BATCH. A write to an unlocked debug page stops the model (R474). -/
def execRegBatch (k : Sess) (s : State) : Host.Outcome State Fault Refusal :=
  let (c, stuck) := s.chip.regBatch k.val
  if stuck then .fault .debugPageLayout else .next (s.put c)

/-- SCHEDULED_BATCH. -/
def execScheduledBatch (s : State) : Host.Outcome State Fault Refusal :=
  let (c, stuck) := s.chip.schedBatch
  if stuck then .fault .debugPageLayout else .next (s.put c)

/-! ### Bulk memory -/

/-- What MEM_WRITE or MEM_READ addresses: Lintel memory, or a memory of a block (Table WELT-6). -/
structure MemTarget where
  place : Place
  /-- The block of a local memory. -/
  block : Option (Region × BlockIx) := none
  deriving DecidableEq, Repr

/-- The checks of R396: the status, or the target. -/
def Chip.memTarget (c : Chip) (m : Welt) : Except Nat MemTarget :=
  let a := m.argA
  let space := getBits a 63 61
  let r := regionOf (getBits a 60 59)
  let b : BlockIx := ⟨getBits a 58 55 % 16, Nat.mod_lt _ (by decide)⟩
  let l := getBits a 54 52
  let o := getBits a 36 0
  let n := m.argB
  let size := if space = 0 then endpointBytes else if space = 1 then c.visibleEnd r b else if space = 2 then 1536 * 1024
    else 64 * 1024
  if o % 8 ≠ 0 || n % 8 ≠ 0 then .error 2
  else if 3 < space || getBits a 51 37 ≠ 0 || size < o + n then .error 3
  else if c.inReset r then .error 6
  else if space = 0 then
    if !c.outsideArea r o n || (c.held (.fabmem r) && m.job ≠ c.holder (.fabmem r)) then .error 4
    else .ok ⟨.far r o, none⟩
  else if !c.present (.cblk r b) then .error 11
  else if c.held (.cblk r b) then .error 4
  else
    let p := c.physCell r b l
    .ok ⟨.loc (if space = 1 then .bmem r.val b.val else if space = 2 then .spad r.val b.val p else .tdm r.val b.val p) o,
      some (r, b)⟩

/-- Does the access wait: a powered stack of the region is not yet filled (R193)? -/
def Chip.lintelWaits (c : Chip) (r : Region) : Bool :=
  (List.finRange 2).any (fun i => c.stackOn (regionStack r i) && !c.memReady (regionStack r i))

def MemTarget.waits (t : MemTarget) (c : Chip) : Bool :=
  match t.place with
  | .far r _ => c.lintelWaits r
  | .loc _ _ => false

/-- How many of n bytes from a place a write may take: up to the first damaged line it covers in part, or line that takes
no write (R188). -/
def Chip.writableBytes (c : Chip) (p : Place) (n : Nat) : Nat :=
  match p with
  | .loc _ _ => n
  | .far r o =>
    if n = 0 then 0
    else match (linesOf r.val o n).find? (fun k => c.writeBad r.val (max o (keyOffset k))
        (min (o + n) (keyOffset k + 64) - max o (keyOffset k))) with
      | some k => keyOffset k - o
      | none => n

/-- Offset in its space of the line that holds byte d of a place. -/
def Place.lineOffset (p : Place) (d : Nat) : Nat :=
  match p with
  | .far _ o => (o + d) / 64 * 64
  | .loc _ o => (o + d) / 8 * 8

/-- Detection of a line or word that cannot be read, by the host. -/
def Chip.hostUe (c : Chip) (t : MemTarget) (d : Nat) : Chip :=
  match t.place, t.block with
  | .far r o, _ => c.lineUe (lineKey r.val (o + d)) 0 0 0
  | .loc _ _, some (r, b) => c.bump (.cblk r b) CBLK.ECC_COUNT_ue
  | .loc _ _, none => c

/-- Copies in the way of the host's access come back at once (log 45). -/
def Chip.pullPlace (c : Chip) (p : Place) (n : Nat) (excl : Bool) : Chip :=
  match p with
  | .far r o => c.forceRange r o n excl
  | .loc _ _ => c

/-- Write bytes at a place. -/
def Chip.putPlace (c : Chip) (p : Place) (l : List Byte) : Chip :=
  match p with
  | .far r o => c.writeLintel r.val o l
  | .loc s o => c.putLocal s o l

/-- MEM_WRITE's effect and reply. -/
def Chip.memWriteCmd (c : Chip) (k epoch : Nat) (m : Welt) : Chip :=
  if m.argB ≠ m.payload.length || 8192 < m.payload.length then c.answer k epoch m 2
  else match c.memTarget m with
    | .error st => c.answer k epoch m st
    | .ok t =>
      let n := m.payload.length
      let c := c.pullPlace t.place n true
      let g := c.writableBytes t.place n
      let c := c.putPlace t.place (m.payload.take g)
      if g < n then (c.hostUe t g).answer k epoch m 7 (BitVec.ofNat 64 (t.place.lineOffset g))
      else c.answer k epoch m 0

/-- Replies of at most 8,192 bytes, in address order, with the byte offset in the read; the last is marked if it ends. -/
def Chip.readReplies (c : Chip) (k epoch : Nat) (m : Welt) (fuel off : Nat) (l : List Byte) (ends : Bool) : Chip :=
  match fuel with
  | 0 => c
  | fuel + 1 =>
    let last := l.length ≤ 8192
    let c := c.reply k epoch m 0 (BitVec.ofNat 64 off) (l.take 8192) (last && ends)
    if last then c else c.readReplies k epoch m fuel (off + 8192) (l.drop 8192) ends

/-- MEM_READ's replies. -/
def Chip.memReadCmd (c : Chip) (k epoch : Nat) (m : Welt) : Chip :=
  let n := m.argB
  if 2 ^ 30 < n then c.answer k epoch m 2
  else match c.memTarget m with
    | .error st => c.answer k epoch m st
    | .ok t =>
      let off := match t.block with | some (r, b) => !c.powered (.cblk r b) | none => false
      let c := c.pullPlace t.place n false
      let g := if off then n else c.goodBytes t.place n
      let (c, l) := if off then c.freeBytes n else (c, c.getPlace t.place g)
      if g < n then
        let c := if l.isEmpty then c else c.readReplies k epoch m (g / 8192 + 1) 0 l false
        (c.hostUe t g).answer k epoch m 7 (BitVec.ofNat 64 (t.place.lineOffset g))
      else (c.readReplies k epoch m (n / 8192 + 1) 0 l true).cmdDone

/-- MEM_WRITE or MEM_READ at the head of a session, once the memory it addresses is ready. -/
def Chip.memCmd (c : Chip) (k type : Nat) (f : Chip → Welt → Nat → Chip) : Chip :=
  match c.headCmd k with
  | some m =>
    let waits := match c.memTarget m with | .ok t => t.waits c | .error _ => false
    if waits && m.type = type then c.onTurn k id else c.takeCmd k (fun m => m.type = type) f
  | none => c

/-- MEM_WRITE. -/
def execMemWrite (k : Sess) (s : State) : Host.Outcome State Fault Refusal :=
  s.on (fun c => c.memCmd k.val 0x20 (fun c m ep => c.memWriteCmd k.val ep m))

/-- MEM_READ. -/
def execMemRead (k : Sess) (s : State) : Host.Outcome State Fault Refusal :=
  s.on (fun c => c.memCmd k.val 0x21 (fun c m ep => c.memReadCmd k.val ep m))

/-! ### Program loads -/

/-- A Sheas section (Table WELT-7). -/
structure Sheas where
  kind : Nat
  region : Nat
  block : Nat
  mask : Nat
  target : Nat
  data : List Byte
  /-- Reserved bytes are 0 and the data lie within the payload. -/
  formed : Bool
  deriving DecidableEq, Repr

/-- The sections of a payload, in order; one that overruns it is the last. -/
def sheasSections (fuel : Nat) (l : List Byte) : List Sheas :=
  match fuel with
  | 0 => []
  | fuel + 1 =>
    if l.isEmpty then []
    else
      let size := leAt l 8 4
      let s : Sheas := ⟨leAt l 0 1, leAt l 1 1, leAt l 2 1, leAt l 3 1, leAt l 4 4, (l.drop 32).take size,
        32 + size ≤ l.length && (slice l 12 20).all (· = 0)⟩
      s :: (if 32 + size ≤ l.length then sheasSections fuel (l.drop (32 + size)) else [])

/-- Is the section's descriptor as Table WELT-7 allows, but for the image's place? -/
def Sheas.wellMade (s : Sheas) : Bool :=
  s.formed && s.region < 4 && s.block < 16 &&
  (match s.kind with
   | 0 => s.target % 16 = 0 && s.data.length % 16 = 0 && s.data.length ≤ 8160
   | 1 => s.mask = 0 && s.target < 64 && s.data.length = 16
   | 2 => s.block = 0 && s.mask = 0 && s.target < 256 && s.data.length = 512
   | _ => false)

def Sheas.reg (s : Sheas) : Region := regionOf s.region
def Sheas.blk (s : Sheas) : BlockIx := ⟨s.block % 16, Nat.mod_lt _ (by decide)⟩

/-- Is a 16-byte unit of a cell marked loaded, counting the images of this message? -/
def Chip.unitLoaded (c : Chip) (all : List Sheas) (s : Sheas) (l unit : Nat) : Bool :=
  (c.blk s.reg s.blk).loaded.any (fun x => x.1 = l && x.2.1 ≤ unit && unit < x.2.1 + x.2.2)
    || all.any (fun t => t.kind = 0 && t.wellMade && t.region = s.region && t.block = s.block && inMask t.mask l
        && t.target ≤ 16 * unit && 16 * unit < t.target + t.data.length)

/-- The checks of R397 for one section, in their order: a status. -/
def Chip.sheasStatus (c : Chip) (all : List Sheas) (s : Sheas) : Nat :=
  let u : UnitId := if s.kind = 2 then .mortar s.reg else .cblk s.reg s.blk
  if !s.wellMade then 10
  else if c.inReset s.reg then 6
  else if !c.present u then 11
  else if c.held u then 5
  else if s.kind < 2 && (c.blk s.reg s.blk).wq.any (fun e => e.state ≠ .done) then 9
  else if s.kind = 0 && 131072 < s.target + s.data.length then 3
  else if s.kind = 1 then
    let w := wordAt s.data 0
    if bitAt w 63 && !(maskCells (getBits w 62 55)).all (fun l => c.unitLoaded all s l (getBits w 12 0)) then 10 else 0
  else 0

/-- A checked section is written. A cell image goes to the instruction memory and the shadow of each logical cell of its
mask (R203) and marks its units loaded. -/
def Chip.sheasWrite (c : Chip) (s : Sheas) : Chip :=
  let r := s.reg
  let b := s.blk
  if s.kind = 0 then
    let units := s.data.length / 16
    (maskCells s.mask).foldl (fun (c : Chip) l =>
      let c := (c.store (.imem r.val b.val (c.physCell r b l)) s.target s.data).clearBad
        (.imem r.val b.val (c.physCell r b l)) s.target s.data.length
      let c := c.store (.shadow r.val b.val l) s.target s.data
      let c := if units ≠ 0 && c.cellState r b l = 6 then c.setCellState r b l 0 else c
      c.modBlk r b (fun x => { x with loaded := if units = 0 then x.loaded else x.loaded ++ [(l, s.target / 16, units)] })) c
  else if s.kind = 1 then
    (List.range 2).foldl (fun (c : Chip) i =>
      let pos := 0x1000 + 16 * s.target + 8 * i
      c.setReg (.cblk r b) pos (wordAt s.data (8 * i) &&& accMask .cblk pos .rwl)) c
  else
    (List.range 64).foldl (fun (c : Chip) i =>
      let pos := 0xA0000 + 0x1000 * (s.target / 8) + 512 * (s.target % 8) + 8 * i
      c.setReg (.mortar r) pos (wordAt s.data (8 * i) &&& accMask .mortar pos .rwl)) c

/-- PROGRAM_LOAD's checks, writes and reply. -/
def Chip.programLoad (c : Chip) (k epoch : Nat) (m : Welt) : Chip :=
  let l := sheasSections (m.payload.length / 32 + 1) m.payload
  if l.isEmpty then c.answer k epoch m 10
  else match ((List.range l.length).zip l).find? (fun x => c.sheasStatus l x.2 ≠ 0) with
    | some (i, s) => c.answer k epoch m (c.sheasStatus l s) (BitVec.ofNat 64 i)
    | none => (l.foldl Chip.sheasWrite c).answer k epoch m 0

/-- PROGRAM_LOAD. -/
def execProgramLoad (k : Sess) (s : State) : Host.Outcome State Fault Refusal :=
  s.on (fun c => c.takeCmd k.val (fun m => m.type = 0x30) (fun c m ep => c.programLoad k.val ep m))

/-! ### Jobs -/

/-- The units of a job, from the holds. -/
def Chip.jobUnits (c : Chip) (job : Nat) : List UnitId :=
  (c.bridge.holds.filter (fun e => e.2 = job)).filterMap (fun e => addrUnit e.1)

def Chip.jobOf (c : Chip) (id : Nat) : Option Job := c.bridge.jobs.find? (fun j => j.id = id)
def Chip.modJob (c : Chip) (id : Nat) (f : Job → Job) : Chip :=
  { c with bridge := { c.bridge with jobs := c.bridge.jobs.map (fun j => if j.id = id then f j else j) } }

/-- What the taking of a unit clears and loads (R160, R258, R322, R357, R369). -/
def Chip.unitTake (c : Chip) (u : UnitId) (job : Nat) (exact : Bool) (seed : Word) : Chip :=
  match u with
  | .cblk r b =>
    let c := (c.blkTake r b).setReg u 0x280 (setBits (setBits 0 63 48 job) 0 0 (bit exact))
    c.setReg u 0x288 seed
  | .mortar r => c.mortTake r job exact seed
  | .sort r => c.sortTake r job exact seed
  | .fabmem r => c.fabTake r
  | .cobbler r => c.cobTake r true
  | _ => c

/-- JOB_ASSIGN's status: the cases of R398 in their order. -/
def Chip.assignStatus (c : Chip) (m : Welt) (addrs : List Nat) (exact : Bool) (policy : Nat) (seed : Word) : Nat :=
  let bad := fun (a : Nat) =>
    let t := a / 2 ^ 30 % 128
    2 ^ 40 ≤ a || a % 2 ^ 22 ≠ 0 || t = 0 || 0x0B < t
  let units := addrs.map addrUnit
  let modeDiffers := match c.jobOf m.job with
    | some j => !(c.jobUnits m.job).isEmpty && !(j.exact = exact && j.policy = policy && j.seed = seed)
    | none => false
  if m.job = 0 || addrs.any bad then 3
  else if units.any (fun u => match u with | some u => !c.present u | none => true) then 11
  else if units.any (fun u => match u with | some u => c.held u | none => false) then 5
  else if units.any (fun u => match u.bind unitRegion with | some r => c.inReset r | none => false) then 6
  else if modeDiffers then 3
  else 0

/-- JOB_ASSIGN. -/
def Chip.jobAssign (c : Chip) (k epoch : Nat) (m : Welt) : Chip :=
  let p := m.payload
  if p.length < 16 || p.length % 8 ≠ 0 then c.answer k epoch m 2
  else
    let mode := wordAt p 0
    let exact := bitAt mode 0
    let policy := getBits mode 9 8
    let seed := wordAt p 8
    let addrs := (List.range ((p.length - 16) / 8)).map (fun i => leAt p (16 + 8 * i) 8)
    -- in Acquire no region takes a job (R35); the status is the model's (DESIGN CHOICE, log 263)
    let st := if c.fld .boot BOOT.BOOT_STS_state ≠ 8 || c.course.tick = .acquire then 6 else c.assignStatus m addrs exact policy seed
    if st ≠ 0 || addrs.isEmpty then c.answer k epoch m st
    else
      let jobs := if (c.jobUnits m.job).isEmpty then
          c.bridge.jobs.filter (fun j => j.id ≠ m.job) ++ [{ id := m.job, exact := exact, policy := policy, seed := seed }]
        else c.bridge.jobs
      let holds := addrs.foldl (fun h a => Tab.put h a m.job) c.bridge.holds
      let c := { c with bridge := { c.bridge with jobs := jobs, holds := holds } }
      let c := (addrs.eraseDups.filterMap addrUnit).foldl (fun (c : Chip) u => c.unitTake u m.job exact seed) c
      c.answer k epoch m 0

/-- JOB_ASSIGN. -/
def execJobAssign (k : Sess) (s : State) : Host.Outcome State Fault Refusal :=
  s.on (fun c => c.takeCmd k.val (fun m => m.type = 0x40) (fun c m ep => c.jobAssign k.val ep m))

/-- The work of a released unit ends (R398, steps 1 and 2; R322, R329, R207). -/
def Chip.unitQuit (c : Chip) (u : UnitId) : Chip :=
  match u with
  | .cblk r b => (c.abortBlock r b 9).blkTake r b
  | .mortar r => c.mortRelease r
  | .sort r => c.sortRelease r
  | _ => c

/-- A unit's hold has ended: ARITH_MODE and ARITH_SEED read 0 (R369). -/
def Chip.unitFreed (c : Chip) (u : UnitId) : Chip :=
  match u with
  | .cblk _ _ => (c.setReg u 0x280 0).setReg u 0x288 0
  | .mortar _ => (c.setReg u 0x150 0).setReg u 0x158 0
  | .sort _ => (c.setReg u 0x128 0).setReg u 0x130 0
  | .fabmem r => c.modFab r (fun f => { f with tearing := none, dead := [] })
  | _ => c

/-- Does a FABMEM of the job have an entry that is not FREE, or an open fence (R398, step 3)? -/
def Chip.fabBusy (c : Chip) (u : UnitId) : Bool :=
  match u with
  | .fabmem r => !(c.fab r).ledger.isEmpty || !(c.fab r).fences.isEmpty
  | _ => false

/-- R177 starts at the next boundary in every region whose FABMEM the job holds. -/
def Chip.startTear (c : Chip) (job : Nat) : Chip :=
  (c.jobUnits job).foldl (fun (c : Chip) u => match u with
    | .fabmem r => c.modFab r (fun f => { f with tearing := some (job, c.courseCount + 1, false) })
    | _ => c) c

/-- Is a release or a teardown of the job under way? The next such command waits. -/
def Chip.jobBusy (c : Chip) (job : Nat) : Bool :=
  match c.jobOf job with | some j => j.releasing.isSome || j.tearing.isSome | none => false

/-- JOB_RELEASE starts. -/
def Chip.jobRelease (c : Chip) (k epoch : Nat) (m : Welt) : Chip :=
  let us := c.jobUnits m.job
  if us.isEmpty then c.answer k epoch m 3
  else
    let c := us.foldl Chip.unitQuit c
    let c := if us.any c.fabBusy then c.startTear m.job else c
    c.modJob m.job (fun j => { j with releasing := some (k, m.seq, epoch), rebuilt := false })

/-- JOB_RELEASE. -/
def execJobRelease (k : Sess) (s : State) : Host.Outcome State Fault Refusal :=
  s.on (fun c => match c.headCmd k.val with
    | some m => if c.jobBusy m.job && m.type = 0x41 then c.onTurn k.val id
                else c.takeCmd k.val (fun m => m.type = 0x41) (fun c m ep => c.jobRelease k.val ep m)
    | none => c)

/-- A reply to a command that started earlier. -/
def lateReply (type session job seq : Nat) : Welt := mkWelt type session job seq 0 0 0 0 0 []

/-- Steps 1 and 3 of a release go on: a work queue entry of the job is not free, or a teardown not done (R398). -/
def Chip.releaseHeldUp (c : Chip) (us : List UnitId) : Bool :=
  us.any (fun u => match u with
    | .cblk r b => !(c.blk r b).wq.isEmpty
    | .fabmem r => (match (c.fab r).tearing with | some (_, _, done) => !done | none => false)
    | _ => false)

/-- The holds of a job end and the release is answered. -/
def Chip.releaseEnds (c : Chip) (id k seq ep : Nat) (us : List UnitId) : Chip :=
  let c := us.foldl (fun (c : Chip) u => (c.unitQuit u).unitFreed u) c
  let c := { c with bridge := { c.bridge with
    holds := c.bridge.holds.filter (fun e => e.2 ≠ id)
    jobs := c.bridge.jobs.filter (fun j => j.id ≠ id) } }
  c.answer k ep (lateReply 0x41 k id seq) 0

/-- RELEASE_COMPLETE: once the job's invocations and teardowns are done its Cobblers rebuild, and once they have, the holds end and
the reply is sent (R398). -/
def execReleaseComplete (job : BitVec 16) (s : State) : Host.Outcome State Fault Refusal :=
  s.on (fun c =>
    let id := job.toNat
    match c.jobOf id with
    | none => c
    | some j => match j.releasing with
      | none => c
      | some (k, seq, ep) =>
        let us := c.jobUnits id
        if c.releaseHeldUp us then
          us.foldl (fun (c : Chip) u => match u with | .cblk r b => c.abortBlock r b 9 | _ => c) c
        else
          let c := if j.rebuilt then c
            else (us.foldl (fun (c : Chip) u => match u with | .cobbler r => c.cobTake r false | _ => c) c).modJob id
              (fun j => { j with rebuilt := true })
          if us.any (fun u => match u with | .cobbler r => !(c.cob r).rebuilding.isEmpty | _ => false) then c
          else c.releaseEnds id k seq ep us)

/-- Teardowns that are done in every region of their job are answered (R398). -/
def Chip.answerTears (c : Chip) : Chip :=
  c.bridge.jobs.foldl (fun (c : Chip) j => match j.tearing with
    | none => c
    | some (k, seq, ep) =>
      let busy := (c.jobUnits j.id).any (fun u => match u with
        | .fabmem r => (match (c.fab r).tearing with | some (_, _, done) => !done | none => false)
        | _ => false)
      if busy then c
      else (c.modJob j.id (fun j => { j with tearing := none })).answer k ep (lateReply 0x42 k j.id seq) 0) c

/-- JOB_TEARDOWN starts. -/
def Chip.jobTeardown (c : Chip) (k epoch : Nat) (m : Welt) : Chip :=
  if (c.jobUnits m.job).isEmpty then c.answer k epoch m 3
  else ((c.startTear m.job).modJob m.job (fun j => { j with tearing := some (k, m.seq, epoch) })).answerTears

/-- JOB_TEARDOWN. -/
def execJobTeardown (k : Sess) (s : State) : Host.Outcome State Fault Refusal :=
  s.on (fun c => match c.headCmd k.val with
    | some m => if c.jobBusy m.job && m.type = 0x42 then c.onTurn k.val id
                else c.takeCmd k.val (fun m => m.type = 0x42) (fun c m ep => c.jobTeardown k.val ep m)
    | none => c)

/-- TEARDOWN: the steps of Table FAB-7 that the present course has reached. -/
def execTeardown (r : Region) (s : State) : Host.Outcome State Fault Refusal :=
  s.onLive r (fun c => (c.tearStep r).answerTears)

/-! ### Fabric traffic -/

/-- FABRIC_SEND: the packet joins region endpoint input 19, where it meets the ingress checks; the reply follows them. -/
def Chip.fabricSend (c : Chip) (k epoch : Nat) (m : Welt) : Chip :=
  let p := m.payload
  let r := regionOf (getBits m.argA 1 0)
  if p.length < 32 || 8224 < p.length then c.answer k epoch m 2
  else
    let pkt := Packet.ofBytes p
    if pkt.kind ≠ 0 && pkt.kind ≠ 4 && pkt.kind ≠ 6 then c.answer k epoch m 1
    else if c.inReset r then c.answer k epoch m 6
    else
      let bad := p.length ≠ 32 + pkt.len && p.length ≠ 32 + roundUp pkt.len 16
      let a : Arrival := { pkt := { pkt with payload := pkt.payload.take pkt.len }, badFrame := bad,
                           reply := some (k, epoch, m) }
      c.arrive r 19 a

/-- FABRIC_SEND. -/
def execFabricSend (k : Sess) (s : State) : Host.Outcome State Fault Refusal :=
  s.on (fun c => c.takeCmd k.val (fun m => m.type = 0x50) (fun c m ep => c.fabricSend k.val ep m))

/-- R399: the first packet that a channel of the region takes next and `want` names goes to the event session, or is discarded
while the session is CLOSED; while the session cannot take it, no channel takes it. -/
def Chip.toHost (c : Chip) (r : Region) (type : Nat) (want : Packet → Bool) : Chip :=
  match c.hostHead r want with
  | none => c
  | some (k, st) =>
    let pkt := st.out
    let c := c.schedStart r (16 + k) st
    let n := c.eventSession
    if pkt.crc ≠ pkt.crcOf then c
    else if c.sessState n = 0 then (c.bump .hostbr HOSTBR.WELT_COUNT_recv_discards).raise .hostbr HOSTBR.ev_recv_discard
    else c.weltSend n (mkWelt type n 0 0 0 (4 * bit (type = 0x0B || pkt.isLast)) 0 0 0 pkt.bytes)

/-- RESULT_MESSAGE. -/
def execResultMessage (r : Region) (s : State) : Host.Outcome State Fault Refusal :=
  s.onLive r (fun c => c.toHost r 0x0A (fun p => p.kind = 5))

/-- RECV. -/
def execRecv (r : Region) (s : State) : Host.Outcome State Fault Refusal :=
  s.onLive r (fun c => c.toHost r 0x0B (fun p => p.kind ≠ 5))

end Sys2Proof.Machine
end

