-- ==== Sys2Proof/Machine/Boot.lean ====
section
/-! DEFINITION. Reset and power-good (R485 to R487), clock checks (R490), the boot sequencer (R452 to R462), and the rebuild
and rejoin of a region after its partition reset (R416, R418, R468). -/
namespace Sys2Proof.Machine

def Chip.modBoot (c : Chip) (f : BootS → BootS) : Chip := { c with boot := f c.boot }

/-- BOOT_STS `state` (Table BOOT-1). -/
def Chip.bootCode (c : Chip) : Nat := c.fld .boot BOOT.BOOT_STS_state
def Chip.bootTo (c : Chip) (st : Nat) : Chip := c.setFld .boot BOOT.BOOT_STS_state st

/-! ### Pins -/

/-- ALERT_N is asserted: the POWER unit is pending, or boot has FAILED (R448, Table PKG-2). -/
def Chip.alert (c : Chip) : Bool := c.unitPending .power || c.bootCode = 15

/-- The flash pins are released to high impedance (R486, R494). -/
def Chip.flashReleased (c : Chip) : Bool := c.boot.resetLow || c.bootCode = 15

/-- TDO is in high impedance (R486). -/
def Chip.tdoReleased (c : Chip) : Bool := c.boot.resetLow

/-- THERMTRIP_N is asserted (R488). -/
def Chip.thermtripped (c : Chip) : Bool := c.boot.thermtrip

/-! ### Reset -/

/-- R486: everything at its reset value, PD_AON included. Fuses, flash, the boundary register and the pins are outside the
reset; a transfer that it cuts off leaves its target EMPTY (R466); the model's own counters run on. -/
def Chip.fresh (c : Chip) (low pwrgd shut : Bool) : Chip :=
  { ({} : Chip) with
    now := c.now
    free := c.free
    fuses := c.fuses
    straps := { c.straps with samples := [] }
    tap := { c.tap with tdo := [] }
    flash := c.targetEmptied.flash
    sec := { draws := c.sec.draws }
    boot := { resetLow := low, pwrgd := pwrgd, shut := shut } }

/-- RESET_ASSERT. -/
def execResetAssert (s : State) : Host.Outcome State Fault Refusal :=
  s.on (fun c => c.fresh true c.boot.pwrgd false)

/-- RESET_RELEASE: the sequencer begins with the strap samples, MODE in bits [8:6] and POS in [5:0] (R452, R484). With PWRGD
low PD_AON stays in reset until RESET_N is released again (R487). -/
def execResetRelease (s1 s2 s3 : BitVec 9) (s : State) : Host.Outcome State Fault Refusal :=
  s.on (fun c =>
    if !c.boot.resetLow then c
    else if !c.boot.pwrgd then c.modBoot (fun b => { b with resetLow := false, shut := true })
    else ({ c with straps := { c.straps with samples := [s1, s2, s3] } }).modBoot (fun b => { b with
      resetLow := false
      startedAt := c.now }))

/-- PWRGD_RISE (Table PKG-4, step 2): PD_AON starts and RESET_N is awaited. -/
def execPwrgdRise (s : State) : Host.Outcome State Fault Refusal :=
  s.on (fun c => if c.boot.pwrgd then c else c.modBoot (fun b => { b with pwrgd := true, shut := !b.resetLow }))

/-- PWRGD_FALL (R487): everything powers down and PD_AON is held in reset. -/
def execPwrgdFall (s : State) : Host.Outcome State Fault Refusal :=
  s.on (fun c => if c.boot.pwrgd then c.fresh c.boot.resetLow false (!c.boot.resetLow) else c)

/-! ### Ends of boot -/

/-- FAILED (Table BOOT-1): every transmitter idle, the code in the BOOT unit's capture. -/
def Chip.bootFail (c : Chip) (code : Nat) : Chip :=
  let c := (c.error .boot evErrUncorrected code).bootTo 15
  let c := c.forPorts (fun c p => if c.portState p ≠ 0 then c.leaveTo p 0 else c)
  c.hostLinkLost

/-- Does the sequencer run: RESET_N released, powered, and not shut down? -/
def Chip.sequencing (c : Chip) : Bool := !c.boot.resetLow && c.boot.pwrgd && !c.boot.shut && !c.boot.failSilent

/-- CLOCK_FAILURE (R490): in CORES boot ends in FAILED; else fail silent, without a message when AONCLK is the clock. -/
def execClockFailure (aonclk : Bool) (s : State) : Host.Outcome State Fault Refusal :=
  s.on (fun c =>
    if !c.sequencing then c
    else if !aonclk && c.bootCode = 3 then c.bootFail 0x92
    else c.goSilent (!aonclk))

/-! ### A candidate slot -/

/-- Flash operations that the sequencer itself performs to their end. -/
def Chip.flashAll (c : Chip) (l : List FlashOp) : Chip := l.foldl Chip.flashDo c

/-- R457: everything outside PD_AON is reset: region cores, switched domains, links. -/
def Chip.coldOutside (c : Chip) : Chip :=
  let c := (c.forRegions Chip.clearRegion).resetRegs (· = .hostport)
  let c := (List.range 3).foldl (fun c i => c.setReg .power (0x150 + 8 * i) 0) c
  let c := (c.setReg .power 0x110 0).modPwr (fun s => { s with
    ramping := []
    rampWait := []
    falling := []
    faulted := [] })
  let c := c.modRepoint (fun s => { s with wires := [], wiresLost := [] })
  ({ c with host := {} }.modBoot (fun b => { b with
    coresUp := false
    reading := false
    script := []
    repair := []
    eq := [] })).showD2d

/-- R457: a candidate fails with a code: the next is tried, or boot ends in FAILED. -/
def Chip.slotFail (c : Chip) (code : Nat) : Chip :=
  let c := (c.setFld .boot BOOT.BOOT_STS_fail_code code).error .boot BOOT.ev_slot_fallback code
  let c := (c.coldOutside.setFld .boot BOOT.BOOT_STS_trial 0).modBoot (fun b => { b with candidates := b.candidates.drop 1 })
  if c.boot.candidates.isEmpty then c.bootFail 0x9B else c.bootTo 2

/-- SELECT begins (R456): the order of candidates; a slot with three attempts spent becomes EMPTY. -/
def Chip.selectBegin (c : Chip) : Chip :=
  let c := (c.bootTo 2).syncRecord
  match c.record with
  | none => c.modBoot (fun b => { b with candidates := [false, true], unrecorded := true })
  | some r =>
    let c := [false, true].foldl (fun c x => if r.slot x = 0 then c else c.showSlot x (c.flashRead (slotBase x) 4096)) c
    let spent := fun (x : Bool) => decide (r.slot x = 1 ∧ 3 ≤ r.attempts)
    let c := if spent false || spent true then
        let ops := c.recordOps (if spent false then 0 else r.a) (if spent true then 0 else r.b) 0
        ((c.flashAll ops).syncRecord).raise .boot BOOT.ev_trial_failed
      else c
    let at_ := fun (st : Nat) => [false, true].filter (fun x => r.slot x = st && !spent x)
    c.modBoot (fun b => { b with candidates := at_ 1 ++ at_ 2 ++ at_ 3, unrecorded := false })

/-- SELECT of one candidate: an attempt of a PENDING slot is counted before its header is read and checked (R456, R462). -/
def Chip.selectTry (c : Chip) (ok : Bool) : Chip :=
  match c.boot.candidates with
  | [] => c.bootFail 0x9B
  | x :: _ =>
    let c := match c.record with
      | some r =>
        if r.slot x = 1 then
          ((c.flashAll (c.recordOps r.a r.b (r.attempts + 1))).syncRecord).setFld .boot BOOT.BOOT_STS_trial 1
        else c.setFld .boot BOOT.BOOT_STS_trial 0
      | none => c.setFld .boot BOOT.BOOT_STS_trial 0
    let h := c.flashRead (slotBase x) 4096
    let c := c.setFld .boot BOOT.BOOT_STS_slot (bit x)
    if !ok || c.hdrStatus h ≠ 0 then c.slotFail 0x9A
    else ((c.modBoot (fun b => { b with header := h })).showSlot x h).bootTo 3

/-! ### The states before SELECT -/

/-- STRAPS (R483, R484): POSITION, `role` and the reset values that follow from them. -/
def Chip.bootStraps (c : Chip) : Chip :=
  match c.straps.samples with
  | [a, b, d] =>
    let mode := a.toNat / 64
    let pos := a.toNat % 64
    if a ≠ b || b ≠ d || 2 < mode then c.bootFail 0x98
    else
      let c := { c with straps := { c.straps with mode := BitVec.ofNat 3 mode, pos := BitVec.ofNat 6 pos } }
      let c := (c.setFld .chip CHIP.POSITION_row (pos / 8)).setFld .chip CHIP.POSITION_col (pos % 8)
      let c := c.setFld .course COURSE.TICK_CTL_role mode
      let c := c.setFld .course COURSE.TICK_STS_acting_master (bit (mode ≠ 2))
      let c := c.setFld .course COURSE.TICK_STS_locked (bit (mode ≠ 2))
      let c := (List.range 4).foldl (fun c i => c.setReg .chip 0x120
        (setBits (c.reg .chip 0x120) (12 * i + 11) (12 * i) (4 * pos + i))) c
      let c := c.modCourse (fun s => { s with
        tick := if mode = 2 then .acquire else .locked
        strapMaster := if mode = 2 then none else some pos })
      c.bootTo 1
  | _ => c.bootFail 0x98

/-- Words of a byte list. -/
def wordsOf (l : List Byte) : List Word := (List.range (l.length / 8)).map (fun i => wordAt l (8 * i))

/-- FUSES (R452, R470, R471, R478, R479): the registers whose reset value is fused. -/
def Chip.bootFuses (c : Chip) (ok : Bool) : Chip :=
  let f := c.fuses
  if !ok || !f.crcOk then c.bootFail 0x99
  else
    let c := c.setFld .chip CHIP.CHIP_INFO_logical_blocks f.blockCount
    let c := (c.setFld .chip CHIP.CHIP_INFO_stepping f.steppingCode).setFld .chip CHIP.CHIP_INFO_grade f.gradeCode
    let c := (c.setReg .chip 0x108 0x00010002).setReg .chip 0x110 f.serial
    let c := (c.setFld .fuse FUSE.FUSE_STS_version_floor f.versionFloor.toNat).setFld .fuse FUSE.FUSE_STS_key_revoked
      f.keyRevoked.toNat
    let c := (c.setFld .fuse FUSE.FUSE_STS_key_present f.keyPresent.toNat).setFld .fuse FUSE.FUSE_STS_debug_key_present
      f.debugKeyPresent.toNat
    let count := fun (k : Nat) => (f.repairs.filter (fun w => getBits w 63 60 = k)).length
    let c := (c.setFld .fuse FUSE.FUSE_REPAIRS_rows (count 3)).setFld .fuse FUSE.FUSE_REPAIRS_lanes (count 0)
    let c := (c.setFld .fuse FUSE.FUSE_REPAIRS_cells (count 1)).setFld .fuse FUSE.FUSE_REPAIRS_subbanks (count 2)
    let c := (c.setFld .fuse FUSE.FUSE_REPAIRS_pcs (count 4)).setFld .fuse FUSE.FUSE_REPAIRS_wires (count 5)
    let page1 := fun (c : Chip) (u : UnitId) (off : Nat) (l : List Byte) =>
      (List.range (l.length / 8)).foldl (fun c i => c.setReg u (0x1000 + off + 8 * i) (wordAt l (8 * i))) c
    let c := (List.range 4).foldl (fun c k => page1 c .fuse (0x30 * k) (digestBytes (f.imageKeys.getD k 0))) c
    let c := (List.range 2).foldl (fun c k => page1 c .fuse (0xC0 + 0x30 * k) (digestBytes (f.debugKeys.getD k 0))) c
    let c := page1 c .fuse 0x120 (digestBytes c.fuseDigest)
    let c := page1 c .security 0 (keyBytes c.identityKey)
    let c := c.setReg .power 0x138 (match f.grade with | .a => 0xFFFFFFFFFFFFFFFF | .b => 0x0FFF0FFF0FFF0FFF)
    (c.forRegions Chip.loadBlockMap).selectBegin

/-! ### The states after SELECT -/

/-- CORES: region cores and PLLs are up; the arithmetic clocks and rails start at their floors (DESIGN CHOICE, log 80). -/
def Chip.bootCores (c : Chip) (ok : Bool) : Chip :=
  if !ok then c.bootFail 0x92
  else
    let c := c.modBoot (fun b => { b with coresUp := true })
    let c := (List.range 4).foldl (fun c r => (c.setFq r (c.fqFloor r)).setMv r (clampCode true (c.dieByte 0x90 r true))) c
    c.showD2d.bootTo 4

/-- Do two repairs use the same spare set: the lanes of a port's direction, a block's cells, a bank's sub-banks, a DRAM
bank's rows, a stack's pseudo-channels, a die-to-die direction (R461)? -/
def sameSpares (a b : Word) : Bool :=
  getBits a 63 52 = getBits b 63 52
    && (match getBits a 63 60 with
        | 0 | 5 => bitAt a 48 = bitAt b 48
        | 3 => getBits a 13 0 = getBits b 13 0
        | _ => true)

/-- The spares of such a set. -/
def spareCount (w : Word) : Nat :=
  match getBits w 63 60 with | 3 => 32 | 4 => 2 | 5 => 16 | _ => 1

/-- The image's repairs that have a spare left after those of the fuses and those before them (R461). -/
def keptRepairs (fused : List Word) (l : List Word) : List Word :=
  l.foldl (fun kept w =>
    let same := (fused ++ kept).filter (sameSpares w)
    if same.any (fun x => getBits x 47 0 = getBits w 47 0) || spareCount w ≤ same.length then kept else kept ++ [w]) []

/-- The words of the sections of one type. -/
def Chip.sectionWords (c : Chip) (type : Nat) : List Word :=
  ((hdrSections c.boot.header).filter (fun s => s.type = type)).flatMap (fun s =>
    wordsOf (c.flashRead (slotBase c.bootedSlot + s.offset) s.size))

/-- Do the sections of some types match their hashes? -/
def Chip.sectionsOk (c : Chip) (types : List Nat) : Bool :=
  ((hdrSections c.boot.header).filter (fun s => types.contains s.type)).all (fun s => c.sectionOk (slotBase c.bootedSlot) s)

/-- LOAD: the REPAIR and EQ sections, hashed and held (R452, R461). -/
def Chip.bootLoad (c : Chip) (ok : Bool) : Chip :=
  if !ok || !c.sectionsOk [1, 2] then c.slotFail 0x9A
  else
    let listed := c.sectionWords 1
    let kept := keptRepairs c.fuses.repairs listed
    let skipped := listed.length - kept.length
    let c := c.setFld .boot BOOT.SCRIPT_COUNT_repairs_skipped skipped
    let c := c.raiseIf (decide (0 < skipped)) .boot BOOT.ev_repairs_skipped
    (c.modBoot (fun b => { b with repair := kept, eq := c.sectionWords 2 })).bootTo 5

/-- Die-to-die repairs in force, as the region cores come up (R410). -/
def Chip.wireRepairs (c : Chip) : Chip :=
  (c.repairs.filter (fun w => getBits w 63 60 = 5)).foldl (fun c w =>
    let at_ := getBits w 59 58
    let far := getBits w 57 52 % 4
    let k := if bitAt w 48 then 4 * far + at_ else 4 * at_ + far
    let l := Tab.get c.repoint.wires k []
    let n := getBits w 47 0
    if l.contains n then c else c.modRepoint (fun s => { s with wires := Tab.put s.wires k (l ++ [n]) })) c

/-- Entries of the SCRIPT sections (R460). -/
def scriptOf : List Word → List ScriptEntry
  | a :: b :: t => (a, b) :: scriptOf t
  | _ => []

/-- DOMAINS: the switched domains that the reset values select come on, in the order of R438, with their repairs; then the
SCRIPT sections are read. -/
def Chip.bootDomains (c : Chip) : Chip :=
  let c := c.wireRepairs.showD2d
  let c := rampOrder.foldl (fun c d => if c.domExists d && c.domAsked d && !c.domOn d then c.domUp d else c) c
  let script := scriptOf (c.sectionWords 3)
  (c.modBoot (fun b => { b with script := script, reading := true })).bootTo 6

/-! ### The script -/

/-- What becomes of an entry. -/
inductive ScriptDone where
  | done | waits | failed
  deriving DecidableEq, Repr

/-- R460: one entry. A POLL reads until every bit set in its data reads 1; a DELAY waits. -/
def Chip.scriptEntry (c : Chip) (e : ScriptEntry) : Chip × ScriptDone :=
  let a := getBits e.1 39 0
  let pos := a % 2 ^ 22
  let st := c.accessStatus a
  match getBits e.1 42 40 with
  | 0 =>
    if st = 1 then (c.bump .boot BOOT.SCRIPT_COUNT_absent_skipped, .done)
    else match addrUnit a with
      | some u => if st = 0 then (((c.unitWrite u pos e.2).1).wrap .boot BOOT.SCRIPT_COUNT_entries, .done) else (c, .failed)
      | none => (c, .failed)
  | 1 =>
    match addrUnit a with
    | some u =>
      if st ≠ 0 then (c, .failed)
      else
        let (c, w) := c.unitRead u pos
        if e.2 &&& ~~~ w = 0 then (c.wrap .boot BOOT.SCRIPT_COUNT_entries, .done) else (c, .waits)
    | none => (c, .failed)
  | 2 => (c, .waits)
  | _ => (c, .failed)

/-- The first slot that boots without a record is written CONFIRMED, the other EMPTY (R456). -/
def Chip.recordFirst (c : Chip) : Chip :=
  if !c.boot.unrecorded then c
  else
    let ops := if c.bootedSlot then c.recordOps 0 2 0 else c.recordOps 2 0 0
    ((c.flashAll ops).syncRecord).modBoot (fun b => { b with unrecorded := false })

/-- The end of SCRIPT: the course timer of a card or tick master starts, with the length that the script left in
COURSE_CTL (DEDUCED, log 61), and LINKS begins (R452, R28, R29). -/
def Chip.scriptEnd (c : Chip) : Chip :=
  let c := c.recordFirst
  let c := if c.acting then
      (c.setFld .course COURSE.TICK_STS_len_eff (c.fld .course COURSE.COURSE_CTL_course_len)).modCourse (fun s =>
        { s with
          running := true
          boundaryAt := c.now
          newLen := none })
    else c
  c.bootTo 7

/-- Entries in order until one waits, fails or none is left. -/
def Chip.scriptRun (fuel : Nat) (c : Chip) : Chip :=
  match fuel with
  | 0 => c
  | k + 1 =>
    match c.boot.script with
    | [] => c.scriptEnd
    | e :: t =>
      match c.scriptEntry e with
      | (c, .done) => Chip.scriptRun k (c.modBoot (fun b => { b with script := t }))
      | (c, .waits) => c
      | (c, .failed) => c.slotFail 0x9C

/-- SCRIPT: a timed operation ends: the read and hash of the sections, a DELAY, or a POLL's time-out. -/
def Chip.bootScript (c : Chip) (ok : Bool) : Chip :=
  let go := fun (c : Chip) => c.scriptRun (c.boot.script.length + 1)
  if c.boot.reading then
    if !ok || !c.sectionsOk [3] then c.slotFail 0x9A else go (c.modBoot (fun b => { b with reading := false }))
  else match c.boot.script with
    | [] => go c
    | e :: t =>
      if getBits e.1 42 40 = 2 then go ((c.wrap .boot BOOT.SCRIPT_COUNT_entries).modBoot (fun b => { b with script := t }))
      else if ok then go c
      else c.slotFail 0x9C

/-- BOOT_STATE_DONE. -/
def execBootStateDone (found : BootFound) (s : State) : Host.Outcome State Fault Refusal :=
  s.on (fun c =>
    let ok := decide (found = .ok)
    if !c.sequencing then c
    else match c.bootCode with
      | 0 => c.bootStraps
      | 1 => c.bootFuses ok
      | 2 => c.selectTry ok
      | 3 => c.bootCores ok
      | 4 => c.bootLoad ok
      | 5 => c.bootDomains
      | 6 => c.bootScript ok
      | _ => c)

/-- The end of boot, or of a partition reset: the region's blocks are ready (R227). -/
def Chip.blocksReady (c : Chip) (r : Region) : Chip :=
  (List.finRange 16).foldl (fun c b => if c.domOn (16 * r.val + b.val) && c.present (.cblk r b) then
    c.setFld (.cblk r b) readyFld 1 else c) c

/-- BOOT_READY: every powered port with `enable` = 1 is ACTIVE or FAILED (Table BOOT-1); one that has gone idle since has its
link (DEDUCED, log 60). -/
def execBootReady (s : State) : Host.Outcome State Fault Refusal :=
  s.on (fun c =>
    let settled := (List.finRange 64).all (fun p =>
      !c.flag (.port p) PORT.PORT_CTL_enable || !c.powered (.port p) || c.linked p || c.portState p = 10)
    if c.sequencing && c.bootCode = 7 && settled then
      (((List.finRange 4).foldl Chip.blocksReady c).setFld .boot BOOT.BOOT_STS_boot_us
        ((c.now - c.boot.startedAt) * 16 / 25000)).bootTo 8
    else c)

/-! ### Rebuild and rejoin of a region -/

/-- Step 4 begins: repairs, the declaration of Plumb, and the re-read EQ and SCRIPT sections (R418, R468). -/
def Chip.partRebuild (c : Chip) (r : Region) : Chip :=
  let c := c.setPart r 4
  let c := c.repairs.foldl (fun c w => if getBits w 59 58 = r.val && getBits w 63 60 ≤ 2 then c.applyRepair w else c) c
  let c := (List.finRange 4).foldl (fun c i => if c.domOn (136 + 4 * r.val + i.val) then c.recount r else c) c
  let c := (c.loadLost r).showD2d
  let good := c.sectionsOk [2, 3]
  let mine := fun (e : ScriptEntry) => getBits e.1 39 37 = r.val && getBits e.1 42 40 ≤ 1
  let script := if good then (scriptOf (c.sectionWords 3)).filter mine else []
  let p := c.part r
  let c := c.setPartS r { p with script := script, unread := !good }
  if good then c else c.error .boot evErrUncorrected 0x9C [BitVec.ofNat 64 r.val]

/-- An entry of the region's script in step 4: its units answer the sequencer, which itself is not refused (R468). -/
def Chip.partEntry (c : Chip) (e : ScriptEntry) : Chip × ScriptDone :=
  let a := getBits e.1 39 0
  let pos := a % 2 ^ 22
  match addrUnit a with
  | none => (c, .done)
  | some u =>
    if !(c.accessStatus a = 0 || c.accessStatus a = 4) then (c, .done)
    else if getBits e.1 42 40 = 0 then ((c.unitWrite u pos e.2).1, .done)
    else
      let (c, w) := c.unitRead u pos
      (c, if e.2 &&& ~~~ w = 0 then .done else .waits)

/-- The region's entries until one waits. -/
def Chip.partScript (fuel : Nat) (c : Chip) (r : Region) : Chip :=
  match fuel with
  | 0 => c
  | k + 1 =>
    let p := c.part r
    match p.script with
    | [] => c
    | e :: t =>
      match c.partEntry e with
      | (c, .done) => Chip.partScript k (c.setPartS r { p with script := t }) r
      | (c, _) => c

/-- Step 4 ends once the script is done and the powered stacks are filled; a section that missed its hash keeps it. -/
def Chip.partRebuilt (c : Chip) (r : Region) : Chip :=
  let c := c.partScript ((c.part r).script.length + 1) r
  let filled := (List.finRange 2).all (fun i => c.memReady (regionStack r i) || !c.stackOn (regionStack r i))
  if !(c.part r).unread && (c.part r).script.isEmpty && filled then c.setPart r 5 else c

/-- Step 5 ends: the region holds the chip's course number and phase (R36); its blocks are ready, its units answer. -/
def Chip.partRejoin (c : Chip) (r : Region) : Chip :=
  let c := (c.blocksReady r).modRepoint (fun s => { s with parts := Tab.del s.parts r.val })
  (c.setPart r 0).showD2d

/-- PARTITION_STEP_DONE. -/
def execPartitionStepDone (r : Region) (s : State) : Host.Outcome State Fault Refusal :=
  s.on (fun c => match c.partStep r with
    | 3 => c.partRebuild r
    | 4 => c.partRebuilt r
    | 5 => c.partRejoin r
    | _ => c.partAdvance r)

end Sys2Proof.Machine
end

