-- ==== Sys2Proof/Machine/Boundary.lean ====
section
/-! DEFINITION. A course boundary: the steps of Table CLK-5 in their order, for every region that is not in its partition
sequence (R42, R44). -/
namespace Sys2Proof.Machine

/-! ### Offset 0 -/

/-- R39, R41, R223: a running cell that reached no course wait in the course that ends: an overrun; twice, a slip. -/
def Chip.overrunCell (c : Chip) (r : Region) (b : BlockIx) (l : Nat) : Chip :=
  if !cellBusy (c.cellState r b l) then c
  else
    let n := (c.cell r b l).missed
    if n = 0 then c.modCell r b l (fun x => { x with missed := 1 })
    else
      let u := UnitId.cblk r b
      let slip := decide (2 ≤ n)
      let detail := [c.capCell r b l 0, 0, c.capInv r b l]
      let held := c.pwr.heldBelow.contains r.val
      let c := c.modCell r b l (fun x => { x with missed := if slip then 1 else 2, throttled := held })
      let c := (c.bump u CBLK.LATE_overruns).error u CBLK.ev_overrun 0x49 detail
      let c := (c.bump .course COURSE.OVERRUN_COUNT_overruns).raise .course COURSE.ev_overrun
      if !slip then c
      else
        let c := (c.bump u CBLK.LATE_slips).bump .course COURSE.OVERRUN_COUNT_slips
        if !c.flag .course COURSE.COURSE_CTL_overrun_stop then c
        else
          let c := c.error u CBLK.ev_slip 0x4A detail
          match c.entryOf r b l with
          | some e => c.endEntry r b e.n 5 none
          | none => c

/-- The overrun and slip checks of a region. -/
def Chip.overrunChecks (c : Chip) (r : Region) : Chip :=
  (List.finRange 16).foldl (fun c b => (List.range 8).foldl (fun c l => c.overrunCell r b l) c) c

/-! ### Offset 2 -/

/-- Start of entry i of a list. -/
def GateView.startOf (g : GateView) (i : Nat) : Nat := (g.entries.take i).foldl (fun n e => n + e.1) 0

/-- Does the list, run from the start of a course, ever admit a packet of the class that needs `need` s-cycles (R142)? -/
def GateView.everAdmits (g : GateView) (course : Nat) (guard : Bool) (cls need : Nat) : Bool :=
  g.count = 0 || (List.range g.count).any (fun i =>
    let t := g.startOf i
    decide (t < course) && GateView.admits { g with ix := i, elapsed := 0, courseLeft := course - t } guard cls need)

/-- R142 for one class of a port, as a course ends: its head waited for nothing but its gate through all of it. A mark falls
with the packet's start and with the link. -/
def Chip.gateTell (c : Chip) (p : Port) (tc : Nat) : Chip :=
  match Tab.find (c.port p).blocked tc with
  | some (n, false) =>
    if c.ready1 p tc then
      (c.modPort p (fun s => { s with blocked := Tab.put s.blocked tc (n, true) })).raise (.port p) PORT.ev_gate_blocked
    else c
  | _ => c

/-- R142 for one class of a port, as a course begins: a mark for a head that the list now in force never admits. -/
def Chip.gateMark (c : Chip) (p : Port) (tc : Nat) : Chip :=
  let shut := match stagingHead (Tab.get (c.xbar (portRegion p)).staging (p.val % 16) []) tc with
    | some h => c.ready1 p tc && !(c.gateView p).everAdmits c.courseCycles (c.guarded p) tc (guardCycles h.pkt.len)
    | none => false
  let marked := (Tab.find (c.port p).blocked tc).isSome
  c.modPort p (fun s => { s with
    blocked := if !shut then Tab.del s.blocked tc
      else if marked then s.blocked
      else Tab.put s.blocked tc (c.courseCount, false) })

/-- A port's gates at a boundary (R139, R141, R142). -/
def Chip.gateBoundary (c : Chip) (p : Port) : Chip :=
  let each := fun (f : Chip → Nat → Chip) (c : Chip) => if c.portState p = 7 then (List.range 8).foldl f c else c
  each (fun c tc => c.gateMark p tc) (((each (fun c tc => c.gateTell p tc) c).gateRestart p).gateApply p)

/-! ### Offset 8 -/

/-- R145: `depth_sample` at boundaries whose number is a multiple of `sample_interval`. -/
def Chip.depthSample (c : Chip) (p : Port) : Chip :=
  let n := c.fld (.port p) PORT.SCHED_CTL_sample_interval
  if c.courseNow % max 1 n ≠ 0 then c
  else (List.range 8).foldl (fun c tc => c.setFld (.port p) (PORT.QDEPTH_depth_sample.plus (24 * tc)) (c.depthOf p tc)) c

/-! ### Offset 16 -/

/-- R256: the release of a due boundary ends the course waits for it. -/
def Chip.releaseCell (c : Chip) (r : Region) (b : BlockIx) (l : Nat) : Chip :=
  if c.cellState r b l = 2 && (c.cell r b l).due ≤ c.courseCount then
    ((c.courseWaitDone r b l).modCell r b l (fun x => { x with passed := true })).setCellState r b l 1
  else c

def Chip.releaseWaits (c : Chip) (r : Region) : Chip :=
  (List.finRange 16).foldl (fun c b => (List.range 8).foldl (fun c l => c.releaseCell r b l) c) c

/-! ### The boundary -/

/-- Apply an operation for each region that performs the boundary's steps (R44). -/
def Chip.forLive (c : Chip) (f : Chip → Region → Chip) : Chip :=
  c.forRegions (fun c r => if c.partStep r = 0 then f c r else c)

/-- Apply an operation for each powered port of those regions. -/
def Chip.forLivePorts (c : Chip) (f : Chip → Port → Chip) : Chip :=
  c.forPorts (fun c p => if c.partStep (portRegion p) = 0 && c.powered (.port p) then f c p else c)

/-- The boundary step under way stands at this s-cycle offset (R42): what a step captures carries it. -/
def Chip.stepOffset (c : Chip) (n : Nat) : Chip := c.modCourse (fun s => { s with stepAt := n })

/-- R42, Table CLK-5. -/
def Chip.boundary (c : Chip) : Chip :=
  let c := c.advanceCourse.forLive Chip.overrunChecks
  let c := (((c.modPwr (fun s => { s with heldBelow := [] })).belowNote).stepOffset 1).repointBoundary
  let c := ((c.stepOffset 2).forLivePorts Chip.gateBoundary).hostGateBoundary
  let c := (c.stepOffset 4).plumbBoundary
  let c := (c.stepOffset 6).forLive Chip.courseLaunch
  let c := ((c.stepOffset 8).forLivePorts Chip.depthSample).watchBoundary
  let c := (c.stepOffset 16).forLive Chip.releaseWaits
  (c.stepOffset 0).sendTicks

/-- One s-cycle with no command, with what waits at the host port (log 1): one count of the clock, and no fuse is written
(R470). -/
def Chip.freeCycle (c : Chip) : Chip := { c.sCycle.hostSlot with fuses := c.fuses, now := c.now + 1 }

/-- COURSE_BOUNDARY: the course timer reaches a boundary; none before it runs (Table CLK-3). -/
def execCourseBoundary (s : State) : Host.Outcome State Fault Refusal :=
  s.on (fun c => if c.course.running then c.boundary else c)

end Sys2Proof.Machine
end

