-- ==== Sys2Proof/Machine/Serve.lean ====
section
/-! DEFINITION. A memory block at work: a request passes the directory into the scheduler queue of its pseudo-channel, and
one is performed there (R183, R184, R194), with the scrubber's reads (R189) and the sparing copies (R191) among them. -/
namespace Sys2Proof.Machine

/-! ### The directory -/

/-- Does a request need its lines to itself (Table MEM-4)? -/
def MemKind.excl : MemKind → Bool
  | .fabric _ p dup => fabricWrites p dup
  | .fill _ _ _ _ own _ => own
  | .atomic _ _ _ _ _ _ _ _ => true
  | .line _ _ _ _ put => put.isSome
  | .fix _ | .scrub _ | .spare _ => false

/-- The block for whose line cache a request is. -/
def MemKind.caches : MemKind → Option Nat
  | .fill b _ _ _ _ _ => some b
  | _ => none

/-- R194, Table MEM-4: the copies in the way of a request are asked for and it waits, or it passes into the scheduler queues
of its pseudo-channels. Maintenance, whose reads and write-backs leave a line's bytes as they are, asks for none
(log 266). -/
def Chip.memPass (c : Chip) (s : Stack) (q : MemReq) : Chip :=
  let (c, free) := c.askWay (if q.client = 3 then [] else q.kind.lines) q.kind.excl q.kind.caches
  c.modMem s (fun m =>
    if free then { m with queue := m.queue.erase q, sched := m.sched ++ [{ q with begun := false, passed := c.now }] }
    else { m with queue := m.queue.map (fun x => if x = q then { x with begun := true } else x) })

/-! ### A request is performed -/

/-- Does a cell still run the invocation that made a request? -/
def Chip.cellAsks (c : Chip) (b cell entry : Nat) : Bool := (Tab.get (c.block b).cells cell {}).entry = entry

/-- A cell's coherent request met an uncorrectable line (R222). -/
def Chip.cellUe (c : Chip) (b cell entry k : Nat) : Chip :=
  if c.cellAsks b cell entry then
    c.modCellS b cell (fun x => { x with ue := some (windowAddr (keyRegion k).val (keyOffset k)) })
  else c

/-- R189, R187: the scrubber's read of a line; the last line of a bank clears its tallies. -/
def Chip.scrubbed (c : Chip) (k : Nat) (seen : List EccSeen) : Chip :=
  let s := keyStack k
  let (pc, rank, bank, row, col) := placeOf (keyOffset k)
  let n := (c.memS s).tally
  let wrong := wrongSymbols seen 0
  let (d, bad) := c.readLine k 3 0 0 wrong
  let d := if bad || wrong.isEmpty then d else d.bump (.memblk s) MEMBLK.ECC_COUNT_scrub_fixed
  if row = 6143 && col = 15 && !n.isEmpty then
    d.modMem s (fun m => { m with tally := m.tally.filter (fun e => e.1 / 8192 ≠ rowKey pc rank bank 0 / 8192) })
  else d

/-- R191: one line of a proactive copy is read from the pseudo-channel and written to the spare. -/
def Chip.spareCopied (c : Chip) (s : Stack) (k : Nat) (seen : List EccSeen) : Chip :=
  let (c, _) := c.readLine k 3 0 0 (wrongSymbols seen 0)
  let c := c.modMem s (fun m => { m with copied := m.copied + 1 })
  c.setFld (.memblk s) MEMBLK.MEM_STS_copy_pct ((c.memS s).copied * 100 / pcLines)

/-- The effect of a request at its pseudo-channel; `seen` is what its decoder meets (R186). -/
def Chip.memServe (c : Chip) (s : Stack) (q : MemReq) (seen : List EccSeen) : Chip :=
  match q.kind with
  | .fabric r p dup => c.serveFabric (regionOf r) p dup seen
  | .fill b cell n k own whole =>
    if own && whole && c.lineBad k then c.fillLine b k own true
    else
      let (c, bad) := c.readLine k 1 0 0 (wrongSymbols seen 0)
      if bad then c.cellUe b cell n k else c.fillLine b k own false
  | .atomic b cell n op wide k operand swap =>
    let (c, bad) := c.readLine (k / 64 * 64) 1 0 0 (wrongSymbols seen 0)
    if bad then c.cellUe b cell n (k / 64 * 64)
    else c.amoApply (regionOf (b / 16)) ⟨b % 16, Nat.mod_lt _ (by decide)⟩ cell n op wide k operand swap
  | .line b ix part k put => c.lineDone q.client b ix part k put seen
  | .fix _ => c
  | .scrub k => c.scrubbed k seen
  | .spare k => c.spareCopied s k seen

/-! ### Maintenance -/

/-- The line of a pseudo-channel's j-th line (R182). -/
def pcLineKey (s : Stack) (pc j : Nat) : Nat := lineKey (s.val / 2) (offsetOf s.val (64 * j + (pc ^^^ (j % 64))))

/-- The pseudo-channel whose proactive copy runs (R191). -/
def Chip.copyingPc (c : Chip) (s : Stack) : Option Nat :=
  c.repoint.queue.findSome? (fun q => match q.elem with
    | .pc x p => if x = s && !q.hard && !q.copied then some p.val else none
    | _ => none)

/-- Write-backs that wait for room and the next line of a sparing copy join the maintenance queue (R183). -/
def Chip.memFeed (c : Chip) (s : Stack) : Chip :=
  let c := match (c.memS s).fixes with
    | k :: t => if (c.memS s).room 3 then (c.modMem s (fun m => { m with fixes := t })).memAsk s 3 0 0 (.fix k) else c
    | [] => c
  let m := c.memS s
  let asked := (m.queue ++ m.sched).any (fun q => match q.kind with | .spare _ => true | _ => false)
  match c.copyingPc s with
  | some p => if asked || !m.room 3 || pcLines ≤ m.copied then c else c.memAsk s 3 0 0 (.spare (pcLineKey s p m.copied))
  | none => if m.copied = 0 then c else c.modMem s (fun m => { m with copied := 0 })

/-! ### The commands -/

/-- One slot of a memory block: a request passes the directory, and one is performed at its pseudo-channel. -/
def Chip.memSlot (c : Chip) (s : Stack) (seen : List EccSeen) : Chip :=
  let c := c.memFeed s
  let c := match c.memPick s with
    | some (q, a) => (c.modMem s (fun m => { m with turn := a.turn, took := a.took, share := a.share })).memPass s q
    | none => c
  match c.schedPick s with
  | some q =>
    let c := (c.openRows s q).modMem s (fun m => { m with sched := m.sched.erase q })
    ((c.memServe s q seen).feedDma).memDone s
  | none => c

/-- May the block serve requests: it is initialised (R193), or its domain is off and they fail (R440)? -/
def Chip.memServes (c : Chip) (s : Stack) : Bool := c.memReady s || !c.stackOn s

/-- MEMBLK_REQUEST. -/
def execMemblkRequest (k : Stack) (seen : List EccSeen) (s : State) : Host.Outcome State Fault Refusal :=
  s.onLive ⟨k.val / 2, by omega⟩ (fun c => if c.memServes k then c.memSlot k seen else c)

/-- SCRUB_READ (R189): the next line in line order joins the maintenance queue; where no other queue wants the slot, it is
read in it. -/
def execScrubRead (k : Stack) (seen : List EccSeen) (s : State) : Host.Outcome State Fault Refusal :=
  s.onLive ⟨k.val / 2, by omega⟩ (fun c =>
    let u := UnitId.memblk k
    let line := c.fld u MEMBLK.SCRUB_STS_scrub_line
    if !c.memReady k || c.fld u MEMBLK.MEM_CTL_scrub_hours = 0 || !(c.memS k).room 3 then c
    else
      let key := lineKey (k.val / 2) (offsetOf k.val line)
      let c := (c.memAsk k 3 0 0 (.scrub key)).setFld u MEMBLK.SCRUB_STS_scrub_line (if line + 1 = 805306368 then 0 else line + 1)
      match c.memPick k with
      | some (q, _) => if q.kind = .scrub key && (c.memS k).sched.isEmpty then c.memSlot k seen else c
      | none => c)

end Sys2Proof.Machine
end

