-- ==== Sys2Proof/Machine/Dispatch.lean ====
section
/-! DEFINITION. One arm per command. -/
namespace Sys2Proof.Machine

/-- The effect of a command on everything but the queue. -/
def exec (i : Instr) (s : State) : Host.Outcome State Fault Refusal :=
  match i with
  | .resetAssert => Sys2Proof.Machine.execResetAssert s
  | .resetRelease s1 s2 s3 => Sys2Proof.Machine.execResetRelease s1 s2 s3 s
  | .bootReady => Sys2Proof.Machine.execBootReady s
  | .pwrgdRise => Sys2Proof.Machine.execPwrgdRise s
  | .pwrgdFall => Sys2Proof.Machine.execPwrgdFall s
  | .clockFailure aonclk => Sys2Proof.Machine.execClockFailure aonclk s
  | .idcode => Sys2Proof.Machine.execIdcode s
  | .bypass tdi => Sys2Proof.Machine.execBypass tdi s
  | .registerWrite addr value hwSet => Sys2Proof.Machine.execRegisterWrite addr value hwSet s
  | .rcRead addr hwUpdate => Sys2Proof.Machine.execRcRead addr hwUpdate s
  | .eventForceWrite u value => Sys2Proof.Machine.execEventForceWrite u value s
  | .captureRelease u => Sys2Proof.Machine.execCaptureRelease u s
  | .policyWrite u ceil value => Sys2Proof.Machine.execPolicyWrite u ceil value s
  | .epidMapWrite value => Sys2Proof.Machine.execEpidMapWrite value s
  | .courseBoundary => Sys2Proof.Machine.execCourseBoundary s
  | .tick p header course len master hops launch podId arrival => Sys2Proof.Machine.execTick p header course len master hops launch podId arrival s
  | .markerTimeout => Sys2Proof.Machine.execMarkerTimeout s
  | .holdoverExhausted => Sys2Proof.Machine.execHoldoverExhausted s
  | .rttMeasure p => Sys2Proof.Machine.execRttMeasure p s
  | .probe p header echo sendTime arrival hold => Sys2Proof.Machine.execProbe p header echo sendTime arrival hold s
  | .courseLenChange => Sys2Proof.Machine.execCourseLenChange s
  | .courseNumberAdopt => Sys2Proof.Machine.execCourseNumberAdopt s
  | .masterTakeover => Sys2Proof.Machine.execMasterTakeover s
  | .masterStartupTimeout => Sys2Proof.Machine.execMasterStartupTimeout s
  | .elasticBufferError at_ => Sys2Proof.Machine.execElasticBufferError at_ s
  | .eventMessage u => Sys2Proof.Machine.execEventMessage u s
  | .resync => Sys2Proof.Machine.execResync s
  | .enableWrite p on => Sys2Proof.Machine.execEnableWrite p on s
  | .retrainWrite p => Sys2Proof.Machine.execRetrainWrite p s
  | .quietDone p => Sys2Proof.Machine.execQuietDone p s
  | .trainingFrame p lane control status => Sys2Proof.Machine.execTrainingFrame p lane control status s
  | .detectLock p => Sys2Proof.Machine.execDetectLock p s
  | .detectTimeout p => Sys2Proof.Machine.execDetectTimeout p s
  | .equaliseDone p good => Sys2Proof.Machine.execEqualiseDone p good s
  | .eqTimeout p => Sys2Proof.Machine.execEqTimeout p s
  | .negotiate p word => Sys2Proof.Machine.execNegotiate p word s
  | .negotiateTimeout p => Sys2Proof.Machine.execNegotiateTimeout p s
  | .deskewLock p skewPs order => Sys2Proof.Machine.execDeskewLock p skewPs order s
  | .deskewTimeout p => Sys2Proof.Machine.execDeskewTimeout p s
  | .linkupDone p => Sys2Proof.Machine.execLinkupDone p s
  | .linkupTimeout p => Sys2Proof.Machine.execLinkupTimeout p s
  | .data p flit cw => Sys2Proof.Machine.execData p flit cw s
  | .idle p header => Sys2Proof.Machine.execIdle p header s
  | .nak p header => Sys2Proof.Machine.execNak p header s
  | .nakRepeatTimeout p => Sys2Proof.Machine.execNakRepeatTimeout p s
  | .replayTimeout p => Sys2Proof.Machine.execReplayTimeout p s
  | .deadHoldExpiry p => Sys2Proof.Machine.execDeadHoldExpiry p s
  | .routeRestore => Sys2Proof.Machine.execRouteRestore s
  | .idleEntryTimeout p => Sys2Proof.Machine.execIdleEntryTimeout p s
  | .idleReq p header => Sys2Proof.Machine.execIdleReq p header s
  | .idleAck p header => Sys2Proof.Machine.execIdleAck p header s
  | .idleNak p header => Sys2Proof.Machine.execIdleNak p header s
  | .elecIdleEntry p => Sys2Proof.Machine.execElecIdleEntry p s
  | .wakeBurst p => Sys2Proof.Machine.execWakeBurst p s
  | .wakeRelock p => Sys2Proof.Machine.execWakeRelock p s
  | .wakeTimeout p => Sys2Proof.Machine.execWakeTimeout p s
  | .retrain p header => Sys2Proof.Machine.execRetrain p header s
  | .laneFailure p lane rx => Sys2Proof.Machine.execLaneFailure p lane rx s
  | .repointReq p header lane => Sys2Proof.Machine.execRepointReq p header lane s
  | .laneSwitch p lane rx => Sys2Proof.Machine.execLaneSwitch p lane rx s
  | .creditCfgWrite p upper value => Sys2Proof.Machine.execCreditCfgWrite p upper value s
  | .linkInject p value => Sys2Proof.Machine.execLinkInject p value s
  | .laneInject p lane value => Sys2Proof.Machine.execLaneInject p lane value s
  | .continuousInjection p lane => Sys2Proof.Machine.execContinuousInjection p lane s
  | .packetStored r inp => Sys2Proof.Machine.execPacketStored r inp s
  | .meterHoldRelease p tc => Sys2Proof.Machine.execMeterHoldRelease p tc s
  | .cellSlotMatch r fixed => Sys2Proof.Machine.execCellSlotMatch r fixed s
  | .d2dCell src dst crcOk resendOk wire => Sys2Proof.Machine.execD2dCell src dst crcOk resendOk wire s
  | .d2dWireFault src dst wire => Sys2Proof.Machine.execD2dWireFault src dst wire s
  | .packetTransmitStart out => Sys2Proof.Machine.execPacketTransmitStart out s
  | .bufferUe r pkt => Sys2Proof.Machine.execBufferUe r pkt s
  | .bufAllotWrite r value => Sys2Proof.Machine.execBufAllotWrite r value s
  | .multicastWordWrite r g wordB value => Sys2Proof.Machine.execMulticastWordWrite r g wordB value s
  | .wfqWeightWrite p value => Sys2Proof.Machine.execWfqWeightWrite p value s
  | .meterWrite p tc burst value => Sys2Proof.Machine.execMeterWrite p tc burst value s
  | .gateTakeover p value => Sys2Proof.Machine.execGateTakeover p value s
  | .gateTakeoverApply p => Sys2Proof.Machine.execGateTakeoverApply p s
  | .gateEntryWrite p idx value => Sys2Proof.Machine.execGateEntryWrite p idx value s
  | .gateEntryExpiry p => Sys2Proof.Machine.execGateEntryExpiry p s
  | .hostGateTakeover value => Sys2Proof.Machine.execHostGateTakeover value s
  | .combineWindowClose r entry => Sys2Proof.Machine.execCombineWindowClose r entry s
  | .homeRequest r => Sys2Proof.Machine.execHomeRequest r s
  | .gapTimeout r src tc seq => Sys2Proof.Machine.execGapTimeout r src tc seq s
  | .memRspNotice r => Sys2Proof.Machine.execMemRspNotice r s
  | .combinedResponse r => Sys2Proof.Machine.execCombinedResponse r s
  | .ledgerAckTimeout r entry => Sys2Proof.Machine.execLedgerAckTimeout r entry s
  | .sealReceived r => Sys2Proof.Machine.execSealReceived r s
  | .fabricFence r => Sys2Proof.Machine.execFabricFence r s
  | .fenceComplete r fence => Sys2Proof.Machine.execFenceComplete r fence s
  | .fenceTimeout r fence => Sys2Proof.Machine.execFenceTimeout r fence s
  | .hotFilterExpiry r line => Sys2Proof.Machine.execHotFilterExpiry r line s
  | .teardown r => Sys2Proof.Machine.execTeardown r s
  | .memblkRequest k seen => Sys2Proof.Machine.execMemblkRequest k seen s
  | .writeback k line block => Sys2Proof.Machine.execWriteback k line block s
  | .refresh k pc rank bank rowHits => Sys2Proof.Machine.execRefresh k pc rank bank rowHits s
  | .hotRefreshEntry k temp => Sys2Proof.Machine.execHotRefreshEntry k temp s
  | .scrubRead k seen => Sys2Proof.Machine.execScrubRead k seen s
  | .pcFailure k pc => Sys2Proof.Machine.execPcFailure k pc s
  | .sparingCopyDone k => Sys2Proof.Machine.execSparingCopyDone k s
  | .memblkInitDone k => Sys2Proof.Machine.execMemblkInitDone k s
  | .invokeReceived r => Sys2Proof.Machine.execInvokeReceived r s
  | .invokeDispatch r => Sys2Proof.Machine.execInvokeDispatch r s
  | .invocationStart r b => Sys2Proof.Machine.execInvocationStart r b s
  | .wqEntryFree r b => Sys2Proof.Machine.execWqEntryFree r b s
  | .cellFault r b c => Sys2Proof.Machine.execCellFault r b c s
  | .cellRepointCopy r b c => Sys2Proof.Machine.execCellRepointCopy r b c s
  | .blkAbort r b => Sys2Proof.Machine.execBlkAbort r b s
  | .lcacheWrite r b value => Sys2Proof.Machine.execLcacheWrite r b value s
  | .bundleIssue r b c seen => Sys2Proof.Machine.execBundleIssue r b c seen s
  | .bundleCommit r b c => Sys2Proof.Machine.execBundleCommit r b c s
  | .dmaDescriptorStart r b => Sys2Proof.Machine.execDmaDescriptorStart r b s
  | .dmaComplete r b ix => Sys2Proof.Machine.execDmaComplete r b ix s
  | .sparseWinWrite r b win wordB value => Sys2Proof.Machine.execSparseWinWrite r b win wordB value s
  | .sparseCtlWrite r b value => Sys2Proof.Machine.execSparseCtlWrite r b value s
  | .contrib r => Sys2Proof.Machine.execContrib r s
  | .contribAdmit r => Sys2Proof.Machine.execContribAdmit r s
  | .regionPartial r => Sys2Proof.Machine.execRegionPartial r s
  | .lap1 r => Sys2Proof.Machine.execLap1 r s
  | .lap2 r => Sys2Proof.Machine.execLap2 r s
  | .abort r => Sys2Proof.Machine.execAbort r s
  | .census r => Sys2Proof.Machine.execCensus r s
  | .censusRoundStart r group => Sys2Proof.Machine.execCensusRoundStart r group s
  | .censusRelaunch r group => Sys2Proof.Machine.execCensusRelaunch r group s
  | .lapRelaunch r group inst piece frag => Sys2Proof.Machine.execLapRelaunch r group inst piece frag s
  | .instanceTimeout r group inst => Sys2Proof.Machine.execInstanceTimeout r group inst s
  | .xpodLapTimeout r group inst piece frag => Sys2Proof.Machine.execXpodLapTimeout r group inst piece frag s
  | .xpod peer => Sys2Proof.Machine.execXpod peer s
  | .stream r => Sys2Proof.Machine.execStream r s
  | .sortOutput r ctx => Sys2Proof.Machine.execSortOutput r ctx s
  | .streamTimeout r src strm => Sys2Proof.Machine.execStreamTimeout r src strm s
  | .tokenDispatch r => Sys2Proof.Machine.execTokenDispatch r s
  | .batchInvoke r => Sys2Proof.Machine.execBatchInvoke r s
  | .expertResult r => Sys2Proof.Machine.execExpertResult r s
  | .batchTimeout r handle => Sys2Proof.Machine.execBatchTimeout r handle s
  | .poolConfigWrite r k ring value => Sys2Proof.Machine.execPoolConfigWrite r k ring value s
  | .rebuildDone r => Sys2Proof.Machine.execRebuildDone r s
  | .reserveWrite r k value => Sys2Proof.Machine.execReserveWrite r k value s
  | .poolAllocRead r k => Sys2Proof.Machine.execPoolAllocRead r k s
  | .free r value => Sys2Proof.Machine.execFree r value s
  | .cacheRefill r k => Sys2Proof.Machine.execCacheRefill r k s
  | .awlStart value => Sys2Proof.Machine.execAwlStart value s
  | .awlRecordStart => Sys2Proof.Machine.execAwlRecordStart s
  | .awlModeWrite value => Sys2Proof.Machine.execAwlModeWrite value s
  | .awlRecordWrite => Sys2Proof.Machine.execAwlRecordWrite s
  | .awlGapRecord r => Sys2Proof.Machine.execAwlGapRecord r s
  | .awlStopCourse => Sys2Proof.Machine.execAwlStopCourse s
  | .frameReceived f => Sys2Proof.Machine.execFrameReceived f s
  | .pfcFrame enable quanta => Sys2Proof.Machine.execPfcFrame enable quanta s
  | .pfcPauseExpiry prio => Sys2Proof.Machine.execPfcPauseExpiry prio s
  | .pfcXon prio => Sys2Proof.Machine.execPfcXon prio s
  | .open_ k => Sys2Proof.Machine.execOpen k s
  | .ack k => Sys2Proof.Machine.execAck k s
  | .ackDelayTimeout k => Sys2Proof.Machine.execAckDelayTimeout k s
  | .weltResendTimeout peer ix => Sys2Proof.Machine.execWeltResendTimeout peer ix s
  | .sessionValidWrite k value => Sys2Proof.Machine.execSessionValidWrite k value s
  | .peerEntryWrite n word value => Sys2Proof.Machine.execPeerEntryWrite n word value s
  | .regBatch k => Sys2Proof.Machine.execRegBatch k s
  | .scheduledBatch => Sys2Proof.Machine.execScheduledBatch s
  | .memWrite k => Sys2Proof.Machine.execMemWrite k s
  | .memRead k => Sys2Proof.Machine.execMemRead k s
  | .programLoad k => Sys2Proof.Machine.execProgramLoad k s
  | .jobAssign k => Sys2Proof.Machine.execJobAssign k s
  | .jobRelease k => Sys2Proof.Machine.execJobRelease k s
  | .releaseComplete job => Sys2Proof.Machine.execReleaseComplete job s
  | .jobTeardown k => Sys2Proof.Machine.execJobTeardown k s
  | .fabricSend k => Sys2Proof.Machine.execFabricSend k s
  | .resultMessage r => Sys2Proof.Machine.execResultMessage r s
  | .recv r => Sys2Proof.Machine.execRecv r s
  | .begin_ k => Sys2Proof.Machine.execBegin k s
  | .chunk k => Sys2Proof.Machine.execChunk k s
  | .commit k => Sys2Proof.Machine.execCommit k s
  | .imageAbort k => Sys2Proof.Machine.execImageAbort k s
  | .confirm k => Sys2Proof.Machine.execConfirm k s
  | .imageStatus k => Sys2Proof.Machine.execImageStatus k s
  | .imageXferTimeout => Sys2Proof.Machine.execImageXferTimeout s
  | .attest k => Sys2Proof.Machine.execAttest k s
  | .challenge k => Sys2Proof.Machine.execChallenge k s
  | .token k => Sys2Proof.Machine.execToken k s
  | .relock k => Sys2Proof.Machine.execRelock k s
  | .nonceExpiry => Sys2Proof.Machine.execNonceExpiry s
  | .logicUe u corrected => Sys2Proof.Machine.execLogicUe u corrected s
  | .failSilent => Sys2Proof.Machine.execFailSilent s
  | .progressStall u => Sys2Proof.Machine.execProgressStall u s
  | .resetNow r => Sys2Proof.Machine.execResetNow r s
  | .captureStreamCutoff r => Sys2Proof.Machine.execCaptureStreamCutoff r s
  | .repointRequest e hard => Sys2Proof.Machine.execRepointRequest e hard s
  | .repointCommit => Sys2Proof.Machine.execRepointCommit s
  | .wearWindowEnd rings => Sys2Proof.Machine.execWearWindowEnd rings s
  | .subbankTakeover r idx => Sys2Proof.Machine.execSubbankTakeover r idx s
  | .subbankSpareTimeout r idx => Sys2Proof.Machine.execSubbankSpareTimeout r idx s
  | .viewHoldExpiry d => Sys2Proof.Machine.execViewHoldExpiry d s
  | .report p header payload => Sys2Proof.Machine.execReport p header payload s
  | .decideSend => Sys2Proof.Machine.execDecideSend s
  | .decide p header payload => Sys2Proof.Machine.execDecide p header payload s
  | .coordinatorChange => Sys2Proof.Machine.execCoordinatorChange s
  | .plumbEpochApply => Sys2Proof.Machine.execPlumbEpochApply s
  | .restore value => Sys2Proof.Machine.execRestore value s
  | .inputSample mv dA w => Sys2Proof.Machine.execInputSample mv dA w s
  | .sensorSample compute base => Sys2Proof.Machine.execSensorSample compute base s
  | .tripOverrideEnd r => Sys2Proof.Machine.execTripOverrideEnd r s
  | .overcurrent at_ => Sys2Proof.Machine.execOvercurrent at_ s
  | .overcurrentEnd at_ => Sys2Proof.Machine.execOvercurrentEnd at_ s
  | .frequencyStep r => Sys2Proof.Machine.execFrequencyStep r s
  | .voltageStep r margin => Sys2Proof.Machine.execVoltageStep r margin s
  | .railFault dom => Sys2Proof.Machine.execRailFault dom s
  | .domainWrite which value => Sys2Proof.Machine.execDomainWrite which value s
  | .domainRampDone dom => Sys2Proof.Machine.execDomainRampDone dom s
  | .domainPowerDown dom => Sys2Proof.Machine.execDomainPowerDown dom s
  | .bankDrainDone r idx => Sys2Proof.Machine.execBankDrainDone r idx s
  | .hostLinkUp => Sys2Proof.Machine.execHostLinkUp s
  | .hostLinkDown => Sys2Proof.Machine.execHostLinkDown s
  | .hotRefreshExit k temp => Sys2Proof.Machine.execHotRefreshExit k temp s
  | .adaptAtLimit p lane value setting => Sys2Proof.Machine.execAdaptAtLimit p lane value setting s
  | .cellCopyDone r b c => Sys2Proof.Machine.execCellCopyDone r b c s
  | .bootStateDone found => Sys2Proof.Machine.execBootStateDone found s
  | .partitionStepDone r => Sys2Proof.Machine.execPartitionStepDone r s
  | .flashPoll done => Sys2Proof.Machine.execFlashPoll done s
  | .boundaryScan ir dr => Sys2Proof.Machine.execBoundaryScan ir dr s
  | .tapReset => Sys2Proof.Machine.execTapReset s
  | .recall r b line invalidate => Sys2Proof.Machine.execRecall r b line invalidate s

end Sys2Proof.Machine
end

