-- ==== Sys2Proof/WellFormed.lean ====
section
/-! DEFINITION. Which commands the outside world can send: sizes the spec fixes, and units that exist (R51, R81). -/
namespace Sys2Proof

/-- Does Table REG-3 have the unit? A region has no die-to-die link to itself. -/
def UnitId.exists : UnitId → Bool
  | .d2d r i => r ≠ i
  | _ => true

/-- Wires run between two different regions (R113). -/
def Element.exists : Element → Bool
  | .wire s d _ => s ≠ d
  | _ => true

/-- Well-formed commands: a flit has 256 bytes and its payload 240 (R81), a wire joins two regions (R113), a frame has at
most 9,216 bytes (Table WELT-1), a PFC frame names eight quanta (R386), a sample has a reading of each of the 32 and 16 sensors (R443). -/
def Instr.wf : Instr → Bool
  | .eventForceWrite u _ | .captureRelease u | .policyWrite u _ _ | .eventMessage u | .logicUe u _ | .progressStall u =>
    u.exists
  | .data _ flit _ => flit.length = 256
  | .report _ _ payload | .decide _ _ payload => payload.length = 240
  | .d2dCell s d _ _ _ => s ≠ d
  | .d2dWireFault s d _ => s ≠ d
  | .elasticBufferError (.wire s d _) => s ≠ d
  | .repointRequest e _ => e.exists
  | .frameReceived f => f.body.length ≤ 9216
  | .pfcFrame _ quanta => quanta.length = 8
  | .sensorSample compute base => compute.length = 32 && base.length = 16
  | _ => true

end Sys2Proof
end

