-- ==== Sys2Proof/Safety.lean ====
section
/-! DEFINITION. What counts as a safe step and a safe run of the block, in the terms the statements use. -/
namespace Sys2Proof

/-- A step answers a next state: no fault, no refusal. -/
def completes (o : Host.Outcome Machine.State Machine.Fault Machine.Refusal) : Prop := ∃ t, o = .next t

/-- The command completes from this state. -/
def runs (c : Instr) (s : Machine.State) : Prop := completes (Machine.exec c s)

/-- The command answers a next state that keeps the queue, the fuses (R470) and the clock of the model, and whose chip
satisfies `P`. -/
def gives (c : Instr) (s : Machine.State) (P : Machine.Chip → Prop) : Prop :=
  ∃ t, Machine.exec c s = .next t ∧ t.pending = s.pending ∧ t.chip.fuses = s.chip.fuses ∧ t.chip.now = s.chip.now
    ∧ P t.chip

/-- Every register of every unit but the listed ones reads as before. -/
def regsBut (l : List (UnitId × Nat)) (c d : Machine.Chip) : Prop :=
  ∀ u q, q < 2 ^ 22 → (u, q) ∉ l → d.reg u q = c.reg u q

/-- Every register of every other unit reads as before. -/
def onlyUnit (u : UnitId) (c d : Machine.Chip) : Prop := ∀ v q, q < 2 ^ 22 → v ≠ u → d.reg v q = c.reg v q

/-- Every register of every unit that is not listed reads as before. -/
def onlyIn (l : List UnitId) (c d : Machine.Chip) : Prop := ∀ v q, q < 2 ^ 22 → v ∉ l → d.reg v q = c.reg v q

/-- Every byte of every memory reads as before, and every line or word as good as before. -/
def memKept (c d : Machine.Chip) : Prop := (∀ k, Machine.memRead d.mem k = Machine.memRead c.mem k) ∧ d.bad = c.bad

/-- The EVENT bit `b` of the unit is set. -/
def raised (d : Machine.Chip) (u : UnitId) (b : Nat) : Prop := Machine.bitAt (d.reg u 0x20) b = true

/-- The unit answers a register write that names it (R50): the status of its page is OK. -/
abbrev answers (c : Machine.Chip) (u : UnitId) : Prop := c.accessStatus (Machine.regAddr u 0) = 0

/-- An access to this 40-bit address reaches a register of the unit at this position (R49, R50), and is no debug page. -/
abbrev reaches (c : Machine.Chip) (addr : BitVec 40) (u : UnitId) (pos : Nat) : Prop :=
  Machine.addrUnit addr.toNat = some u ∧ addr.toNat % 2 ^ 22 = pos ∧ pos < 0x200000 ∧ c.accessStatus addr.toNat = 0

/-- No fault and no refusal within `k` steps. -/
def safeFor (k : Nat) (s : Machine.State) : Prop := completes (core.run k s)

end Sys2Proof
end

