-- ==== Sys2Proof/Certificates/Slice0/Obligations.lean ====
section
/-! DEFINITION. The statements for the provers, family by family; each docstring names the rule of spec/ that it states. -/
open Sys2Proof Sys2Proof.Machine

/-! ### The machine as a whole -/

/-- No two entries of a block's work queue carry one number, and the next entry's number is above them all. -/
def queuesDistinct (c : Chip) : Prop :=
  ∀ b, ((c.block b).wq.map (·.n)).Nodup ∧ ∀ e ∈ (c.block b).wq, e.n < (c.block b).nextWq

/-- A step takes the command at the front of the queue and gives it its effect on the state with the queue's rest. -/
def Obligations.StepRunsTheFrontCommand : Prop :=
  ∀ (s : State) (c : Instr) (rest : List Instr), s.pending = c :: rest → step s = exec c { s with pending := rest }

/-- The state after reset: no command waits, RESET_N is low, every register of every unit holds its reset word, no byte
of memory is listed, no job holds a unit, memory has its canonical form and no work queue holds two entries of one number. The
reset words that Table REG-1's chapters give as "fuse" or "strap" are the model's choice of 0 (log 10). -/
def Obligations.ResetLeavesEveryRegisterAtItsResetWord : Prop :=
  State.reset.pending = [] ∧ State.reset.chip.boot.resetLow = true
    ∧ (∀ u pos, State.reset.chip.reg u pos = resetWord u pos)
    ∧ (∀ k, memRead State.reset.chip.mem k = memDefault) ∧ Memory.wf State.reset.chip.mem = true
    ∧ queuesDistinct State.reset.chip
    ∧ ∀ u, State.reset.chip.held u = false

/-- R470 as an invariant of every run: whatever commands wait, and however many steps are taken, the fuses hold what
they held; no command, of Welt or of another kind, writes them. -/
def Obligations.NoRunWritesTheFuses : Prop :=
  ∀ (k : Nat) (s t : State), core.run k s = .next t → t.chip.fuses = s.chip.fuses

/-- First in, first out: a step that answers a next state leaves exactly the queue's rest, and the model's clock of
s-cycles stands still for a command and advances by one on an empty queue. On an empty queue the step is the block's one
s-cycle with no command, and no more. That the clock advances only there is the model's choice (log 1, DESIGN CHOICE). -/
def Obligations.EveryStepConsumesItsCommand : Prop :=
  (∀ s t : State, step s = .next t →
    t.pending = s.pending.tail ∧ t.chip.now = s.chip.now + (if s.pending = [] then 1 else 0))
  ∧ ∀ s : State, s.pending = [] → step s = .next { s with chip := s.chip.freeCycle }

/-- The commands that may write a register chosen by an address of their own operands. -/
def addressesARegister : Instr → Bool
  | .registerWrite _ _ _ | .regBatch _ | .scheduledBatch | .bundleCommit _ _ _ => true
  | _ => false

/-- No command is refused, and the one fault of the model, the unlocked debug page that the spec does not lay out
(R474), comes from the four commands that write a register by an address of their own. A REGISTER_WRITE stops
exactly on an unlocked debug page (pages 512 to 1,023, R474). The fault is the model's (log 155, DEDUCED). -/
def Obligations.OnlyDebugPagesStop : Prop :=
  (∀ (c : Instr) (s : State), (∃ t, exec c s = .next t) ∨
    addressesARegister c = true ∧ exec c s = .fault .debugPageLayout)
  ∧ ∀ (s : State) (addr : BitVec 40) (v hw : Word),
    exec (.registerWrite addr v hw) s = .fault .debugPageLayout
      ↔ s.chip.accessStatus addr.toNat = 0 ∧ 512 ≤ addr.toNat % 2 ^ 22 / 4096

/-! ### Register accesses -/

/-- The units whose registers from 0x100 on have only the effects of their fields' access types. -/
def plainUnit : UnitId → Bool
  | .mortar _ | .combine _ | .sort _ | .bufbank _ _ | .memblk _ | .d2d _ _ | .fabmem _ | .boot | .fuse | .security
  | .repoint => true
  | _ => false

/-- R11, R14, R60 for REGISTER_WRITE on the units with no further effect: RW fields take the value, RWL fields take it
unless a job holds the unit, W1C bits are cleared by a 1, all else stays; a refused RWL field sets `locked_write`,
once; no other register changes, nor any memory. -/
def Obligations.RegisterWriteFollowsAccessTypes : Prop :=
  ∀ (s : State) (addr : BitVec 40) (u : UnitId) (pos : Nat) (v : Word), plainUnit u = true → 0x100 ≤ pos →
    reaches s.chip addr u pos →
    let old := s.chip.reg u pos
    let held := s.chip.held u
    let no := writeRefused (unitType u) pos held old v
    gives (.registerWrite addr v 0) s (fun d =>
      d.reg u pos = writeWord (unitType u) pos held old v ∧ d.access = (0, 0, no)
      ∧ (no = true → bitAt (d.reg u 0x20) evLockedWrite = true)
      ∧ (no = false → regsBut [(u, pos)] s.chip d) ∧ regsBut [(u, pos), (u, 0x20), (u, 0x38)] s.chip d
      ∧ memKept s.chip d)

/-- R11, R13 for RC_READ on those units: the read returns the word from before, its RC fields are cleared, and what
hardware adds in the same cycle is all that they hold afterwards; no other register changes. A peak field is returned at
least at the level that it follows now (log 70, DEDUCED). -/
def Obligations.ReadClearsItsFieldsAndLosesNothing : Prop :=
  ∀ (s : State) (addr : BitVec 40) (u : UnitId) (pos : Nat) (hw : Word), plainUnit u = true → 0x100 ≤ pos →
    reaches s.chip addr u pos → (∀ r, u = .mortar r → pos < 0x1000) →
    let old := s.chip.reg u pos
    let rc := accMask (unitType u) pos .rc
    gives (.rcRead addr hw) s (fun d =>
      d.reg u pos = (old &&& ~~~ rc) ||| (hw &&& rc)
      ∧ d.access = (0, s.chip.withPeak u pos (old &&& ~~~ accMask (unitType u) pos .wo), false)
      ∧ regsBut [(u, pos)] s.chip d ∧ memKept s.chip d)

/-- EVENT_FORCE_WRITE sets exactly the existing EVENT bits written as 1 and loads no capture (R57); CAPTURE_RELEASE
leaves 0 in ERR_CAPTURE0 to 7 (R58); no other register of any unit changes. R61 for POLICY_WRITE: a window bound
that would put a floor field above its ceiling field is ignored as a whole and sets `policy_reject`; any other takes
effect. R68 for EPID_MAP_WRITE: a map with one EPID for two regions is ignored as a whole and sets `epid_conflict`;
on an unheld chip any other takes effect. -/
def Obligations.EventCapturePolicyAndMapWrites : Prop :=
  (∀ (s : State) (u : UnitId) (v : Word), answers s.chip u →
    gives (.eventForceWrite u v) s (fun d =>
      d.reg u 0x20 = s.chip.reg u 0x20 ||| (v &&& BitVec.ofNat 64 (eventBits (unitType u)))
      ∧ regsBut [(u, 0x20), (u, 0x38)] s.chip d ∧ memKept s.chip d))
  ∧ (∀ (s : State) (u : UnitId), answers s.chip u →
    gives (.captureRelease u) s (fun d =>
      (∀ i < 8, d.reg u (0x40 + 8 * i) = 0)
      ∧ (∀ v q, q < 2 ^ 22 → v ≠ u ∨ q < 0x40 ∨ 0x80 ≤ q → d.reg v q = s.chip.reg v q) ∧ memKept s.chip d))
  ∧ (∀ (s : State) (u : UnitId) (ceil : Bool) (v : Word), answers s.chip u → hasPolicy (unitType u) = true →
    let pos := if ceil then 0x98 else 0x90
    let new := mux (accMask (unitType u) pos .rw) (s.chip.reg u pos) v
    let lo := if ceil then s.chip.reg u 0x90 else new
    let hi := if ceil then new else s.chip.reg u 0x98
    let bad := (policyFields (unitType u)).any (fun f => decide (getBits hi f.1 f.2 < getBits lo f.1 f.2))
    gives (.policyWrite u ceil v) s (fun d =>
      d.reg u pos = (if bad then s.chip.reg u pos else new)
      ∧ (bad = true → bitAt (d.reg u 0x20) evPolicyReject = true)
      ∧ regsBut [(u, pos), (u, 0x20), (u, 0x38)] s.chip d ∧ memKept s.chip d))
  ∧ ∀ (s : State) (v : Word), answers s.chip .chip → s.chip.held .chip = false →
    let new := mux (accMask .chip 0x120 .rwl) (s.chip.reg .chip 0x120) v
    let bad := (List.range 4).any (fun i => (List.range 4).any (fun j =>
      decide (i < j ∧ getBits new (12 * i + 11) (12 * i) = getBits new (12 * j + 11) (12 * j))))
    gives (.epidMapWrite v) s (fun d =>
      d.reg .chip 0x120 = (if bad then s.chip.reg .chip 0x120 else new)
      ∧ (bad = true → bitAt (d.reg .chip 0x20) CHIP.ev_epid_conflict = true)
      ∧ regsBut [(.chip, 0x120), (.chip, 0x20), (.chip, 0x38)] s.chip d ∧ memKept s.chip d)

/-- The register rows of a unit: the command writes the register that stands beside it, at this position of the unit. -/
def writesAt : Instr → Option (UnitId × Nat)
  | .eventForceWrite u _ => some (u, 0x30)
  | .captureRelease u => some (u, 0x40)
  | .policyWrite u ceil _ => some (u, if ceil then 0x98 else 0x90)
  | .epidMapWrite _ => some (.chip, 0x120)
  | .enableWrite p _ | .retrainWrite p => some (.port p, 0x100)
  | .creditCfgWrite p upper _ => some (.port p, if upper then 0x140 else 0x138)
  | .linkInject p _ => some (.port p, 0x158)
  | .laneInject p l _ => some (.port p, 0x1028 + 0x40 * l.val)
  | .wfqWeightWrite p _ => some (.port p, 0x2008)
  | .meterWrite p tc burst _ => some (.port p, 0x2040 + 16 * tc.val + 8 * bit burst)
  | .gateTakeover p _ => some (.port p, 0x2010)
  | .gateEntryWrite p i _ => some (.port p, 0x3000 + 8 * i.val)
  | .bufAllotWrite r _ => some (.xbar r, 0x108)
  | .multicastWordWrite r g b _ => some (.xbar r, 0x9000 + 16 * g.val + 8 * bit b)
  | .hostGateTakeover _ => some (.hostport, 0x148)
  | .lcacheWrite r b _ | .blkAbort r b => some (.cblk r b, 0x100)
  | .sparseWinWrite r b n h _ => some (.cblk r b, 0x200 + 16 * n.val + 8 * bit h)
  | .sparseCtlWrite r b _ => some (.cblk r b, 0x138)
  | .poolConfigWrite r k ring _ => some (.cobbler r, 0x120 + 0x30 * k.val + 8 * bit ring)
  | .reserveWrite r k _ => some (.cobbler r, 0x1E0 + 8 * k.val)
  | .free r _ => some (.cobbler r, 0x108)
  | .awlStart _ => some (.awl, 0x108)
  | .awlModeWrite _ => some (.awl, 0x100)
  | .sessionValidWrite k _ => some (.hostbr, 0x1000 + 0x40 * k.val)
  | .peerEntryWrite n w _ => some (.hostbr, 0x2000 + 0x20 * n.val + 8 * w.val)
  | .resetNow r => some (.region r, 0x110)
  | .restore _ => some (.plumb, 0x130)
  | .domainWrite k _ => some (.power, 0x138 + 8 * k.val)
  | _ => none

/-- R50: a register write to a unit that does not answer OK changes no register of that unit and nothing else but the
record of the access (Table REG-8); the status goes back. The order in which the statuses are judged is the model's choice
(log 106, DESIGN CHOICE). -/
def Obligations.OnlyStatusOkWrites : Prop :=
  ∀ (c : Instr) (s : State) (u : UnitId) (pos : Nat), writesAt c = some (u, pos) →
    let st := s.chip.accessStatus (regAddr u pos)
    st ≠ 0 →
    exec c s = .next (s.put ((s.chip.accessFault (regAddr u pos) st).accessed st 0 false))
    ∧ gives c s (fun d => d.access = (st, 0, false) ∧ onlyUnit .chip s.chip d ∧ (st = 3 ∨ st = 4 → regsBut [] s.chip d)
      ∧ memKept s.chip d)

/-! ### The course -/

/-- R42, Table CLK-5: at a boundary the steps run in their order, each on what the step before it left, at their offsets
0, 1, 2, 4, 6, 8 and 16; the markers of R91 follow. With step 0 the number rises by 1 modulo 2^48 (R29, R30). That
the one command performs every step is the model's choice (log 101, DESIGN CHOICE). -/
def Obligations.BoundaryStepsRunInOrder : Prop :=
  (∀ s : State, s.chip.course.running = true →
    let a := s.chip.advanceCourse.forLive Chip.overrunChecks
    let b := (((a.modPwr (fun p => { p with heldBelow := [] })).belowNote).stepOffset 1).repointBoundary
    let d := ((b.stepOffset 2).forLivePorts Chip.gateBoundary).hostGateBoundary
    let e := (d.stepOffset 4).plumbBoundary
    let f := (e.stepOffset 6).forLive Chip.courseLaunch
    let g := ((f.stepOffset 8).forLivePorts Chip.depthSample).watchBoundary
    let h := (g.stepOffset 16).forLive Chip.releaseWaits
    exec .courseBoundary s = .next (s.put (h.stepOffset 0).sendTicks))
  ∧ ∀ c : Chip, c.course.started = true →
      c.advanceCourse.courseNow = (c.courseNow + 1) % 2 ^ 48 ∧ c.advanceCourse.course.boundaryAt = c.now
      ∧ c.advanceCourse.courseCount = c.courseCount + 1
      ∧ regsBut [(.course, COURSE.COURSE_NOW_course.pos)] c c.advanceCourse ∧ memKept c c.advanceCourse

/-- R28: an announced length takes effect at a boundary whose number is a multiple of 8 and at least 16 courses after
the write. R36: at the first boundary after a difference was seen at which no job holds a unit the marker's number is
adopted. R37: at the boundary after the choice the Pysum that it names becomes master at hop count 0, one that it no longer
names stops being master, and a strapped master whose wait for a foreign marker is over starts to send markers. -/
def Obligations.CourseLengthNumberAndMaster : Prop :=
  (∀ (s : State) (len w : Nat), s.chip.atBoundary = true → s.chip.course.newLen = some (len, w) → s.chip.acting = true →
    s.chip.courseNow % 8 = 0 → 16 ≤ s.chip.since w →
    gives .courseLenChange s (fun d => d.fld .course COURSE.TICK_STS_len_eff = len % 4 ∧ d.course.newLen = none
      ∧ regsBut [(.course, COURSE.TICK_STS_len_eff.pos)] s.chip d ∧ memKept s.chip d))
  ∧ (∀ (s : State) (n w : Nat), s.chip.atBoundary = true → s.chip.course.adopt = some (n, w) → s.chip.anyHeld = false →
    0 < s.chip.since w →
    gives .courseNumberAdopt s (fun d => d.courseNow = (s.chip.courseNow + n) % 2 ^ 48 ∧ d.course.adopt = none
      ∧ d.courseCount = s.chip.courseCount ∧ regsBut [(.course, COURSE.COURSE_NOW_course.pos)] s.chip d
      ∧ memKept s.chip d))
  ∧ (∀ (s : State) (m w : Nat), s.chip.atBoundary = true → s.chip.course.chosen = some (m, w) → 0 < s.chip.since w →
    m = s.chip.pysum → s.chip.acting = false →
    gives .masterTakeover s (fun d => d.acting = true ∧ d.fld .course COURSE.TICK_STS_hops = 0 ∧ d.course.tick = .locked
      ∧ d.course.startupOver = true ∧ d.reg .course 0x128 = 0 ∧ onlyUnit .course s.chip d ∧ memKept s.chip d))
  ∧ (∀ (s : State) (m w : Nat), s.chip.atBoundary = true → s.chip.course.chosen = some (m, w) → 0 < s.chip.since w →
    m ≠ s.chip.pysum → s.chip.acting = true →
    gives .masterTakeover s (fun d => d.acting = false ∧ d.course.tick = .locked ∧ onlyUnit .course s.chip d
      ∧ memKept s.chip d))
  ∧ ∀ (s : State) (n : Nat), s.chip.course.startup = some n → s.chip.role = 1 → s.chip.acting = true →
    s.chip.markerTimeout ≤ s.chip.since n →
    gives .masterStartupTimeout s (fun d => d.course.startupOver = true ∧ d.sendsTicks = true
      ∧ regsBut [] s.chip d ∧ memKept s.chip d)

/-- The port takes the flits of its far end: no loop-back and no dead receive lane (Table LINK-11, R93). -/
abbrev hears (c : Chip) (p : Port) : Prop := c.looped p = false ∧ (c.port p).deadLane.any (·.2) = false

/-- The port's next flit slot has no earlier duty than what is stated: it transmits to its far end, and the IDLE that R84
demands in every 1,024 slots is not due. -/
abbrev slotOpen (c : Chip) (p : Port) : Prop :=
  c.transmits p = true ∧ c.looped p = false ∧ (c.port p).sinceIdle < 1023

/-- R91: on an ACTIVE peer link a valid marker is remembered with the course in which it came, in pod mode, and the first one
that a follower in Acquire hears gives it the number and the length and leaves it Locked (Table CLK-3); a probe request is
due after every 256 courses (R31), a request that comes is echoed with the time it was held, and an echo gives RTT =
arrival − send − hold, in the 32 bits of `rtt`; a marker leaves with its launch delay. Table CLK-3: a Locked follower with
no marker for `marker_timeout` courses sets `marker_lost` and drops that upstream, and enters Holdover where no other port
has a fresh marker; Holdover ends in Free-running after `holdover_limit` courses, with `holdover_exhausted` and neither
`locked` nor `holdover`. The course of a marker's arrival stands for its time by the model's choice (log 102, DESIGN
CHOICE). -/
def Obligations.MarkersComeAndAreMissed : Prop :=
  (∀ (s : State) (p : Port) (h : Word) (n : BitVec 48) (len : BitVec 2) (m : BitVec 6) (hops : BitVec 8)
      (l : BitVec 16) (pod : BitVec 5) (a : BitVec 32),
    s.chip.portState p = 7 → hears s.chip p → s.chip.portRole p = 2 → s.chip.card = false →
    pod.toNat = s.chip.fld .chip CHIP.POSITION_pod_id → hops.toNat ≤ 7 →
    gives (.tick p h n len m hops l pod a) s (fun d =>
      Tab.find d.course.markers p.val = some (⟨hops.toNat, n.toNat, m.toNat, len.toNat⟩, s.chip.courseCount)
      ∧ (s.chip.acting = false → s.chip.course.tick = .acquire → s.chip.course.markers = [] →
          d.courseNow = n.toNat ∧ d.fld .course COURSE.TICK_STS_len_eff = len.toNat ∧ d.course.tick = .locked
          ∧ d.course.running = true ∧ d.fld .course COURSE.TICK_STS_upstream_port = p.val)
      ∧ onlyIn [.port p, .course] s.chip d ∧ memKept s.chip d))
  ∧ (∀ (s : State) (p : Port), s.chip.portState p = 7 → s.chip.portRole p = 2 →
    (∀ n, Tab.find s.chip.course.rttAt p.val = some n → 256 ≤ s.chip.since n) →
    gives (.rttMeasure p) s (fun d => (d.port p).probesDue = (s.chip.port p).probesDue ++ [(false, 0, 0)]
      ∧ Tab.find d.course.rttAt p.val = some s.chip.courseCount ∧ regsBut [] s.chip d ∧ memKept s.chip d))
  ∧ (∀ (s : State) (p : Port) (h send arrival : Word) (hold : BitVec 32), s.chip.portState p = 6 ∨ s.chip.portState p = 7 →
    hears s.chip p →
    gives (.probe p h true send arrival hold) s (fun d =>
      d.fld (.port p) PORT.PORT_RTT_rtt = (arrival - send - hold.setWidth 64).toNat % 2 ^ 32 ∧ (d.port p).probed = true
      ∧ onlyUnit (.port p) s.chip d ∧ memKept s.chip d)
    ∧ gives (.probe p h false send arrival hold) s (fun d =>
      (d.port p).probesDue = (s.chip.port p).probesDue ++ [(true, send, arrival)] ∧ onlyUnit (.port p) s.chip d
      ∧ memKept s.chip d))
  ∧ (∀ (c : Chip) (p : Port) (send arrival : Word) (l : List (Bool × Word × Word)), slotOpen c p → c.plumbOnly p = false →
    (c.port p).tickDue = none → (c.port p).nakDue = false → (c.port p).probesDue = (true, send, arrival) :: l →
    ∃ e, Tab.find ((c.flitSlot p).port p).lastOut 4 = some e
      ∧ e.flit.payload = pad240 (leBytes 8 1 ++ wordBytes send ++ leBytes 4 (BitVec.ofNat 64 (16 * c.now) - arrival).toNat)
      ∧ ((c.flitSlot p).port p).probesDue = l)
  ∧ (∀ (c : Chip) (p : Port) (n : Nat), slotOpen c p → (c.port p).tickDue = some n → (c.port p).inject ≠ some 2 →
    ∃ e, Tab.find ((c.flitSlot p).port p).lastOut 3 = some e
      ∧ e.flit.payload = tickPayload c.ownMarker (16 * (c.now - n)) (c.fld .chip CHIP.POSITION_pod_id)
      ∧ ((c.flitSlot p).port p).tickDue = none)
  ∧ (∀ s : State, s.chip.acting = false → s.chip.course.tick = .locked →
    s.chip.markerTimeout ≤ s.chip.since s.chip.course.lastMarker →
    let up := s.chip.fld .course COURSE.TICK_STS_upstream_port
    let left := (s.chip.modCourse (fun x => { x with markers := Tab.del x.markers up })).upstreams
    gives .markerTimeout s (fun d => bitAt (d.reg .course 0x20) COURSE.ev_marker_lost = true
      ∧ Tab.find d.course.markers up = none
      ∧ (left = [] → d.course.tick = .holdover ∧ bitAt (d.reg .course 0x20) COURSE.ev_holdover_entered = true)
      ∧ (left ≠ [] → d.course.tick = .locked) ∧ onlyUnit .course s.chip d ∧ memKept s.chip d))
  ∧ ∀ s : State, s.chip.course.tick = .holdover →
    max 8 (s.chip.fld .course COURSE.TICK_CTL_holdover_limit) ≤ s.chip.since s.chip.course.holdoverFrom →
    gives .holdoverExhausted s (fun d => d.course.tick = .free
      ∧ bitAt (d.reg .course 0x20) COURSE.ev_holdover_exhausted = true
      ∧ d.fld .course COURSE.TICK_STS_locked = 0 ∧ d.fld .course COURSE.TICK_STS_holdover = 0
      ∧ onlyUnit .course s.chip d ∧ memKept s.chip d)

/-- The message of a unit's events: EVENT, EVENT_COUNT and the first two capture registers, at the unit's address (R63). -/
def eventOf (c : Chip) (u : UnitId) : EvMsg := .event (unitKey u) [c.reg u 0x20, c.reg u 0x38, c.reg u 0x40, c.reg u 0x48]

/-- R62, R63: a unit that is pending at chip level is told once a course. With no host link its message joins the queue of
1,024, or, with the queue full, sets `event_queue_full` and makes a resynchronise message due, which enters the queue once 512
are left; where the event session may send, the message leaves at once. -/
def Obligations.EventMessagesAreQueued : Prop :=
  (∀ (s : State) (u : UnitId), s.chip.pendingAtChip u = true → s.chip.bridge.told.contains u = false →
    Tab.find s.chip.bridge.toldAt (unitKey u) ≠ some s.chip.courseCount →
    s.chip.flag .hostport HOSTPORT.HP_STS_link_up = false →
    gives (.eventMessage u) s (fun d => Tab.find d.bridge.toldAt (unitKey u) = some s.chip.courseCount
      ∧ (s.chip.bridge.events.length < 1024 → d.bridge.events = s.chip.bridge.events ++ [eventOf s.chip u]
          ∧ d.bridge.resyncDue = s.chip.bridge.resyncDue ∧ (u ≠ .awl → d.bridge.told.contains u = true))
      ∧ (1024 ≤ s.chip.bridge.events.length → d.bridge.events = s.chip.bridge.events
          ∧ raised d .chip CHIP.ev_event_queue_full ∧ d.bridge.resyncDue = true)
      ∧ onlyIn [.chip, .hostbr, .awl] s.chip d ∧ memKept s.chip d))
  ∧ (∀ (s : State) (u : UnitId), s.chip.pendingAtChip u = true → s.chip.bridge.told.contains u = false →
    Tab.find s.chip.bridge.toldAt (unitKey u) ≠ some s.chip.courseCount →
    let k := s.chip.eventSession
    s.chip.bridge.events = [] → s.chip.bridge.captures = [] → (s.chip.sess k).waiting = [] → s.chip.sessSends k 32 = true →
    gives (.eventMessage u) s (fun d => d.bridge.events = []
      ∧ (d.sess k).unacked = (s.chip.sess k).unacked
          ++ [(mkWelt 0x08 k 0 0 0 4 0 (BitVec.ofNat 64 (unitKey u)) 0
            ([s.chip.reg u 0x20, s.chip.reg u 0x38, s.chip.reg u 0x40, s.chip.reg u 0x48].flatMap wordBytes)).stamp
              (s.chip.txNext k) ((s.chip.rxNext k + 2 ^ 32 - 1) % 2 ^ 32)]
      ∧ d.txNext k = (s.chip.txNext k + 1) % 2 ^ 32 ∧ onlyIn [.hostbr, .hostport, .awl] s.chip d ∧ memKept s.chip d))
  ∧ ∀ s : State, s.chip.bridge.resyncDue = true → s.chip.bridge.events.length ≤ 512 →
    s.chip.flag .hostport HOSTPORT.HP_STS_link_up = false →
    gives .resync s (fun d => d.bridge.resyncDue = false ∧ d.bridge.events = s.chip.bridge.events ++ [.resync]
      ∧ onlyUnit .hostbr s.chip d ∧ memKept s.chip d)

/-! ### Evord links -/

/-- LANE_STS of the nine lanes of a port. -/
def laneStatus (p : Port) : List (UnitId × Nat) := (List.range 9).map (fun i => (.port p, PORT.LANE_STS_cdr_lock.pos + 0x40 * i))

/-- R76, R100: a change of `enable` from 0 to 1 and an accepted `retrain` start training in QUIET with all attempts, a
change to 0 disables the port, at once and with `link_down` where it had a link; a held port refuses `retrain` and sets
`locked_write` (R60). -/
def Obligations.EnableAndRetrainStartTraining : Prop :=
  (∀ (s : State) (p : Port), answers s.chip (.port p) → s.chip.held (.port p) = false → s.chip.linked p = false →
    s.chip.flag (.port p) PORT.PORT_CTL_enable = false →
    gives (.enableWrite p true) s (fun d => d.portState p = 1 ∧ d.fld (.port p) PORT.PORT_STS_attempts = 0
      ∧ d.flag (.port p) PORT.PORT_CTL_enable = true ∧ onlyUnit (.port p) s.chip d ∧ memKept s.chip d))
  ∧ (∀ (s : State) (p : Port), answers s.chip (.port p) → s.chip.held (.port p) = false →
    s.chip.flag (.port p) PORT.PORT_CTL_enable = true →
    gives (.enableWrite p false) s (fun d => d.portState p = 0 ∧ d.flag (.port p) PORT.PORT_CTL_enable = false
      ∧ (s.chip.linked p = false → regsBut ((.port p, 0x100) :: (.port p, PORT.PORT_STS_state.pos) :: laneStatus p) s.chip d)
      ∧ (s.chip.linked p = true → raised d (.port p) PORT.ev_link_down) ∧ memKept s.chip d))
  ∧ (∀ (s : State) (p : Port), answers s.chip (.port p) → s.chip.held (.port p) = false → s.chip.linked p = false →
    s.chip.flag (.port p) PORT.PORT_CTL_enable = true →
    gives (.retrainWrite p) s (fun d => d.portState p = 1 ∧ d.fld (.port p) PORT.PORT_STS_attempts = 0
      ∧ onlyUnit (.port p) s.chip d ∧ memKept s.chip d))
  ∧ ∀ (s : State) (p : Port), answers s.chip (.port p) → s.chip.held (.port p) = true →
    s.chip.flag (.port p) PORT.PORT_CTL_enable = true →
    gives (.retrainWrite p) s (fun d => d.portState p = s.chip.portState p ∧ d.access = (0, 0, true)
      ∧ raised d (.port p) evLockedWrite ∧ regsBut [(.port p, 0x100), (.port p, 0x20), (.port p, 0x38)] s.chip d
      ∧ memKept s.chip d)

/-- Table LINK-2: the exits by which a port trains: QUIET to DETECT, from LINKS on (Table BOOT-1), DETECT to EQUALISE with eight
locked lanes here and as the far end reports, EQUALISE to NEGOTIATE with lanes 0 to 7 or with lane 8 in one lane's place,
NEGOTIATE to DESKEW with the side of Table LINK-5, DESKEW to LINKUP with every class's credits at the far end's grant and a
probe to send, LINKUP to ACTIVE with `link_up` once a good flit has come and a probe is complete. -/
def Obligations.TrainingRunsThroughItsStates : Prop :=
  (∀ (s : State) (p : Port), s.chip.portState p = 1 → s.chip.linksRun = true →
    gives (.quietDone p) s (fun d => d.portState p = 2 ∧ (d.port p).trainAt = s.chip.now
      ∧ regsBut [(.port p, PORT.PORT_STS_state.pos)] s.chip d ∧ memKept s.chip d))
  ∧ (∀ (s : State) (p : Port), s.chip.portState p = 2 → 8 ≤ ones (s.chip.port p).frameLock.toNat →
    8 ≤ ones (s.chip.port p).farLocked.toNat →
    gives (.detectLock p) s (fun d => d.portState p = 3
      ∧ (∀ i < 9, d.fld (.port p) (laneFld PORT.LANE_STS_cdr_lock i) = bit ((s.chip.port p).frameLock.getLsbD i))
      ∧ regsBut ((.port p, PORT.PORT_STS_state.pos) :: laneStatus p) s.chip d ∧ memKept s.chip d))
  ∧ (∀ (s : State) (p : Port) (good : BitVec 9), s.chip.portState p = 3 →
    (∀ i < 8, (good &&& ~~~ (s.chip.port p).mute).getLsbD i = true) →
    gives (.equaliseDone p good) s (fun d => d.portState p = 4 ∧ regsBut [(.port p, PORT.PORT_STS_state.pos)] s.chip d
      ∧ memKept s.chip d))
  ∧ (∀ (s : State) (p : Port) (good : BitVec 9) (n : Nat), s.chip.portState p = 3 → n < 8 →
    (∀ i < 9, (good &&& ~~~ (s.chip.port p).mute).getLsbD i = decide (i ≠ n)) →
    gives (.equaliseDone p good) s (fun d => d.portState p = 4 ∧ d.fld (.port p) PORT.PORT_STS_rx_spare_for = n
      ∧ raised d (.port p) PORT.ev_lane_repointed
      ∧ regsBut [(.port p, PORT.PORT_STS_state.pos), (.port p, 0x20), (.port p, 0x38)] s.chip d ∧ memKept s.chip d))
  ∧ (∀ (s : State) (p : Port) (w : BitVec 184) (k : Nat), s.chip.portState p = 4 →
    (s.chip.port p).negWord = some w →
    selectSide (s.chip.fld (.port p) PORT.PORT_CTL_side) (negBits w 101 100)
      (negBits w 165 102 = s.chip.fuses.serial.toNat && negBits w 165 102 ≠ 0)
      (s.chip.card || negBits w 99 95 = s.chip.fld .chip CHIP.POSITION_pod_id) = .role k →
    gives (.negotiate p w) s (fun d => d.portState p = 5 ∧ d.portRole p = k ∧ (d.port p).far = w
      ∧ d.fld (.port p) PORT.PORT_STS_far_epid = negBits w 82 71 ∧ d.fld (.port p) PORT.PORT_STS_far_pysum = negBits w 94 89
      ∧ onlyUnit (.port p) s.chip d ∧ memKept s.chip d))
  ∧ (∀ (s : State) (p : Port) (skew : Nat) (order : LaneOrder), s.chip.portState p = 5 → skew ≤ 10000 → order ≠ .other →
    gives (.deskewLock p skew order) s (fun d => d.portState p = 6
      ∧ d.fld (.port p) PORT.PORT_STS_reversed = bit (order = .reversed) ∧ (d.port p).txSeq = 0 ∧ (d.port p).rxLast = 0xFFF
      ∧ (d.port p).probesDue = (s.chip.port p).probesDue ++ [(false, 0, 0)]
      ∧ (∀ t < 8, d.credit p t = (s.chip.port p).farGrant t) ∧ onlyUnit (.port p) s.chip d ∧ memKept s.chip d))
  ∧ ∀ (s : State) (p : Port), s.chip.portState p = 6 → (s.chip.port p).goodFlit = true → (s.chip.port p).probed = true →
    gives (.linkupDone p) s (fun d => d.portState p = 7 ∧ d.fld (.port p) PORT.PORT_STS_attempts = 0
      ∧ raised d (.port p) PORT.ev_link_up ∧ (d.port p).dead = false
      ∧ (s.chip.portRole p ≠ 2 → onlyUnit (.port p) s.chip d) ∧ memKept s.chip d)

/-- The time-out of each training state (Table LINK-2). -/
def trainingTimeout (p : Port) : Nat → Instr
  | 2 => .detectTimeout p
  | 3 => .eqTimeout p
  | 4 => .negotiateTimeout p
  | 5 => .deskewTimeout p
  | _ => .linkupTimeout p

/-- R77, R78: a training frame with a good CRC leaves its lane locked and what the far end reports of its own lock; in EQUALISE
the taps of this transmitter answer its requests, and in NEGOTIATE its slice of the word is counted; a frame whose CRC fails
changes nothing. R76: each time-out of a training state is a failed attempt: the port goes back to QUIET, or after
`train_attempts` of them to FAILED with `train_fail`; in another state the time-out changes nothing. The initial value and
byte order of the CRC-16 and the codes of a tap are the model's choice (log 115, DESIGN CHOICE; log 252, PRESUMED). -/
def Obligations.TrainingFramesAndTimeOuts : Prop :=
  (∀ (s : State) (p : Port) (lane : Lane) (control status : Word), 2 ≤ s.chip.portState p → s.chip.portState p ≤ 4 →
    s.chip.fld (.port p) PORT.PORT_CTL_loopback ≠ 1 →
    if frameCrcOk control status = true then
      gives (.trainingFrame p lane control status) s (fun d =>
        (d.port p).frameLock.getLsbD lane.val = true ∧ (d.port p).farLocked.getLsbD lane.val = bitAt status 63
        ∧ (d.port p).farReady.getLsbD lane.val = bitAt status 62
        ∧ (s.chip.portState p = 3 →
            let t := Tab.get (s.chip.port p).lanes lane.val {}
            let u := Tab.get (d.port p).lanes lane.val {}
            u.pre = (answerTap (tapCode (getBits control 39 28) 0) t.pre 15).1
            ∧ u.main = (answerTap (tapCode (getBits control 39 28) 1) t.main 15).1
            ∧ u.post = (answerTap (tapCode (getBits control 39 28) 2) t.post 31).1)
        ∧ (s.chip.portState p = 4 → getBits control 43 40 = 4 →
            (d.port p).slices = ((s.chip.port p).takeSlice (getBits status 47 46) (getBits status 45 0)).slices)
        ∧ regsBut [] s.chip d ∧ memKept s.chip d)
    else exec (.trainingFrame p lane control status) s = .next s)
  ∧ ∀ (s : State) (p : Port) (st : Nat), 2 ≤ st → st ≤ 6 →
    let n := s.chip.fld (.port p) PORT.PORT_STS_attempts + 1
    let limit := max 1 (s.chip.fld (.port p) PORT.TRAIN_CTL_train_attempts)
    if s.chip.portState p = st then
      gives (trainingTimeout p st) s (fun d => d.portState p = (if limit ≤ n then 10 else 1)
        ∧ d.fld (.port p) PORT.PORT_STS_attempts = min n 15 ∧ (limit ≤ n → raised d (.port p) PORT.ev_train_fail)
        ∧ onlyUnit (.port p) s.chip d ∧ memKept s.chip d)
    else exec (trainingTimeout p st) s = .next s

/-- A DATA flit whose CRC holds. -/
abbrev goodData (flit : List Byte) : Prop := leAt flit 248 8 = crc64 (flit.take 248) ∧ hdrType (wordAt flit 0) = 0

/-- R73, R86, Table LINK-8a: an ACTIVE port accepts exactly the flit that follows the last accepted one; a duplicate brings no
content; an uncorrectable codeword (more than 15 wrong symbols), a failing CRC or a gap sets the receiver discarding and accepts
nothing, and asks for one NAK. What a codeword needs is counted. -/
def Obligations.FlitsAreAcceptedInOrder : Prop :=
  (∀ (s : State) (p : Port) (flit : List Byte) (cw : Codeword), s.chip.portState p = 7 → hears s.chip p →
    cw.errors.dedup.length ≤ 15 → goodData flit →
    (match (s.chip.port p).classify (hdrSeq (wordAt flit 0)) with
     | .accept => gives (.data p flit cw) s (fun d => (d.port p).rxLast = (s.chip.port p).rxLast + 1
        ∧ (d.port p).rxAny = true ∧ (d.port p).discarding = false ∧ (∀ r, r ≠ portRegion p → d.xbar r = s.chip.xbar r)
        ∧ onlyUnit (.port p) s.chip d ∧ memKept s.chip d)
     | .duplicate => gives (.data p flit cw) s (fun d => (d.port p).rxLast = (s.chip.port p).rxLast
        ∧ d.xbars = s.chip.xbars ∧ onlyUnit (.port p) s.chip d ∧ memKept s.chip d)
     | .gap => gives (.data p flit cw) s (fun d => (d.port p).rxLast = (s.chip.port p).rxLast ∧ (d.port p).discarding = true
        ∧ ((s.chip.port p).discarding = false → (d.port p).nakDue = true) ∧ d.xbars = s.chip.xbars
        ∧ onlyUnit (.port p) s.chip d ∧ memKept s.chip d))
    ∧ (cw.errors ≠ [] → gives (.data p flit cw) s (fun d =>
        d.fld (.port p) PORT.FEC_COUNT_cw_corrected = min (s.chip.fld (.port p) PORT.FEC_COUNT_cw_corrected + 1) (2 ^ 24 - 1)
        ∧ d.fld (.port p) PORT.FEC_COUNT_symbols_corrected
          = min (s.chip.fld (.port p) PORT.FEC_COUNT_symbols_corrected + cw.errors.dedup.length) (2 ^ 24 - 1)
        ∧ raised d (.port p) evErrCorrected)))
  ∧ (∀ (s : State) (p : Port) (flit : List Byte) (cw : Codeword), s.chip.portState p = 7 → s.chip.looped p = false →
    s.chip.cwLost p cw = true →
    gives (.data p flit cw) s (fun d => (d.port p).rxLast = (s.chip.port p).rxLast ∧ (d.port p).discarding = true
      ∧ ((s.chip.port p).discarding = false → (d.port p).nakDue = true) ∧ d.xbars = s.chip.xbars
      ∧ d.fld (.port p) PORT.FEC_COUNT_cw_uncorrected
        = min (s.chip.fld (.port p) PORT.FEC_COUNT_cw_uncorrected + 1) (2 ^ 16 - 1)
      ∧ onlyUnit (.port p) s.chip d ∧ memKept s.chip d))
  ∧ ∀ (s : State) (p : Port) (flit : List Byte) (cw : Codeword), s.chip.portState p = 7 → s.chip.looped p = false →
    s.chip.cwLost p cw = false → leAt flit 248 8 ≠ crc64 (flit.take 248) ∨ 7 ≤ hdrType (wordAt flit 0) →
    gives (.data p flit cw) s (fun d => (d.port p).rxLast = (s.chip.port p).rxLast ∧ (d.port p).discarding = true
      ∧ ((s.chip.port p).discarding = false → (d.port p).nakDue = true) ∧ d.xbars = s.chip.xbars
      ∧ d.fld (.port p) PORT.LINK_COUNT_crc_errors = min (s.chip.fld (.port p) PORT.LINK_COUNT_crc_errors + 1) (2 ^ 16 - 1)
      ∧ onlyUnit (.port p) s.chip d ∧ memKept s.chip d)

/-- A received flit has come whole: it is a good flit, and its header is taken (R83, R86). -/
def heard (c : Chip) (p : Port) (h : Word) : Chip := (c.modPort p (fun x => { x with goodFlit := true })).takeHeader p h

/-- R83 to R87, R89 for the unsequenced flits and the sender: an IDLE flit's count of a class gives that class its new credits, a
NAK and a replay time-out start a replay of every unacknowledged flit, and `replay_limit` of them with no advance end the link;
a discarding port repeats its NAK, which names the last accepted flit. In a flit slot a replay goes on before new flits, a new
flit takes the next number and joins the replay buffer, and after 1,023 slots an IDLE is inserted. -/
def Obligations.CreditsAndReplays : Prop :=
  (∀ (s : State) (p : Port) (h : Word), s.chip.portState p = 7 → hears s.chip p → hdrAckValid h = false →
    let t := hdrCreditTc h
    let avail := s.chip.credit p t + (BitVec.ofNat 16 (hdrCredit h) - (s.chip.port p).seen.getD t 0).toNat
    avail ≤ (s.chip.port p).farGrant t →
    gives (.idle p h) s (fun d => d.credit p t = avail ∧ (d.port p).rxLast = (s.chip.port p).rxLast
      ∧ d.xbars = s.chip.xbars ∧ regsBut [(.port p, 0x148), (.port p, 0x150)] s.chip d ∧ memKept s.chip d))
  ∧ (∀ (s : State) (p : Port) (h : Word), s.chip.portState p = 7 → hears s.chip p →
    let c := heard s.chip p h
    let start := (hdrAck h + 1) % 4096
    (c.port p).replay ≠ [] → (c.port p).replayFrom ≠ some start →
    (c.port p).replaysInRow < max 1 (c.fld (.port p) PORT.REPLAY_CTL_replay_limit) →
    gives (.nak p h) s (fun d => (d.port p).replayFrom = some start ∧ (d.port p).replayQ = (c.port p).replay
      ∧ (d.port p).replaysInRow = (c.port p).replaysInRow + 1 ∧ d.portState p = 7 ∧ onlyUnit (.port p) s.chip d
      ∧ memKept s.chip d))
  ∧ (∀ (s : State) (p : Port) (f : Flit) (l : List Flit), s.chip.portState p = 7 → (s.chip.port p).replay = f :: l →
    (s.chip.port p).replaysInRow < max 1 (s.chip.fld (.port p) PORT.REPLAY_CTL_replay_limit) →
    gives (.replayTimeout p) s (fun d => (d.port p).replayFrom = some f.seq ∧ (d.port p).replayQ = f :: l
      ∧ (d.port p).replaysInRow = (s.chip.port p).replaysInRow + 1 ∧ d.portState p = 7
      ∧ regsBut [(.port p, PORT.LINK_COUNT_replays.pos)] s.chip d ∧ memKept s.chip d))
  ∧ (∀ (s : State) (p : Port), s.chip.portState p = 7 → (s.chip.port p).replay ≠ [] →
    max 1 (s.chip.fld (.port p) PORT.REPLAY_CTL_replay_limit) ≤ (s.chip.port p).replaysInRow →
    gives (.replayTimeout p) s (fun d => d.portState p = 1 ∧ raised d (.port p) PORT.ev_replay_limit ∧ memKept s.chip d))
  ∧ (∀ (s : State) (p : Port), s.chip.portState p = 7 → (s.chip.port p).discarding = true →
    gives (.nakRepeatTimeout p) s (fun d => (d.port p).nakDue = true ∧ regsBut [] s.chip d ∧ memKept s.chip d))
  ∧ ∀ (c : Chip) (p : Port), c.transmits p = true → c.looped p = false →
    let d := c.flitSlot p
    if 1023 ≤ (c.port p).sinceIdle then
      (d.port p).sinceIdle = 0 ∧ ∃ e, Tab.find (d.port p).lastOut 1 = some e ∧ e.flit.type = 1
    else (c.port p).tickDue = none →
      if (c.port p).nakDue = true then
        (d.port p).nakDue = false
        ∧ ∃ e, Tab.find (d.port p).lastOut 2 = some e ∧ hdrAck e.flit.header = (c.port p).rxLast.toNat
      else (c.port p).probesDue = [] →
        (∀ (f : Flit) (l : List Flit), (c.port p).replayQ = f :: l → (d.port p).replayQ = l ∧ (d.port p).replay = (c.port p).replay
          ∧ ∃ e, Tab.find (d.port p).lastOut f.type = some e ∧ e.flit.seq = f.seq ∧ e.flit.payload = f.payload)
        ∧ (∀ (ty : Nat) (b : List Byte) (l : List (Nat × List Byte)), c.portState p = 7 → c.plumbOnly p = false → (c.port p).replayQ = [] → (c.port p).txWait = [] →
          (c.port p).ctlWait = (ty, b) :: l → ty < 16 → (c.port p).replay.length < 2048 →
          (d.port p).ctlWait = l ∧ (d.port p).txSeq = (c.port p).txSeq + 1
          ∧ ∃ f, (d.port p).replay = (c.port p).replay ++ [f] ∧ f.seq = (c.port p).txSeq.toNat ∧ f.type = ty ∧ f.payload = b)

/-- The CONTROL flits whose effect depends on their being accepted (Table LINK-7). -/
def controlFlit (p : Port) (h : Word) : Nat → Instr
  | 0 => .idleReq p h
  | 1 => .idleAck p h
  | 2 => .idleNak p h
  | _ => .retrain p h

/-- The port after the header of a sequenced flit that it accepts (R86). -/
def acceptedAt (c : Chip) (p : Port) (h : Word) : Chip :=
  (heard c p h).modPort p (fun x => { x with
    rxLast := x.rxLast + 1
    rxAny := true
    discarding := false
    sinceAck := x.sinceAck + 1 })

/-- R95, R96: a port with nothing to do asks for idle; one that is asked answers IDLE_ACK where it may go idle too, and else
IDLE_NAK, where both have asked both enter; the acknowledged port goes idle, wakes at once for traffic that came, and wakes by a
burst and a relock to ACTIVE; a refused one stays. A duplicate changes nothing of it. An accepted RETRAIN, and a wake that does
not relock, end the link. -/
def Obligations.ElectricalIdleAndWake : Prop :=
  (∀ (s : State) (p : Port), s.chip.idleReady p = true → (s.chip.port p).idleAsked = false →
    (s.chip.port p).idleEntering = false →
    gives (.idleEntryTimeout p) s (fun d => (d.port p).idleAsked = true
      ∧ (d.port p).ctlWait = (s.chip.port p).ctlWait ++ [(5, pad240 [0x01, 0x00])] ∧ regsBut [] s.chip d ∧ memKept s.chip d))
  ∧ (∀ (s : State) (p : Port) (h : Word), s.chip.portState p = 7 → hears s.chip p →
    (s.chip.port p).classify (hdrSeq h) = .accept →
    let c := acceptedAt s.chip p h
    gives (.idleReq p h) s (fun d => (d.port p).rxLast = (s.chip.port p).rxLast + 1
      ∧ (if (s.chip.port p).idleAsked = true then
          (d.port p).idleEntering = true ∧ (d.port p).idleAsked = false ∧ (d.port p).ctlWait = (s.chip.port p).ctlWait
        else if c.idleReady p = true then
          (d.port p).idleEntering = true ∧ (d.port p).ctlWait = (s.chip.port p).ctlWait ++ [(5, pad240 [0x02, 0x00])]
        else (d.port p).idleEntering = (s.chip.port p).idleEntering
          ∧ (d.port p).ctlWait = (s.chip.port p).ctlWait ++ [(5, pad240 [0x03, 0x00])])
      ∧ onlyUnit (.port p) s.chip d ∧ memKept s.chip d)
    ∧ gives (.idleAck p h) s (fun d => (d.port p).rxLast = (s.chip.port p).rxLast + 1 ∧ (d.port p).idleAsked = false
        ∧ (d.port p).idleEntering = ((s.chip.port p).idleEntering || (s.chip.port p).idleAsked)
        ∧ onlyUnit (.port p) s.chip d ∧ memKept s.chip d)
    ∧ gives (.idleNak p h) s (fun d => (d.port p).rxLast = (s.chip.port p).rxLast + 1 ∧ (d.port p).idleAsked = false
        ∧ (d.port p).idleEntering = (s.chip.port p).idleEntering ∧ onlyUnit (.port p) s.chip d ∧ memKept s.chip d))
  ∧ (∀ (s : State) (p : Port) (h : Word) (k : Nat), s.chip.portState p = 7 → hears s.chip p →
    (s.chip.port p).classify (hdrSeq h) = .duplicate →
    gives (controlFlit p h k) s (fun d => d.portState p = 7 ∧ (d.port p).idleAsked = (s.chip.port p).idleAsked
      ∧ (d.port p).idleEntering = (s.chip.port p).idleEntering ∧ onlyUnit (.port p) s.chip d ∧ memKept s.chip d))
  ∧ (∀ (s : State) (p : Port), s.chip.portState p = 7 → (s.chip.port p).idleEntering = true →
    gives (.elecIdleEntry p) s (fun d => (d.port p).idleEntering = false
      ∧ d.portState p = (if s.chip.portTraffic p then 9 else 8)
      ∧ regsBut ((.port p, PORT.PORT_STS_state.pos) :: laneStatus p) s.chip d ∧ memKept s.chip d))
  ∧ (∀ (s : State) (p : Port), s.chip.portState p = 8 →
    gives (.wakeBurst p) s (fun d => d.portState p = 9 ∧ regsBut [(.port p, PORT.PORT_STS_state.pos)] s.chip d
      ∧ memKept s.chip d))
  ∧ (∀ (s : State) (p : Port), s.chip.portState p = 9 →
    gives (.wakeRelock p) s (fun d => d.portState p = 7 ∧ raised d (.port p) PORT.ev_link_up
      ∧ regsBut ((.port p, PORT.PORT_STS_state.pos) :: (.port p, 0x20) :: (.port p, 0x38) :: laneStatus p) s.chip d
      ∧ memKept s.chip d)
    ∧ gives (.wakeTimeout p) s (fun d => d.portState p = 1 ∧ raised d (.port p) PORT.ev_link_down ∧ memKept s.chip d))
  ∧ ∀ (s : State) (p : Port) (h : Word), s.chip.portState p = 7 → hears s.chip p →
    (s.chip.port p).classify (hdrSeq h) = .accept →
    gives (.retrain p h) s (fun d => d.portState p = 1 ∧ raised d (.port p) PORT.ev_link_down ∧ memKept s.chip d)

/-- A direction of a lane or a wire that has failed for good is asked for once, at the end of the queue (R411). -/
def askedOnce (c d : Chip) (e : Element) : Prop := d.repoint.queue = c.repoint.queue ++ [⟨e, true, c.now, c.courseCount, false⟩]

/-- May a hard request for this element join the queue now: a spare is left, no request for it waits, there is room? -/
abbrev mayAsk (c : Chip) (e : Element) : Prop :=
  c.spareFree e = true ∧ c.repoint.queue.all (fun q => q.elem ≠ e || !q.hard) = true
    ∧ c.repoint.waiting.contains e = false ∧ c.repoint.queue.length < 64

/-- R92 to R94, R47, R410: a failed lane of a linked port that carries traffic, or a failed wire, asks for its spare and holds its
traffic; with no spare left the port goes to QUIET with `spare_exhausted`. An accepted REPOINT_REQ is kept for the frame start,
where the spare lane takes the lane's place: at once where lane 8 is hot, and else after its training burst. -/
def Obligations.FailedLanesAndWiresMoveToSpares : Prop :=
  (∀ (s : State) (p : Port) (l : Lane) (rx : Bool), s.chip.linked p = true → s.chip.laneCarries p l rx = true →
    mayAsk s.chip (.lane p l rx) →
    gives (.laneFailure p l rx) s (fun d => askedOnce s.chip d (.lane p l rx) ∧ raised d (.port p) evOverride
      ∧ (l.val, rx) ∈ (d.port p).deadLane ∧ d.portState p = s.chip.portState p ∧ onlyIn [.port p, .repoint] s.chip d
      ∧ memKept s.chip d))
  ∧ (∀ (s : State) (p : Port) (l : Lane), s.chip.linked p = true → s.chip.laneCarries p l true = true →
    mayAsk s.chip (.lane p l true) →
    gives (.elasticBufferError (.lane p l)) s (fun d => askedOnce s.chip d (.lane p l true)
      ∧ (l.val, true) ∈ (d.port p).deadLane ∧ raised d (.port p) evOverride ∧ onlyIn [.port p, .repoint] s.chip d
      ∧ memKept s.chip d))
  ∧ (∀ (s : State) (p : Port) (l : Lane) (rx : Bool), s.chip.linked p = true → s.chip.laneCarries p l rx = true →
    s.chip.spareFree (.lane p l rx) = false →
    gives (.laneFailure p l rx) s (fun d => d.portState p = 1 ∧ raised d (.port p) PORT.ev_spare_exhausted
      ∧ raised d .repoint REPOINT.ev_spare_exhausted ∧ memKept s.chip d))
  ∧ (∀ (s : State) (i j : Region) (w : Nat), i ≠ j → mayAsk s.chip (.wire i j w) →
    gives (.d2dWireFault i j w) s (fun d => askedOnce s.chip d (.wire i j w) ∧ raised d (.d2d j i) D2D.ev_wire_fault
      ∧ w ∈ Tab.get (d.xbar i).wireDown j.val [] ∧ onlyIn [.d2d j i, .repoint] s.chip d ∧ memKept s.chip d)
    ∧ gives (.elasticBufferError (.wire i j w)) s (fun d => askedOnce s.chip d (.wire i j w)
      ∧ raised d (.d2d j i) D2D.ev_wire_fault ∧ w ∈ Tab.get (d.xbar i).wireDown j.val []
      ∧ onlyIn [.d2d j i, .repoint] s.chip d ∧ memKept s.chip d))
  ∧ (∀ (s : State) (p : Port) (h : Word) (l : Lane), s.chip.portState p = 7 → hears s.chip p →
    (s.chip.port p).classify (hdrSeq h) = .accept →
    gives (.repointReq p h l) s (fun d => (l.val, false) ∈ (d.port p).laneMove
      ∧ (s.chip.flag (.port p) PORT.PORT_CTL_spare_hot = false → (d.port p).burstAt = some s.chip.now)
      ∧ onlyUnit (.port p) s.chip d ∧ memKept s.chip d))
  ∧ ∀ (s : State) (p : Port) (l : Lane) (rx : Bool), s.chip.linked p = true → l.val < 8 → s.chip.spareOpen p l.val rx = true →
    (rx = false → (l.val, false) ∈ (s.chip.port p).laneMove
      ∧ ∀ n, (s.chip.port p).burstAt = some n → burstCycles ≤ s.chip.now - n) →
    gives (.laneSwitch p l rx) s (fun d => (l.val, rx) ∉ (d.port p).laneMove ∧ (l.val, rx) ∉ (d.port p).deadLane
      ∧ d.fld (.port p) (if rx then PORT.PORT_STS_rx_spare_for else PORT.PORT_STS_tx_spare_for) = l.val
      ∧ raised d (.port p) PORT.ev_lane_repointed ∧ onlyUnit (.port p) s.chip d ∧ memKept s.chip d)

/-- The field of LANE_STS that an adaptive loop shows (Table LINK-12). -/
def loopField (l : Lane) (k : Fin 5) : Fld :=
  laneFld (if k.val = 0 then PORT.LANE_STS_ctle else if k.val = 1 then PORT.LANE_STS_vga else PORT.LANE_STS_dfe1) l.val

/-- R90, R108: a CREDIT_CFG write with a grant that is not permitted, or one that the buffer's capacity cannot hold, is ignored
whole; one that fits takes effect by its access types. R99: an injection is armed, one burst is injected, and continuous
injection repeats it. R97: a lane that adapts takes the value inside its window, and beyond a bound holds at the bound and sets
`adapt_at_limit`. -/
def Obligations.PortCreditsInjectionAndAdaptation : Prop :=
  (∀ (s : State) (p : Port) (upper : Bool) (v : Word), answers s.chip (.port p) →
    let pos := if upper then 0x140 else 0x138
    let permitted := (List.range 4).all (fun t => grantOk (getBits v (16 * t + 15) (16 * t)))
    let tooMany := overcommits s.chip (s.chip.plainWrite (.port p) pos v).1 (portRegion p)
    gives (.creditCfgWrite p upper v) s (fun d =>
      if permitted = false then
        raised d (.port p) PORT.ev_credit_cfg_reject ∧ regsBut [(.port p, 0x20), (.port p, 0x38)] s.chip d ∧ memKept s.chip d
      else if tooMany = true then
        raised d (.xbar (portRegion p)) XBAR.ev_overcommit ∧ onlyUnit (.xbar (portRegion p)) s.chip d ∧ memKept s.chip d
      else
        d.reg (.port p) pos = writeWord .port pos (s.chip.held (.port p)) (s.chip.reg (.port p) pos) v
        ∧ regsBut [(.port p, pos), (.port p, 0x20), (.port p, 0x38)] s.chip d ∧ memKept s.chip d))
  ∧ (∀ (s : State) (p : Port) (v : Word), answers s.chip (.port p) → bitAt v 63 = true →
    gives (.linkInject p v) s (fun d => (d.port p).inject = some (getBits v 57 56)
      ∧ regsBut [(.port p, 0x158), (.port p, 0x20), (.port p, 0x38)] s.chip d ∧ memKept s.chip d))
  ∧ (∀ (s : State) (p : Port) (l : Lane) (v : Word), answers s.chip (.port p) → bitAt v 63 = true →
    gives (.laneInject p l v) s (fun d => Tab.get (d.port p).injected l.val 0 = Tab.get (s.chip.port p).injected l.val 0
        + max 1 (d.fld (.port p) (laneFld PORT.INJECT_CTL_burst_len l.val))
      ∧ regsBut [(.port p, 0x1028 + 0x40 * l.val), (.port p, 0x1020 + 0x40 * l.val), (.port p, 0x20), (.port p, 0x38)] s.chip d
      ∧ memKept s.chip d))
  ∧ (∀ (s : State) (p : Port) (l : Lane),
    s.chip.flag (.port p) (laneFld PORT.INJECT_CTL_continuous l.val) = true →
    s.chip.fld (.port p) (laneFld PORT.INJECT_CTL_interval l.val) ≠ 0 →
    gives (.continuousInjection p l) s (fun d =>
      Tab.get (d.port p).injected l.val 0 = Tab.get (s.chip.port p).injected l.val 0
        + max 1 (s.chip.fld (.port p) (laneFld PORT.INJECT_CTL_burst_len l.val))
      ∧ regsBut [(.port p, 0x1020 + 0x40 * l.val)] s.chip d ∧ memKept s.chip d))
  ∧ ∀ (s : State) (p : Port) (l : Lane) (v : Int) (k : Fin 5),
    let lo := getBits (s.chip.reg (.port p) 0x90) (8 * k.val + 7) (8 * k.val)
    let hi := getBits (s.chip.reg (.port p) 0x98) (8 * k.val + 7) (8 * k.val)
    let held := (min (hi : Int) (max (lo : Int) v)).toNat
    gives (.adaptAtLimit p l v k) s (fun d =>
      (k.val < 3 → d.fld (.port p) (loopField l k) = held)
      ∧ (3 ≤ k.val → Tab.find (d.port p).coeff (16 * l.val + k.val) = some held)
      ∧ (v < lo ∨ hi < v → raised d (.port p) PORT.ev_adapt_at_limit)
      ∧ ((lo : Int) ≤ v → v ≤ hi → regsBut [(.port p, 0x1000 + 0x40 * l.val)] s.chip d)
      ∧ regsBut [(.port p, 0x1000 + 0x40 * l.val), (.port p, 0x20), (.port p, 0x38)] s.chip d ∧ memKept s.chip d)

/-- R125: a port that has been without a link for `dead_hold` courses is dead: whatever waits for it is discarded. R123: at a
boundary a route comes back when the port it left is usable and no job holds the region's switch. -/
def Obligations.DeadPortsAndRestoredRoutes : Prop :=
  (∀ (s : State) (p : Port) (n : Nat), (s.chip.port p).deadFrom = some n → s.chip.portRole p ≤ 1 →
    s.chip.linked p = false →
    max 1 (s.chip.fld (.xbar (portRegion p)) XBAR.XBAR_CTL_dead_hold) ≤ s.chip.since n →
    gives (.deadHoldExpiry p) s (fun d => (d.port p).dead = true ∧ (∀ r, ∀ e ∈ (d.xbar r).queue, e.out ≠ p.val)
      ∧ memKept s.chip d))
  ∧ ∀ s : State, s.chip.atBoundary = true → gives .routeRestore s (fun d =>
      (∀ r, (d.xbar r).moved = if s.chip.held (.xbar r) then (s.chip.xbar r).moved
        else (s.chip.xbar r).moved.filter (s.chip.moveStands r))
      ∧ regsBut [] s.chip d ∧ memKept s.chip d)

/-! ### The switch and its traffic classes -/

/-- R108: a BUF_ALLOT write that would commit more cells than the region has is ignored with `overcommit`. R124: word B
of a multicast group waits, and the next write of word A applies both. R134: a WFQ_WEIGHT write puts every finish
tag and the virtual time back at 0. R138: a METER write with a peak below the committed rate or a burst below 8,224
bytes is refused, any other fills both buckets. -/
def Obligations.SwitchWeightAndMeterWrites : Prop :=
  (∀ (s : State) (r : Region) (v : Word), answers s.chip (.xbar r) →
    let new := (s.chip.plainWrite (.xbar r) 0x108 v).1
    if overcommits s.chip new r = true then
      gives (.bufAllotWrite r v) s (fun d => d.reg (.xbar r) 0x108 = s.chip.reg (.xbar r) 0x108
        ∧ raised d (.xbar r) XBAR.ev_overcommit ∧ onlyUnit (.xbar r) s.chip d ∧ memKept s.chip d)
    else gives (.bufAllotWrite r v) s (fun d =>
        d.reg (.xbar r) 0x108 = writeWord .xbar 0x108 (s.chip.held (.xbar r)) (s.chip.reg (.xbar r) 0x108) v
        ∧ regsBut [(.xbar r, 0x108), (.xbar r, 0x20), (.xbar r, 0x38)] s.chip d ∧ memKept s.chip d))
  ∧ (∀ (s : State) (r : Region) (g : Fin 1024) (v : Word), answers s.chip (.xbar r) → s.chip.held (.xbar r) = false →
    gives (.multicastWordWrite r g true v) s (fun d => Tab.find (d.xbar r).wordB g.val = some v ∧ regsBut [] s.chip d
      ∧ memKept s.chip d))
  ∧ (∀ (s : State) (r : Region) (g : Fin 1024) (a b : Word), answers s.chip (.xbar r) → s.chip.held (.xbar r) = false →
    Tab.find (s.chip.xbar r).wordB g.val = some b →
    gives (.multicastWordWrite r g false a) s (fun d => Tab.find (d.xbar r).wordB g.val = none
      ∧ d.reg (.xbar r) (0x9000 + 16 * g.val)
          = writeWord .xbar (0x9000 + 16 * g.val) false (s.chip.reg (.xbar r) (0x9000 + 16 * g.val)) a
      ∧ d.reg (.xbar r) (0x9008 + 16 * g.val)
          = writeWord .xbar (0x9008 + 16 * g.val) false (s.chip.reg (.xbar r) (0x9008 + 16 * g.val)) b
      ∧ regsBut [(.xbar r, 0x9000 + 16 * g.val), (.xbar r, 0x9008 + 16 * g.val)] s.chip d ∧ memKept s.chip d))
  ∧ (∀ (s : State) (p : Port) (v : Word), answers s.chip (.port p) → s.chip.held (.port p) = false →
    gives (.wfqWeightWrite p v) s (fun d => (d.port p).wfq.vtime = 0 ∧ (d.port p).wfq.finish = [0, 0, 0, 0, 0, 0]
      ∧ d.reg (.port p) 0x2008 = writeWord .port 0x2008 false (s.chip.reg (.port p) 0x2008) v
      ∧ regsBut [(.port p, 0x2008)] s.chip d ∧ memKept s.chip d))
  ∧ ∀ (s : State) (p : Port) (tc : Tc) (burst : Bool) (v : Word), answers s.chip (.port p) → s.chip.held (.port p) = false →
    let (cir, pir, cbs, pbs) := s.chip.meterCfg p tc.val
    let pos := (if burst then 0x2048 else 0x2040) + 16 * tc.val
    let bad := if burst then decide (getBits v 31 0 < 8224 ∨ getBits v 63 32 < 8224 ∨ pir < cir)
      else decide (getBits v 63 32 < getBits v 31 0 ∨ cbs < 8224 ∨ pbs < 8224)
    gives (.meterWrite p tc burst v) s (fun d =>
      (bad = true → d.reg (.port p) pos = s.chip.reg (.port p) pos ∧ raised d (.port p) PORT.ev_meter_reject)
      ∧ (bad = false → d.reg (.port p) pos = writeWord .port pos false (s.chip.reg (.port p) pos) v
          ∧ Tab.find (d.port p).meters tc.val = none)
      ∧ regsBut [(.port p, pos), (.port p, 0x20), (.port p, 0x38)] s.chip d ∧ memKept s.chip d)

/-- R141, R142, R388: a takeover of a gate list is refused when its course is late or its bank is the active one, and is
scheduled otherwise, for a port and for the host port; an entry of the active bank cannot be written. R139, R141:
the scheduled bank becomes active, from its first entry at offset 2, at the boundary of its course; within a course the next
entry of a list takes effect when the one in force has run its slots. -/
def Obligations.GateListsAreWrittenAndAdvance : Prop :=
  (∀ (s : State) (p : Port) (v : Word), answers s.chip (.port p) → s.chip.lateFor (getBits v 47 0) = false →
    getBits v 56 56 ≠ s.chip.fld (.port p) PORT.GATE_STS_active_bank →
    gives (.gateTakeover p v) s (fun d =>
      (d.port p).takeover = some (getBits v 56 56, min 32 (getBits v 53 48), getBits v 47 0)
      ∧ d.fld (.port p) PORT.GATE_STS_pending = 1 ∧ onlyUnit (.port p) s.chip d ∧ memKept s.chip d))
  ∧ (∀ (s : State) (p : Port) (v : Word), answers s.chip (.port p) →
    (s.chip.lateFor (getBits v 47 0) = true ∨ getBits v 56 56 = s.chip.fld (.port p) PORT.GATE_STS_active_bank) →
    gives (.gateTakeover p v) s (fun d => d.ports = s.chip.ports ∧ raised d (.port p) PORT.ev_gate_refused
      ∧ (s.chip.lateFor (getBits v 47 0) = true → raised d .course COURSE.ev_late_schedule)
      ∧ regsBut [(.port p, 0x20), (.port p, 0x38), (.course, 0x20), (.course, 0x38)] s.chip d ∧ memKept s.chip d))
  ∧ (∀ (s : State) (v : Word), answers s.chip .hostport → s.chip.lateFor (getBits v 47 0) = false →
    getBits v 56 56 ≠ s.chip.fld .hostport HOSTPORT.HP_GATE_STS_active_bank →
    gives (.hostGateTakeover v) s (fun d =>
      d.host.takeover = some (getBits v 56 56, min 16 (getBits v 53 48), getBits v 47 0)
      ∧ d.fld .hostport HOSTPORT.HP_GATE_STS_pending = 1 ∧ onlyUnit .hostport s.chip d ∧ memKept s.chip d))
  ∧ (∀ (s : State) (p : Port) (i : Fin 64) (v : Word), answers s.chip (.port p) →
    if i.val / 32 = s.chip.fld (.port p) PORT.GATE_STS_active_bank then
      gives (.gateEntryWrite p i v) s (fun d => raised d (.port p) PORT.ev_gate_refused
        ∧ regsBut [(.port p, 0x20), (.port p, 0x38)] s.chip d ∧ memKept s.chip d)
    else gives (.gateEntryWrite p i v) s (fun d =>
        d.reg (.port p) (0x3000 + 8 * i.val) = writeWord .port (0x3000 + 8 * i.val) (s.chip.held (.port p))
          (s.chip.reg (.port p) (0x3000 + 8 * i.val)) v
        ∧ regsBut [(.port p, 0x3000 + 8 * i.val), (.port p, 0x20), (.port p, 0x38)] s.chip d ∧ memKept s.chip d))
  ∧ (∀ (s : State) (p : Port) (bank count : Nat), bank ≤ 1 → count ≤ 32 →
    (s.chip.port p).takeover = some (bank, count, s.chip.courseNow) →
    gives (.gateTakeoverApply p) s (fun d => d.fld (.port p) PORT.GATE_STS_active_bank = bank
      ∧ d.fld (.port p) PORT.GATE_STS_active_count = count ∧ d.fld (.port p) PORT.GATE_STS_pending = 0
      ∧ (d.port p).takeover = none ∧ (d.port p).gateIx = 0 ∧ (d.port p).gateAt = s.chip.course.boundaryAt + 2
      ∧ onlyUnit (.port p) s.chip d ∧ memKept s.chip d))
  ∧ ∀ (s : State) (p : Port),
    let g := s.chip.gateView p
    let run := (g.entries.getD g.ix (0, 0)).1
    let due := decide (g.ix + 1 < g.count) && decide ((run : Int) ≤ g.elapsed)
    gives (.gateEntryExpiry p) s (fun d => (d.port p).gateIx = (s.chip.port p).gateIx + (if due then 1 else 0)
      ∧ (d.port p).gateAt = (s.chip.port p).gateAt + (if due then run else 0) ∧ regsBut [] s.chip d ∧ memKept s.chip d)

/-- The event of a failed ingress check (Table FWD-3). -/
def checkEvent (k : Nat) : Nat :=
  if k ≤ 2 then XBAR.ev_hdr_error else if k = 3 then XBAR.ev_pkt_crc_error
  else if k ≤ 6 then XBAR.ev_policy_violation else XBAR.ev_unroutable

/-- The next thing PACKET_STORED does at an input is to check this arrival. -/
abbrev nextArrival (c : Chip) (r : Region) (inp : Fin 20) (a : Arrival) (rest : List Arrival) : Prop :=
  c.inReset r = false ∧ c.heldReady r inp.val = none ∧ Tab.get (c.xbar r).arrivals inp.val [] = a :: rest
    ∧ c.mayStore r inp.val a.pkt = true

/-- A packet that no unit of the region takes, and that no meter colours: DATA, INVOKE or RESULT, unicast, at a unit's input
or at a port whose meter of the class is off. -/
abbrev plainPacket (c : Chip) (r : Region) (inp : Fin 20) (pkt : Packet) : Prop :=
  pkt.mcast = false ∧ (pkt.kind = 0 ∨ pkt.kind = 4 ∨ pkt.kind = 5)
    ∧ ∀ p, inputPort r inp.val = some p → 2 ≤ c.portRole p ∨ bitAt (c.reg (.port p) 0x2020) pkt.tc = false

/-- A waiting packet that its meter may hold: the head of a class at the input of a port with role 0 or 1, not yet passed, while
no packet stops the input. -/
abbrev meterHead (c : Chip) (p : Port) (tc : Tc) (h : Held) (st : Stored) (rest : List Held) : Prop :=
  let r := portRegion p
  c.inReset r = false ∧ (c.xbar r).inputStopped (p.val % 16) = false ∧ c.portRole p ≤ 1
    ∧ Tab.get (c.xbar r).held (8 * (p.val % 16) + tc.val) [] = h :: rest ∧ Tab.find (c.xbar r).store h.id = some st
    ∧ h.checked = false ∧ st.inp = p.val % 16

/-- R105, R107, R109: a packet that fails a check is dropped with its event and joins no queue; one that passes all of
them is stored whole and joins its virtual output queue at the end. R136, R137: a held packet that its meter lets
pass joins its queue; one that the meter still stops stays at the head of its class. -/
def Obligations.PacketsAreCheckedMeteredAndQueued : Prop :=
  (∀ (s : State) (r : Region) (inp : Fin 20) (a : Arrival) (rest : List Arrival), nextArrival s.chip r inp a rest →
    a.settled = false → s.chip.ingressCheck r inp.val a ≠ 0 →
    gives (.packetStored r inp) s (fun d => raised d (.xbar r) (checkEvent (s.chip.ingressCheck r inp.val a))
      ∧ Tab.get (d.xbar r).arrivals inp.val [] = rest ∧ (d.xbar r).queue = (s.chip.xbar r).queue
      ∧ (d.xbar r).store = (s.chip.xbar r).store ∧ memKept s.chip d))
  ∧ (∀ (s : State) (r : Region) (inp : Fin 20) (a : Arrival) (rest : List Arrival) (w : Way),
    nextArrival s.chip r inp a rest → a.settled = true ∨ s.chip.ingressCheck r inp.val a = 0 →
    plainPacket s.chip r inp a.pkt → Tab.get (s.chip.xbar r).held (8 * inp.val + a.pkt.tc) [] = [] →
    s.chip.ingressWay r inp.val a.pkt = some w → w.left = none → s.chip.deadOut w.out = false →
    gives (.packetStored r inp) s (fun d =>
      (d.xbar r).queue = (s.chip.xbar r).queue
        ++ [⟨(s.chip.xbar r).nextId, inp.val, w.out, a.pkt.tc, outW0 a.pkt.w0 w.next false, false, w.next⟩]
      ∧ (∃ st, Tab.find (d.xbar r).store (s.chip.xbar r).nextId = some st ∧ st.pkt = a.pkt ∧ st.copies = 1
          ∧ st.cells = a.pkt.cells)
      ∧ Tab.get (d.xbar r).held (8 * inp.val + a.pkt.tc) [] = [] ∧ Tab.get (d.xbar r).arrivals inp.val [] = rest
      ∧ memKept s.chip d))
  ∧ (∀ (s : State) (p : Port) (tc : Tc) (h : Held) (st : Stored) (rest : List Held) (w : Way),
    let r := portRegion p
    meterHead s.chip p tc h st rest → (s.chip.meter p st.pkt h.told).2 = true → st.pkt.mcast = false →
    st.pkt.kind = 0 ∨ st.pkt.kind = 4 ∨ st.pkt.kind = 5 →
    s.chip.ingressWay r st.inp st.pkt = some w → w.left = none → s.chip.deadOut w.out = false →
    gives (.meterHoldRelease p tc) s (fun d =>
      (d.xbar r).queue = (s.chip.xbar r).queue
        ++ [⟨h.id, st.inp, w.out, st.tc, outW0 st.pkt.w0 w.next false, false, w.next⟩]
      ∧ Tab.get (d.xbar r).held (8 * (p.val % 16) + tc.val) [] = rest ∧ memKept s.chip d))
  ∧ ∀ (s : State) (p : Port) (tc : Tc) (h : Held) (st : Stored) (rest : List Held),
    let r := portRegion p
    meterHead s.chip p tc h st rest → (s.chip.meter p st.pkt h.told).2 = false →
    gives (.meterHoldRelease p tc) s (fun d =>
      Tab.get (d.xbar r).held (8 * (p.val % 16) + tc.val) [] = { h with told := true } :: rest
      ∧ (d.xbar r).queue = (s.chip.xbar r).queue ∧ onlyUnit (.port p) s.chip d ∧ memKept s.chip d)

/-- R111, R113: in a cell slot a request that stands alone is matched and its first cell crosses, and a pair of a region moves
one cell, which lands in the output's staging; what the reads of the slot correct is told by its bank (R409). A cell on a
die-to-die link lands when its CRC holds at once or after the one resend, and else the wire has failed and the cell stays.
Which of several requests a match takes is not part of this statement (log 122, DESIGN CHOICE). -/
def Obligations.CellsCross : Prop :=
  (∀ (s : State) (r : Region) (fixed : List (Fin 4 × Fin 16)) (p : Pair) (st : Staged), s.chip.inReset r = false →
    (∀ q, (s.chip.xbar q).queue = []) → (s.chip.xbar r).pairs = [p] → p.src = r.val → 2 ≤ p.left →
    Tab.get (s.chip.xbar r).staging p.out [] = [st] → st.src = r.val → st.id = p.ent.id → st.started = false →
    gives (.cellSlotMatch r fixed) s (fun d => (d.xbar r).pairs = [{ p with left := p.left - 1 }]
      ∧ Tab.get (d.xbar r).staging p.out [] = [{ st with landed := st.landed + 1 }]
      ∧ (∀ e ∈ fixed, s.chip.powered (.bufbank r e.1) = true → raised d (.bufbank r e.1) evErrCorrected)
      ∧ onlyIn ((List.finRange 4).map (.bufbank r)) s.chip d ∧ (fixed = [] → regsBut [] s.chip d) ∧ memKept s.chip d))
  ∧ (∀ (s : State) (r : Region) (e : QEnt) (st : Stored), s.chip.inReset r = false → (∀ q, (s.chip.xbar q).pairs = []) →
    (∀ q, q ≠ r → (s.chip.xbar q).queue = []) → (s.chip.xbar r).queue = [e] →
    Tab.find (s.chip.xbar r).store e.id = some st → e.out / 16 = r.val → e.inp < 20 → e.tc < 8 →
    s.chip.linked (portOf e.out) = true → Tab.get (s.chip.xbar r).staging (e.out % 16) [] = [] →
    2 ≤ st.pkt.cells → st.pkt.cells ≤ 32 →
    gives (.cellSlotMatch r []) s (fun d => (d.xbar r).queue = []
      ∧ (d.xbar r).pairs = [⟨r.val, e.inp, e.out % 16, e, st.pkt.cells - 1⟩]
      ∧ (∃ x, Tab.get (d.xbar r).staging (e.out % 16) [] = [x] ∧ x.id = e.id ∧ x.src = r.val ∧ x.tc = e.tc ∧ x.landed = 1
          ∧ x.cells = st.pkt.cells)
      ∧ regsBut [] s.chip d ∧ memKept s.chip d))
  ∧ (∀ (s : State) (i j : Region) (wire : Nat) (crc resend : Bool) (x : Crossing) (rest : List Crossing), i ≠ j →
    Tab.get (s.chip.xbar i).cells j.val [] = x :: rest → x.dst = j.val → s.chip.d2dUp i j = true →
    s.chip.wireHeld i j = false → (crc || resend) = true →
    (∀ y ∈ Tab.get (s.chip.xbar j).staging x.out [], y.started = false) →
    gives (.d2dCell i j crc resend wire) s (fun d => Tab.get (d.xbar i).cells j.val [] = rest
      ∧ (d.xbar j).staging = ((s.chip.landCell j x.out x.src x.id).xbar j).staging
      ∧ regsBut (if crc then [] else [(.d2d i j, D2D.D2D_COUNT_resends.pos)]) s.chip d ∧ memKept s.chip d))
  ∧ ∀ (s : State) (i j : Region) (wire : Nat) (x : Crossing) (rest : List Crossing), i ≠ j →
    Tab.get (s.chip.xbar i).cells j.val [] = x :: rest → x.dst = j.val → s.chip.d2dUp i j = true →
    s.chip.wireHeld i j = false → s.chip.spareFree (.wire i j wire) = true →
    gives (.d2dCell i j false false wire) s (fun d => (d.xbar i).cells = (s.chip.xbar i).cells
      ∧ raised d (.d2d j i) D2D.ev_wire_fault ∧ wire ∈ Tab.get (d.xbar i).wireDown j.val [] ∧ memKept s.chip d)

/-- What a scheduler's start leaves of an output's staging: a packet that has all its cells is handed over, another is marked and
leaves with its last cell (R131). -/
def startedIn (l : List Staged) (st : Staged) : List Staged :=
  let l := l.map (fun y => if y = st then { st with started := true } else y)
  if st.landed = st.cells then l.erase { st with started := true } else l

/-- R131, R89, R95: the transmitter of a port starts the packet that its scheduler chooses and takes its credits, and a
port in electrical idle wakes for what waits. R135: a channel of a region endpoint hands the chosen packet over.
R409: an uncorrectable word in a packet that has not begun to cross discards it whole. -/
def Obligations.PacketsLeaveTheSwitch : Prop :=
  (∀ (s : State) (p : Port) (tc : Nat) (st : Staged),
    let r := portRegion p
    let l := Tab.get (s.chip.xbar r).staging (p.val % 16) []
    s.chip.inReset r = false → s.chip.canStart p = true →
    (s.chip.port p).wfq.choose (fun t => s.chip.ready1 p t && s.chip.gateAdmits p t) = some tc →
    s.chip.portHead p tc = some st →
    gives (.packetTransmitStart (.port p)) s (fun d =>
      Tab.get (d.xbar r).staging (p.val % 16) [] = startedIn l st
      ∧ (d.port p).txWait = (if st.landed = st.cells then ((s.chip.sendPacket p st.out).port p).txWait else [])
      ∧ d.credit p tc = s.chip.credit p tc - st.pkt.cells ∧ onlyIn [.port p, .awl] s.chip d ∧ memKept s.chip d))
  ∧ (∀ (s : State) (p : Port), s.chip.inReset (portRegion p) = false → s.chip.portState p = 8 →
    s.chip.portTraffic p = true →
    gives (.packetTransmitStart (.port p)) s (fun d => d.portState p = 9
      ∧ regsBut [(.port p, PORT.PORT_STS_state.pos)] s.chip d ∧ memKept s.chip d))
  ∧ (∀ (s : State) (r : Region) (k : Fin 4) (st : Staged), s.chip.inReset r = false →
    s.chip.channelNext r k.val = some st → st.landed = st.cells →
    st.out.kind = 2 ∨ st.out.kind = 4 ∨ st.out.kind = 7 → st.out.crc = st.out.crcOf →
    gives (.packetTransmitStart (.channel r k)) s (fun d =>
      Tab.get (d.xbar r).staging (16 + k.val) [] = startedIn (Tab.get (s.chip.xbar r).staging (16 + k.val) []) st
      ∧ Tab.get (d.xbar r).inbox st.out.kind [] = Tab.get (s.chip.xbar r).inbox st.out.kind [] ++ [st.out]
      ∧ onlyUnit (.xbar r) s.chip d ∧ memKept s.chip d))
  ∧ ∀ (s : State) (r : Region) (id : Nat) (st : Stored), Tab.find (s.chip.xbar r).store id = some st →
    (∀ q, (s.chip.xbar q).pairs.any (fun p => p.src = r.val && p.ent.id = id) = false) →
    let place := st.places.getD (s.chip.freeVal 8 % max 1 st.places.length) 0
    gives (.bufferUe r id) s (fun d => Tab.find (d.xbar r).store id = none ∧ (∀ e ∈ (d.xbar r).queue, e.id ≠ id)
      ∧ (∀ i : Fin 4, i.val = place / 16 % 4 → raised d (.bufbank r i) evErrUncorrected) ∧ memKept s.chip d)

/-! ### Fabric memory -/

/-- The packets a unit of region r sends join the arrivals of its endpoint input (R110). -/
def sends (c d : Chip) (r : Region) (l : List Packet) : Prop :=
  Tab.get (d.xbar r).arrivals 16 [] = Tab.get (c.xbar r).arrivals 16 [] ++ l.map (fun p => ({ pkt := p } : Arrival))

/-- The commands of a region's units that issue nothing while its partition sequence runs. -/
def liveRegion : Instr → Option Region
  | .teardown r | .resultMessage r | .recv r | .combineWindowClose r _ | .homeRequest r | .gapTimeout r _ _ _
  | .memRspNotice r | .combinedResponse r | .ledgerAckTimeout r _ | .sealReceived r | .fenceComplete r _
  | .fenceTimeout r _ | .hotFilterExpiry r _ | .invokeReceived r | .invokeDispatch r | .fabricFence r | .stream r
  | .sortOutput r _ | .streamTimeout r _ _ | .tokenDispatch r | .batchInvoke r | .expertResult r | .batchTimeout r _
  | .contrib r | .contribAdmit r | .regionPartial r | .lap1 r | .lap2 r | .abort r | .census r | .censusRoundStart r _
  | .censusRelaunch r _ | .lapRelaunch r _ _ _ _ | .instanceTimeout r _ _ | .xpodLapTimeout r _ _ _ _ => some r
  | .invocationStart r _ | .wqEntryFree r _ | .cellFault r _ _ | .cellRepointCopy r _ _ | .cellCopyDone r _ _
  | .bundleIssue r _ _ _ | .dmaDescriptorStart r _ | .dmaComplete r _ _ => some r
  | .memblkRequest s _ | .scrubRead s _ => some ⟨s.val / 2, by omega⟩
  | _ => none

/-- R416: from the start of its partition sequence on, a region's units issue nothing new. R44: a region in partition
reset performs none of the boundary's steps, whatever the step. -/
def Obligations.RegionInResetIsStill : Prop :=
  (∀ (c : Instr) (r : Region) (s : State), liveRegion c = some r → s.chip.partStep r ≠ 0 → exec c s = .next s)
  ∧ ∀ (c : Chip) (f : Chip → Region → Chip), (∀ r, c.partStep r ≠ 0) → c.forLive f = c

/-- The packet of kind k that a unit of region r takes next from those that wait for it: the oldest with the property. -/
abbrev inboxGives (c : Chip) (r : Region) (k : Nat) (q : Packet → Bool) (p : Packet) : Prop :=
  (c.fromInbox r k q).map (·.1) = some p

/-- The request that HOME_REQUEST takes. -/
abbrev homeTakes (c : Chip) (r : Region) (p : Packet) : Prop :=
  c.partStep r = 0 ∧ inboxGives c r 2 (fun p => (c.memS (stackOf r.val p.offset)).room 0) p

/-- The distance of a request's sequence number from the last one applied (R160). -/
def seqAhead (c : Chip) (r : Region) (p : Packet) : Nat := (p.seq + 2 ^ 20 - Tab.get (c.fab r).upto p.stream 0) % 2 ^ 20

/-- The units that count a region's buffer. -/
def bufferUnits (r : Region) : List UnitId := .xbar r :: (List.finRange 4).map (.bufbank r)

/-- R154, R160: the home admits the next request of a source and class to its memory block once it passes the checks,
and answers one that fails them; it keeps a request that came early, answers a duplicate again without applying it,
and discards what lies outside the window with `seq_error`; an early request is given up at `ack_timeout`. R177: a request of a
job that is being torn down is answered TORN_DOWN. -/
def Obligations.HomeAppliesRequestsInOrder : Prop :=
  (∀ (s : State) (r : Region) (p : Packet), homeTakes s.chip r p → s.chip.tearing r p.job = false →
    seqAhead s.chip r p = 1 → s.chip.homeCheck r p = (0, 0) →
    (s.chip.fab r).gaps.all (fun g => g.1.stream ≠ p.stream) = true →
    gives (.homeRequest r) s (fun d => Tab.get (d.fab r).upto p.stream 0 = p.seq
      ∧ (d.memS (stackOf r.val p.offset)).queue = (s.chip.memS (stackOf r.val p.offset)).queue
          ++ [⟨0, .fabric r.val p false, p.tc, s.chip.now, (s.chip.fab r).nextReq, false, 0⟩]
      ∧ onlyIn [.fabmem r, .memblk (stackOf r.val p.offset)] s.chip d ∧ memKept s.chip d))
  ∧ (∀ (s : State) (r : Region) (p : Packet), homeTakes s.chip r p → s.chip.tearing r p.job = false →
    seqAhead s.chip r p = 1 → (s.chip.homeCheck r p).1 ≠ 0 →
    (s.chip.fab r).gaps.all (fun g => g.1.stream ≠ p.stream) = true →
    gives (.homeRequest r) s (fun d => Tab.get (d.fab r).upto p.stream 0 = p.seq
      ∧ sends s.chip d r [s.chip.memRsp r p p.op (s.chip.homeCheck r p).1 false []] ∧ d.mems = s.chip.mems
      ∧ (4 ≤ (s.chip.homeCheck r p).2 → raised d (.fabmem r) FABMEM.ev_key_fault)
      ∧ onlyUnit (.fabmem r) s.chip d ∧ memKept s.chip d))
  ∧ (∀ (s : State) (r : Region) (p : Packet), homeTakes s.chip r p → s.chip.tearing r p.job = false →
    2 ≤ seqAhead s.chip r p → seqAhead s.chip r p ≤ 256 → (s.chip.fab r).gaps.length < 256 →
    gives (.homeRequest r) s (fun d => (d.fab r).gaps = (s.chip.fab r).gaps ++ [(p, s.chip.courseCount)]
      ∧ d.mems = s.chip.mems ∧ regsBut [(.fabmem r, FABMEM.HOME_COUNT_gaps_held.pos)] s.chip d ∧ memKept s.chip d))
  ∧ (∀ (s : State) (r : Region) (p : Packet), homeTakes s.chip r p → s.chip.tearing r p.job = false →
    (seqAhead s.chip r p = 0 ∨ 2 ^ 20 - 255 ≤ seqAhead s.chip r p) → s.chip.homeCheck r p = (0, 0) →
    gives (.homeRequest r) s (fun d => (d.memS (stackOf r.val p.offset)).queue
        = (s.chip.memS (stackOf r.val p.offset)).queue
          ++ [⟨0, .fabric r.val p true, p.tc, s.chip.now, (s.chip.fab r).nextReq, false, 0⟩]
      ∧ (d.fab r).upto = (s.chip.fab r).upto
      ∧ onlyIn [.fabmem r, .memblk (stackOf r.val p.offset)] s.chip d ∧ memKept s.chip d))
  ∧ (∀ (s : State) (r : Region) (p : Packet), homeTakes s.chip r p → s.chip.tearing r p.job = false →
    257 ≤ seqAhead s.chip r p → seqAhead s.chip r p < 2 ^ 20 - 255 →
    gives (.homeRequest r) s (fun d => raised d (.fabmem r) FABMEM.ev_seq_error ∧ d.mems = s.chip.mems
      ∧ (d.fab r).upto = (s.chip.fab r).upto ∧ onlyUnit (.fabmem r) s.chip d ∧ memKept s.chip d))
  ∧ (∀ (s : State) (r : Region) (p : Packet), homeTakes s.chip r p → s.chip.tearing r p.job = true →
    gives (.homeRequest r) s (fun d => sends s.chip d r [s.chip.memRsp r p p.op 10 false []] ∧ d.fabs = s.chip.fabs
      ∧ d.mems = s.chip.mems ∧ regsBut [] s.chip d ∧ memKept s.chip d))
  ∧ ∀ (s : State) (r : Region) (src : BitVec 12) (tc : Tc) (seq : BitVec 20) (g : Packet × Nat), s.chip.partStep r = 0 →
    (s.chip.fab r).gaps.find? (fun g => g.1.src = src.toNat && g.1.tc = tc.val && g.1.seq = seq.toNat) = some g →
    s.chip.ackTimeout r ≤ s.chip.since g.2 →
    gives (.gapTimeout r src tc seq) s (fun d => g ∉ (d.fab r).gaps ∧ raised d (.fabmem r) FABMEM.ev_gap_discard
      ∧ onlyUnit (.fabmem r) s.chip d ∧ memKept s.chip d)

/-- The response that MEM_RSP_NOTICE looks at. -/
abbrev noticeTakes (c : Chip) (r : Region) (k : Nat) (h : Held) (st : Stored) : Prop :=
  c.partStep r = 0
    ∧ (c.xbar r).findHead (fun h p => h.checked && !h.settled && p.kind = 3 && c.rspHere r p) = some (k, h, st)

/-- R170, R171: a response frees its ledger entry, and a TAKEN marks it and goes no further; an entry with no answer is sent
again `replay_max` times and then completes LOST, with every later request of its source and class. -/
def Obligations.LedgerEntriesCompleteOrReplay : Prop :=
  (∀ (s : State) (r q : Region) (k : Nat) (h : Held) (st : Stored) (e : LedgerE), noticeTakes s.chip r k h st →
    st.pkt.op ≠ 13 → st.pkt.op ≠ 14 → s.chip.findEntry st.pkt.dst st.pkt.tc st.pkt.seq = some (q, e) →
    gives (.memRspNotice r) s (fun d => (∀ x ∈ (d.fab q).ledger, x.ord ≠ e.ord)
      ∧ (∀ x ∈ (s.chip.fab q).ledger, x.ord ≠ e.ord → x ∈ (d.fab q).ledger) ∧ memKept s.chip d))
  ∧ (∀ (s : State) (r q : Region) (k : Nat) (h : Held) (st : Stored) (e : LedgerE), noticeTakes s.chip r k h st →
    st.pkt.op = 13 → s.chip.findEntry st.pkt.dst st.pkt.tc st.pkt.seq = some (q, e) →
    gives (.memRspNotice r) s (fun d => (∀ x ∈ (d.fab q).ledger, x.ord = e.ord → x.taken.isSome = true)
      ∧ (d.fab q).ledger.length = (s.chip.fab q).ledger.length ∧ Tab.find (d.xbar r).store h.id = none
      ∧ (d.xbar r).queue = (s.chip.xbar r).queue ∧ onlyIn (bufferUnits r) s.chip d ∧ memKept s.chip d))
  ∧ (∀ (s : State) (r : Region) (slot : Nat) (e : LedgerE), s.chip.partStep r = 0 →
    (s.chip.fab r).ledger.find? (fun e => e.slot = slot) = some e → e.taken = none →
    s.chip.ackTimeout r ≤ s.chip.since e.sentAt → e.replays < s.chip.replayMax r →
    (∀ l ∈ linesOf r.val (s.chip.areaBase r + 8192 * e.slot) (32 + getBits e.w0 24 11), s.chip.lineBad l = false) →
    gives (.ledgerAckTimeout r slot) s (fun d => (∃ x ∈ (d.fab r).ledger, x.ord = e.ord ∧ x.replays = e.replays + 1
        ∧ x.sentAt = s.chip.courseCount)
      ∧ Tab.get (d.xbar r).arrivals 16 [] = Tab.get (s.chip.xbar r).arrivals 16 []
          ++ [{ pkt := s.chip.ledgerPacket r e, settled := true }]
      ∧ regsBut [(.fabmem r, FABMEM.LEDGER_COUNT_replays.pos)] s.chip d ∧ memKept s.chip d))
  ∧ ∀ (s : State) (r : Region) (slot : Nat) (e : LedgerE), s.chip.partStep r = 0 →
    (s.chip.fab r).ledger.find? (fun e => e.slot = slot) = some e → e.taken = none →
    s.chip.ackTimeout r ≤ s.chip.since e.sentAt → s.chip.replayMax r ≤ e.replays →
    gives (.ledgerAckTimeout r slot) s (fun d =>
      (∀ x ∈ (d.fab r).ledger, x.head.stream = e.head.stream → x.ord < e.ord)
      ∧ Tab.find (d.fab r).dead e.head.stream = some 8 ∧ raised d (.fabmem r) FABMEM.ev_entry_lost ∧ memKept s.chip d)

/-- R162, R164 to R166: an entry of the combining table that closes with several requests sends one combined request and
a TAKEN to each; one that closes with one request lets it go on; the response to the combined request is split into one answer
each; a line of the hot filter is dropped after 16 courses. -/
def Obligations.CombinedRequestsCloseAndSplit : Prop :=
  (∀ (s : State) (r : Region) (id : Nat) (e : CombE), s.chip.partStep r = 0 →
    (s.chip.fab r).combining.find? (fun e => e.id = id && e.window ≤ s.chip.now - e.openedAt) = some e →
    2 ≤ e.parts.length →
    gives (.combineWindowClose r id) s (fun d =>
      (d.fab r).combining = (s.chip.fab r).combining.filter (fun x => x.id ≠ e.id)
      ∧ (∃ k, Tab.find (d.fab r).combined k = some (e.parts.map (·.2)))
      ∧ (Tab.get (d.xbar r).arrivals 16 []).length = (Tab.get (s.chip.xbar r).arrivals 16 []).length + 1 + e.parts.length
      ∧ onlyIn (.combine r :: bufferUnits r) s.chip d ∧ memKept s.chip d))
  ∧ (∀ (s : State) (r : Region) (id i : Nat) (e : CombE) (p : Packet) (st : Stored) (w : Way), s.chip.partStep r = 0 →
    (s.chip.fab r).combining.find? (fun e => e.id = id && e.window ≤ s.chip.now - e.openedAt) = some e →
    e.parts = [(i, p)] → Tab.find (s.chip.xbar r).store i = some st → s.chip.ingressWay r st.inp p = some w →
    w.left = none → s.chip.deadOut w.out = false →
    gives (.combineWindowClose r id) s (fun d =>
      (d.fab r).combining = (s.chip.fab r).combining.filter (fun x => x.id ≠ e.id)
      ∧ (d.xbar r).queue = (s.chip.xbar r).queue
          ++ [⟨i, st.inp, w.out, st.tc, outW0 st.pkt.w0 w.next false, false, w.next⟩]
      ∧ (d.fab r).combined = (s.chip.fab r).combined ∧ memKept s.chip d))
  ∧ (∀ (s : State) (r : Region) (rsp : Packet) (parts : List Packet), s.chip.partStep r = 0 →
    inboxGives s.chip r 34 (fun _ => true) rsp →
    Tab.find (s.chip.fab r).combined (rsp.tc * 2 ^ 20 + rsp.seq) = some parts →
    gives (.combinedResponse r) s (fun d => Tab.find (d.fab r).combined (rsp.tc * 2 ^ 20 + rsp.seq) = none
      ∧ (Tab.get (d.xbar r).arrivals 16 []).length = (Tab.get (s.chip.xbar r).arrivals 16 []).length + parts.length
      ∧ regsBut [] s.chip d ∧ memKept s.chip d))
  ∧ ∀ (s : State) (r : Region) (line : Nat), s.chip.partStep r = 0 →
    gives (.hotFilterExpiry r line) s (fun d => (d.fab r).filter = (s.chip.fab r).filter.filter (fun e =>
        !(e.1 = line && 16 ≤ s.chip.since e.2))
      ∧ regsBut [] s.chip d ∧ memKept s.chip d)

/-- R172, R173, R177: a SEAL makes the home ask for the next request of each held source and class; a FENCE opens over
its source's entries, completes when they have, and at the time-out with its event; one of a job that is torn down is answered
TORN_DOWN; a teardown ends after its four steps with no entry, gap or result of the job. -/
def Obligations.SealsFencesAndTeardown : Prop :=
  (∀ (s : State) (r : Region) (p : Packet) (g : Packet × Nat), s.chip.partStep r = 0 →
    inboxGives s.chip r 7 (fun _ => true) p → (s.chip.fab r).gaps = [g] →
    gives (.sealReceived r) s (fun d => (∃ n, sends s.chip d r [n] ∧ n.kind = 3 ∧ n.op = 14 ∧ n.dst = g.1.src
        ∧ n.seq = (Tab.get (s.chip.fab r).upto g.1.stream 0 + 1) % 2 ^ 20)
      ∧ regsBut [] s.chip d ∧ memKept s.chip d))
  ∧ (∀ (s : State) (r : Region) (k : Nat) (h : Held) (st : Stored), s.chip.partStep r = 0 →
    (s.chip.xbar r).findHead (fun h p => h.checked && !h.settled && p.kind = 2 && p.op = 12) = some (k, h, st) →
    s.chip.tearing r st.pkt.job = false → (s.chip.fab r).fences.length < 1024 →
    gives (.fabricFence r) s (fun d => (d.fab r).fences = (s.chip.fab r).fences
        ++ [⟨(s.chip.fab r).nextFence, st.pkt, k / 8,
            ((s.chip.fab r).ledger.filter (fun e => e.head.src = st.pkt.src)).map (·.ord), none, s.chip.courseCount⟩]
      ∧ Tab.get (d.xbar r).held k [] = (Tab.get (s.chip.xbar r).held k []).drop 1 ∧ Tab.find (d.xbar r).store h.id = none
      ∧ onlyIn (bufferUnits r) s.chip d ∧ memKept s.chip d))
  ∧ (∀ (s : State) (r : Region) (k : Nat) (h : Held) (st : Stored), s.chip.partStep r = 0 →
    (s.chip.xbar r).findHead (fun h p => h.checked && !h.settled && p.kind = 2 && p.op = 12) = some (k, h, st) →
    s.chip.tearing r st.pkt.job = true → st.pkt.isCombined = false →
    gives (.fabricFence r) s (fun d => d.fabs = s.chip.fabs
      ∧ Tab.get (d.xbar r).arrivals 16 [] = Tab.get (s.chip.xbar r).arrivals 16 []
          ++ [{ pkt := s.chip.memRsp r st.pkt st.pkt.op 10 false [], settled := true }]
      ∧ Tab.find (d.xbar r).store h.id = none ∧ onlyIn (bufferUnits r) s.chip d ∧ memKept s.chip d))
  ∧ (∀ (s : State) (r : Region) (id : Nat) (x : FenceE), s.chip.partStep r = 0 →
    (s.chip.fab r).fences.find? (fun x => x.id = id) = some x → x.covers = [] → x.pkt.isCombined = false →
    gives (.fenceComplete r id) s (fun d => (d.fab r).fences = (s.chip.fab r).fences.filter (fun y => y.id ≠ x.id)
      ∧ (∃ a, Tab.get (d.xbar r).arrivals 16 [] = Tab.get (s.chip.xbar r).arrivals 16 [] ++ [a]
          ∧ a.pkt.status = (match x.worst with | some (_, st) => st % 16 | none => 0))
      ∧ regsBut [] s.chip d ∧ memKept s.chip d))
  ∧ (∀ (s : State) (r : Region) (id : Nat) (x : FenceE), s.chip.partStep r = 0 →
    (s.chip.fab r).fences.find? (fun x => x.id = id) = some x →
    max 1 (s.chip.fld (.fabmem r) FABMEM.FAB_CTL_fence_timeout) ≤ s.chip.since x.openedAt →
    gives (.fenceTimeout r id) s (fun d => (d.fab r).fences = (s.chip.fab r).fences.filter (fun y => y.id ≠ x.id)
      ∧ raised d (.fabmem r) FABMEM.ev_fence_timeout ∧ onlyUnit (.fabmem r) s.chip d ∧ memKept s.chip d))
  ∧ ∀ (s : State) (r : Region) (job start : Nat), s.chip.partStep r = 0 →
    (s.chip.fab r).tearing = some (job, start, false) → start ≤ s.chip.courseCount →
    3 ≤ s.chip.since start →
    let base := (Space.lintel r.val).base + s.chip.areaBase r + 2 ^ 27
    gives (.teardown r) s (fun d => (d.fab r).tearing = some (job, start, true)
      ∧ raised d (.fabmem r) FABMEM.ev_teardown_done ∧ (∀ g ∈ (d.fab r).gaps, g.1.job ≠ job)
      ∧ (∀ e ∈ (d.fab r).ledger, e.head.job ≠ job)
      ∧ ∀ k, memRead d.mem k = if base ≤ k ∧ k < base + 2 ^ 27 then memDefault else memRead s.chip.mem k)

/-! ### Lintel memory -/

/-- No request waits before a memory block's directory, and no write-back or sparing copy is about to join it. -/
abbrev memQuiet (c : Chip) (k : Stack) : Prop :=
  c.partStep ⟨k.val / 2, by omega⟩ = 0 ∧ c.memReady k = true ∧ (c.memS k).fixes = [] ∧ c.copyingPc k = none
    ∧ (c.memS k).copied = 0

/-- The request that a memory block performs next: the only work of its slot. -/
abbrev memPerforms (c : Chip) (k : Stack) (q : MemReq) : Prop :=
  memQuiet c k ∧ (c.memS k).queue = [] ∧ c.schedPick k = some q
    ∧ ∀ b ∈ c.blocks, ∀ e ∈ b.2.dma, e.wants = [] ∨ e.out = true

/-- A fabric request of a job that is not torn down, whose lines can be read, is performed. -/
abbrev memPerformsFabric (c : Chip) (k : Stack) (q : MemReq) (r : Region) (p : Packet) (dup : Bool) : Prop :=
  memPerforms c k q ∧ q.kind = .fabric r.val p dup ∧ c.tearing r p.job = false
    ∧ ∀ l ∈ linesOf r.val p.offset p.bytesAsked, c.lineBad l = false

/-- R155, R158, R160, R184: a fabric read answers with the bytes of its range and changes none; a fabric store leaves
its payload in its range and changes no other byte; an atomic leaves the value of Table FAB-3 and answers with the
old one; each leaves the scheduler queue. R177: one of a job that is torn down is answered so and not applied. R194: a request
with another block's copy in its way asks for it and waits; one with none passes the directory, and waits while its
pseudo-channel does not answer (R191). Where an atomic's slot of the result store lies is the model's choice (log 15,
DESIGN CHOICE). -/
def Obligations.FabricRequestsReadAndWriteMemory : Prop :=
  (∀ (s : State) (k : Stack) (q : MemReq) (r : Region) (p : Packet) (dup : Bool),
    memPerformsFabric s.chip k q r p dup → p.op = 0 →
    gives (.memblkRequest k []) s (fun d => (d.memS k).sched = (s.chip.memS k).sched.erase q
      ∧ sends s.chip d r [s.chip.memRsp r p p.op 0 false (s.chip.load (.lintel r.val) p.offset p.bytesAsked)]
      ∧ regsBut [(.memblk k, 0x80)] s.chip d ∧ memKept s.chip d))
  ∧ (∀ (s : State) (k : Stack) (q : MemReq) (r : Region) (p : Packet), memPerformsFabric s.chip k q r p false →
    p.op = 1 → p.payload ≠ [] → p.bytesAsked = p.payload.length → (s.chip.fab r).hot = [] →
    gives (.memblkRequest k []) s (fun d => (d.memS k).sched = (s.chip.memS k).sched.erase q
      ∧ sends s.chip d r [s.chip.memRsp r p p.op 0 false []]
      ∧ d.load (.lintel r.val) p.offset p.payload.length = p.payload
      ∧ (∀ a, a < (Space.lintel r.val).base + p.offset ∨ (Space.lintel r.val).base + p.offset + p.payload.length ≤ a →
          memRead d.mem a = memRead s.chip.mem a)
      ∧ regsBut [(.memblk k, 0x80)] s.chip d))
  ∧ (∀ (s : State) (k : Stack) (q : MemReq) (r : Region) (p : Packet), memPerformsFabric s.chip k q r p false →
    2 ≤ p.op → p.op ≤ 11 → (s.chip.fab r).hot = [] →
    let n := if p.wide then 8 else 4
    let slot := s.chip.resultSlot r p
    s.chip.badWrite r.val slot 16 = none → (p.offset + n ≤ slot ∨ slot + 16 ≤ p.offset) →
    let old := leNat (s.chip.load (.lintel r.val) p.offset n)
    gives (.memblkRequest k []) s (fun d => (d.memS k).sched = (s.chip.memS k).sched.erase q
      ∧ d.load (.lintel r.val) p.offset n
          = leBytes n (atomicResult p.op p.wide old (Packet.operand p) (leAt p.payload 8 8))
      ∧ sends s.chip d r [s.chip.memRsp r p p.op 0 false (leBytes 8 old)]
      ∧ (∀ a, (a < (Space.lintel r.val).base + p.offset ∨ (Space.lintel r.val).base + p.offset + n ≤ a) →
          (a < (Space.lintel r.val).base + slot ∨ (Space.lintel r.val).base + slot + 16 ≤ a) →
          memRead d.mem a = memRead s.chip.mem a)
      ∧ onlyIn [.memblk k, .memblk (stackOf r.val p.offset)] s.chip d))
  ∧ (∀ (s : State) (k : Stack) (q : MemReq) (r : Region) (p : Packet) (dup : Bool), memPerforms s.chip k q →
    q.kind = .fabric r.val p dup → s.chip.tearing r p.job = true → (s.chip.fab r).hot = [] →
    gives (.memblkRequest k []) s (fun d => (d.memS k).sched = (s.chip.memS k).sched.erase q
      ∧ sends s.chip d r [s.chip.memRsp r p p.op 10 false []] ∧ regsBut [(.memblk k, 0x80)] s.chip d ∧ memKept s.chip d))
  ∧ (∀ (s : State) (k : Stack) (q : MemReq) (b cell n key : Nat) (own whole : Bool), memPerforms s.chip k q →
    q.kind = .fill b cell n key own whole → key % 64 = 0 → s.chip.lineBad key = false → keyStack key = k →
    Tab.find (s.chip.memS k).dir key = none → (s.chip.memS k).dir.length < 2097152 → (s.chip.block b).lines = [] →
    gives (.memblkRequest k []) s (fun d => (d.memS k).sched = (s.chip.memS k).sched.erase q
      ∧ Tab.find (d.block b).lines key = some ⟨own, memReadN s.chip.mem key 64, false⟩
      ∧ (d.dirOf key).owner = (if own then some b else none)
      ∧ (d.dirOf key).sharers = (if own then [] else [b]) ∧ onlyUnit (.memblk k) s.chip d ∧ memKept s.chip d))
  ∧ (∀ (s : State) (k : Stack) (seen : List EccSeen) (q : MemReq) (a : Arb) (l : Nat) (x : Nat × Bool)
    (more : List (Nat × Bool)), memQuiet s.chip k → (s.chip.memS k).sched = [] → s.chip.memPick k = some (q, a) →
    q.client ≠ 3 → q.kind.lines = [l] → keyStack l = k → s.chip.inWay l q.kind.excl q.kind.caches = x :: more →
    gives (.memblkRequest k seen) s (fun d => (x.1, l, x.2) ∈ (d.memS k).recalls
      ∧ { q with begun := true } ∈ (d.memS k).queue ∧ (d.memS k).sched = [] ∧ regsBut [] s.chip d ∧ memKept s.chip d))
  ∧ ∀ (s : State) (k : Stack) (seen : List EccSeen) (q : MemReq) (a : Arb), memQuiet s.chip k →
    (s.chip.memS k).sched = [] → s.chip.memPick k = some (q, a) →
    (∀ l ∈ q.kind.lines, s.chip.inWay l q.kind.excl q.kind.caches = []) → q.kind.lines.all s.chip.lineServable = false →
    gives (.memblkRequest k seen) s (fun d => (d.memS k).queue = (s.chip.memS k).queue.erase q
      ∧ (d.memS k).sched = [{ q with begun := false, passed := s.chip.now }] ∧ regsBut [] s.chip d ∧ memKept s.chip d)

/-- R194, R195: a writeback, or a block's answer to an invalidation, puts the 64 bytes of a line that it owns into
memory, changes no other byte, and leaves the block without the line. How the two commands number a line is the
model's choice (log 142, DESIGN CHOICE). -/
def Obligations.OwnedLinesGoBackToMemory : Prop :=
  (∀ (s : State) (k : Stack) (line : Nat) (b : Fin 64) (l : LcLine), keyStack (lineName line) = k →
    Tab.find (s.chip.block b.val).lines (lineName line) = some l → l.owned = true → l.void = false →
    l.data.length = 64 →
    gives (.writeback k line b) s (fun d => memReadN d.mem (lineName line) 64 = l.data
      ∧ (∀ a, a < lineName line ∨ lineName line + 64 ≤ a → memRead d.mem a = memRead s.chip.mem a)
      ∧ Tab.find (d.block b.val).lines (lineName line) = none ∧ onlyUnit (.memblk k) s.chip d))
  ∧ ∀ (s : State) (r : Region) (b : BlockIx) (line : Nat) (l : LcLine),
    (16 * r.val + b.val, lineName line, true) ∈ (s.chip.memS (keyStack (lineName line))).recalls →
    Tab.find (s.chip.block (16 * r.val + b.val)).lines (lineName line) = some l → l.owned = true → l.void = false →
    l.data.length = 64 →
    gives (.recall r b line true) s (fun d => memReadN d.mem (lineName line) 64 = l.data
      ∧ (∀ a, a < lineName line ∨ lineName line + 64 ≤ a → memRead d.mem a = memRead s.chip.mem a)
      ∧ Tab.find (d.block (16 * r.val + b.val)).lines (lineName line) = none
      ∧ (16 * r.val + b.val, lineName line, true) ∉ (d.memS (keyStack (lineName line))).recalls
      ∧ onlyUnit (.memblk (keyStack (lineName line))) s.chip d)

/-- R185, R189: a refresh walks a bank's rows by four and keeps the bank busy, and row hits postpone it at most 8 times; above
85 degrees the block refreshes at the hot rate; a scrub read asks for the next line in turn, reads it where no other request wants
the slot, and corrects it or marks it when it is uncorrectable (R186, R188). R191 to R193: a pseudo-channel that stops answering
holds its requests and asks for a spare, or with none left fails every access; a proactive sparing waits for its copy;
initialisation ends with the stack's memory cleared, an empty directory and `ready`. That the row hits of a refresh, and what the
reads of a scrub meet, stand in the commands is the model's choice (log 164, DESIGN CHOICE). -/
def Obligations.MemoryIsRefreshedScrubbedAndSpared : Prop :=
  (∀ (s : State) (k : Stack) (pc : Fin 64) (rank : Fin 4) (bank : Fin 32) (rowHits : Bool),
    let i := rowKey pc.val rank.val bank.val 0
    let p := Tab.get (s.chip.memS k).postponed i 0
    let hits := rowHits || (s.chip.memS k).sched.any (fun q => q.kind.lines.any (fun l =>
      (s.chip.bankOf l).1 = i && s.chip.rowHit l))
    gives (.refresh k pc rank bank rowHits) s (fun d =>
      (hits = true ∧ p < 8 → Tab.get (d.memS k).postponed i 0 = p + 1
        ∧ (d.memS k).refreshRow = (s.chip.memS k).refreshRow)
      ∧ (hits = false ∨ 8 ≤ p → Tab.get (d.memS k).postponed i 0 = 0
        ∧ Tab.get (d.memS k).refreshRow i 0 = (Tab.get (s.chip.memS k).refreshRow i 0 + 4) % 6176
        ∧ Tab.find (d.memS k).busy i = some (s.chip.now + 188) ∧ Tab.find (d.memS k).rows i = none)
      ∧ regsBut [] s.chip d ∧ memKept s.chip d))
  ∧ (∀ (s : State) (k : Stack) (t : BitVec 8), 85 < t.toNat →
    gives (.hotRefreshEntry k t) s (fun d => d.fld (.memblk k) MEMBLK.MEM_STS_die_temp = t.toNat
      ∧ d.fld (.memblk k) MEMBLK.MEM_STS_hot_refresh = 1
      ∧ (s.chip.flag (.memblk k) MEMBLK.MEM_STS_hot_refresh = false → raised d (.memblk k) MEMBLK.ev_hot_refresh)
      ∧ onlyUnit (.memblk k) s.chip d ∧ memKept s.chip d))
  ∧ (∀ (s : State) (k : Stack) (t : BitVec 8), t.toNat ≤ 85 →
    gives (.hotRefreshExit k t) s (fun d => d.fld (.memblk k) MEMBLK.MEM_STS_die_temp = t.toNat
      ∧ d.fld (.memblk k) MEMBLK.MEM_STS_hot_refresh = 0
      ∧ regsBut [(.memblk k, MEMBLK.MEM_STS_hot_refresh.pos)] s.chip d ∧ memKept s.chip d))
  ∧ (∀ (s : State) (k : Stack) (seen : List EccSeen), memQuiet s.chip k → (s.chip.memS k).queue = [] →
    (s.chip.memS k).sched = [] → (s.chip.memS k).recalls = [] →
    (∀ b ∈ s.chip.blocks, ∀ e ∈ b.2.dma, e.wants = [] ∨ e.out = true) →
    s.chip.fld (.memblk k) MEMBLK.MEM_CTL_scrub_hours ≠ 0 →
    let line := s.chip.fld (.memblk k) MEMBLK.SCRUB_STS_scrub_line
    let key := lineKey (k.val / 2) (offsetOf k.val line)
    let wrong := (wrongSymbols seen 0).length
    line < 805306368 → s.chip.lineServable key = true → s.chip.lineBad key = false → wrong ≤ 5 →
    gives (.scrubRead k seen) s (fun d =>
      d.fld (.memblk k) MEMBLK.SCRUB_STS_scrub_line = (if line + 1 = 805306368 then 0 else line + 1)
      ∧ (d.memS k).sched = []
      ∧ (wrong = 0 → (d.memS k).queue = [] ∧ d.bad = s.chip.bad
        ∧ regsBut [(.memblk k, MEMBLK.SCRUB_STS_scrub_line.pos), (.memblk k, 0x80)] s.chip d)
      ∧ (0 < wrong ∧ wrong ≤ 3 → (d.memS k).queue.map (·.kind) = [.fix key] ∧ d.bad = s.chip.bad
        ∧ raised d (.memblk k) evErrCorrected)
      ∧ (3 < wrong → (d.memS k).queue = [] ∧ d.bad = key :: s.chip.bad ∧ raised d (.memblk k) evErrUncorrected)
      ∧ ∀ a, memRead d.mem a = memRead s.chip.mem a))
  ∧ (∀ (s : State) (k : Stack) (seen : List EccSeen), s.chip.partStep ⟨k.val / 2, by omega⟩ = 0 →
    s.chip.memReady k = true → (s.chip.memS k).room 3 = true → (s.chip.memS k).sched ≠ [] →
    s.chip.fld (.memblk k) MEMBLK.MEM_CTL_scrub_hours ≠ 0 →
    let line := s.chip.fld (.memblk k) MEMBLK.SCRUB_STS_scrub_line
    gives (.scrubRead k seen) s (fun d => (d.memS k).queue = (s.chip.memS k).queue
        ++ [⟨3, .scrub (lineKey (k.val / 2) (offsetOf k.val line)), 0, s.chip.now, 0, false, 0⟩]
      ∧ regsBut [(.memblk k, MEMBLK.SCRUB_STS_scrub_line.pos), (.memblk k, 0x80)] s.chip d ∧ memKept s.chip d))
  ∧ (∀ (s : State) (k : Stack) (pc : Fin 64), (s.chip.memS k).failed = [] → (s.chip.memS k).noSpare = [] →
    mayAsk s.chip (.pc k pc) →
    gives (.pcFailure k pc) s (fun d => (d.memS k).failed = [pc.val] ∧ askedOnce s.chip d (.pc k pc)
      ∧ onlyUnit .repoint s.chip d ∧ memKept s.chip d))
  ∧ (∀ (s : State) (k : Stack) (pc : Fin 64), (s.chip.memS k).failed = [] → (s.chip.memS k).noSpare = [] →
    s.chip.spareFree (.pc k pc) = false →
    gives (.pcFailure k pc) s (fun d => (d.memS k).noSpare = [pc.val]
      ∧ raised d (.memblk k) MEMBLK.ev_spares_exhausted ∧ onlyIn [.repoint, .memblk k] s.chip d ∧ memKept s.chip d))
  ∧ (∀ (s : State) (k : Stack) (q : RepointReq),
    s.chip.repoint.queue.find? (fun q => !q.hard && !q.copied && (match q.elem with | .pc x _ => x = k | _ => false)) = some q →
    pcLines ≤ (s.chip.memS k).copied →
    gives (.sparingCopyDone k) s (fun d => { q with copied := true } ∈ d.repoint.queue
      ∧ d.fld (.memblk k) MEMBLK.MEM_STS_copy_pct = 100
      ∧ regsBut [(.memblk k, MEMBLK.MEM_STS_copy_pct.pos)] s.chip d ∧ memKept s.chip d))
  ∧ ∀ (s : State) (k : Stack), s.chip.memReady k = false → s.chip.powered (.memblk k) = true →
    s.chip.partStep ⟨k.val / 2, by omega⟩ ≠ 3 →
    gives (.memblkInitDone k) s (fun d => d.memReady k = true ∧ (d.memS k).dir = []
      ∧ (∀ a, memRead d.mem a = if keyInStack k a then memDefault else memRead s.chip.mem a)
      ∧ ∀ a ∈ d.bad, keyInStack k a = false)

/-! ### The Cobbler -/

/-- R356, R357, R362: a pool configuration that fits starts a rebuild, one that does not is ignored with `cfg_reject`,
and so is a reserve above the pool; at its end a rebuild leaves every buffer free or offered, and the Cobbler ready.
R360, R366: the read that takes an offered buffer makes it the host's, and shows its address; a free by its owner
puts the buffer on the cache, one of a buffer that is not allocated or another's changes no pool; a refill takes up
to 16 indices from the ring. -/
def Obligations.PoolsGiveAndTakeBuffers : Prop :=
  (∀ (s : State) (r : Region) (k : Fin 4) (ring : Bool) (v : Word), answers s.chip (.cobbler r) →
    s.chip.held (.cobbler r) = false →
    let pos := (if ring then 0x128 else 0x120) + 0x30 * k.val
    let new := (s.chip.plainWrite (.cobbler r) pos v).1
    if new.poolFits r k.val = true then
      gives (.poolConfigWrite r k ring v) s (fun d => k.val ∈ (d.cob r).rebuilding ∧ d.fld (.cobbler r) readyFld = 0
        ∧ d.reg (.cobbler r) pos = writeWord .cobbler pos false (s.chip.reg (.cobbler r) pos) v
        ∧ regsBut [(.cobbler r, pos), (.cobbler r, 0x18), (.cobbler r, 0x140 + 0x30 * k.val)] s.chip d ∧ memKept s.chip d)
    else gives (.poolConfigWrite r k ring v) s (fun d => d.cobs = s.chip.cobs ∧ raised d (.cobbler r) COBBLER.ev_cfg_reject
        ∧ regsBut [(.cobbler r, 0x20), (.cobbler r, 0x38)] s.chip d ∧ memKept s.chip d))
  ∧ (∀ (s : State) (r : Region) (k : Fin 4) (v : Word), answers s.chip (.cobbler r) → s.chip.held (.cobbler r) = false →
    let pos := 0x1E0 + 8 * k.val
    let new := (s.chip.plainWrite (.cobbler r) pos v).1
    let need := (if s.chip.fuses.grade = .a then 16 else 12) * new.fld (.cobbler r) (COBBLER.RESERVE_block_min.plus (8 * k.val))
      + new.fld (.cobbler r) (COBBLER.RESERVE_host_min.plus (8 * k.val))
    if need ≤ s.chip.poolCount r k.val then
      gives (.reserveWrite r k v) s (fun d =>
        d.reg (.cobbler r) pos = writeWord .cobbler pos false (s.chip.reg (.cobbler r) pos) v
        ∧ regsBut [(.cobbler r, pos)] s.chip d ∧ memKept s.chip d)
    else gives (.reserveWrite r k v) s (fun d => raised d (.cobbler r) COBBLER.ev_cfg_reject
        ∧ regsBut [(.cobbler r, 0x20), (.cobbler r, 0x38)] s.chip d ∧ memKept s.chip d))
  ∧ (∀ (s : State) (r : Region) (k : Fin 4), (s.chip.cob r).rebuilding = [k.val] → (s.chip.pool r k.val).disabled = false →
    (∀ i : Fin 2, s.chip.memReady (regionStack r i) = true) →
    gives (.rebuildDone r) s (fun d => (d.cob r).rebuilding = [] ∧ d.fld (.cobbler r) readyFld = 1
      ∧ (d.pool r k.val).free + (d.pool r k.val).owners.length = s.chip.poolCount r k.val
      ∧ onlyUnit (.cobbler r) s.chip d))
  ∧ (∀ (s : State) (r : Region) (k : Fin 4), answers s.chip (.cobbler r) →
    let w := s.chip.reg (.cobbler r) (0x140 + 0x30 * k.val)
    let i := (getBits w 36 0 - s.chip.poolBase r k.val) / poolSize k.val
    bitAt w 63 = true → (s.chip.pool r k.val).cache.contains i = false →
    gives (.poolAllocRead r k) s (fun d => d.access = (0, w, false) ∧ Tab.find (d.pool r k.val).owners i = some 16
      ∧ onlyUnit (.cobbler r) s.chip d ∧ memKept s.chip d))
  ∧ (∀ (s : State) (r : Region) (v : Word) (k i : Nat), answers s.chip (.cobbler r) → k < 4 →
    (List.range 4).find? (fun k => s.chip.poolOn r k && s.chip.poolBase r k ≤ getBits v 36 0
      && getBits v 36 0 < s.chip.poolBase r k + s.chip.poolCount r k * poolSize k
      && (getBits v 36 0 - s.chip.poolBase r k) % poolSize k = 0) = some k →
    i = (getBits v 36 0 - s.chip.poolBase r k) / poolSize k → Tab.find (s.chip.pool r k).owners i = some 16 →
    (s.chip.pool r k).queue = [] → (s.chip.pool r k).cache.length < 63 →
    gives (.free r v) s (fun d => (d.pool r k).cache = i :: (s.chip.pool r k).cache
      ∧ Tab.find (d.pool r k).owners i = none ∧ onlyUnit (.cobbler r) s.chip d ∧ memKept s.chip d))
  ∧ (∀ (s : State) (r : Region) (v : Word) (k i : Nat), answers s.chip (.cobbler r) →
    (List.range 4).find? (fun k => s.chip.poolOn r k && s.chip.poolBase r k ≤ getBits v 36 0
      && getBits v 36 0 < s.chip.poolBase r k + s.chip.poolCount r k * poolSize k
      && (getBits v 36 0 - s.chip.poolBase r k) % poolSize k = 0) = some k →
    i = (getBits v 36 0 - s.chip.poolBase r k) / poolSize k → Tab.find (s.chip.pool r k).owners i ≠ some 16 →
    gives (.free r v) s (fun d => d.cobs = s.chip.cobs
      ∧ (Tab.find (s.chip.pool r k).owners i = none → raised d (.cobbler r) COBBLER.ev_double_free)
      ∧ (Tab.find (s.chip.pool r k).owners i ≠ none → raised d (.cobbler r) COBBLER.ev_bad_free)
      ∧ onlyUnit (.cobbler r) s.chip d ∧ memKept s.chip d))
  ∧ ∀ (s : State) (r : Region) (k : Fin 4), s.chip.poolOn r k.val = true → (s.chip.pool r k.val).inRing ≠ 0 →
    (s.chip.pool r k.val).cache.length < s.chip.fld (.cobbler r) (COBBLER.POOL_STS_low_now.plus (0x30 * k.val)) →
    gives (.cacheRefill r k) s (fun d =>
      (d.pool r k.val).inRing = (s.chip.pool r k.val).inRing - min 16 (s.chip.pool r k.val).inRing
      ∧ onlyUnit (.cobbler r) s.chip d ∧ memKept s.chip d)

/-! ### Compute blocks -/

/-- A command of a block can act: the block is there, powered, and its region runs (R2, R416, R437). -/
abbrev blockRuns (c : Chip) (r : Region) (b : BlockIx) : Prop :=
  c.partStep r = 0 ∧ c.present (.cblk r b) = true ∧ c.powered (.cblk r b) = true

/-- An accepted INVOKE: a queued entry at the end of the block's work queue, with the program's cells and entry bundle, and
the payload in its buffer. -/
def invokeQueued (c d : Chip) (r : Region) (b : BlockIx) (p : Packet) : Prop :=
  ∃ e : WqE, (d.blk r b).wq = (c.blk r b).wq ++ [e] ∧ e.pkt = p ∧ e.state = .queued
    ∧ e.mask = c.fld (.cblk r b) (CBLK.PROG_A_cell_mask.plus (16 * p.program))
    ∧ e.entry = c.fld (.cblk r b) (CBLK.PROG_A_entry.plus (16 * p.program))
    ∧ d.load (.lintel r.val) e.offset p.payload.length = p.payload
    ∧ (c.dirKeys r = [] → onlyIn [.cblk r b, .cobbler r] c d ∧ ∀ a, a < (Space.lintel r.val).base + e.offset
        ∨ (Space.lintel r.val).base + e.offset + p.payload.length ≤ a → memRead d.mem a = memRead c.mem a)

/-- Outside the rings of a region's pools. -/
def outsideRings (c : Chip) (r : Region) (a : Nat) : Prop :=
  ∀ k < 4, a < (Space.lintel r.val).base + c.poolRing r k ∨ (Space.lintel r.val).base + c.poolRing r k + 4 * c.ringCap r k ≤ a

/-- R209 to R214: an INVOKE that fails a check is answered with its status; one that passes, on arrival or once it has
waited, joins a block's queue; the queue's head starts on idle cells with the registers of Table CELL-6; a finished
entry leaves when its RESULT is stored. That its payload buffer is freed with it is the model's reading (log 273, DEDUCED). -/
def Obligations.InvocationsRunThroughTheQueue : Prop :=
  (∀ (s : State) (r : Region) (p : Packet) (st : Nat), s.chip.partStep r = 0 →
    inboxGives s.chip r 4 (fun _ => true) p → s.chip.invokeWay r p = .fails st →
    gives (.invokeReceived r) s (fun d => (∃ n, sends s.chip d r [n] ∧ n.kind = 5 ∧ n.resStatus = st ∧ n.isLast = true)
      ∧ (∃ b, raised d (.cblk r b) CBLK.ev_wq_reject) ∧ d.blocks = s.chip.blocks ∧ memKept s.chip d))
  ∧ (∀ (s : State) (r : Region) (p : Packet) (b : BlockIx) (k : Nat), s.chip.partStep r = 0 →
    inboxGives s.chip r 4 (fun _ => true) p → s.chip.invokeWay r p = .goes b k →
    gives (.invokeReceived r) s (fun d => invokeQueued s.chip d r b p))
  ∧ (∀ (s : State) (r : Region) (p : Packet) (b : BlockIx) (k : Nat), s.chip.partStep r = 0 →
    inboxGives s.chip r 4 (fun p => match s.chip.invokeWay r p with | .goes _ _ => true | _ => false) p →
    s.chip.invokeWay r p = .goes b k →
    gives (.invokeDispatch r) s (fun d => invokeQueued s.chip d r b p))
  ∧ (∀ (s : State) (r : Region) (b : BlockIx) (e : WqE), blockRuns s.chip r b → s.chip.headReady r b = some e →
    gives (.invocationStart r b) s (fun d =>
      (∀ l ∈ maskCells e.mask, d.cellState r b l = 1 ∧ d.cellPc r b l = e.entry % 2 ^ 13
        ∧ (d.cell r b l).core = s.chip.startCore r b e l ∧ (d.cell r b l).flight = none)
      ∧ (∀ x ∈ (d.blk r b).wq, x.n = e.n → x.state = .running) ∧ onlyUnit (.cblk r b) s.chip d ∧ memKept s.chip d))
  ∧ ∀ (s : State) (r : Region) (b : BlockIx) (e : WqE), blockRuns s.chip r b →
    (s.chip.blk r b).wq.find? (fun e => match e.answer with
      | some p => (Tab.get (s.chip.xbar r).arrivals 16 []).all (fun a => a.pkt ≠ p)
      | none => false) = some e →
    gives (.wqEntryFree r b) s (fun d => (d.blk r b).wq = (s.chip.blk r b).wq.filter (fun x => x.n ≠ e.n)
      ∧ onlyIn [.cblk r b, .cobbler r] s.chip d
      ∧ ∀ a, outsideRings s.chip r a → memRead d.mem a = memRead s.chip.mem a)

/-- R202, R203, R207, R215, R221, R227: a fault of a running cell replays its invocation or ends it with status 7; a
wanted idle cell is copied, and its spare then holds the same memories; an abort ends every invocation; a new line
cache size empties the line cache. -/
def Obligations.CellFaultsCopiesAndAborts : Prop :=
  (∀ (s : State) (r : Region) (b : BlockIx) (l : CellIx) (e : WqE), blockRuns s.chip r b →
    cellBusy (s.chip.cellState r b l.val) = true → s.chip.entryOf r b l.val = some e → e.state = .running →
    Tab.find (s.chip.blk r b).faults (s.chip.physCell r b l.val) = none →
    s.chip.flag (.cblk r b) CBLK.BLK_CTL_replay_en = true →
    gives (.cellFault r b l) s (fun d => raised d (.cblk r b) CBLK.ev_cell_fault ∧ raised d (.cblk r b) evErrUncorrected
      ∧ (∀ x ∈ (d.blk r b).wq, x.n = e.n → x.state = .queued ∧ x.replay = true)
      ∧ (∀ i ∈ maskCells e.mask, d.cellState r b i = 0) ∧ onlyUnit (.cblk r b) s.chip d ∧ memKept s.chip d))
  ∧ (∀ (s : State) (r : Region) (b : BlockIx) (l : CellIx) (e : WqE), blockRuns s.chip r b →
    cellBusy (s.chip.cellState r b l.val) = true → s.chip.entryOf r b l.val = some e →
    ((s.chip.blk r b).wq.map (·.n)).Nodup →
    Tab.find (s.chip.blk r b).faults (s.chip.physCell r b l.val) = none →
    s.chip.flag (.cblk r b) CBLK.BLK_CTL_replay_en = false →
    gives (.cellFault r b l) s (fun d => raised d (.cblk r b) CBLK.ev_cell_fault
      ∧ (∀ x ∈ (d.blk r b).wq, x.n = e.n → x.state = .done ∧ x.status = 7)
      ∧ onlyUnit (.cblk r b) s.chip d ∧ memKept s.chip d))
  ∧ (∀ (s : State) (r : Region) (b : BlockIx) (l : CellIx), blockRuns s.chip r b →
    s.chip.repoint.queue.any (fun q => q.elem = .cell r b l && !q.hard && !q.copied) = true →
    s.chip.cellState r b l.val = 0 ∨ s.chip.cellState r b l.val = 6 → (s.chip.blk r b).copying = none →
    gives (.cellRepointCopy r b l) s (fun d => (d.blk r b).copying = some l.val ∧ regsBut [] s.chip d ∧ memKept s.chip d))
  ∧ (∀ (s : State) (r : Region) (b : BlockIx) (l : CellIx) (sp : Nat), blockRuns s.chip r b →
    (s.chip.blk r b).copying = some l.val → s.chip.spareCell r b = some sp →
    let p := s.chip.physCell r b l.val
    gives (.cellCopyDone r b l) s (fun d => (d.blk r b).copying = none
      ∧ (∀ o < 2 ^ 40,
          memRead d.mem ((Space.imem r.val b.val sp).base + o) = memRead s.chip.mem ((Space.imem r.val b.val p).base + o)
          ∧ memRead d.mem ((Space.tdm r.val b.val sp).base + o) = memRead s.chip.mem ((Space.tdm r.val b.val p).base + o)
          ∧ memRead d.mem ((Space.spad r.val b.val sp).base + o) = memRead s.chip.mem ((Space.spad r.val b.val p).base + o))
      ∧ (∀ q ∈ d.repoint.queue, q.elem = .cell r b l → q.hard = false → q.copied = true)
      ∧ regsBut [] s.chip d))
  ∧ (∀ (s : State) (r : Region) (b : BlockIx), answers s.chip (.cblk r b) → ((s.chip.blk r b).wq.map (·.n)).Nodup →
    gives (.blkAbort r b) s (fun d => (∀ x ∈ (d.blk r b).wq, x.state = .done
        ∧ (x.status = 9 ∨ ∃ y ∈ (s.chip.blk r b).wq, y.n = x.n ∧ y.state = .done))
      ∧ (d.blk r b).wq.length = (s.chip.blk r b).wq.length ∧ onlyUnit (.cblk r b) s.chip d ∧ memKept s.chip d))
  ∧ ∀ (s : State) (r : Region) (b : BlockIx) (v : Word), answers s.chip (.cblk r b) → bitAt v 8 = false →
    let new := (s.chip.plainWrite (.cblk r b) 0x100 v).1
    gives (.lcacheWrite r b v) s (fun d =>
      d.reg (.cblk r b) 0x100 = writeWord .cblk 0x100 (s.chip.held (.cblk r b)) (s.chip.reg (.cblk r b) 0x100) v
      ∧ (new.fld (.cblk r b) CBLK.BLK_CTL_lcache ≠ s.chip.fld (.cblk r b) CBLK.BLK_CTL_lcache → (d.blk r b).lines = [])
      ∧ (new.fld (.cblk r b) CBLK.BLK_CTL_lcache = s.chip.fld (.cblk r b) CBLK.BLK_CTL_lcache →
          regsBut [(.cblk r b, 0x100), (.cblk r b, 0x20), (.cblk r b, 0x38)] s.chip d ∧ memKept s.chip d))

/-- A cell can look at its next bundle: it runs an invocation and has none under way. -/
abbrev cellIssues (c : Chip) (r : Region) (b : BlockIx) (l : CellIx) (e : WqE) : Prop :=
  blockRuns c r b ∧ c.entryOf r b l.val = some e ∧ cellBusy (c.cellState r b l.val) = true
    ∧ (c.cell r b l.val).flight = none ∧ (c.cell r b l.val).ue = none

/-- A bundle under way that only computes: no home atomic, register write, signal, descriptor or audited store. -/
abbrev plainFlight (f : Flight) : Prop :=
  f.amo = none ∧ f.regWrite = none ∧ f.signal = none ∧ f.descriptor = none ∧ f.audit = none

/-- R219, R235, R239, R259: a bundle that passes the checks of Table BND-9 issues, and its scalar operation's result is
visible at its commit and not before; one that fails a check ends the invocation; one whose word is beyond correction in the
instruction memory and in its shadow is a cell fault (R221). Register t0 reads 0 and is not
written. R239, R214: a bundle commits: its registers, its one store and its next address become visible, and nothing
else in memory changes; when the last cell of the mask has executed END the invocation is done with status OK and
the value of t1. That a cell has one bundle under way is the model's choice (log 151, DESIGN CHOICE). -/
def Obligations.BundlesIssueAndCommit : Prop :=
  (∀ (s : State) (r : Region) (b : BlockIx) (l : CellIx) (e : WqE) (w : Bundle) (ok : Bool) (v : Word),
    cellIssues s.chip r b l e → s.chip.fetch r b l.val = (w, ok) → s.chip.decodeCheck r b l.val e w ok = none →
    w.vector = 0 → w.matrix = 0 → w.load = 0 → w.store = 0 → w.sync = 0 →
    (1 ≤ scOp w.scalar ∧ scOp w.scalar ≤ 0x12 ∨ 0x20 ≤ scOp w.scalar ∧ scOp w.scalar ≤ 0x25) →
    (∀ i < 4, ((s.chip.cell r b l.val).core.loops.getD i {}).active = false) →
    (s.chip.cell r b l.val).core.tackResult w.scalar (s.chip.cellPc r b l.val + w.units) = some v →
    gives (.bundleIssue r b l []) s (fun d =>
      (∃ f, (d.cell r b l.val).flight = some f ∧ f.core = (s.chip.cell r b l.val).core.setT (scA w.scalar) v
        ∧ f.next = s.chip.cellPc r b l.val + w.units ∧ f.stores = [] ∧ f.ended = false)
      ∧ (d.cell r b l.val).core = (s.chip.cell r b l.val).core ∧ d.cellState r b l.val = 1
      ∧ onlyUnit (.cblk r b) s.chip d ∧ memKept s.chip d))
  ∧ (∀ (s : State) (r : Region) (b : BlockIx) (l : CellIx) (e : WqE) (w : Bundle) (ok : Bool) (cause : Nat),
    cellIssues s.chip r b l e → s.chip.fetch r b l.val = (w, ok) → s.chip.decodeCheck r b l.val e w ok = some cause →
    ((s.chip.blk r b).wq.map (·.n)).Nodup →
    gives (.bundleIssue r b l []) s (fun d =>
      raised d (.cblk r b) (if cause = 5 then CBLK.ev_trap else CBLK.ev_cell_fault)
      ∧ (∀ x ∈ (d.blk r b).wq, x.n = e.n →
          x.state = .done ∧ x.status = (if cause = 5 then 6 else if cause = 16 then 1 else 7))
      ∧ onlyUnit (.cblk r b) s.chip d ∧ memKept s.chip d))
  ∧ (∀ (s : State) (r : Region) (b : BlockIx) (l : CellIx) (e : WqE) (word : Nat), cellIssues s.chip r b l e →
    2 * s.chip.cellPc r b l.val ≤ word → word < 2 * (s.chip.cellPc r b l.val + (s.chip.fetch r b l.val).1.units) →
    s.chip.bad.contains (s.chip.sramKey r b l.val ⟨.shadow, word, true⟩) = true →
    gives (.bundleIssue r b l [⟨.imem, word, true⟩]) s (fun d => raised d (.cblk r b) CBLK.ev_cell_fault
      ∧ raised d (.cblk r b) evErrUncorrected ∧ onlyIn [.cblk r b, .repoint] s.chip d ∧ memKept s.chip d))
  ∧ (∀ (k : Core) (i : Nat) (v : Word), k.t 0 = 0 ∧ k.setT 0 v = k
      ∧ (i ≠ 0 → i < k.tack.length → (k.setT i v).t i = v) ∧ ∀ j : Nat, j ≠ i → (k.setT i v).t j = k.t j)
  ∧ (∀ (s : State) (r : Region) (b : BlockIx) (l : CellIx) (f : Flight) (e : WqE) (a : Nat) (data : List Byte) (sp : Space)
      (o : Nat), blockRuns s.chip r b → (s.chip.cell r b l.val).flight = some f → (s.chip.cell r b l.val).ue = none →
    plainFlight f → f.ended = false → f.stores = [(a, data)] →
    s.chip.mapAddr r b (.tack l.val) a data.length = some (.loc sp o) → (s.chip.blk r b).lines = [] →
    s.chip.wqOf r b (s.chip.cell r b l.val).entry = some e → inMask e.mask l.val = true → e.state = .running →
    (s.chip.cell r b l.val).ended = false →
    gives (.bundleCommit r b l) s (fun d => (d.cell r b l.val).core = f.core ∧ (d.cell r b l.val).flight = none
      ∧ d.cellPc r b l.val = f.next % 2 ^ 13 ∧ d.load sp o data.length = data
      ∧ (∀ k, k < sp.base + o ∨ sp.base + o + data.length ≤ k → memRead d.mem k = memRead s.chip.mem k)
      ∧ onlyUnit (.cblk r b) s.chip d))
  ∧ ∀ (s : State) (r : Region) (b : BlockIx) (l : CellIx) (f : Flight) (e : WqE), blockRuns s.chip r b →
    (s.chip.cell r b l.val).flight = some f → (s.chip.cell r b l.val).ue = none → plainFlight f → f.ended = true →
    f.stores = [] → (s.chip.blk r b).lines = [] → s.chip.wqOf r b (s.chip.cell r b l.val).entry = some e →
    maskCells e.mask = [l.val] → e.state = .running → ((s.chip.blk r b).wq.map (·.n)).Nodup →
    gives (.bundleCommit r b l) s (fun d =>
      (∀ x ∈ (d.blk r b).wq, x.n = e.n → x.state = .done ∧ x.status = 0 ∧ x.value = f.core.tack.getD 1 0)
      ∧ onlyUnit (.cblk r b) s.chip d ∧ memKept s.chip d)

/-- R217, R218: a descriptor with a reserved field ends BAD_DESC; a raw COPY between local memories copies its bytes; a
finished descriptor leaves its completion word in its cell's tack data memory and its block's queue. R282, R290: a
sparse window that may not stand, or a split range upside down, is ignored with `sparse_reject`. -/
def Obligations.DescriptorsAndSparseWindows : Prop :=
  (∀ (s : State) (r : Region) (b : BlockIx) (e : DmaE), blockRuns s.chip r b →
    (s.chip.blk r b).dma.find? (fun e => !e.started) = some e → e.fence = false →
    (∀ x ∈ (s.chip.blk r b).dma, x.ix = e.ix → x.snapshot = none) →
    e.badDesc (s.chip.entryOf r b e.cell).isSome = true →
    gives (.dmaDescriptorStart r b) s (fun d =>
      (∀ x ∈ (d.blk r b).dma, x.ix = e.ix → x.started = true ∧ x.result = some (32, 0))
      ∧ regsBut [] s.chip d ∧ memKept s.chip d))
  ∧ (∀ (s : State) (r : Region) (b : BlockIx) (e : DmaE) (ss ds : Space) (so do_ : Nat), blockRuns s.chip r b →
    (s.chip.blk r b).dma.find? (fun e => !e.started) = some e → e.fence = false → e.op = 0 →
    (∀ x ∈ (s.chip.blk r b).dma, x.ix = e.ix → x.snapshot = none) →
    e.badDesc (s.chip.entryOf r b e.cell).isSome = false → (∀ i < 8, (s.chip.win r b i).kind = 0) → s.chip.bad = [] →
    s.chip.mapAddr r b .dma e.src e.length = some (.loc ss so) →
    s.chip.mapAddr r b .dma e.dst e.length = some (.loc ds do_) →
    gives (.dmaDescriptorStart r b) s (fun d => d.load ds do_ e.length = s.chip.load ss so e.length
      ∧ (∀ k, k < ds.base + do_ ∨ ds.base + do_ + e.length ≤ k → memRead d.mem k = memRead s.chip.mem k)
      ∧ (∀ x ∈ (d.blk r b).dma, x.ix = e.ix → x.result = some (0, e.length / 64)) ∧ regsBut [] s.chip d))
  ∧ (∀ (s : State) (r : Region) (b : BlockIx) (ix : Nat) (e : DmaE) (n : Nat), blockRuns s.chip r b →
    s.chip.dmaOf (blkNo r b) ix = some e → e.ix = ix → e.report = some (0, n) → e.snapshot = none → e.cell < 8 →
    let p := s.chip.physCell r b e.cell
    gives (.dmaComplete r b ix) s (fun d => d.load (.tdm r.val b.val p) (8 * e.done) 8 = leBytes 8 (n % 2 ^ 56)
      ∧ (∀ k, k < (Space.tdm r.val b.val p).base + 8 * e.done ∨ (Space.tdm r.val b.val p).base + 8 * e.done + 8 ≤ k →
          memRead d.mem k = memRead s.chip.mem k)
      ∧ (d.blk r b).dma = (s.chip.blk r b).dma.filter (fun x => x.ix ≠ ix) ∧ onlyUnit (.cblk r b) s.chip d))
  ∧ (∀ (s : State) (r : Region) (b : BlockIx) (i : Fin 8) (wordB : Bool) (v : Word), answers s.chip (.cblk r b) →
    s.chip.held (.cblk r b) = false →
    let pos := 0x200 + 16 * i.val + (if wordB then 8 else 0)
    let new := (s.chip.plainWrite (.cblk r b) pos v).1
    gives (.sparseWinWrite r b i wordB v) s (fun d =>
      (new.winFits r b i.val = true → d.reg (.cblk r b) pos = writeWord .cblk pos false (s.chip.reg (.cblk r b) pos) v
        ∧ regsBut [(.cblk r b, pos)] s.chip d)
      ∧ (new.winFits r b i.val = false → raised d (.cblk r b) CBLK.ev_sparse_reject
        ∧ regsBut [(.cblk r b, 0x20), (.cblk r b, 0x38)] s.chip d) ∧ memKept s.chip d))
  ∧ ∀ (s : State) (r : Region) (b : BlockIx) (v : Word), answers s.chip (.cblk r b) →
    let new := (s.chip.plainWrite (.cblk r b) 0x138 v).1
    let bad := decide (max 1 (new.fld (.cblk r b) CBLK.SPARSE_CTL_split_max)
      < max 1 (new.fld (.cblk r b) CBLK.SPARSE_CTL_split_min))
    gives (.sparseCtlWrite r b v) s (fun d =>
      (bad = false → d.reg (.cblk r b) 0x138
        = writeWord .cblk 0x138 (s.chip.held (.cblk r b)) (s.chip.reg (.cblk r b) 0x138) v)
      ∧ (bad = true → d.reg (.cblk r b) 0x138 = s.chip.reg (.cblk r b) 0x138
        ∧ raised d (.cblk r b) CBLK.ev_sparse_reject)
      ∧ regsBut [(.cblk r b, 0x138), (.cblk r b, 0x20), (.cblk r b, 0x38)] s.chip d ∧ memKept s.chip d)

/-! ### Collectives -/

/-- The units that a region's Mortar shows itself in: its own registers, its sort unit's, and those of the buffer that held
the packet. -/
def mortarUnits (r : Region) : List UnitId :=
  [.mortar r, .sort r, .xbar r, .bufbank r 0, .bufbank r 1, .bufbank r 2, .bufbank r 3]

/-- A PIECE of an open instance `x` of its group, in a phase that carries data: the checks of Table COLL-6 pass. -/
abbrev pieceFits (c : Chip) (r : Region) (p : Packet) (x : InstS) : Prop :=
  c.partStep r = 0 ∧ p.kind = 1 ∧ p.mcast = false ∧ c.grpOk r p.group = true ∧ p.job = c.grp r p.group MORTAR.GRP_A_job_id
    ∧ c.windowOf r p.group p.inst = .inside ∧ dValid p.w2 (c.grp r p.group MORTAR.GRP_A_member_count) = true
    ∧ c.instS r p.group p.inst = some x ∧ x.d = p.w2 ∧ x.digest = p.digest ∧ p.piece ∉ x.released
    ∧ (x.frag p.piece p.frag).shapeOk x.d (dFragE x.d p.piece p.frag) p false = true
    ∧ c.journalUsed r + 256 + p.cells ≤ c.fld (.xbar r) XBAR.BUF_ALLOT_journal ∧ (c.mort r).fragsOpen < 4096

/-- The packet of the Mortar's queue that is next among the collective fragments, whose turn it is (R337); `id` is the buffer
entry
that holds it. -/
abbrev frontPiece (c : Chip) (r : Region) (p : Packet) (id : Option Nat) : Prop :=
  (c.mortTurn r false).bind List.head? = some (p, id)

/-- The Mortar's queue without that packet. -/
abbrev taken (c d : Chip) (r : Region) (p : Packet) (id : Option Nat) : Prop :=
  (d.mort r).queue = (c.mort r).queue.erase (p, id)

/-- The CONTRIB of effective local member `m`, not seen before. -/
abbrev contribFits (c : Chip) (r : Region) (p : Packet) (x : InstS) (m : Nat × Nat) : Prop :=
  pieceFits c r p x ∧ p.phase = 0 ∧ (c.effMembers r p.group).find? (fun e => e.2 = p.src) = some m
    ∧ Tab.find (x.frag p.piece p.frag).contribs m.1 = none

/-- Another effective local member has not contributed to the fragment. -/
abbrev othersMissing (c : Chip) (r : Region) (p : Packet) (x : InstS) (m : Nat × Nat) : Prop :=
  ∃ k ∈ c.effMembers r p.group, k.1 ≠ m.1 ∧ Tab.find (x.frag p.piece p.frag).contribs k.1 = none

/-- The contribution stands in the fragment, and nothing is sent. -/
def contribTaken (c d : Chip) (r : Region) (p : Packet) (m : Nat × Nat) : Prop :=
  (∃ y, d.instS r p.group p.inst = some y ∧ p.src ∈ y.members
    ∧ Tab.find (y.frag p.piece p.frag).contribs m.1 = some p.payload) ∧ sends c d r [] ∧ onlyIn (mortarUnits r) c d ∧ memKept c d

/-- R307, R310 to R312, R320, R497: a CONTRIB that passes its checks joins its fragment, on arrival or once it has
waited; with the last one a region that is no anchor sends its region partial; an anchor keeps a region's partial; a
stop that is not the head adds its own to the running partial and hands it on; LAP2 delivers the result to the
members and goes on; an ABORT ends the instance with its status; the first census lap's return starts the second.
That each fragment of a piece takes its stages by itself is read by inference (log 166, DEDUCED). -/
def Obligations.PiecesTakeTheirStages : Prop :=
  (∀ (s : State) (r : Region) (p : Packet) (id : Option Nat) (x : InstS) (m : Nat × Nat),
    frontPiece s.chip r p id → contribFits s.chip r p x m → othersMissing s.chip r p x m →
    gives (.contrib r) s (fun d => contribTaken s.chip d r p m ∧ taken s.chip d r p id))
  ∧ (∀ (s : State) (r : Region) (p : Packet) (id : Option Nat) (told : Bool) (rest : List (Packet × Option Nat × Bool))
      (x : InstS) (m : Nat × Nat), (s.chip.mort r).waiting = (p, id, told) :: rest →
    contribFits s.chip r p x m → othersMissing s.chip r p x m →
    gives (.contribAdmit r) s (fun d => contribTaken s.chip d r p m ∧ (d.mort r).waiting = rest))
  ∧ (∀ (s : State) (r : Region) (p : Packet) (id : Option Nat) (x : InstS) (m : Nat × Nat)
      (part : Part) (body : List Byte), frontPiece s.chip r p id → contribFits s.chip r p x m →
    s.chip.isAnchor r p.group = false → (x.frag p.piece p.frag).regionDone = false →
    let all := Tab.put (x.frag p.piece p.frag).contribs m.1 p.payload
    let l := (s.chip.effMembers r p.group).map (fun k =>
      Part.widen x.d (dFragE x.d p.piece p.frag) (Tab.get all k.1 []))
    (∀ k ∈ s.chip.effMembers r p.group, (Tab.find all k.1).isSome = true) → treeParts x.d l.length l = some part →
    part.encode = (body, []) →
    gives (.contrib r) s (fun d => sends s.chip d r [s.chip.piecePacket r p.group p.inst 1
        (s.chip.grp r p.group MORTAR.GRP_B_anchor_epid) p.piece p.frag false x.d x.digest body]
      ∧ onlyIn (mortarUnits r) s.chip d ∧ memKept s.chip d))
  ∧ (∀ (s : State) (r k k' : Region) (p : Packet) (id : Option Nat) (x : InstS),
    frontPiece s.chip r p id → pieceFits s.chip r p x → p.phase = 1 → s.chip.isAnchor r p.group = true →
    dExact x.d = false → s.chip.regionOfEpid p.src = some k → k ∈ s.chip.maskRegions r p.group →
    Tab.find (x.frag p.piece p.frag).parts k.val = none →
    k' ∈ s.chip.maskRegions r p.group → k' ≠ k → s.chip.effMembers k' p.group ≠ [] →
    Tab.find (x.frag p.piece p.frag).parts k'.val = none →
    gives (.regionPartial r) s (fun d =>
      (∃ y, d.instS r p.group p.inst = some y ∧ Tab.find (y.frag p.piece p.frag).parts k.val
          = some (.words ((List.range (dFragE x.d p.piece p.frag)).map (fun i => leAt p.payload (4 * i) 4))))
      ∧ taken s.chip d r p id ∧ sends s.chip d r [] ∧ onlyIn (mortarUnits r) s.chip d ∧ memKept s.chip d))
  ∧ (∀ (s : State) (r : Region) (p : Packet) (id : Option Nat) (x : InstS) (own : Part),
    frontPiece s.chip r p id → pieceFits s.chip r p x → p.phase = 2 → s.chip.isAnchor r p.group = true →
    dExact x.d = false → s.chip.isHead r p.group p.piece = false → (x.frag p.piece p.frag).passed = false →
    (x.frag p.piece p.frag).mine = some own →
    let q := Part.words ((List.range (dFragE x.d p.piece p.frag)).map (fun i => leAt p.payload (4 * i) 4))
    ∀ body : List Byte, (Part.join x.d q own).encode = (body, []) →
    gives (.lap1 r) s (fun d => sends s.chip d r [s.chip.piecePacket r p.group p.inst 2 (s.chip.nextStop r p.group)
        p.piece p.frag false x.d x.digest body]
      ∧ taken s.chip d r p id ∧ onlyIn (mortarUnits r) s.chip d ∧ memKept s.chip d))
  ∧ (∀ (s : State) (r : Region) (p : Packet) (id : Option Nat) (x : InstS) (f : Nat),
    frontPiece s.chip r p id → pieceFits s.chip r p x → p.phase = 3 → s.chip.isAnchor r p.group = true →
    (s.chip.grpS r p.group).censusOk = true → s.chip.isHead r p.group p.piece = false →
    (x.frag p.piece p.frag).delivered = false → f < dFrags x.d p.piece → f ≠ p.frag → (x.frag p.piece f).passed = false →
    gives (.lap2 r) s (fun d => sends s.chip d r
        ((s.chip.receivers r p.group p.piece x.d).map (fun m => s.chip.piecePacket r p.group p.inst 4 m.2 p.piece p.frag
          false x.d x.digest p.payload)
        ++ [s.chip.piecePacket r p.group p.inst 3 (s.chip.nextStop r p.group) p.piece p.frag false x.d x.digest p.payload])
      ∧ (∃ y, d.instS r p.group p.inst = some y ∧ (y.frag p.piece p.frag).delivered = true
          ∧ (y.frag p.piece p.frag).passed = true)
      ∧ taken s.chip d r p id ∧ onlyIn (mortarUnits r) s.chip d ∧ memKept s.chip d))
  ∧ (∀ (s : State) (r : Region) (p : Packet) (id : Option Nat), frontPiece s.chip r p id →
    s.chip.partStep r = 0 → p.kind = 1 → p.mcast = false → p.phase = 5 → p.len = 16 → s.chip.grpOk r p.group = true →
    p.job = s.chip.grp r p.group MORTAR.GRP_A_job_id → s.chip.isAnchor r p.group = false →
    s.chip.windowOf r p.group p.inst = .inside →
    gives (.abort r) s (fun d => d.instS r p.group p.inst = none
      ∧ (d.grpS r p.group).last = leAt p.payload 0 1 % 16
      ∧ raised d (.mortar r) (if leAt p.payload 0 1 % 16 = 1 then MORTAR.ev_mismatch else MORTAR.ev_abort)
      ∧ taken s.chip d r p id ∧ onlyIn (mortarUnits r) s.chip d ∧ memKept s.chip d))
  ∧ ∀ (s : State) (r : Region) (p : Packet) (id : Option Nat) (t : RoundS), frontPiece s.chip r p id →
    s.chip.partStep r = 0 → p.kind = 1 → p.mcast = false → p.phase = 6 → p.len = 512 → s.chip.grpOk r p.group = true →
    p.job = s.chip.grp r p.group MORTAR.GRP_A_job_id → s.chip.isAnchor r p.group = true →
    p.inst = s.chip.fld .plumb PLUMB.PLUMB_STS_epoch % 32768 → (s.chip.grpS r p.group).round = some t → t.lap = 1 →
    (s.chip.grpS r p.group).insts = [] →
    gives (.census r) s (fun d =>
      (d.grpS r p.group).round = some ⟨2, leNat p.payload, s.chip.courseCount, 0⟩
      ∧ (d.grpS r p.group).censusOk = true ∧ (d.grpS r p.group).census = leNat p.payload
      ∧ sends s.chip d r [s.chip.piecePacket r p.group p.inst 6 (s.chip.nextStop r p.group) 0 0 false 0 0
          (leBytes 512 (leNat p.payload))]
      ∧ taken s.chip d r p id ∧ onlyIn (mortarUnits r) s.chip d ∧ memKept s.chip d)

/-- R318, R319, R323, R400, R497: the anchor at effective position 0 starts a census round with its own members' bits
and sends it again when its lap does not return; a lap that does not return is launched again, in the pod and over
the cross-pod ring; an instance that stays open for `inst_timeout` courses ends in the region; a cross-lap 1 partial
waits at the pod's head for the pod's own. -/
def Obligations.LapsAndCensusRoundsAreTimed : Prop :=
  (∀ (s : State) (r : Region) (g : Fin 1024), s.chip.partStep r = 0 → s.chip.censusDue r g.val = true →
    gives (.censusRoundStart r g) s (fun d => (d.grpS r g.val).started = true
      ∧ (d.grpS r g.val).round = some ⟨1, s.chip.ownBits r g.val, s.chip.courseCount, 0⟩
      ∧ sends s.chip d r [s.chip.piecePacket r g.val (s.chip.fld .plumb PLUMB.PLUMB_STS_epoch % 32768) 6
          (s.chip.nextStop r g.val) 0 0 false 0 0 (leBytes 512 (s.chip.ownBits r g.val))]
      ∧ onlyUnit (.mortar r) s.chip d ∧ memKept s.chip d))
  ∧ (∀ (s : State) (r : Region) (g : Fin 1024) (t : RoundS), s.chip.partStep r = 0 →
    (s.chip.grpS r g.val).round = some t → s.chip.lapTimeout r ≤ s.chip.since t.sentAt →
    t.relaunches < s.chip.lapReplays r →
    gives (.censusRelaunch r g) s (fun d =>
      (d.grpS r g.val).round = some { t with sentAt := s.chip.courseCount, relaunches := t.relaunches + 1 }
      ∧ raised d (.mortar r) MORTAR.ev_relaunch
      ∧ sends s.chip d r [s.chip.piecePacket r g.val (s.chip.fld .plumb PLUMB.PLUMB_STS_epoch % 32768) 6
          (s.chip.nextStop r g.val) 0 0 false 0 0 (leBytes 512 t.bits)]
      ∧ onlyUnit (.mortar r) s.chip d ∧ memKept s.chip d))
  ∧ (∀ (s : State) (r : Region) (g : Fin 1024) (i : BitVec 15) (p : BitVec 16) (f : Fin 8) (x : InstS) (res : List Byte),
    s.chip.partStep r = 0 → s.chip.instS r g.val i.toNat = some x → (x.frag p.toNat f.val).lap = 2 →
    (x.frag p.toNat f.val).result = some res → s.chip.lapTimeout r ≤ s.chip.since (x.frag p.toNat f.val).sentAt →
    (x.frag p.toNat f.val).relaunches < s.chip.lapReplays r →
    gives (.lapRelaunch r g i p f) s (fun d => raised d (.mortar r) MORTAR.ev_relaunch
      ∧ sends s.chip d r [s.chip.piecePacket r g.val i.toNat 3 (s.chip.nextStop r g.val) p.toNat f.val false x.d x.digest res]
      ∧ (∃ y, d.instS r g.val i.toNat = some y ∧ (y.frag p.toNat f.val).sentAt = s.chip.courseCount
          ∧ (y.frag p.toNat f.val).relaunches = (x.frag p.toNat f.val).relaunches + 1)
      ∧ onlyUnit (.mortar r) s.chip d ∧ memKept s.chip d))
  ∧ (∀ (s : State) (r : Region) (g : Fin 1024) (i : BitVec 15) (x : InstS), s.chip.partStep r = 0 →
    s.chip.instS r g.val i.toNat = some x → s.chip.instTimeout r ≤ s.chip.since x.openedAt →
    s.chip.windowOf r g.val i.toNat = .inside →
    gives (.instanceTimeout r g i) s (fun d => d.instS r g.val i.toNat = none ∧ raised d (.mortar r) MORTAR.ev_abort
      ∧ memKept s.chip d))
  ∧ (∀ (s : State) (r : Region) (g : Fin 1024) (i : BitVec 15) (p : BitVec 16) (f : Fin 8) (x : InstS),
    s.chip.partStep r = 0 → s.chip.instS r g.val i.toNat = some x → (x.frag p.toNat f.val).cross ≠ 0 →
    s.chip.xpodTimeout r ≤ s.chip.since (x.frag p.toNat f.val).crossAt →
    (x.frag p.toNat f.val).crossTries < s.chip.lapReplays r →
    gives (.xpodLapTimeout r g i p f) s (fun d => raised d (.mortar r) MORTAR.ev_relaunch
      ∧ (∃ y, d.instS r g.val i.toNat = some y ∧ (y.frag p.toNat f.val).crossAt = s.chip.courseCount
          ∧ (y.frag p.toNat f.val).crossTries = (x.frag p.toNat f.val).crossTries + 1)
      ∧ onlyIn [.mortar r, .hostbr, .hostport] s.chip d ∧ memKept s.chip d))
  ∧ ∀ (s : State) (n : Fin 256) (m : Welt) (ep pr : Nat) (rest : List (Welt × Nat × Nat)) (r : Region) (x : InstS),
    (s.chip.peer n.val).cmds = (m, ep, pr) :: rest →
    let p := Packet.ofBytes m.payload
    s.chip.groupAnchor p.group = some r → p.kind = 1 → p.mcast = false → p.payload.length = p.len → p.phase = 2 →
    p.job = s.chip.grp r p.group MORTAR.GRP_A_job_id → s.chip.pods r p.group ≠ 1 →
    s.chip.windowOf r p.group p.inst = .inside → dValid p.w2 (s.chip.grp r p.group MORTAR.GRP_A_member_count) = true →
    s.chip.instS r p.group p.inst = some x → x.d = p.w2 → x.digest = p.digest → s.chip.isHead r p.group p.piece = true →
    (x.frag p.piece p.frag).shapeOk x.d (dFragE x.d p.piece p.frag) p false = true → p.piece ∉ x.released →
    s.chip.journalUsed r + p.cells ≤ s.chip.fld (.xbar r) XBAR.BUF_ALLOT_journal →
    s.chip.isGlobalHead r p.group p.piece = false → dExact x.d = false → (x.frag p.piece p.frag).back = none →
    gives (.xpod n) s (fun d => (d.peer n.val).cmds = rest
      ∧ (∃ y, d.instS r p.group p.inst = some y ∧ (y.frag p.piece p.frag).crossIn
          = some (.words ((List.range (dFragE x.d p.piece p.frag)).map (fun i => leAt p.payload (4 * i) 4))))
      ∧ onlyUnit (.mortar r) s.chip d ∧ memKept s.chip d)

/-! ### Streams -/

/-- The STREAM packet of the Mortar's queue that is next (R337). -/
abbrev frontStream (c : Chip) (r : Region) (p : Packet) (id : Option Nat) : Prop :=
  (c.mortTurn r true).bind List.head? = some (p, id)

/-- A STREAM packet of an open context passes its checks (Table STR-2). -/
abbrev streamFits (c : Chip) (r : Region) (p : Packet) (x : CtxS) : Prop :=
  c.partStep r = 0 ∧ p.kind = 6 ∧ c.ctx r p.ctxKey = some x ∧ x.failed = false ∧ p.isTable = false
    ∧ (c.slotH r p.slot).kind = 0 ∧ c.streamCheck r (some x) (c.slotH r p.slot) p = 0

/-- The context after the packet has come: its last header words and the course. -/
def metPacket (x : CtxS) (c : Chip) (p : Packet) : CtxS :=
  { x with w1 := p.w1, w2 := p.w2, w3 := p.w3, at_ := c.courseCount, data := true }

/-- R328, R329, R333, R341: an element program runs on each element of a packet; with `last` the end packet goes out
with status OK and the context closes; a whole sort leaves in order, with its end packet; a context that waits
`stream_timeout` courses for a packet fails with status 6, and a failed one closes. -/
def Obligations.StreamsRunAndEnd : Prop :=
  (∀ (s : State) (r : Region) (p : Packet) (id : Option Nat) (x y : CtxS), frontStream s.chip r p id →
    streamFits s.chip r p x → p.streamLast = false → p.isFlush = false →
    let h := s.chip.slotH r p.slot
    let cst := fun (i : Nat) => if i < 48 then s.chip.slotConst r x.slot i
      else if i = 48 then getBits p.w2 31 0 else getBits p.w2 63 32
    elemRun h (s.chip.slotProg r x.slot h.nInstr) cst (s.chip.reg (.mortar r) 0x158) (rawElems h.inFmt p.payload)
      (metPacket x s.chip p) = (y, false) → y.out.length < h.fullBytes →
    gives (.stream r) s (fun d => d.ctx r p.ctxKey = some y ∧ taken s.chip d r p id ∧ sends s.chip d r []
      ∧ onlyIn (mortarUnits r) s.chip d ∧ memKept s.chip d))
  ∧ (∀ (s : State) (r : Region) (p : Packet) (id : Option Nat) (x : CtxS), frontStream s.chip r p id →
    streamFits s.chip r p x → p.streamLast = true → p.payload = [] → x.out = [] →
    let y := metPacket x s.chip p
    gives (.stream r) s (fun d => d.ctx r p.ctxKey = none ∧ taken s.chip d r p id
      ∧ sends s.chip d r [s.chip.ctxPacket r y true 0 (setBits p.w2 31 0 x.amax)
          (x.sent / (s.chip.slotH r x.slot).tokBytes) []]
      ∧ onlyIn (mortarUnits r) s.chip d ∧ memKept s.chip d))
  ∧ (∀ (s : State) (r : Region) (k : Nat) (x : CtxS), s.chip.partStep r = 0 → s.chip.ctx r k = some x → x.kind = 1 →
    x.ended = true → x.failed = false →
    let h := s.chip.slotH r x.slot
    let out := x.out ++ tokBytes h (sortBy (orderLe h) x.recs)
    out ≠ [] → out.length ≤ h.fullBytes →
    gives (.sortOutput r k) s (fun d => d.ctx r k = none
      ∧ sends s.chip d r [s.chip.ctxPacket r x false 0 x.w2 (x.sent / h.tokBytes) out,
          s.chip.ctxPacket r x true 0 (setBits x.w2 31 0 x.amax) ((x.sent + out.length) / h.tokBytes) []]
      ∧ onlyIn (mortarUnits r) s.chip d ∧ memKept s.chip d))
  ∧ ∀ (s : State) (r : Region) (src : BitVec 12) (strm : BitVec 16) (x : CtxS), s.chip.partStep r = 0 →
    s.chip.ctx r (src.toNat * 65536 + strm.toNat) = some x → s.chip.streamTimeout r ≤ s.chip.since x.at_ →
    x.ended = false → x.segs.any (·.last) = false →
    gives (.streamTimeout r src strm) s (fun d =>
      (x.failed = true → d.ctx r (src.toNat * 65536 + strm.toNat) = none)
      ∧ (x.failed = false → (∃ y, d.ctx r (src.toNat * 65536 + strm.toNat) = some y ∧ y.failed = true ∧ y.out = []
            ∧ y.at_ = s.chip.courseCount)
          ∧ raised d (.mortar r) MORTAR.ev_stream_timeout ∧ raised d (.mortar r) MORTAR.ev_stream_fail)
      ∧ onlyIn (mortarUnits r) s.chip d ∧ memKept s.chip d)

/-- A dispatch context whose next token can be dispatched now (R346). -/
def dispatchable (c : Chip) (r : Region) (e : Nat × CtxS) : Bool :=
  let h := c.slotH r e.2.slot
  e.2.kind = 3 && decide (64 + 64 * h.rowUnits ≤ e.2.bytes.length) && (match c.routeOf r h e.2.bytes with
    | some ch => c.tokenFits r e.1 e.2 ch
    | none => true)

/-- The batch that BATCH_INVOKE takes: of the closed batches whose WRITEs are answered, the first in closing order, and of
those that closed together the lowest expert (R347). -/
def nextBatch (c : Chip) (r : Region) : Option (Nat × BatchS) :=
  let l := (c.mort r).batches.filter (fun b => b.2.closed.isSome && b.2.invokedAt.isNone)
  let l := sortBy (fun a b => a.2.closed.getD 0 < b.2.closed.getD 0
    || (a.2.closed = b.2.closed && a.2.expert ≤ b.2.expert)) l
  l.find? (fun e => e.2.writes = 0 && !l.any (fun f => f.2.closed = e.2.closed && f.2.expert < e.2.expert))

/-- R345 to R349: a token's choice takes the next row of its expert's open batch; a batch whose WRITEs are answered is
invoked on its expert with its count and number; its RESULTs bring the rows of its choices, the last one ends it,
and so does `batch_timeout`; a RESULT of no batch is `unclaimed`. That a batch holds tokens of one context is read
by inference (log 56, DEDUCED). -/
def Obligations.TokensGoToTheirExperts : Prop :=
  (∀ (s : State) (r : Region) (k expert gate key : Nat) (x : CtxS) (sg : SegS) (b : BatchS), s.chip.partStep r = 0 →
    (s.chip.mort r).ctxs.find? (dispatchable s.chip r) = some (k, x) → s.chip.ctx r k = some x → x.ended = false →
    x.tokens = [] → x.segs = [sg] → sg.flush = false → sg.last = false →
    let h := s.chip.slotH r x.slot
    sg.upto = 64 + 64 * h.rowUnits → x.bytes.length = 64 + 64 * h.rowUnits →
    s.chip.routeOf r h x.bytes = some [(expert, gate)] → (s.chip.mort r).openBatch expert = some (key, b) →
    Tab.find (s.chip.mort r).batches key = some b → b.count + 1 ≠ getBits (s.chip.expertA r expert) 12 0 →
    gives (.tokenDispatch r) s (fun d =>
      (∃ y, d.ctx r k = some y ∧ y.bytes = []
        ∧ y.tokens = [⟨x.nextTok, leAt x.bytes 0 4, [⟨expert, gate, key, b.count, none, false, none⟩], false⟩])
      ∧ (∃ y, Tab.find (d.mort r).batches key = some y ∧ y.count = b.count + 1 ∧ y.closed = b.closed)
      ∧ onlyIn (mortarUnits r) s.chip d ∧ memKept s.chip d))
  ∧ (∀ (s : State) (r : Region) (key : Nat) (b : BatchS) (x : CtxS), s.chip.partStep r = 0 →
    nextBatch s.chip r = some (key, b) → b.bad = none → s.chip.ctx r b.ctx = some x →
    gives (.batchInvoke r) s (fun d =>
      Tab.find (d.mort r).batches key = some { b with invokedAt := some s.chip.courseCount }
      ∧ (∃ p, sends s.chip d r [p] ∧ p.kind = 4 ∧ p.payload = leBytes 4 b.count
          ++ leBytes 4 (64 * (s.chip.slotH r x.slot).rowUnits) ++ leBytes 4 b.number
          ++ leBytes 4 (s.chip.slotH r x.slot).outElems)
      ∧ onlyIn (mortarUnits r) s.chip d ∧ memKept s.chip d))
  ∧ (∀ (s : State) (r : Region) (key st : Nat) (b : BatchS), s.chip.partStep r = 0 →
    nextBatch s.chip r = some (key, b) → b.bad = some st →
    gives (.batchInvoke r) s (fun d => Tab.find (d.mort r).batches key = none ∧ onlyIn (mortarUnits r) s.chip d
      ∧ memKept s.chip d))
  ∧ (∀ (s : State) (r : Region) (p : Packet) (b : BatchS), s.chip.partStep r = 0 →
    inboxGives s.chip r 5 (fun _ => true) p → Tab.find (s.chip.mort r).batches p.memTag = some b →
    b.invokedAt.isSome = true → p.src = b.epid → p.isLast = true →
    gives (.expertResult r) s (fun d => Tab.find (d.mort r).batches p.memTag = none ∧ onlyIn (mortarUnits r) s.chip d
      ∧ memKept s.chip d))
  ∧ (∀ (s : State) (r : Region) (p : Packet) (b : BatchS) (x : CtxS), s.chip.partStep r = 0 →
    inboxGives s.chip r 5 (fun _ => true) p → Tab.find (s.chip.mort r).batches p.memTag = some b →
    b.invokedAt.isSome = true → p.src = b.epid → p.isLast = false → s.chip.ctx r b.ctx = some x →
    let h := s.chip.slotH r x.slot
    let mine := fun (e : ChoiceS) => decide (e.batch = p.memTag ∧ e.pos = getBits p.w3 19 0)
    x.tokens.any (fun t => t.choices.any (fun e => mine e && (e.data.isSome || e.badForm))) = false →
    p.len = h.outElems * strSize h.resFmt →
    gives (.expertResult r) s (fun d =>
      (∃ y, d.ctx r b.ctx = some y ∧ y.tokens = x.tokens.map (fun t => { t with choices := t.choices.map (fun e =>
        if mine e = true then { e with data := some ((List.range h.outElems).map (fun i =>
          loadElem h.resFmt (leAt p.payload (strSize h.resFmt * i) (strSize h.resFmt)))) } else e) }))
      ∧ onlyIn (mortarUnits r) s.chip d ∧ memKept s.chip d))
  ∧ (∀ (s : State) (r : Region) (p : Packet), s.chip.partStep r = 0 →
    inboxGives s.chip r 5 (fun _ => true) p → Tab.find (s.chip.mort r).batches p.memTag = none →
    gives (.expertResult r) s (fun d => raised d (.sort r) SORT.ev_unclaimed ∧ (d.mort r).batches = (s.chip.mort r).batches
      ∧ onlyIn (mortarUnits r) s.chip d ∧ memKept s.chip d))
  ∧ ∀ (s : State) (r : Region) (hd : Fin 1024) (key n : Nat) (b : BatchS), s.chip.partStep r = 0 →
    (s.chip.mort r).batches.find? (fun b => b.1 % 1024 = hd.val) = some (key, b) → b.invokedAt = some n →
    s.chip.batchTimeout r ≤ s.chip.since n →
    gives (.batchTimeout r hd) s (fun d => Tab.find (d.mort r).batches key = none ∧ onlyIn (mortarUnits r) s.chip d
      ∧ memKept s.chip d)

/-! ### The Awl recorder -/

/-- The bytes of the recorder's ring at the next record. -/
def awlNext (c : Chip) : Nat := c.awlRing.2.1 + 64 * c.fld .awl AWL.AWL_WPTR_written % c.awlRing.2.2

/-- R377 to R380: an accepted start writes the start record into the ring's first 64 bytes, a late one is refused;
recording runs from its start course; while it runs AWL_CTL's mode is fixed but for 0, which stops it, as
`stop_course` does; records go to the ring in stamp order, and a full ring that does not wrap ends recording; lost
records leave a gap record. The bytes that a record's type does not use are 0 by the model's choice (log 191, DESIGN
CHOICE). -/
def Obligations.AwlRecordsInStampOrder : Prop :=
  (∀ (s : State) (v : Word), answers s.chip .awl → s.chip.lateFor (getBits v 47 0) = false → s.chip.awlReady = true →
    let sp := Space.lintel s.chip.awlRing.1.val
    gives (.awlStart v) s (fun d => d.awl.armed = some (getBits v 47 0) ∧ d.fld .awl AWL.AWL_WPTR_written = 1
      ∧ d.load sp s.chip.awlRing.2.1 64 = awlBytes 0 (getBits v 47 0) 0 8 0 0 0 [] []
      ∧ (∀ k, k < sp.base + s.chip.awlRing.2.1 ∨ sp.base + s.chip.awlRing.2.1 + 64 ≤ k →
          memRead d.mem k = memRead s.chip.mem k)
      ∧ onlyUnit .awl s.chip d))
  ∧ (∀ (s : State) (v : Word), answers s.chip .awl → s.chip.lateFor (getBits v 47 0) = true →
    gives (.awlStart v) s (fun d => raised d .awl AWL.ev_start_refused ∧ raised d .course COURSE.ev_late_schedule
      ∧ d.awl = s.chip.awl ∧ regsBut [(.awl, 0x20), (.awl, 0x38), (.course, 0x20), (.course, 0x38)] s.chip d
      ∧ memKept s.chip d))
  ∧ (∀ (s : State) (n : Nat), s.chip.awl.armed = some n → courseBefore s.chip.courseNow n = false →
    gives .awlRecordStart s (fun d => d.awl.recording = true ∧ d.awl.armed = none ∧ regsBut [] s.chip d ∧ memKept s.chip d))
  ∧ (∀ (s : State) (v : Word), answers s.chip .awl → s.chip.awlRuns = true →
    if getBits v 1 0 = 0 ∨ getBits v 1 0 = 3 then
      gives (.awlModeWrite v) s (fun d => d.awlRuns = false ∧ raised d .awl AWL.ev_stopped ∧ onlyUnit .awl s.chip d
        ∧ memKept s.chip d)
    else gives (.awlModeWrite v) s (fun d => raised d .awl AWL.ev_start_refused ∧ d.awl = s.chip.awl
        ∧ regsBut [(.awl, 0x20), (.awl, 0x38)] s.chip d ∧ memKept s.chip d))
  ∧ (∀ (s : State) (e : AwlRec), s.chip.awlHead = some e → e.made + 64 ≤ s.chip.now → s.chip.awlFull = false →
    s.chip.awl.comparing = false →
    e.bytes.length = 64 →
    let sp := Space.lintel s.chip.awlRing.1.val
    let a := awlNext s.chip
    gives .awlRecordWrite s (fun d => d.load sp a 64 = e.bytes
      ∧ (∀ k, k < sp.base + a ∨ sp.base + a + 64 ≤ k → memRead d.mem k = memRead s.chip.mem k)
      ∧ Tab.get d.awl.queues e.region [] = (Tab.get s.chip.awl.queues e.region []).drop 1
      ∧ regsBut [(.awl, AWL.AWL_WPTR_written.pos)] s.chip d))
  ∧ (∀ (s : State) (e : AwlRec), s.chip.awlHead = some e → e.made + 64 ≤ s.chip.now → s.chip.awlFull = true → e.type ≠ 9 →
    gives .awlRecordWrite s (fun d => raised d .awl AWL.ev_ring_full ∧ d.awlRuns = false ∧ d.awl.queues = []
      ∧ regsBut [(.awl, 0x20), (.awl, 0x38)] s.chip d ∧ memKept s.chip d))
  ∧ (∀ (s : State) (r : Region) (n course off : Nat), Tab.find s.chip.awl.lost r.val = some (n, course, off) →
    (Tab.get s.chip.awl.queues r.val []).length < 4096 →
    gives (.awlGapRecord r) s (fun d => Tab.find d.awl.lost r.val = none
      ∧ (∃ e ∈ Tab.get d.awl.queues r.val [], e.type = 7
          ∧ e.bytes = awlBytes r.val course off 7 0 0 n [] [])
      ∧ regsBut [] s.chip d ∧ memKept s.chip d))
  ∧ ∀ s : State, s.chip.awlStopped = true → s.chip.awlRuns = true →
    gives .awlStopCourse s (fun d => d.awlRuns = false ∧ raised d .awl AWL.ev_stopped ∧ onlyUnit .awl s.chip d
      ∧ memKept s.chip d)

/-! ### The host port and Welt -/

/-- A received frame passes every check of the host port, without MACsec, and carries this UDP datagram for the chip. -/
abbrev frameCarries (c : Chip) (f : Frame) (u : Datagram) : Prop :=
  c.flag .hostport HOSTPORT.HP_STS_link_up = true ∧ c.serves = true ∧ f.fcsOk = true
    ∧ c.rxHeld none + f.body.length ≤ 1048576 ∧ f.stacked = false ∧ Frame.bytes f ≤ 9216
    ∧ (match f.vlan with
        | some (v, _) => c.fld .hostport HOSTPORT.HP_CTL_vid ≠ 0 ∧ v.toNat = c.fld .hostport HOSTPORT.HP_CTL_vid
        | none => c.fld .hostport HOSTPORT.HP_CTL_vid = 0)
    ∧ f.dst.toNat = c.fld .hostport HOSTPORT.MAC_ADDR_mac ∧ f.dst.toNat / 2 ^ 40 % 2 = 0
    ∧ c.flag .hostport HOSTPORT.HP_CTL_macsec_en = false ∧ f.secTag = none
    ∧ netOf f (c.fld .hostport HOSTPORT.IPV4_ADDR_ipv4)
        ((c.reg .hostport 0x120).toNat * 2 ^ 64 + (c.reg .hostport 0x128).toNat)
        (c.fld .hostbr HOSTBR.HOSTBR_CTL_udp_port) = .udp u

/-- The message of a datagram is well formed and comes from its session's source (R390). -/
abbrev weltGood (c : Chip) (f : Frame) (u : Datagram) (m : Welt) : Prop :=
  m = Welt.ofBytes u.payload ∧ m.version = 1 ∧ m.crc = m.crcOf ∧ m.len + 32 = u.payload.length
    ∧ c.sourceOk m.session u f.src 0x1000 0x40 = true

/-- R385, R386, R390, R391: a frame with a bad FCS is counted and nothing else; a known command of an OPEN session that
is the next in sequence is accepted, an OPEN and an ACK wait for their commands. A PFC frame pauses the priorities
it names for their quanta, in the model's clock one s-cycle each (log 276, PRESUMED), and 0 ends a pause; XON is sent below
`pfc_xon`; the link comes up and goes down with its
event. -/
def Obligations.FramesArriveAndPause : Prop :=
  (∀ (s : State) (f : Frame) (u : Datagram) (m : Welt), frameCarries s.chip f u → weltGood s.chip f u m →
    m.known = true → s.chip.sessState m.session = 1 → m.seq = s.chip.rxNext m.session →
    (s.chip.sess m.session).rxRoom m.payload.length = true →
    gives (.frameReceived f) s (fun d =>
      (d.sess m.session).cmds = (s.chip.sess m.session).cmds ++ [(m, (s.chip.sess m.session).epoch,
        match f.vlan with | some (_, p) => p.toNat | none => 0)]
      ∧ d.rxNext m.session = (s.chip.rxNext m.session + 1) % 2 ^ 32 ∧ d.sessState m.session = 1
      ∧ onlyIn [.hostport, .hostbr, .awl] s.chip d ∧ memKept s.chip d))
  ∧ (∀ (s : State) (f : Frame) (u : Datagram) (m : Welt), frameCarries s.chip f u → weltGood s.chip f u m → m.type = 1 →
    gives (.frameReceived f) s (fun d => (d.sess m.session).opens = (s.chip.sess m.session).opens ++ [m]
      ∧ regsBut [] s.chip d ∧ memKept s.chip d))
  ∧ (∀ (s : State) (f : Frame), s.chip.flag .hostport HOSTPORT.HP_STS_link_up = true → s.chip.serves = true →
    f.fcsOk = false →
    gives (.frameReceived f) s (fun d => d.bridge = s.chip.bridge
      ∧ regsBut [(.hostport, HOSTPORT.HP_COUNT_fcs_errors.pos)] s.chip d ∧ memKept s.chip d))
  ∧ (∀ (s : State) (enable : BitVec 8) (quanta : List (BitVec 16)),
    s.chip.flag .hostport HOSTPORT.HP_CTL_pfc_en = true →
    gives (.pfcFrame enable quanta) s (fun d => (∀ i < 8, Tab.find d.host.paused i =
        if enable.getLsbD i = true ∧ bitAt (s.chip.reg .hostport 0x130) i = true then
          (if (quanta.getD i 0).toNat = 0 then none else some (s.chip.now + (quanta.getD i 0).toNat))
        else Tab.find s.chip.host.paused i) ∧ regsBut [] s.chip d ∧ memKept s.chip d))
  ∧ (∀ (s : State) (p : Fin 8), s.chip.pausedNow p.val = false →
    gives (.pfcPauseExpiry p) s (fun d => Tab.find d.host.paused p.val = none
      ∧ onlyIn [.hostport, .hostbr] s.chip d ∧ memKept s.chip d))
  ∧ (∀ (s : State) (p : Fin 8), s.chip.host.xoffSent.contains p.val = true →
    s.chip.rxHeld (some p.val) < 1024 * s.chip.fld .hostport HOSTPORT.PFC_CTL_pfc_xon →
    gives (.pfcXon p) s (fun d => d.host.xoffSent.contains p.val = false ∧ d.host.lastOut = some (.pfc p.val false)
      ∧ regsBut [] s.chip d ∧ memKept s.chip d))
  ∧ (∀ s : State, s.chip.domOn 156 = true → s.chip.flag .hostport HOSTPORT.HP_CTL_enable = true →
    s.chip.flag .hostport HOSTPORT.HP_STS_link_up = false → s.chip.linksRun = true →
    gives .hostLinkUp s (fun d => d.flag .hostport HOSTPORT.HP_STS_link_up = true
      ∧ raised d .hostport HOSTPORT.ev_link_up ∧ onlyIn [.hostport, .hostbr] s.chip d ∧ memKept s.chip d))
  ∧ ∀ s : State, s.chip.flag .hostport HOSTPORT.HP_STS_link_up = true →
    gives .hostLinkDown s (fun d => d.flag .hostport HOSTPORT.HP_STS_link_up = false
      ∧ raised d .hostport HOSTPORT.ev_link_down ∧ onlyUnit .hostport s.chip d ∧ memKept s.chip d)

/-- The last message of a session answers a command with a status. -/
def replied (d : Chip) (k : Nat) (cmd : Welt) (st : Nat) : Prop :=
  ∃ w, ((d.sess k).unacked ++ (d.sess k).waiting).getLast? = some w ∧ w.type = (cmd.type + 0x80) % 256
    ∧ getBits w.w1 7 0 = st ∧ w.argB = cmd.seq

/-- R391, R392, R400: an OPEN restarts both directions and is answered; an acknowledgement frees the messages up to it;
a due ACK goes out; once `rto` has passed all that is unacknowledged leaves again with the current `ack`, and after
`retry_max` times the session, or the peer, is LOST;
`valid` 0 closes a session; a write to a peer's entry restarts its sequence spaces. -/
def Obligations.SessionsOpenCloseAndResend : Prop :=
  (∀ (s : State) (k : Sess) (m : Welt) (rest : List Welt), (s.chip.sess k.val).opens = m :: rest →
    gives (.open_ k) s (fun d => d.sessState k.val = 1 ∧ d.rxNext k.val = 1
      ∧ (d.sess k.val).epoch = (s.chip.sess k.val).epoch + 1 ∧ (d.sess k.val).opens = rest
      ∧ raised d .hostbr HOSTBR.ev_session_opened
      ∧ (∃ w ∈ (d.sess k.val).unacked ++ (d.sess k.val).waiting, w.type = (m.type + 0x80) % 256
          ∧ w.argA = s.chip.fuses.serial)
      ∧ onlyIn [.hostbr, .hostport] s.chip d ∧ memKept s.chip d))
  ∧ (∀ (s : State) (k : Sess) (m : Welt) (rest : List Welt), (s.chip.sess k.val).acks = m :: rest →
    let n := (BitVec.ofNat 32 m.ack - (s.chip.sess k.val).acked).toNat
    let left := (s.chip.sess k.val).unacked.drop n
    0 < n → n ≤ (s.chip.sess k.val).unacked.length →
    gives (.ack k) s (fun d => (d.sess k.val).acks = rest ∧ (d.sess k.val).acked = BitVec.ofNat 32 m.ack
      ∧ (d.sess k.val).retries = 0 ∧ (d.sess k.val).ackAt = s.chip.now
      ∧ (if m.nak then left.map (fun w => w.stamp w.seq ((s.chip.rxNext k.val + 2 ^ 32 - 1) % 2 ^ 32)) else left)
          <+: (d.sess k.val).unacked
      ∧ onlyIn [.hostbr, .hostport] s.chip d ∧ memKept s.chip d))
  ∧ (∀ (s : State) (k : Sess), (s.chip.sess k.val).unsaid ≠ 0 →
    let sc := s.chip.reg .hostbr (0x1000 + 0x40 * k.val)
    s.chip.canSend (getBits sc 61 59) (s.chip.frameBytes (bitAt sc 62) 0) = true →
    gives (.ackDelayTimeout k) s (fun d => (d.sess k.val).unsaid = 0
      ∧ (∃ w, (d.sess k.val).ackOut = some w ∧ w.type = 2 ∧ w.ack = (s.chip.rxNext k.val + 2 ^ 32 - 1) % 2 ^ 32)
      ∧ onlyUnit .hostport s.chip d ∧ memKept s.chip d))
  ∧ (∀ (s : State) (ix : Fin 256),
    let st := s.chip.sess (ix.val % 16)
    st.unacked ≠ [] → st.lost = false → s.chip.rtoPast st = true →
    (st.retries < s.chip.retryMax → gives (.weltResendTimeout false ix) s (fun d =>
      d.sess (ix.val % 16) = { st with retries := st.retries + 1 }.again
          ((s.chip.rxNext (ix.val % 16) + 2 ^ 32 - 1) % 2 ^ 32) s.chip.now
      ∧ onlyIn [.hostbr, .hostport] s.chip d ∧ memKept s.chip d))
    ∧ (s.chip.retryMax ≤ st.retries → gives (.weltResendTimeout false ix) s (fun d => d.sessState (ix.val % 16) = 2
      ∧ (d.sess (ix.val % 16)).unacked = [] ∧ (d.sess (ix.val % 16)).waiting = []
      ∧ raised d .hostbr HOSTBR.ev_session_lost ∧ onlyUnit .hostbr s.chip d
      ∧ memKept s.chip d)))
  ∧ (∀ (s : State) (ix : Fin 256),
    let st := s.chip.peer ix.val
    st.unacked ≠ [] → st.lost = false → s.chip.rtoPast st = true →
    (st.retries < s.chip.retryMax → gives (.weltResendTimeout true ix) s (fun d =>
      d.peer ix.val = { st with retries := st.retries + 1 }.again (st.rxNext - 1).toNat s.chip.now
      ∧ onlyIn [.hostbr, .hostport] s.chip d ∧ memKept s.chip d))
    ∧ (s.chip.retryMax ≤ st.retries →
      gives (.weltResendTimeout true ix) s (fun d => (d.peer ix.val).lost = true ∧ (d.peer ix.val).unacked = []
        ∧ (d.peer ix.val).waiting = [] ∧ d.fld .hostbr (HOSTBR.PEER_CTL_state.plus (0x20 * ix.val)) = 2
        ∧ raised d .hostbr HOSTBR.ev_peer_lost ∧ onlyUnit .hostbr s.chip d ∧ memKept s.chip d)))
  ∧ (∀ (s : State) (k : Sess) (v : Word), answers s.chip .hostbr → bitAt v 63 = false →
    gives (.sessionValidWrite k v) s (fun d => d.sessState k.val = 0 ∧ (d.sess k.val).opens = []
      ∧ (d.sess k.val).waiting = [] ∧ (d.sess k.val).unacked = [] ∧ onlyUnit .hostbr s.chip d ∧ memKept s.chip d))
  ∧ ∀ (s : State) (n : Fin 256) (word : Fin 4) (v : Word), answers s.chip .hostbr →
    (s.chip.plainWrite .hostbr (0x2000 + 0x20 * n.val + 8 * word.val) v).2 = false →
    gives (.peerEntryWrite n word v) s (fun d => d.peer n.val = {} ∧ onlyUnit .hostbr s.chip d ∧ memKept s.chip d)

/-! ### Commands of the driver -/

/-- The command at the head of an OPEN session, accepted under its present OPEN; the session is served next (R393). -/
abbrev atHead (c : Chip) (k : Sess) (m : Welt) (rest : List (Welt × Nat × Nat)) : Prop :=
  (c.sess k.val).cmds.head?.map (fun x => (x.1, x.2.1)) = some (m, (c.sess k.val).epoch) ∧ (c.sess k.val).cmds.tail = rest
    ∧ c.sessState k.val = 1 ∧ c.nextSess = some k.val

/-- A batch of one entry that writes `v` to a register of a unit whose fields have only their access types' effects. -/
abbrev writesOne (c : Chip) (l : List Byte) (u : UnitId) (pos : Nat) (v : Word) : Prop :=
  let addr := BitVec.ofNat 40 (leNat (l.take 8))
  plainUnit u = true ∧ 0x100 ≤ pos ∧ reaches c addr u pos
    ∧ l = wordBytes (BitVec.ofNat 64 (addr.toNat + 2 ^ 40)) ++ wordBytes v

/-- R393 to R397: a batch of the session served next writes its registers by their access types and is answered; a batch
with `at` waits for offset 32 of its course's boundary, the earliest due goes first, and a late one is refused; MEM_WRITE
stores its payload and nothing else, MEM_READ returns what is stored;
PROGRAM_LOAD writes a cell image to every cell of its mask and to its shadow. -/
def Obligations.BatchesBulkMemoryAndLoads : Prop :=
  (∀ (s : State) (k : Sess) (m : Welt) (rest : List (Welt × Nat × Nat)) (u : UnitId) (pos : Nat) (v : Word),
    atHead s.chip k m rest → m.type = 0x10 → m.at = false → writesOne s.chip m.payload u pos v →
    gives (.regBatch k) s (fun d =>
      d.reg u pos = writeWord (unitType u) pos (s.chip.held u) (s.chip.reg u pos) v ∧ replied d k.val m 0
      ∧ (d.sess k.val).cmds = rest ∧ onlyIn [u, .hostbr, .hostport] s.chip d ∧ memKept s.chip d))
  ∧ (∀ (s : State) (k : Sess) (m : Welt) (rest : List (Welt × Nat × Nat)), atHead s.chip k m rest → m.type = 0x10 →
    m.at = true → batchFormed m.payload = true →
    (s.chip.lateFor (getBits m.argA 47 0) = true →
      gives (.regBatch k) s (fun d => raised d .course COURSE.ev_late_schedule ∧ replied d k.val m 8
        ∧ onlyIn [.course, .hostbr, .hostport] s.chip d ∧ memKept s.chip d))
    ∧ (s.chip.lateFor (getBits m.argA 47 0) = false → s.chip.bridge.scheds.length < 16 →
      gives (.regBatch k) s (fun d => d.bridge.scheds = s.chip.bridge.scheds
          ++ [⟨k.val, (s.chip.sess k.val).epoch, getBits m.argA 47 0, m⟩]
        ∧ (d.sess k.val).cmds = rest ∧ regsBut [] s.chip d ∧ memKept s.chip d)))
  ∧ (∀ (s : State) (e : Sched) (u : UnitId) (pos : Nat) (v : Word),
    let due := s.chip.bridge.scheds.filter s.chip.schedDue
    due.find? (fun e => due.all (fun x => !courseBefore x.course e.course)) = some e →
    (s.chip.sess e.session).epoch = e.epoch → s.chip.sessState e.session = 1 → writesOne s.chip e.msg.payload u pos v →
    gives .scheduledBatch s (fun d =>
      d.reg u pos = writeWord (unitType u) pos (s.chip.held u) (s.chip.reg u pos) v ∧ replied d e.session e.msg 0
      ∧ d.bridge.scheds = s.chip.bridge.scheds.erase e ∧ onlyIn [u, .hostbr, .hostport] s.chip d ∧ memKept s.chip d))
  ∧ (∀ (s : State) (k : Sess) (m : Welt) (rest : List (Welt × Nat × Nat)) (t : MemTarget) (sp : Space) (o : Nat),
    atHead s.chip k m rest → m.type = 0x20 → m.argB = m.payload.length → m.payload.length ≤ 8192 →
    (s.chip.memTarget m).toOption = some t → t.place = .loc sp o →
    gives (.memWrite k) s (fun d => d.load sp o m.payload.length = m.payload
      ∧ (∀ a, a < sp.base + o ∨ sp.base + o + m.payload.length ≤ a → memRead d.mem a = memRead s.chip.mem a)
      ∧ replied d k.val m 0 ∧ (d.sess k.val).cmds = rest ∧ onlyIn [.hostbr, .hostport] s.chip d))
  ∧ (∀ (s : State) (k : Sess) (m : Welt) (rest : List (Welt × Nat × Nat)) (t : MemTarget) (r : Region) (o : Nat),
    atHead s.chip k m rest → m.type = 0x20 → m.argB = m.payload.length → m.payload.length ≤ 8192 →
    (s.chip.memTarget m).toOption = some t → t.place = .far r o → t.waits s.chip = false → s.chip.dirKeys r = [] →
    s.chip.writableBytes t.place m.payload.length = m.payload.length →
    let sp := Space.lintel r.val
    gives (.memWrite k) s (fun d => d.load sp o m.payload.length = m.payload
      ∧ (∀ a, a < sp.base + o ∨ sp.base + o + m.payload.length ≤ a → memRead d.mem a = memRead s.chip.mem a)
      ∧ replied d k.val m 0 ∧ (d.sess k.val).cmds = rest))
  ∧ (∀ (s : State) (k : Sess) (m : Welt) (rest : List (Welt × Nat × Nat)) (t : MemTarget) (sp : Space) (o : Nat)
      (r : Region) (b : BlockIx), atHead s.chip k m rest → m.type = 0x21 → m.argB ≤ 8192 → (s.chip.memTarget m).toOption = some t →
    t.place = .loc sp o → t.block = some (r, b) → s.chip.powered (.cblk r b) = true →
    s.chip.goodBytes t.place m.argB = m.argB →
    gives (.memRead k) s (fun d =>
      (∃ w, ((d.sess k.val).unacked ++ (d.sess k.val).waiting).getLast? = some w ∧ w.payload = s.chip.load sp o m.argB)
      ∧ replied d k.val m 0 ∧ (d.sess k.val).cmds = rest ∧ onlyIn [.hostbr, .hostport] s.chip d ∧ memKept s.chip d))
  ∧ (∀ (s : State) (k : Sess) (m : Welt) (rest : List (Welt × Nat × Nat)) (x : Sheas), atHead s.chip k m rest →
    m.type = 0x30 → sheasSections (m.payload.length / 32 + 1) m.payload = [x] → s.chip.sheasStatus [x] x = 0 → x.kind = 0 →
    gives (.programLoad k) s (fun d =>
      (∀ l ∈ maskCells x.mask,
        d.load (.imem x.reg.val x.blk.val (s.chip.physCell x.reg x.blk l)) x.target x.data.length = x.data
        ∧ d.load (.shadow x.reg.val x.blk.val l) x.target x.data.length = x.data)
      ∧ (∀ a, (∀ l ∈ maskCells x.mask,
            ∀ sp ∈ [Space.imem x.reg.val x.blk.val (s.chip.physCell x.reg x.blk l), .shadow x.reg.val x.blk.val l],
              a < sp.base + x.target ∨ sp.base + x.target + x.data.length ≤ a) →
          memRead d.mem a = memRead s.chip.mem a)
      ∧ replied d k.val m 0 ∧ (d.sess k.val).cmds = rest ∧ onlyIn [.cblk x.reg x.blk, .hostbr, .hostport] s.chip d))
  ∧ ∀ (s : State) (k : Sess) (m : Welt) (rest : List (Welt × Nat × Nat)) (x : Sheas), atHead s.chip k m rest →
    m.type = 0x30 → sheasSections (m.payload.length / 32 + 1) m.payload = [x] → s.chip.sheasStatus [x] x ≠ 0 →
    gives (.programLoad k) s (fun d => replied d k.val m (s.chip.sheasStatus [x] x)
      ∧ onlyIn [.hostbr, .hostport] s.chip d ∧ memKept s.chip d)

/-- R177, R398: an accepted JOB_ASSIGN holds its units for the job; JOB_RELEASE ends their work and, once their
work queues are empty and their teardowns and rebuilds done, no unit is held by the job any more and the release is answered;
JOB_TEARDOWN starts at the next boundary in
every region whose FABMEM the job holds. What a release does with the job's work is read by inference (log 244,
DEDUCED). -/
def Obligations.JobsHoldTheirUnits : Prop :=
  (∀ (s : State) (k : Sess) (m : Welt) (rest : List (Welt × Nat × Nat)), atHead s.chip k m rest → m.type = 0x40 →
    let p := m.payload
    let addrs := (List.range ((p.length - 16) / 8)).map (fun i => leAt p (16 + 8 * i) 8)
    16 ≤ p.length → p.length % 8 = 0 → addrs ≠ [] → s.chip.fld .boot BOOT.BOOT_STS_state = 8 →
    s.chip.course.tick ≠ .acquire →
    s.chip.assignStatus m addrs (bitAt (wordAt p 0) 0) (getBits (wordAt p 0) 9 8) (wordAt p 8) = 0 →
    gives (.jobAssign k) s (fun d => (∀ a ∈ addrs, Tab.find d.bridge.holds a = some m.job)
      ∧ (∀ u, s.chip.held u = true → d.held u = true) ∧ replied d k.val m 0 ∧ (d.sess k.val).cmds = rest))
  ∧ (∀ (s : State) (k : Sess) (m : Welt) (rest : List (Welt × Nat × Nat)) (j : Job), atHead s.chip k m rest →
    m.type = 0x41 → s.chip.jobOf m.job = some j → s.chip.jobBusy m.job = false → s.chip.jobUnits m.job ≠ [] →
    gives (.jobRelease k) s (fun d =>
      (∃ j', d.jobOf m.job = some j' ∧ j'.releasing = some (k.val, m.seq, (s.chip.sess k.val).epoch))
      ∧ (∀ r b, UnitId.cblk r b ∈ s.chip.jobUnits m.job → ((s.chip.blk r b).wq.map (·.n)).Nodup →
          ∀ x ∈ (d.blk r b).wq, x.state = .done)
      ∧ (∀ r, UnitId.mortar r ∈ s.chip.jobUnits m.job → (∀ e ∈ (d.mort r).groups, e.2.insts = []) ∧ (d.mort r).ctxs = [])
      ∧ d.bridge.holds = s.chip.bridge.holds))
  ∧ (∀ (s : State) (job : BitVec 16) (j : Job) (k : Sess) (seq : Nat), s.chip.jobOf job.toNat = some j →
    j.releasing = some (k.val, seq, (s.chip.sess k.val).epoch) →
    s.chip.sessState k.val = 1 →
    (∀ r b, UnitId.cblk r b ∈ s.chip.jobUnits job.toNat → (s.chip.blk r b).wq = []) →
    (∀ r, UnitId.fabmem r ∈ s.chip.jobUnits job.toNat → ∀ t, (s.chip.fab r).tearing = some t → t.2.2 = true) →
    (∀ r, UnitId.cobbler r ∈ s.chip.jobUnits job.toNat → j.rebuilt = true ∧ (s.chip.cob r).rebuilding = []) →
    gives (.releaseComplete job) s (fun d => (∀ e ∈ d.bridge.holds, e.2 ≠ job.toNat) ∧ d.jobOf job.toNat = none
      ∧ replied d k.val (lateReply 0x41 k.val job.toNat seq) 0))
  ∧ ∀ (s : State) (k : Sess) (m : Welt) (rest : List (Welt × Nat × Nat)) (j : Job) (r0 : Region),
    atHead s.chip k m rest → m.type = 0x42 → s.chip.jobOf m.job = some j → s.chip.jobBusy m.job = false →
    UnitId.fabmem r0 ∈ s.chip.jobUnits m.job →
    gives (.jobTeardown k) s (fun d =>
      (∀ r, UnitId.fabmem r ∈ s.chip.jobUnits m.job →
        (d.fab r).tearing = some (m.job, s.chip.courseCount + 1, false))
      ∧ (∃ j', d.jobOf m.job = some j' ∧ j'.tearing = some (k.val, m.seq, (s.chip.sess k.val).epoch))
      ∧ onlyIn [.hostbr, .hostport] s.chip d ∧ memKept s.chip d)

/-- R399: FABRIC_SEND's packet joins the arrivals of region endpoint input 19, its payload cut to its `len`; a RESULT, or
another packet for the host, that a channel of the region takes next leaves it as the scheduler starts it (R135) and goes to
the OPEN event session; while that is CLOSED it is discarded with `recv_discard`. -/
def Obligations.FabricTrafficToAndFromTheHost : Prop :=
  (∀ (s : State) (k : Sess) (m : Welt) (rest : List (Welt × Nat × Nat)), atHead s.chip k m rest → m.type = 0x50 →
    let r := regionOf (getBits m.argA 1 0)
    let p := Packet.ofBytes m.payload
    32 ≤ m.payload.length → m.payload.length ≤ 8224 → (p.kind = 0 ∨ p.kind = 4 ∨ p.kind = 6) →
    s.chip.inReset r = false →
    gives (.fabricSend k) s (fun d => Tab.get (d.xbar r).arrivals 19 [] = Tab.get (s.chip.xbar r).arrivals 19 []
        ++ [{ pkt := { p with payload := p.payload.take p.len },
              badFrame := decide (m.payload.length ≠ 32 + p.len) && decide (m.payload.length ≠ 32 + roundUp p.len 16),
              reply := some (k.val, (s.chip.sess k.val).epoch, m) }]
      ∧ (d.sess k.val).cmds = rest ∧ onlyUnit .hostbr s.chip d ∧ memKept s.chip d))
  ∧ (∀ (s : State) (r : Region) (result : Bool) (q : Nat) (st : Staged), s.chip.partStep r = 0 →
    s.chip.hostHead r (fun p => if result then decide (p.kind = 5) else decide (p.kind ≠ 5)) = some (q, st) →
    let k := s.chip.eventSession
    let p := st.out
    p.crc = p.crcOf →
    let cmd := if result then Instr.resultMessage r else .recv r
    (s.chip.sessState k = 1 → gives cmd s (fun d =>
      (∃ w, ((d.sess k).unacked ++ (d.sess k).waiting).getLast? = some w
        ∧ w.type = (if result then 0x0A else 0x0B) ∧ w.payload = p.bytes)
      ∧ d.xbars = (s.chip.schedStart r (16 + q) st).xbars ∧ onlyIn [.xbar r, .hostbr, .hostport] s.chip d
      ∧ memKept s.chip d))
    ∧ (s.chip.sessState k = 0 → gives cmd s (fun d => raised d .hostbr HOSTBR.ev_recv_discard
      ∧ d.xbars = (s.chip.schedStart r (16 + q) st).xbars ∧ onlyIn [.xbar r, .hostbr] s.chip d ∧ memKept s.chip d)))

/-! ### Images and security -/

/-- The command begins flash operations: its reply waits for them (R463). -/
def flashBegun (c d : Chip) (k : Sess) (m : Welt) (ops : List FlashOp) : Prop :=
  d.flashOps = c.flashOps ++ ops ∧ d.flashReply = some (k.val, (c.sess k.val).epoch, m) ∧ d.flash = c.flash

/-- R463 to R467, R494: BEGIN opens a transfer into the slot that is not booted, erases it and withdraws it in the
record; CHUNK adds section bytes in order; COMMIT of a whole full image programs its header and the record's
PENDING; ABORT, `xfer_timeout` and a failed flash operation end a transfer and leave its target without a header; CONFIRM in a
trial boot writes CONFIRMED; a command is answered
when its last flash operation completes, and with FLASH when one does not. -/
def Obligations.ImagesAreTransferred : Prop :=
  (∀ (s : State) (k : Sess) (m : Welt) (rest : List (Welt × Nat × Nat)), atHead s.chip k m rest → imageOp 1 m = true →
    s.chip.flashReply = none → s.chip.xfer = none → s.chip.flag .boot BOOT.BOOT_STS_trial = false → m.payload.length = 4096 →
    leAt m.payload 6 1 ≠ 1 → (if s.chip.card then hdrFormed m.payload = true else s.chip.hdrStatus m.payload = 0) →
    let t := !s.chip.bootedSlot
    let (a, b, n) := match s.chip.record with | some r => (r.a, r.b, r.attempts) | none => (0, 0, 0)
    gives (.begin_ k) s (fun d =>
      d.xfer = some { session := k.val, target := t, delta := false, header := m.payload, head := m.payload }
      ∧ flashBegun s.chip d k m (s.chip.recordOps (if t then a else 0) (if t then 0 else b) n
          ++ [.erase (slotBase t) 0x01000000])
      ∧ (d.sess k.val).cmds = rest ∧ regsBut [(.boot, 0x178), (.hostbr, 0x80)] s.chip d ∧ memKept s.chip d))
  ∧ (∀ (s : State) (k : Sess) (m : Welt) (rest : List (Welt × Nat × Nat)) (x : Xfer), atHead s.chip k m rest →
    imageOp 2 m = true → s.chip.flashReply = none →
    s.chip.xfer = some x → x.session = k.val → x.delta = false → m.payload.length ≤ 8192 →
    4096 + x.received + m.payload.length ≤ leAt x.header 8 4 → getBits m.argA 63 32 = x.received →
    (s.chip.card = true ∨ endedSections x.header x.received (x.received + m.payload.length) = []) →
    gives (.chunk k) s (fun d => d.xfer = some { x with received := x.received + m.payload.length }
      ∧ flashBegun s.chip d k m [.program (slotBase x.target + 4096 + x.received) m.payload]
      ∧ (d.sess k.val).cmds = rest ∧ regsBut [(.boot, 0x178), (.hostbr, 0x80)] s.chip d ∧ memKept s.chip d))
  ∧ (∀ (s : State) (k : Sess) (m : Welt) (rest : List (Welt × Nat × Nat)) (x : Xfer), atHead s.chip k m rest →
    imageOp 3 m = true → s.chip.flashReply = none → s.chip.xfer = some x → x.session = k.val → x.delta = false →
    4096 + x.received = leAt x.header 8 4 →
    let (a, b) := match s.chip.record with | some r => (r.a, r.b) | none => (0, 0)
    gives (.commit k) s (fun d =>
      flashBegun s.chip d k m ([.program (slotBase x.target) x.head]
          ++ s.chip.recordOps (if x.target then a else 1) (if x.target then 1 else b) 0)
      ∧ (d.sess k.val).cmds = rest ∧ regsBut [(.hostbr, 0x80)] s.chip d ∧ memKept s.chip d))
  ∧ (∀ (s : State) (k : Sess) (m : Welt) (rest : List (Welt × Nat × Nat)) (x : Xfer), atHead s.chip k m rest →
    imageOp 4 m = true → s.chip.flashReply = none → s.chip.xfer = some x → x.session = k.val →
    gives (.imageAbort k) s (fun d => d.xfer = none ∧ d.flash = s.chip.targetEmptied.flash
      ∧ replied d k.val m 0 ∧ (d.sess k.val).cmds = rest
      ∧ onlyIn [.boot, .hostbr, .hostport] s.chip d ∧ memKept s.chip d))
  ∧ (∀ (s : State) (k : Sess) (m : Welt) (rest : List (Welt × Nat × Nat)), atHead s.chip k m rest →
    imageOp 5 m = true → s.chip.flashReply = none → s.chip.flag .boot BOOT.BOOT_STS_trial = true →
    gives (.confirm k) s (fun d =>
      flashBegun s.chip d k m (if s.chip.bootedSlot then s.chip.recordOps 3 2 0 else s.chip.recordOps 2 3 0)
      ∧ (d.sess k.val).cmds = rest ∧ regsBut [(.hostbr, 0x80)] s.chip d ∧ memKept s.chip d))
  ∧ (∀ (s : State) (k : Sess) (m : Welt) (rest : List (Welt × Nat × Nat)), atHead s.chip k m rest →
    imageOp 6 m = true →
    gives (.imageStatus k) s (fun d => replied d k.val m 0 ∧ (d.sess k.val).cmds = rest ∧ d.xfer = s.chip.xfer
      ∧ onlyIn [.hostbr, .hostport] s.chip d ∧ memKept s.chip d))
  ∧ (∀ s : State, s.chip.xfer.isSome = true → s.chip.flashReply = none →
    gives .imageXferTimeout s (fun d => d.xfer = none ∧ d.flashOps = [] ∧ d.flash = s.chip.targetEmptied.flash
      ∧ raised d .boot BOOT.ev_image_rejected
      ∧ onlyUnit .boot s.chip d ∧ memKept s.chip d))
  ∧ (∀ (s : State) (k : Sess) (m : Welt) (op : FlashOp), s.chip.flashOps = [op] →
    s.chip.flashReply = some (k.val, (s.chip.sess k.val).epoch, m) → s.chip.sessState k.val = 1 →
    gives (.flashPoll true) s (fun d => d.flash = (s.chip.flashDo op).flash ∧ d.flashOps = [] ∧ replied d k.val m 0
      ∧ onlyIn [.boot, .hostbr, .hostport] s.chip d ∧ memKept s.chip d))
  ∧ ∀ (s : State) (k : Sess) (m : Welt), s.chip.flashOps ≠ [] →
    s.chip.flashReply = some (k.val, (s.chip.sess k.val).epoch, m) → s.chip.sessState k.val = 1 →
    gives (.flashPoll false) s (fun d => d.flash = s.chip.targetEmptied.flash ∧ d.flashOps = [] ∧ d.xfer = none
      ∧ replied d k.val m 74 ∧ onlyIn [.boot, .hostbr, .hostport] s.chip d ∧ memKept s.chip d)

/-- R472, R473: ATTEST returns the report with the caller's nonce and a signature over it; CHALLENGE opens a challenge;
a token consumes it, opens exactly the scopes it names when every check passes, and else is refused with the check's
status; RELOCK closes both scopes; the nonce expires. -/
def Obligations.ChallengesTokensAndAttestation : Prop :=
  (∀ (s : State) (k : Sess) (m : Welt) (rest : List (Welt × Nat × Nat)), atHead s.chip k m rest → m.type = 0x61 →
    m.payload.length = 48 →
    gives (.attest k) s (fun d => replied d k.val m 0 ∧ (d.sess k.val).cmds = rest
      ∧ (∃ w sig, ((d.sess k.val).unacked ++ (d.sess k.val).waiting).getLast? = some w
          ∧ w.payload = s.chip.report m.payload ++ sig ∧ sig.length = 96)
      ∧ onlyIn [.security, .hostbr, .hostport] s.chip d ∧ memKept s.chip d))
  ∧ (∀ (s : State) (k : Sess) (m : Welt) (rest : List (Welt × Nat × Nat)), atHead s.chip k m rest → m.type = 0x62 →
    getBits m.argA 7 0 = 1 →
    gives (.challenge k) s (fun d => replied d k.val m 0 ∧ d.fld .security SECURITY.SEC_STS_challenge = 1
      ∧ (∃ n w, d.sec.nonce = some n ∧ ((d.sess k.val).unacked ++ (d.sess k.val).waiting).getLast? = some w
          ∧ w.payload = digestBytes n)
      ∧ (d.sess k.val).cmds = rest ∧ onlyIn [.security, .hostbr, .hostport] s.chip d ∧ memKept s.chip d))
  ∧ (∀ (s : State) (k : Sess) (m : Welt) (rest : List (Welt × Nat × Nat)), atHead s.chip k m rest → m.type = 0x62 →
    getBits m.argA 7 0 = 2 →
    let st := s.chip.tokenStatus m.payload
    let scope := leAt m.payload 5 1
    gives (.token k) s (fun d => d.sec.nonce = none ∧ d.fld .security SECURITY.SEC_STS_challenge = 0
      ∧ replied d k.val m st
      ∧ d.fld .security SECURITY.SEC_STS_debug_open = (if st = 0 ∧ scope % 2 = 1 then 1
          else s.chip.fld .security SECURITY.SEC_STS_debug_open)
      ∧ d.fld .security SECURITY.SEC_STS_jtag_open = (if st = 0 ∧ scope / 2 % 2 = 1 then 1
          else s.chip.fld .security SECURITY.SEC_STS_jtag_open)
      ∧ raised d .security (if st = 0 then SECURITY.ev_debug_unlocked else SECURITY.ev_unlock_refused)
      ∧ onlyIn [.security, .hostbr, .hostport] s.chip d ∧ memKept s.chip d))
  ∧ (∀ (s : State) (k : Sess) (m : Welt) (rest : List (Welt × Nat × Nat)), atHead s.chip k m rest → m.type = 0x62 →
    getBits m.argA 7 0 = 3 →
    gives (.relock k) s (fun d => d.fld .security SECURITY.SEC_STS_debug_open = 0
      ∧ d.fld .security SECURITY.SEC_STS_jtag_open = 0 ∧ raised d .security SECURITY.ev_relocked ∧ replied d k.val m 0
      ∧ onlyIn [.security, .hostbr, .hostport] s.chip d ∧ memKept s.chip d))
  ∧ ∀ s : State, gives .nonceExpiry s (fun d => d.sec.nonce = none ∧ d.fld .security SECURITY.SEC_STS_challenge = 0
      ∧ regsBut [(.security, SECURITY.SEC_STS_challenge.pos)] s.chip d ∧ memKept s.chip d)

/-! ### Faults, partitions and repointing -/

/-- R405, R406, R415 to R418: an error of region logic, a stall and `reset_now` start the partition sequence; its reset
clears the region's memories, its fourth loads the declaration and its last ends it; a region that resumes after its capture
takes the declaration too; fail silent takes every link down. A corrected error of region logic is only counted and raised.
Which steps count as in partition reset, and that a region takes a declaration as it resumes, are the model's choices
(log 223). -/
def Obligations.FaultsResetARegion : Prop :=
  (∀ (s : State) (u : UnitId) (r : Region), unitRegion u = some r → s.chip.partStep r = 0 →
    gives (.logicUe u false) s (fun d => d.partStep r = 1 ∧ raised d u evErrUncorrected
      ∧ raised d (.region r) REGION.ev_logic_ue ∧ onlyIn [u, .region r, .repoint] s.chip d ∧ memKept s.chip d)
    ∧ gives (.logicUe u true) s (fun d => raised d u evErrCorrected ∧ onlyUnit u s.chip d ∧ memKept s.chip d))
  ∧ (∀ s : State, s.chip.boot.failSilent = false →
    gives .failSilent s (fun d => d.boot.failSilent = true ∧ (∀ p, d.linked p = false)
      ∧ d.flag .hostport HOSTPORT.HP_STS_link_up = false ∧ raised d .chip evErrUncorrected ∧ memKept s.chip d))
  ∧ (∀ (s : State) (u : UnitId) (last n : Nat), hasProgress (unitType u) = true → s.chip.present u = true →
    bitAt (s.chip.reg u 0x88) 63 = true → bitAt (s.chip.reg u 0x80) 63 = true →
    Tab.find s.chip.repoint.watch (unitKey u) = some (last, n, false) → s.chip.watchWindow u ≤ n →
    (∀ r, unitRegion u = some r → s.chip.partStep r = 0) →
    gives (.progressStall u) s (fun d => raised d u evProgressStall
      ∧ Tab.find d.repoint.watch (unitKey u) = some (last, n, true)
      ∧ (∀ r, unitRegion u = some r → d.partStep r
          = if s.chip.fld (.region r) REGION.PART_CTL_hang_action = 0 then 0 else 1)
      ∧ memKept s.chip d))
  ∧ (∀ (s : State) (r : Region), answers s.chip (.region r) → s.chip.partStep r = 0 →
    gives (.resetNow r) s (fun d => d.partStep r = 1 ∧ raised d (.region r) REGION.ev_hang
      ∧ onlyIn [.region r, .repoint] s.chip d ∧ memKept s.chip d))
  ∧ (∀ (s : State) (r : Region), s.chip.partStep r = 2 → s.chip.streaming r = true →
    gives (.captureStreamCutoff r) s (fun d => d.streaming r = false ∧ raised d .repoint REPOINT.ev_capture_truncated
      ∧ regsBut [(.repoint, 0x20), (.repoint, 0x38)] s.chip d ∧ memKept s.chip d))
  ∧ (∀ (s : State) (r : Region), s.chip.partStep r = 1 → (s.chip.part r).capture = false →
    gives (.partitionStepDone r) s (fun d => d.partStep r = 3 ∧ raised d .repoint REPOINT.ev_partition_reset
      ∧ (∀ k, keyInRegion r k = true → memRead d.mem k = memDefault)
      ∧ (∀ k, keyInRegion r k = false → memRead d.mem k = memRead s.chip.mem k)
      ∧ (∀ u, unitScope u = r.val → d.held u = false)))
  ∧ (∀ (s : State) (r : Region), s.chip.partStep r = 2 → s.chip.streaming r = false → (s.chip.part r).full = false →
    gives (.partitionStepDone r) s (fun d => d.partStep r = 0 ∧ raised d .repoint REPOINT.ev_capture_done
      ∧ d.reg (.fabmem r) 0x140 = s.chip.declaredOr 0x008
      ∧ ((s.chip.fab r).ledger = [] → s.chip.reg (.fabmem r) 0x140 = s.chip.declaredOr 0x008 →
          (∀ k < 64, s.chip.reg (.mortar r) (0x200 + 8 * k) = s.chip.declaredOr (0x040 + 8 * k)) →
          onlyUnit .repoint s.chip d ∧ memKept s.chip d)))
  ∧ (∀ (s : State) (r : Region), s.chip.partStep r = 3 →
    gives (.partitionStepDone r) s (fun d => d.partStep r = 4 ∧ d.reg (.fabmem r) 0x140 = s.chip.declaredOr 0x008))
  ∧ ∀ (s : State) (r : Region), s.chip.partStep r = 5 →
    gives (.partitionStepDone r) s (fun d => d.partStep r = 0
      ∧ (∀ b, s.chip.domOn (16 * r.val + b.val) = true → s.chip.present (.cblk r b) = true →
          d.flag (.cblk r b) readyFld = true)
      ∧ memKept s.chip d)

/-- One accepted request, of a sub-bank whose spare is free and that holds no cell, in a region that runs. -/
abbrev subbankAlone (c : Chip) (r : Region) (i : Fin 4) (n : Fin 16) (q : RepointReq) : Prop :=
  c.repoint.queue = [q] ∧ c.repoint.waiting = [] ∧ q.elem = .subbank r i n ∧ c.partStep r = 0
    ∧ c.atBoundary = true ∧ c.repoint.acted.contains (.bufbank r i) = false ∧ (c.xbar r).subUsed i.val n.val = 0
      ∧ c.spareFree (.subbank r i n) = true ∧ c.logFull = false

/-- The spare has taken the sub-bank's place, and the commit is logged. -/
def subbankSpared (c d : Chip) (r : Region) (i : Fin 4) (n : Fin 16) (q : RepointReq) : Prop :=
  d.fld (.bufbank r i) BUFBANK.BANK_STS_spare_for = n.val ∧ raised d (.bufbank r i) BUFBANK.ev_spare_used
    ∧ raised d .repoint REPOINT.ev_repointed ∧ d.repoint.queue = [] ∧ d.repoint.log = c.repoint.log ++ [c.logWord q]
    ∧ onlyIn [.bufbank r i, .repoint] c d ∧ memKept c d

/-- R411 to R414: a hard request and, where proactive repointing is on and there is room, a proactive one join the
queue; at a boundary a request whose sub-bank is empty commits, once per unit: the spare serves and the log keeps it;
a wear window ends with fresh counts; a proactive sub-bank request that has waited 256 courses is dropped. -/
def Obligations.RequestsAreQueuedAndCommit : Prop :=
  (∀ (s : State) (e : Element), mayAsk s.chip e →
    gives (.repointRequest e true) s (fun d => askedOnce s.chip d e ∧ onlyUnit .repoint s.chip d ∧ memKept s.chip d))
  ∧ (∀ (s : State) (e : Element), mayAsk s.chip e → s.chip.flag .repoint REPOINT.RP_CTL_proactive_en = true →
    s.chip.repoint.queue.any (fun q => q.elem = e) = false → s.chip.logFull = false →
    gives (.repointRequest e false) s (fun d =>
      d.repoint.queue = s.chip.repoint.queue ++ [⟨e, false, s.chip.now, s.chip.courseCount, false⟩]
      ∧ onlyUnit .repoint s.chip d ∧ memKept s.chip d))
  ∧ (∀ (s : State) (r : Region) (i : Fin 4) (n : Fin 16) (q : RepointReq), subbankAlone s.chip r i n q →
    gives .repointCommit s (fun d => subbankSpared s.chip d r i n q)
    ∧ gives (.subbankTakeover r i) s (fun d => subbankSpared s.chip d r i n q))
  ∧ (∀ (s : State) (rings : List (Fin 64 × Fin 9 × Nat)), 4096 ≤ s.chip.since s.chip.repoint.windowAt →
    gives (.wearWindowEnd rings) s (fun d => d.repoint.windowAt = s.chip.courseCount ∧ d.repoint.wireWear = []
      ∧ (∀ k, (d.memS k).pcWear = [])
      ∧ (s.chip.flag .repoint REPOINT.RP_CTL_proactive_en = false → d.repoint.queue = s.chip.repoint.queue)
      ∧ onlyUnit .repoint s.chip d ∧ memKept s.chip d))
  ∧ ∀ (s : State) (r : Region) (i : Fin 4) (n : Fin 16) (q : RepointReq), q ∈ s.chip.repoint.queue → q.hard = false →
    q.elem = .subbank r i n → 256 ≤ s.chip.since q.course →
    gives (.subbankSpareTimeout r i) s (fun d => q ∉ d.repoint.queue
      ∧ (∀ x ∈ s.chip.repoint.queue, x.hard = true → x ∈ d.repoint.queue) ∧ onlyUnit .repoint s.chip d ∧ memKept s.chip d)

/-! ### Plumb -/

/-- A PLUMB flit of this pod and round, the next in sequence on an ACTIVE peer link of an active Pysum (R423). -/
abbrev plumbFlit (c : Chip) (p : Port) (h : Word) (l : List Byte) (msg : Nat) : Prop :=
  c.portState p = 7 ∧ hears c p ∧ c.portRole p = 2 ∧ c.plumb.opened = true ∧ (c.port p).classify (hdrSeq h) = .accept
    ∧ leAt l 0 1 = msg
    ∧ leAt l 3 1 % 32 = c.fld .chip CHIP.POSITION_pod_id ∧ leAt l 4 6 = c.plumb.round ∧ c.plumbActive = true

/-- R421 to R426: a domain whose links are all down is viewed as down once `hold` courses have passed; the coordinator
keeps the REPORTs of the round's first half and, from its half on, ends it with its decision; an accepted DECIDE of a new
epoch waits for the next boundary,
where its mask is declared and LOST_MAP loaded; missed rounds move the coordinator; RESTORE keeps what is asked for.
That an idle port counts as up is read by inference (log 60, DEDUCED). -/
def Obligations.PlumbAgreesOnWhatIsLost : Prop :=
  (∀ (s : State) (k : Fin 64) (n : Nat), s.chip.domValid k.val = true →
    bitAt (s.chip.domReg k.val 0x008) s.chip.pysum = false → s.chip.flag .plumb PLUMB.PLUMB_CTL_enable = true →
    (∀ l ∈ s.chip.domLinks k.val, s.chip.linkLive l = false) →
    (∃ l ∈ s.chip.domLinks k.val, l ∈ Tab.get s.chip.plumb.seen k.val []) →
    Tab.find s.chip.plumb.downFrom k.val = some n →
    gives (.viewHoldExpiry k) s (fun d =>
      getBits (d.reg .plumb (0x120 + 8 * (k.val / 32))) (2 * (k.val % 32) + 1) (2 * (k.val % 32))
        = (if s.chip.holdCourses ≤ s.chip.since n then 3 else 2)
      ∧ regsBut [(.plumb, 0x120 + 8 * (k.val / 32))] s.chip d ∧ memKept s.chip d))
  ∧ (∀ (s : State) (p : Port) (h : Word) (l : List Byte), plumbFlit s.chip p h l 1 → s.chip.coordinator = s.chip.pysum →
    2 * s.chip.phase ≤ s.chip.courseCycles →
    gives (.report p h l) s (fun d => Tab.find d.plumb.reports (leAt l 1 1 % 64)
        = some ⟨leAt l 14 4, BitVec.ofNat 128 (leAt l 24 16), wordAt l 40⟩
      ∧ onlyUnit (.port p) s.chip d ∧ memKept s.chip d))
  ∧ (∀ s : State, s.chip.coordinator = s.chip.pysum → s.chip.plumb.decided = false →
    s.chip.plumb.opened = true → s.chip.halfPast = true →
    gives .decideSend s (fun d => d.plumb.decided = true ∧ d.plumb.misses = 0
      ∧ (s.chip.evaluate.2 ≠ s.chip.evaluate.1.reg .plumb 0x118 →
          d.plumb.next = some ((s.chip.fld .plumb PLUMB.PLUMB_STS_epoch + 1) % 2 ^ 32, s.chip.evaluate.2, s.chip.courseCount))
      ∧ memKept s.chip d))
  ∧ (∀ (s : State) (p : Port) (h : Word) (l : List Byte), plumbFlit s.chip p h l 2 → leAt l 2 1 ≠ 0 →
    leAt l 1 1 % 64 ≤ s.chip.coordinator → s.chip.fld .plumb PLUMB.PLUMB_STS_epoch < leAt l 10 4 →
    leAt l 14 4 = s.chip.tableDigest →
    gives (.decide p h l) s (fun d => d.plumb.next = some (leAt l 10 4, wordAt l 48, s.chip.courseCount) ∧ d.plumb.decided = true
      ∧ d.plumb.misses = 0 ∧ onlyIn [.port p, .plumb] s.chip d ∧ memKept s.chip d))
  ∧ (∀ s : State, max 1 (s.chip.fld .plumb PLUMB.PLUMB_CTL_decide_miss) ≤ s.chip.plumb.misses →
    gives .coordinatorChange s (fun d => d.plumb.misses = 0
      ∧ d.plumb.moved = s.chip.coordOrder.find? (fun n => decide (s.chip.coordinator < n))
      ∧ onlyUnit .plumb s.chip d ∧ memKept s.chip d))
  ∧ (∀ (s : State) (epoch at_ : Nat) (mask : Word), s.chip.plumb.next = some (epoch, mask, at_) →
    at_ < s.chip.courseCount → s.chip.atBoundary = true →
    gives .plumbEpochApply s (fun d => d.fld .plumb PLUMB.PLUMB_STS_epoch = epoch % 2 ^ 32 ∧ d.reg .plumb 0x118 = mask
      ∧ d.plumb.next = none ∧ raised d .plumb PLUMB.ev_declared
      ∧ ∀ r, s.chip.partStep r = 0 → d.reg (.fabmem r) 0x140 = d.declaredOr 0x008))
  ∧ ∀ (s : State) (v : Word), answers s.chip .plumb →
    gives (.restore v) s (fun d => d.plumb.restore = s.chip.plumb.restore ||| v ∧ regsBut [] s.chip d ∧ memKept s.chip d)

/-! ### Power -/

/-- R435, R441 to R447, R451: samples show in their registers; an input out of range is an error and a low one, seen
twice, shuts the Pysum down, as does a sensor at 120 °C; a die at `trip_c` and an overcurrent set the protective
clock until they end, against the limit that each trip began with; the loops move clock and voltage by one step within their
windows, the voltage towards the fused margin of the clock in force; a failed regulator's domain
goes off. How the protective clock is coded is read by inference (log 224, DEDUCED). -/
def Obligations.PowerIsMeasuredAndLimited : Prop :=
  (∀ (s : State) (mv dA w : BitVec 16), 10800 ≤ mv.toNat →
    gives (.inputSample mv dA w) s (fun d => d.fld .power POWER.PWR_STS_pin_w = w.toNat
      ∧ (d.fld .power POWER.ENERGY_energy_mj * 100 + d.pwr.energyRest) % (100 * 2 ^ 64)
          = ((s.chip.fld .power POWER.ENERGY_energy_mj * 100 + s.chip.pwr.energyRest) + w.toNat) % (100 * 2 ^ 64)
      ∧ (mv.toNat < 11400 ∨ 12600 < mv.toNat → raised d .power POWER.ev_vin_range)
      ∧ onlyUnit .power s.chip d ∧ memKept s.chip d))
  ∧ (∀ (s : State) (mv dA w : BitVec 16), mv.toNat < 10800 → s.chip.pwr.vinLow = true → s.chip.boot.shut = false →
    gives (.inputSample mv dA w) s (fun d => d.boot.shut = true ∧ d.fld .power POWER.LAST_SHUTDOWN_fault_code = 0x95
      ∧ ∀ n < 157, d.domOn n = false))
  ∧ (∀ (s : State) (compute base : List (BitVec 8)), compute.length = 32 → base.length = 16 → s.chip.boot.shut = false →
    (∀ t ∈ compute ++ base, t.toNat < 120) →
    gives (.sensorSample (compute.map some) (base.map some)) s (fun d =>
      (∀ r < 4, d.tempOf r = (((compute.drop (8 * r)).take 8).map BitVec.toNat).foldl max 0
        ∧ d.tempOf (4 + r) = (((base.drop (4 * r)).take 4).map BitVec.toNat).foldl max 0
        ∧ (s.chip.tripC ≤ d.tempOf r → r ∈ d.pwr.trips)
        ∧ (s.chip.tripC ≤ d.tempOf r → r ∉ s.chip.pwr.trips →
            d.fqNow r = protectiveFq ∧ raised d .power POWER.ev_trip_override))
      ∧ onlyUnit .power s.chip d ∧ memKept s.chip d))
  ∧ (∀ (s : State) (compute base : List (BitVec 8)) (t : BitVec 8), t ∈ compute.take 32 ++ base.take 16 → 120 ≤ t.toNat →
    s.chip.boot.shut = false →
    gives (.sensorSample (compute.map some) (base.map some)) s (fun d => d.boot.shut = true ∧ d.thermtripped = true
      ∧ d.fld .power POWER.LAST_SHUTDOWN_fault_code = 0x94))
  ∧ (∀ (s : State) (r : Region), r.val ∈ s.chip.pwr.trips → s.chip.tempOf r.val + 10 < s.chip.tripHeld r.val →
    gives (.tripOverrideEnd r) s (fun d => r.val ∉ d.pwr.trips
      ∧ (d.overridden r.val = false → d.fqNow r.val = s.chip.fqFloor r.val) ∧ onlyUnit .power s.chip d ∧ memKept s.chip d))
  ∧ (∀ (s : State) (a : Rail), s.chip.pwr.ocps.contains (railNo a) = false → s.chip.boot.shut = false →
    gives (.overcurrent a) s (fun d => d.pwr.ocps = s.chip.pwr.ocps ++ [railNo a]
      ∧ (∀ r ∈ diesOf (railNo a), d.fqNow r = protectiveFq) ∧ raised d .power POWER.ev_ocp_override
      ∧ raised d .power evOverride ∧ onlyUnit .power s.chip d ∧ memKept s.chip d))
  ∧ (∀ (s : State) (a : Rail), s.chip.pwr.ocps.contains (railNo a) = true →
    gives (.overcurrentEnd a) s (fun d => d.pwr.ocps.contains (railNo a) = false
      ∧ (∀ r ∈ diesOf (railNo a), d.overridden r = false → d.fqNow r = s.chip.fqFloor r)
      ∧ onlyUnit .power s.chip d ∧ memKept s.chip d))
  ∧ (∀ (s : State) (r : Region), s.chip.overridden r.val = false → s.chip.boot.shut = false → s.chip.boot.coresUp = true →
    let fq := s.chip.fqNow r.val
    let lo := s.chip.fqFloor r.val
    let hi := s.chip.fqCeil r.val
    let down := s.chip.throttleC < s.chip.tempOf r.val ∨ s.chip.powerCap < s.chip.fld .power POWER.PWR_STS_pin_w
    let up := s.chip.tempOf r.val < s.chip.throttleC - 3 ∧ s.chip.fld .power POWER.PWR_STS_pin_w < s.chip.powerCap - 25
    gives (.frequencyStep r) s (fun d => d.fqNow r.val
        = (if fq < lo then lo else if hi < fq then hi
           else if s.chip.pwr.short.contains r.val = true ∨ down then max lo (fq - 1)
           else if up then min hi (fq + 1) else fq)
      ∧ onlyUnit .power s.chip d ∧ memKept s.chip d))
  ∧ (∀ (s : State) (r : Region) (margin : BitVec 16), s.chip.boot.shut = false → s.chip.boot.coresUp = true →
    let mv := s.chip.mvNow r.val
    let want := s.chip.marginTarget r.val
    let lo := s.chip.mvFloor r.val
    let hi := s.chip.mvCeil r.val
    gives (.voltageStep r margin) s (fun d => d.mvNow r.val
        = (if mv < lo then lo else if hi < mv then hi else if margin.toNat < want then min hi (mv + 1)
           else if want < margin.toNat then max lo (mv - 1) else mv)
      ∧ (r.val ∈ d.pwr.short ↔ margin.toNat < want ∧ hi ≤ mv)
      ∧ regsBut [(.power, 0x110)] s.chip d ∧ memKept s.chip d))
  ∧ ∀ (s : State) (n : Fin 157), s.chip.domOn n.val = true →
    gives (.railFault n) s (fun d => d.domOn n.val = false ∧ n.val ∈ d.pwr.faulted ∧ raised d .power POWER.ev_rail_fault)

/-- The domain of bit i of DOM_CB, DOM_PORT or DOM_MISC. -/
def domOfBit (which : Fin 3) (i : Nat) : Nat := 64 * which.val + i

/-- R437 to R440: a domain that a write selects is on, ramps or waits for its ramp; one whose unit a job holds stays on,
with `domain_refused`; a ramp ends with the domain on, a power-down and a drained bank's with it off. -/
def Obligations.DomainsRiseAndFall : Prop :=
  (∀ (s : State) (which : Fin 3) (v : Word) (i : Nat), answers s.chip .power → i < (if which = 2 then 28 else 64) →
    s.chip.domExists (domOfBit which i) = true → bitAt v i = true →
    gives (.domainWrite which v) s (fun d => d.domAsked (domOfBit which i) = true
      ∧ (d.domOn (domOfBit which i) = true ∨ domOfBit which i ∈ d.pwr.ramping ++ d.pwr.rampWait)
      ∧ onlyUnit .power s.chip d ∧ memKept s.chip d))
  ∧ (∀ (s : State) (which : Fin 3) (v : Word) (i : Nat), answers s.chip .power → i < (if which = 2 then 28 else 64) →
    s.chip.domExists (domOfBit which i) = true → bitAt v i = false → s.chip.domAsked (domOfBit which i) = true →
    s.chip.held (domUnit (domOfBit which i)) = true →
    gives (.domainWrite which v) s (fun d => d.domAsked (domOfBit which i) = true ∧ raised d .power POWER.ev_domain_refused
      ∧ onlyUnit .power s.chip d ∧ memKept s.chip d))
  ∧ (∀ (s : State) (n : Fin 157), s.chip.pwr.ramping.contains n.val = true →
    gives (.domainRampDone n) s (fun d => d.domOn n.val = true
      ∧ ∀ m < 157, m ≠ n.val → d.domOn m = s.chip.domOn m))
  ∧ (∀ (s : State) (n : Fin 157), s.chip.mayFall n.val = true →
    gives (.domainPowerDown n) s (fun d => d.domOn n.val = false ∧ n.val ∉ d.pwr.falling
      ∧ ∀ m < 157, m ≠ n.val → d.domOn m = s.chip.domOn m))
  ∧ ∀ (s : State) (r : Region) (i : Fin 4), s.chip.pwr.falling.contains (136 + 4 * r.val + i.val) = true →
    (s.chip.xbar r).bankUsed i.val = 0 →
    gives (.bankDrainDone r i) s (fun d => d.domOn (136 + 4 * r.val + i.val) = false ∧ memKept s.chip d)

/-! ### Reset, boot and the TAP -/

/-- R452, R455 to R462, R474, R483 to R487, R490, R495, R496: RESET_N low and a fallen PWRGD leave every register at its
reset word, keep the fuses and leave the target of a transfer without a header, RESET_N's release starts the sequencer with its
samples; STRAPS takes three equal
samples and fails with others; a candidate whose header passes is selected, and one whose header fails is passed
over with `slot_fallback`; CORES brings the region cores up; a clock failure ends boot or falls silent; READY
follows once every powered, enabled port has settled, and makes the blocks ready; the TAP shifts its registers. How the samples
number the pins, and
where a failure's code is captured, are the model's (log 227, DESIGN CHOICE; log 229, DEDUCED). -/
def Obligations.ResetBootAndTap : Prop :=
  (∀ s : State, gives .resetAssert s (fun d => d.boot.resetLow = true ∧ (∀ u q, d.reg u q = resetWord u q) ∧ d.mem = []
      ∧ d.flash = s.chip.targetEmptied.flash))
  ∧ (∀ s : State, s.chip.boot.pwrgd = true → gives .pwrgdFall s (fun d => d.boot.pwrgd = false
      ∧ (∀ u q, d.reg u q = resetWord u q) ∧ d.mem = [] ∧ d.flash = s.chip.targetEmptied.flash))
  ∧ (∀ s : State, s.chip.boot.pwrgd = false → gives .pwrgdRise s (fun d => d.boot.pwrgd = true ∧ regsBut [] s.chip d
      ∧ memKept s.chip d))
  ∧ (∀ (s : State) (a b c : BitVec 9), s.chip.boot.resetLow = true → s.chip.boot.pwrgd = true →
    gives (.resetRelease a b c) s (fun d => d.boot.resetLow = false ∧ d.straps.samples = [a, b, c]
      ∧ regsBut [] s.chip d ∧ memKept s.chip d))
  ∧ (∀ (s : State) (a b c : BitVec 9), s.chip.sequencing = true → s.chip.bootCode = 0 → s.chip.straps.samples = [a, b, c] →
    if a = b ∧ b = c ∧ a.toNat / 64 ≤ 2 then
      gives (.bootStateDone .ok) s (fun d => d.bootCode = 1 ∧ d.fld .course COURSE.TICK_CTL_role = a.toNat / 64
        ∧ d.fld .chip CHIP.POSITION_row = a.toNat % 64 / 8 ∧ d.fld .chip CHIP.POSITION_col = a.toNat % 8
        ∧ onlyIn [.chip, .course, .boot] s.chip d ∧ memKept s.chip d)
    else gives (.bootStateDone .ok) s (fun d => d.bootCode = 15 ∧ raised d .boot evErrUncorrected ∧ memKept s.chip d))
  ∧ (∀ (s : State) (x : Bool) (rest : List Bool), s.chip.sequencing = true → s.chip.bootCode = 2 →
    s.chip.boot.candidates = x :: rest → s.chip.record = none →
    if s.chip.hdrStatus (s.chip.flashRead (slotBase x) 4096) = 0 then
      gives (.bootStateDone .ok) s (fun d => d.bootCode = 3 ∧ d.bootedSlot = x
        ∧ d.boot.header = s.chip.flashRead (slotBase x) 4096 ∧ onlyUnit .boot s.chip d ∧ memKept s.chip d)
    else gives (.bootStateDone .ok) s (fun d => d.boot.candidates = rest ∧ d.bootCode = (if rest = [] then 15 else 2)
        ∧ d.fld .boot BOOT.BOOT_STS_fail_code = 0x9A ∧ raised d .boot BOOT.ev_slot_fallback))
  ∧ (∀ s : State, s.chip.sequencing = true → s.chip.bootCode = 3 →
    gives (.bootStateDone .ok) s (fun d => d.bootCode = 4 ∧ d.boot.coresUp = true ∧ memKept s.chip d))
  ∧ (∀ s : State, s.chip.sequencing = true → s.chip.bootCode = 3 →
    gives (.clockFailure false) s (fun d => d.bootCode = 15 ∧ raised d .boot evErrUncorrected ∧ memKept s.chip d))
  ∧ (∀ (s : State) (aon : Bool), s.chip.sequencing = true → s.chip.bootCode ≠ 3 ∨ aon = true →
    gives (.clockFailure aon) s (fun d => d.boot.failSilent = true ∧ memKept s.chip d))
  ∧ (∀ s : State, s.chip.sequencing = true → s.chip.bootCode = 7 →
    (∀ p, s.chip.flag (.port p) PORT.PORT_CTL_enable = true → s.chip.powered (.port p) = true →
      s.chip.linked p = true ∨ s.chip.portState p = 10) →
    gives .bootReady s (fun d => d.bootCode = 8
      ∧ (∀ r b, s.chip.domOn (16 * r.val + b.val) = true → s.chip.present (.cblk r b) = true →
          d.flag (.cblk r b) readyFld = true)
      ∧ (∀ v q, q < 2 ^ 22 → v ≠ .boot → (∀ r b, v ≠ .cblk r b) → d.reg v q = s.chip.reg v q) ∧ memKept s.chip d))
  ∧ (∀ s : State, gives .idcode s (fun d => d.tap.tdo = bitsOf 32 (idcodeOf s.chip.fuses.stepping) ∧ regsBut [] s.chip d
      ∧ memKept s.chip d))
  ∧ (∀ (s : State) (tdi : Bool), gives (.bypass tdi) s (fun d => d.tap.tdo = [s.chip.tap.bypass] ∧ d.tap.bypass = tdi
      ∧ regsBut [] s.chip d ∧ memKept s.chip d))
  ∧ (∀ (s : State) (ir : BitVec 8) (dr : List Bool),
    (s.chip.boot.resetLow = true ∨ s.chip.flag .security SECURITY.SEC_STS_jtag_open = true) →
    gives (.boundaryScan ir dr) s (fun d => d.tap.tdo = s.chip.tap.boundary ∧ d.tap.boundary = dr
      ∧ regsBut [] s.chip d ∧ memKept s.chip d))
  ∧ ∀ s : State, gives .tapReset s (fun d => d.tap = {} ∧ regsBut [] s.chip d ∧ memKept s.chip d)

/-! ### An invariant of every step -/

/-- Every step keeps memory in its canonical form: keys rise, and no entry holds the byte that an unlisted key reads as.
-/
def Obligations.StepKeepsMemoryCanonical : Prop :=
  ∀ s t : State, Memory.wf s.chip.mem = true → step s = .next t → Memory.wf t.chip.mem = true

/-- Every step keeps the work queues' entries told apart: no block ever holds two entries of one number, and the number
of the next entry is above them all. A command that names an entry therefore acts on one. -/
def Obligations.StepKeepsWorkQueueEntriesDistinct : Prop :=
  ∀ s t : State, queuesDistinct s.chip → step s = .next t → queuesDistinct t.chip
end

