-- ==== Sys2Proof/Laws/Bits.lean ====
section
/-! SUPPORT. Bit fields: what a field reads after it, or another field of the word, has been set. -/
namespace Sys2Proof.Machine

theorem testBit_ones_shift (n lo j : Nat) :
    ((2 ^ n - 1) <<< lo).testBit j = (decide (lo ≤ j) && decide (j - lo < n)) := by
  simp [Nat.testBit_shiftLeft, Nat.testBit_two_pow_sub_one]

theorem getLsbD_maskBits (hi lo j : Nat) (h : j < 64) :
    (maskBits hi lo).getLsbD j = (decide (lo ≤ j) && decide (j - lo < hi + 1 - lo)) := by
  rw [maskBits, BitVec.getLsbD_ofNat, testBit_ones_shift]
  simp [h]

theorem getLsbD_setBits (w : Word) (hi lo v j : Nat) (h : j < 64) :
    (setBits w hi lo v).getLsbD j
      = if lo ≤ j ∧ j < hi + 1 then v.testBit (j - lo) else w.getLsbD j := by
  simp only [setBits, BitVec.getLsbD_or, BitVec.getLsbD_and, BitVec.getLsbD_not, h, decide_true, Bool.true_and,
    getLsbD_maskBits hi lo j h, BitVec.getLsbD_ofNat, Nat.testBit_shiftLeft, Nat.testBit_mod_two_pow]
  by_cases h1 : lo ≤ j
  · by_cases h2 : j < hi + 1
    · have h3 : j - lo < hi + 1 - lo := by omega
      simp [h1, h2, h3]
    · have h3 : ¬ j - lo < hi + 1 - lo := by omega
      simp [h2, h3]
  · simp [h1]

theorem testBit_getBits (w : Word) (hi lo i : Nat) :
    (getBits w hi lo).testBit i = (decide (i < hi + 1 - lo) && w.getLsbD (lo + i)) := by
  simp [getBits, Nat.testBit_mod_two_pow, Nat.testBit_shiftRight, BitVec.getLsbD]

/-- A field reads what it was set to. -/
theorem getBits_setBits_same (w : Word) (hi lo v : Nat) (h1 : hi < 64) :
    getBits (setBits w hi lo v) hi lo = v % 2 ^ (hi + 1 - lo) := by
  apply Nat.eq_of_testBit_eq
  intro i
  rw [testBit_getBits, Nat.testBit_mod_two_pow]
  by_cases hi' : i < hi + 1 - lo
  · rw [getLsbD_setBits _ _ _ _ _ (by omega)]
    have : lo ≤ lo + i ∧ lo + i < hi + 1 := by omega
    simp [this]
  · simp [hi']

/-- A field that shares no bit with the one set reads as before. -/
theorem getBits_setBits_other (w : Word) (hi lo v hi' lo' : Nat) (h1 : hi' < 64) (h : hi' < lo ∨ hi < lo') :
    getBits (setBits w hi lo v) hi' lo' = getBits w hi' lo' := by
  apply Nat.eq_of_testBit_eq
  intro i
  rw [testBit_getBits, testBit_getBits]
  by_cases hi2 : i < hi' + 1 - lo'
  · rw [getLsbD_setBits _ _ _ _ _ (by omega)]
    rw [if_neg (by omega)]
  · simp [hi2]

theorem bitAt_setBits_same (w : Word) (i v : Nat) (h : i < 64) : bitAt (setBits w i i v) i = decide (v % 2 = 1) := by
  rw [bitAt, getLsbD_setBits _ _ _ _ _ h]
  simp [Nat.testBit_zero]

theorem bitAt_setBits_other (w : Word) (hi lo v i : Nat) (hi' : i < 64) (h : i < lo ∨ hi < i) :
    bitAt (setBits w hi lo v) i = bitAt w i := by
  rw [bitAt, getLsbD_setBits _ _ _ _ _ hi', bitAt]
  rw [if_neg (by omega)]

theorem getBits_lt (w : Word) (hi lo : Nat) : getBits w hi lo < 2 ^ (hi + 1 - lo) := Nat.mod_lt _ (by positivity)

theorem bitAt_or_pow (w : Word) (b i : Nat) (hi : i < 64) :
    bitAt (w ||| BitVec.ofNat 64 (2 ^ b)) i = (bitAt w i || decide (i = b)) := by
  rw [bitAt, BitVec.getLsbD_or, BitVec.getLsbD_ofNat, Nat.testBit_two_pow, bitAt]
  simp [hi, eq_comm]

end Sys2Proof.Machine
end

