-- ==== Sys2Proof/Laws/Tab.lean ====
section
/-! SUPPORT. Sparse maps: what a key reads after a key has been bound or removed, and the rising order of the keys. -/
namespace Sys2Proof.Machine

/-- What every key reads after one has been bound. -/
theorem Tab.find_put {α : Type} (t : Tab α) (q r : Nat) (v : α) :
    Tab.find (Tab.put t q v) r = if r = q then some v else Tab.find t r := by
  fun_induction Tab.put t q v <;> grind [Tab.find]

/-- What every key reads after one has been removed. -/
theorem Tab.find_del {α : Type} (t : Tab α) (q r : Nat) :
    Tab.find (Tab.del t q) r = if r = q then none else Tab.find t r := by
  rw [Tab.del]
  induction t with
  | nil => simp [Tab.find]
  | cons e t => cases e; grind [Tab.find]

@[simp] theorem Tab.find_put_same {α : Type} (t : Tab α) (q : Nat) (v : α) : Tab.find (Tab.put t q v) q = some v := by
  rw [Tab.find_put, if_pos rfl]

theorem Tab.find_put_other {α : Type} (t : Tab α) (q r : Nat) (v : α) (h : r ≠ q) :
    Tab.find (Tab.put t q v) r = Tab.find t r := by
  rw [Tab.find_put, if_neg h]

@[simp] theorem Tab.find_del_same {α : Type} (t : Tab α) (q : Nat) : Tab.find (Tab.del t q) q = none := by
  rw [Tab.find_del, if_pos rfl]

theorem Tab.find_del_other {α : Type} (t : Tab α) (q r : Nat) (h : r ≠ q) :
    Tab.find (Tab.del t q) r = Tab.find t r := by
  rw [Tab.find_del, if_neg h]

@[simp] theorem Tab.get_put_same {α : Type} (t : Tab α) (q : Nat) (v d : α) : Tab.get (Tab.put t q v) q d = v := by
  rw [Tab.get, Tab.find_put_same, Option.getD_some]

theorem Tab.get_put_other {α : Type} (t : Tab α) (q r : Nat) (v d : α) (h : r ≠ q) :
    Tab.get (Tab.put t q v) r d = Tab.get t r d := by
  rw [Tab.get, Tab.find_put_other t q r v h, Tab.get]

@[simp] theorem Tab.get_nil {α : Type} (q : Nat) (d : α) : Tab.get ([] : Tab α) q d = d := rfl

/-- Rising keys, pairwise: every key is below all later ones. -/
theorem Tab.rising_iff {α : Type} (t : Tab α) : Tab.rising t = true ↔ t.Pairwise (fun a b => a.1 < b.1) := by
  fun_induction Tab.rising t <;> grind [List.pairwise_cons]

/-- The entries of a map after a key has been bound are its own or the new one. -/
theorem Tab.mem_put {α : Type} (t : Tab α) (q : Nat) (v : α) : ∀ f ∈ Tab.put t q v, f = (q, v) ∨ f ∈ t := by
  fun_induction Tab.put t q v <;> grind

/-- Binding a key keeps a map rising. -/
theorem Tab.rising_put {α : Type} (t : Tab α) (q : Nat) (v : α) (h : Tab.rising t = true) :
    Tab.rising (Tab.put t q v) = true := by
  rw [Tab.rising_iff] at h ⊢
  fun_induction Tab.put t q v with
  | case4 k w t q v => have := Tab.mem_put t q v; grind [List.pairwise_cons]
  | _ => grind [List.pairwise_cons]

/-- Dropping entries keeps a map rising. -/
theorem Tab.rising_filter {α : Type} (t : Tab α) (p : Nat × α → Bool) (h : Tab.rising t = true) :
    Tab.rising (t.filter p) = true :=
  (Tab.rising_iff _).mpr (((Tab.rising_iff t).mp h).filter p)

theorem Tab.rising_del {α : Type} (t : Tab α) (q : Nat) (h : Tab.rising t = true) : Tab.rising (Tab.del t q) = true :=
  Tab.rising_filter t _ h

end Sys2Proof.Machine
end

