-- ==== Sys2Proof/Laws/Registers.lean ====
section
/-! SUPPORT. The register file: addresses are different for different registers (R49), a register reads what was stored in
it, and storing one leaves every other as it was. -/
namespace Sys2Proof.Machine

theorem unitType_code_lt (u : UnitId) : (unitType u).code < 128 := by cases u <;> simp [unitType, UnitType.code]

theorem unitInstance_lt (u : UnitId) : unitInstance u < 256 := by cases u <;> simp [unitInstance] <;> omega

/-- Scope, type code and instance name one unit (Table REG-3). -/
theorem unit_ext (u v : UnitId) (h1 : unitScope u = unitScope v) (h2 : (unitType u).code = (unitType v).code)
    (h3 : unitInstance u = unitInstance v) : u = v := by
  cases u <;> cases v <;>
    simp_all [unitScope, unitType, UnitType.code, unitInstance, Fin.ext_iff] <;> omega

/-- R49: two registers of two units never share an address. -/
theorem regAddr_inj (u v : UnitId) (p q : Nat) (hp : p < 2 ^ 22) (hq : q < 2 ^ 22) (h : regAddr u p = regAddr v q) :
    u = v ∧ p = q := by
  have a1 := unitType_code_lt u
  have a2 := unitType_code_lt v
  have b1 := unitInstance_lt u
  have b2 := unitInstance_lt v
  simp only [regAddr] at h
  refine ⟨unit_ext u v ?_ ?_ ?_, ?_⟩ <;> omega

@[simp] theorem Chip.reg_setReg_same (c : Chip) (u : UnitId) (p : Nat) (w : Word) : (c.setReg u p w).reg u p = w := by
  simp only [Chip.reg, Chip.setReg]
  split
  · next h => simp [h]
  · simp

theorem Chip.reg_setReg_other (c : Chip) (u v : UnitId) (p q : Nat) (w : Word) (h : regAddr v q ≠ regAddr u p) :
    (c.setReg u p w).reg v q = c.reg v q := by
  simp only [Chip.reg, Chip.setReg]
  split
  · rw [Tab.find_del_other _ _ _ h]
  · rw [Tab.find_put_other _ _ _ _ h]

/-- Storing a register of one unit leaves every register of another. -/
theorem Chip.reg_setReg_unit (c : Chip) (u v : UnitId) (p q : Nat) (w : Word) (hp : p < 2 ^ 22) (hq : q < 2 ^ 22)
    (h : v ≠ u) : (c.setReg u p w).reg v q = c.reg v q :=
  c.reg_setReg_other u v p q w (fun e => h (regAddr_inj v u q p hq hp e).1)

/-- Storing a register leaves the others of its unit. -/
theorem Chip.reg_setReg_pos (c : Chip) (u : UnitId) (p q : Nat) (w : Word) (h : q ≠ p) :
    (c.setReg u p w).reg u q = c.reg u q :=
  c.reg_setReg_other u u p q w (by simp only [regAddr]; omega)

/-- A field reads what it was set to, in the field's width. -/
theorem Chip.fld_setFld_same (c : Chip) (u : UnitId) (f : Fld) (v : Nat) (h : f.hi < 64) :
    (c.setFld u f v).fld u f = v % 2 ^ (f.hi + 1 - f.lo) := by
  simp [Chip.fld, Chip.setFld, getBits_setBits_same _ _ _ _ h]

/-- Another field of the same register reads as before. -/
theorem Chip.fld_setFld_beside (c : Chip) (u : UnitId) (f g : Fld) (v : Nat) (hp : g.pos = f.pos) (h1 : g.hi < 64)
    (h : g.hi < f.lo ∨ f.hi < g.lo) : (c.setFld u f v).fld u g = c.fld u g := by
  simp [Chip.fld, Chip.setFld, hp, getBits_setBits_other _ _ _ _ _ _ h1 h]

/-- A field of another register reads as before. -/
theorem Chip.fld_setFld_other (c : Chip) (u v : UnitId) (f g : Fld) (x : Nat)
    (h : regAddr v g.pos ≠ regAddr u f.pos) : (c.setFld u f x).fld v g = c.fld v g := by
  simp [Chip.fld, Chip.setFld, c.reg_setReg_other u v f.pos g.pos _ h]

end Sys2Proof.Machine
end

