-- ==== Sys2Proof/Laws/Address.lean ====
section
/-! SUPPORT. Addresses: the address of a unit's register names that unit (R49). -/
namespace Sys2Proof.Machine

theorem unitOf_unit (u : UnitId) (h : u.exists = true) :
    unitOf (unitScope u) (unitType u).code (unitInstance u) = some u := by
  cases u with
  | d2d r i =>
    have hi : ¬ (i : Nat) = r := fun e => by simp [UnitId.exists, Fin.ext_iff, e] at h
    simp [unitOf, unitScope, unitType, UnitType.code, unitInstance, hi]
  | port p =>
    have h1 : p.val / 16 < 4 := by omega
    have h2 : p.val % 16 < 16 := by omega
    have he : (⟨16 * (p.val / 16) + p.val % 16, by omega⟩ : Fin 64) = p := Fin.ext (by simp only; omega)
    simp only [unitOf, unitScope, unitType, UnitType.code, unitInstance, h1, h2, dif_pos, he]
  | memblk s =>
    have h1 : s.val / 2 < 4 := by omega
    have h2 : s.val % 2 < 2 := by omega
    have he : (⟨2 * (s.val / 2) + s.val % 2, by omega⟩ : Fin 8) = s := Fin.ext (by simp only; omega)
    simp only [unitOf, unitScope, unitType, UnitType.code, unitInstance, h1, h2, dif_pos, he]
  | _ => simp [unitOf, unitScope, unitType, UnitType.code, unitInstance]

/-- R49: the address of a register of a unit that exists names that unit. -/
theorem addrUnit_regAddr (u : UnitId) (pos : Nat) (h : u.exists = true) (hp : pos < 2 ^ 22) :
    addrUnit (regAddr u pos) = some u := by
  have a := unitType_code_lt u
  have b := unitInstance_lt u
  have s : unitScope u ≤ 4 := by cases u <;> simp [unitScope] <;> omega
  have h1 : regAddr u pos / 2 ^ 37 % 8 = unitScope u := by simp only [regAddr]; omega
  have h2 : regAddr u pos / 2 ^ 30 % 128 = (unitType u).code := by simp only [regAddr]; omega
  have h3 : regAddr u pos / 2 ^ 22 % 256 = unitInstance u := by simp only [regAddr]; omega
  rw [addrUnit, h1, h2, h3, unitOf_unit u h]

theorem regAddr_pos (u : UnitId) (pos : Nat) (hp : pos < 2 ^ 22) : regAddr u pos % 2 ^ 22 = pos := by
  simp only [regAddr]; omega

theorem regAddr_lt (u : UnitId) (pos : Nat) (hp : pos < 2 ^ 22) : regAddr u pos < 2 ^ 40 := by
  have a := unitType_code_lt u
  have b := unitInstance_lt u
  have s : unitScope u ≤ 4 := by cases u <;> simp [unitScope] <;> omega
  simp only [regAddr]; omega

/-- Table REG-2: on its pages a unit answers alike at every aligned position. -/
theorem Chip.accessStatus_regAddr (c : Chip) (u : UnitId) (pos : Nat) (hu : u.exists = true) (h8 : pos % 8 = 0)
    (hp : pos / 4096 ≤ lastPage (unitType u)) (hl : lastPage (unitType u) < 512) :
    c.accessStatus (regAddr u pos) = c.accessStatus (regAddr u 0) := by
  have h : pos < 2 ^ 22 := by omega
  have h0 : (0 : Nat) < 2 ^ 22 := by decide
  have a : ¬ lastPage (unitType u) < pos / 4096 := by omega
  have b : ¬ 512 ≤ pos / 4096 := by omega
  have e : ∀ x y : Nat, addrUnit x = addrUnit y → x % 2 ^ 22 % 8 = 0 → y % 2 ^ 22 % 8 = 0 →
      (∀ u, addrUnit y = some u → ¬ lastPage (unitType u) < x % 2 ^ 22 / 4096) → ¬ 512 ≤ x % 2 ^ 22 / 4096 →
      y % 2 ^ 22 / 4096 = 0 → c.accessStatus x = c.accessStatus y := by
    intro x y hxy hx hy hlast hpage hzero
    unfold Chip.accessStatus
    rw [hxy]
    dsimp only
    generalize x % 2 ^ 22 = p at *
    generalize y % 2 ^ 22 = q at *
    cases hw : addrUnit y with
    | none => rfl
    | some w => simp [hx, hy, hlast w hw, hpage, hzero]
  refine e _ _ ?_ ?_ ?_ ?_ ?_ ?_
  · rw [addrUnit_regAddr u pos hu h, addrUnit_regAddr u 0 hu h0]
  · rw [regAddr_pos u pos h]; exact h8
  · rw [regAddr_pos u 0 h0]
  · intro w hw
    rw [addrUnit_regAddr u 0 hu h0] at hw
    rw [regAddr_pos u pos h, ← Option.some.inj hw]
    exact a
  · rw [regAddr_pos u pos h]; exact b
  · rw [regAddr_pos u 0 h0]

end Sys2Proof.Machine
end

