-- ==== Sys2Proof/Laws/State.lean ====
section
/-! SUPPORT. One lemma per field of the chip per update: what each named update leaves as it was, and what the updated
part holds afterwards. All are true by unfolding the one update. -/
namespace Sys2Proof.Machine

@[simp] theorem Chip.setReg_now (c : Chip) (u : UnitId) (p : Nat) (w : Word) : (c.setReg u p w).now = c.now := rfl
@[simp] theorem Chip.setReg_free (c : Chip) (u : UnitId) (p : Nat) (w : Word) : (c.setReg u p w).free = c.free := rfl
@[simp] theorem Chip.setReg_fuses (c : Chip) (u : UnitId) (p : Nat) (w : Word) : (c.setReg u p w).fuses = c.fuses := rfl
@[simp] theorem Chip.setReg_straps (c : Chip) (u : UnitId) (p : Nat) (w : Word) : (c.setReg u p w).straps = c.straps := rfl
@[simp] theorem Chip.setReg_tap (c : Chip) (u : UnitId) (p : Nat) (w : Word) : (c.setReg u p w).tap = c.tap := rfl
@[simp] theorem Chip.setReg_boot (c : Chip) (u : UnitId) (p : Nat) (w : Word) : (c.setReg u p w).boot = c.boot := rfl
@[simp] theorem Chip.setReg_flash (c : Chip) (u : UnitId) (p : Nat) (w : Word) : (c.setReg u p w).flash = c.flash := rfl
@[simp] theorem Chip.setReg_flashOps (c : Chip) (u : UnitId) (p : Nat) (w : Word) : (c.setReg u p w).flashOps = c.flashOps := rfl
@[simp] theorem Chip.setReg_flashReply (c : Chip) (u : UnitId) (p : Nat) (w : Word) : (c.setReg u p w).flashReply = c.flashReply := rfl
@[simp] theorem Chip.setReg_xfer (c : Chip) (u : UnitId) (p : Nat) (w : Word) : (c.setReg u p w).xfer = c.xfer := rfl
@[simp] theorem Chip.setReg_sec (c : Chip) (u : UnitId) (p : Nat) (w : Word) : (c.setReg u p w).sec = c.sec := rfl
@[simp] theorem Chip.setReg_mem (c : Chip) (u : UnitId) (p : Nat) (w : Word) : (c.setReg u p w).mem = c.mem := rfl
@[simp] theorem Chip.setReg_bad (c : Chip) (u : UnitId) (p : Nat) (w : Word) : (c.setReg u p w).bad = c.bad := rfl
@[simp] theorem Chip.setReg_access (c : Chip) (u : UnitId) (p : Nat) (w : Word) : (c.setReg u p w).access = c.access := rfl
@[simp] theorem Chip.setReg_course (c : Chip) (u : UnitId) (p : Nat) (w : Word) : (c.setReg u p w).course = c.course := rfl
@[simp] theorem Chip.setReg_ports (c : Chip) (u : UnitId) (p : Nat) (w : Word) : (c.setReg u p w).ports = c.ports := rfl
@[simp] theorem Chip.setReg_xbars (c : Chip) (u : UnitId) (p : Nat) (w : Word) : (c.setReg u p w).xbars = c.xbars := rfl
@[simp] theorem Chip.setReg_bridge (c : Chip) (u : UnitId) (p : Nat) (w : Word) : (c.setReg u p w).bridge = c.bridge := rfl
@[simp] theorem Chip.setReg_host (c : Chip) (u : UnitId) (p : Nat) (w : Word) : (c.setReg u p w).host = c.host := rfl
@[simp] theorem Chip.setReg_awl (c : Chip) (u : UnitId) (p : Nat) (w : Word) : (c.setReg u p w).awl = c.awl := rfl
@[simp] theorem Chip.setReg_mems (c : Chip) (u : UnitId) (p : Nat) (w : Word) : (c.setReg u p w).mems = c.mems := rfl
@[simp] theorem Chip.setReg_fabs (c : Chip) (u : UnitId) (p : Nat) (w : Word) : (c.setReg u p w).fabs = c.fabs := rfl
@[simp] theorem Chip.setReg_repoint (c : Chip) (u : UnitId) (p : Nat) (w : Word) : (c.setReg u p w).repoint = c.repoint := rfl
@[simp] theorem Chip.setReg_blocks (c : Chip) (u : UnitId) (p : Nat) (w : Word) : (c.setReg u p w).blocks = c.blocks := rfl
@[simp] theorem Chip.setReg_cobs (c : Chip) (u : UnitId) (p : Nat) (w : Word) : (c.setReg u p w).cobs = c.cobs := rfl
@[simp] theorem Chip.setReg_morts (c : Chip) (u : UnitId) (p : Nat) (w : Word) : (c.setReg u p w).morts = c.morts := rfl
@[simp] theorem Chip.setReg_plumb (c : Chip) (u : UnitId) (p : Nat) (w : Word) : (c.setReg u p w).plumb = c.plumb := rfl
@[simp] theorem Chip.setReg_pwr (c : Chip) (u : UnitId) (p : Nat) (w : Word) : (c.setReg u p w).pwr = c.pwr := rfl
@[simp] theorem Chip.setFld_now (c : Chip) (u : UnitId) (f : Fld) (v : Nat) : (c.setFld u f v).now = c.now := rfl
@[simp] theorem Chip.setFld_free (c : Chip) (u : UnitId) (f : Fld) (v : Nat) : (c.setFld u f v).free = c.free := rfl
@[simp] theorem Chip.setFld_fuses (c : Chip) (u : UnitId) (f : Fld) (v : Nat) : (c.setFld u f v).fuses = c.fuses := rfl
@[simp] theorem Chip.setFld_straps (c : Chip) (u : UnitId) (f : Fld) (v : Nat) : (c.setFld u f v).straps = c.straps := rfl
@[simp] theorem Chip.setFld_tap (c : Chip) (u : UnitId) (f : Fld) (v : Nat) : (c.setFld u f v).tap = c.tap := rfl
@[simp] theorem Chip.setFld_boot (c : Chip) (u : UnitId) (f : Fld) (v : Nat) : (c.setFld u f v).boot = c.boot := rfl
@[simp] theorem Chip.setFld_flash (c : Chip) (u : UnitId) (f : Fld) (v : Nat) : (c.setFld u f v).flash = c.flash := rfl
@[simp] theorem Chip.setFld_flashOps (c : Chip) (u : UnitId) (f : Fld) (v : Nat) : (c.setFld u f v).flashOps = c.flashOps := rfl
@[simp] theorem Chip.setFld_flashReply (c : Chip) (u : UnitId) (f : Fld) (v : Nat) : (c.setFld u f v).flashReply = c.flashReply := rfl
@[simp] theorem Chip.setFld_xfer (c : Chip) (u : UnitId) (f : Fld) (v : Nat) : (c.setFld u f v).xfer = c.xfer := rfl
@[simp] theorem Chip.setFld_sec (c : Chip) (u : UnitId) (f : Fld) (v : Nat) : (c.setFld u f v).sec = c.sec := rfl
@[simp] theorem Chip.setFld_mem (c : Chip) (u : UnitId) (f : Fld) (v : Nat) : (c.setFld u f v).mem = c.mem := rfl
@[simp] theorem Chip.setFld_bad (c : Chip) (u : UnitId) (f : Fld) (v : Nat) : (c.setFld u f v).bad = c.bad := rfl
@[simp] theorem Chip.setFld_access (c : Chip) (u : UnitId) (f : Fld) (v : Nat) : (c.setFld u f v).access = c.access := rfl
@[simp] theorem Chip.setFld_course (c : Chip) (u : UnitId) (f : Fld) (v : Nat) : (c.setFld u f v).course = c.course := rfl
@[simp] theorem Chip.setFld_ports (c : Chip) (u : UnitId) (f : Fld) (v : Nat) : (c.setFld u f v).ports = c.ports := rfl
@[simp] theorem Chip.setFld_xbars (c : Chip) (u : UnitId) (f : Fld) (v : Nat) : (c.setFld u f v).xbars = c.xbars := rfl
@[simp] theorem Chip.setFld_bridge (c : Chip) (u : UnitId) (f : Fld) (v : Nat) : (c.setFld u f v).bridge = c.bridge := rfl
@[simp] theorem Chip.setFld_host (c : Chip) (u : UnitId) (f : Fld) (v : Nat) : (c.setFld u f v).host = c.host := rfl
@[simp] theorem Chip.setFld_awl (c : Chip) (u : UnitId) (f : Fld) (v : Nat) : (c.setFld u f v).awl = c.awl := rfl
@[simp] theorem Chip.setFld_mems (c : Chip) (u : UnitId) (f : Fld) (v : Nat) : (c.setFld u f v).mems = c.mems := rfl
@[simp] theorem Chip.setFld_fabs (c : Chip) (u : UnitId) (f : Fld) (v : Nat) : (c.setFld u f v).fabs = c.fabs := rfl
@[simp] theorem Chip.setFld_repoint (c : Chip) (u : UnitId) (f : Fld) (v : Nat) : (c.setFld u f v).repoint = c.repoint := rfl
@[simp] theorem Chip.setFld_blocks (c : Chip) (u : UnitId) (f : Fld) (v : Nat) : (c.setFld u f v).blocks = c.blocks := rfl
@[simp] theorem Chip.setFld_cobs (c : Chip) (u : UnitId) (f : Fld) (v : Nat) : (c.setFld u f v).cobs = c.cobs := rfl
@[simp] theorem Chip.setFld_morts (c : Chip) (u : UnitId) (f : Fld) (v : Nat) : (c.setFld u f v).morts = c.morts := rfl
@[simp] theorem Chip.setFld_plumb (c : Chip) (u : UnitId) (f : Fld) (v : Nat) : (c.setFld u f v).plumb = c.plumb := rfl
@[simp] theorem Chip.setFld_pwr (c : Chip) (u : UnitId) (f : Fld) (v : Nat) : (c.setFld u f v).pwr = c.pwr := rfl
@[simp] theorem Chip.store_now (c : Chip) (s : Space) (a : Nat) (l : List Byte) : (c.store s a l).now = c.now := rfl
@[simp] theorem Chip.store_free (c : Chip) (s : Space) (a : Nat) (l : List Byte) : (c.store s a l).free = c.free := rfl
@[simp] theorem Chip.store_fuses (c : Chip) (s : Space) (a : Nat) (l : List Byte) : (c.store s a l).fuses = c.fuses := rfl
@[simp] theorem Chip.store_straps (c : Chip) (s : Space) (a : Nat) (l : List Byte) : (c.store s a l).straps = c.straps := rfl
@[simp] theorem Chip.store_tap (c : Chip) (s : Space) (a : Nat) (l : List Byte) : (c.store s a l).tap = c.tap := rfl
@[simp] theorem Chip.store_boot (c : Chip) (s : Space) (a : Nat) (l : List Byte) : (c.store s a l).boot = c.boot := rfl
@[simp] theorem Chip.store_flash (c : Chip) (s : Space) (a : Nat) (l : List Byte) : (c.store s a l).flash = c.flash := rfl
@[simp] theorem Chip.store_flashOps (c : Chip) (s : Space) (a : Nat) (l : List Byte) : (c.store s a l).flashOps = c.flashOps := rfl
@[simp] theorem Chip.store_flashReply (c : Chip) (s : Space) (a : Nat) (l : List Byte) : (c.store s a l).flashReply = c.flashReply := rfl
@[simp] theorem Chip.store_xfer (c : Chip) (s : Space) (a : Nat) (l : List Byte) : (c.store s a l).xfer = c.xfer := rfl
@[simp] theorem Chip.store_sec (c : Chip) (s : Space) (a : Nat) (l : List Byte) : (c.store s a l).sec = c.sec := rfl
@[simp] theorem Chip.store_regs (c : Chip) (s : Space) (a : Nat) (l : List Byte) : (c.store s a l).regs = c.regs := rfl
@[simp] theorem Chip.store_bad (c : Chip) (s : Space) (a : Nat) (l : List Byte) : (c.store s a l).bad = c.bad := rfl
@[simp] theorem Chip.store_access (c : Chip) (s : Space) (a : Nat) (l : List Byte) : (c.store s a l).access = c.access := rfl
@[simp] theorem Chip.store_course (c : Chip) (s : Space) (a : Nat) (l : List Byte) : (c.store s a l).course = c.course := rfl
@[simp] theorem Chip.store_ports (c : Chip) (s : Space) (a : Nat) (l : List Byte) : (c.store s a l).ports = c.ports := rfl
@[simp] theorem Chip.store_xbars (c : Chip) (s : Space) (a : Nat) (l : List Byte) : (c.store s a l).xbars = c.xbars := rfl
@[simp] theorem Chip.store_bridge (c : Chip) (s : Space) (a : Nat) (l : List Byte) : (c.store s a l).bridge = c.bridge := rfl
@[simp] theorem Chip.store_host (c : Chip) (s : Space) (a : Nat) (l : List Byte) : (c.store s a l).host = c.host := rfl
@[simp] theorem Chip.store_awl (c : Chip) (s : Space) (a : Nat) (l : List Byte) : (c.store s a l).awl = c.awl := rfl
@[simp] theorem Chip.store_mems (c : Chip) (s : Space) (a : Nat) (l : List Byte) : (c.store s a l).mems = c.mems := rfl
@[simp] theorem Chip.store_fabs (c : Chip) (s : Space) (a : Nat) (l : List Byte) : (c.store s a l).fabs = c.fabs := rfl
@[simp] theorem Chip.store_repoint (c : Chip) (s : Space) (a : Nat) (l : List Byte) : (c.store s a l).repoint = c.repoint := rfl
@[simp] theorem Chip.store_blocks (c : Chip) (s : Space) (a : Nat) (l : List Byte) : (c.store s a l).blocks = c.blocks := rfl
@[simp] theorem Chip.store_cobs (c : Chip) (s : Space) (a : Nat) (l : List Byte) : (c.store s a l).cobs = c.cobs := rfl
@[simp] theorem Chip.store_morts (c : Chip) (s : Space) (a : Nat) (l : List Byte) : (c.store s a l).morts = c.morts := rfl
@[simp] theorem Chip.store_plumb (c : Chip) (s : Space) (a : Nat) (l : List Byte) : (c.store s a l).plumb = c.plumb := rfl
@[simp] theorem Chip.store_pwr (c : Chip) (s : Space) (a : Nat) (l : List Byte) : (c.store s a l).pwr = c.pwr := rfl
@[simp] theorem Chip.setPort_now (c : Chip) (p : Port) (x : PortS) : (c.setPort p x).now = c.now := rfl
@[simp] theorem Chip.setPort_free (c : Chip) (p : Port) (x : PortS) : (c.setPort p x).free = c.free := rfl
@[simp] theorem Chip.setPort_fuses (c : Chip) (p : Port) (x : PortS) : (c.setPort p x).fuses = c.fuses := rfl
@[simp] theorem Chip.setPort_straps (c : Chip) (p : Port) (x : PortS) : (c.setPort p x).straps = c.straps := rfl
@[simp] theorem Chip.setPort_tap (c : Chip) (p : Port) (x : PortS) : (c.setPort p x).tap = c.tap := rfl
@[simp] theorem Chip.setPort_boot (c : Chip) (p : Port) (x : PortS) : (c.setPort p x).boot = c.boot := rfl
@[simp] theorem Chip.setPort_flash (c : Chip) (p : Port) (x : PortS) : (c.setPort p x).flash = c.flash := rfl
@[simp] theorem Chip.setPort_flashOps (c : Chip) (p : Port) (x : PortS) : (c.setPort p x).flashOps = c.flashOps := rfl
@[simp] theorem Chip.setPort_flashReply (c : Chip) (p : Port) (x : PortS) : (c.setPort p x).flashReply = c.flashReply := rfl
@[simp] theorem Chip.setPort_xfer (c : Chip) (p : Port) (x : PortS) : (c.setPort p x).xfer = c.xfer := rfl
@[simp] theorem Chip.setPort_sec (c : Chip) (p : Port) (x : PortS) : (c.setPort p x).sec = c.sec := rfl
@[simp] theorem Chip.setPort_regs (c : Chip) (p : Port) (x : PortS) : (c.setPort p x).regs = c.regs := rfl
@[simp] theorem Chip.setPort_mem (c : Chip) (p : Port) (x : PortS) : (c.setPort p x).mem = c.mem := rfl
@[simp] theorem Chip.setPort_bad (c : Chip) (p : Port) (x : PortS) : (c.setPort p x).bad = c.bad := rfl
@[simp] theorem Chip.setPort_access (c : Chip) (p : Port) (x : PortS) : (c.setPort p x).access = c.access := rfl
@[simp] theorem Chip.setPort_course (c : Chip) (p : Port) (x : PortS) : (c.setPort p x).course = c.course := rfl
@[simp] theorem Chip.setPort_xbars (c : Chip) (p : Port) (x : PortS) : (c.setPort p x).xbars = c.xbars := rfl
@[simp] theorem Chip.setPort_bridge (c : Chip) (p : Port) (x : PortS) : (c.setPort p x).bridge = c.bridge := rfl
@[simp] theorem Chip.setPort_host (c : Chip) (p : Port) (x : PortS) : (c.setPort p x).host = c.host := rfl
@[simp] theorem Chip.setPort_awl (c : Chip) (p : Port) (x : PortS) : (c.setPort p x).awl = c.awl := rfl
@[simp] theorem Chip.setPort_mems (c : Chip) (p : Port) (x : PortS) : (c.setPort p x).mems = c.mems := rfl
@[simp] theorem Chip.setPort_fabs (c : Chip) (p : Port) (x : PortS) : (c.setPort p x).fabs = c.fabs := rfl
@[simp] theorem Chip.setPort_repoint (c : Chip) (p : Port) (x : PortS) : (c.setPort p x).repoint = c.repoint := rfl
@[simp] theorem Chip.setPort_blocks (c : Chip) (p : Port) (x : PortS) : (c.setPort p x).blocks = c.blocks := rfl
@[simp] theorem Chip.setPort_cobs (c : Chip) (p : Port) (x : PortS) : (c.setPort p x).cobs = c.cobs := rfl
@[simp] theorem Chip.setPort_morts (c : Chip) (p : Port) (x : PortS) : (c.setPort p x).morts = c.morts := rfl
@[simp] theorem Chip.setPort_plumb (c : Chip) (p : Port) (x : PortS) : (c.setPort p x).plumb = c.plumb := rfl
@[simp] theorem Chip.setPort_pwr (c : Chip) (p : Port) (x : PortS) : (c.setPort p x).pwr = c.pwr := rfl
@[simp] theorem Chip.setXbar_now (c : Chip) (r : Region) (x : XbarS) : (c.setXbar r x).now = c.now := rfl
@[simp] theorem Chip.setXbar_free (c : Chip) (r : Region) (x : XbarS) : (c.setXbar r x).free = c.free := rfl
@[simp] theorem Chip.setXbar_fuses (c : Chip) (r : Region) (x : XbarS) : (c.setXbar r x).fuses = c.fuses := rfl
@[simp] theorem Chip.setXbar_straps (c : Chip) (r : Region) (x : XbarS) : (c.setXbar r x).straps = c.straps := rfl
@[simp] theorem Chip.setXbar_tap (c : Chip) (r : Region) (x : XbarS) : (c.setXbar r x).tap = c.tap := rfl
@[simp] theorem Chip.setXbar_boot (c : Chip) (r : Region) (x : XbarS) : (c.setXbar r x).boot = c.boot := rfl
@[simp] theorem Chip.setXbar_flash (c : Chip) (r : Region) (x : XbarS) : (c.setXbar r x).flash = c.flash := rfl
@[simp] theorem Chip.setXbar_flashOps (c : Chip) (r : Region) (x : XbarS) : (c.setXbar r x).flashOps = c.flashOps := rfl
@[simp] theorem Chip.setXbar_flashReply (c : Chip) (r : Region) (x : XbarS) : (c.setXbar r x).flashReply = c.flashReply := rfl
@[simp] theorem Chip.setXbar_xfer (c : Chip) (r : Region) (x : XbarS) : (c.setXbar r x).xfer = c.xfer := rfl
@[simp] theorem Chip.setXbar_sec (c : Chip) (r : Region) (x : XbarS) : (c.setXbar r x).sec = c.sec := rfl
@[simp] theorem Chip.setXbar_regs (c : Chip) (r : Region) (x : XbarS) : (c.setXbar r x).regs = c.regs := rfl
@[simp] theorem Chip.setXbar_mem (c : Chip) (r : Region) (x : XbarS) : (c.setXbar r x).mem = c.mem := rfl
@[simp] theorem Chip.setXbar_bad (c : Chip) (r : Region) (x : XbarS) : (c.setXbar r x).bad = c.bad := rfl
@[simp] theorem Chip.setXbar_access (c : Chip) (r : Region) (x : XbarS) : (c.setXbar r x).access = c.access := rfl
@[simp] theorem Chip.setXbar_course (c : Chip) (r : Region) (x : XbarS) : (c.setXbar r x).course = c.course := rfl
@[simp] theorem Chip.setXbar_ports (c : Chip) (r : Region) (x : XbarS) : (c.setXbar r x).ports = c.ports := rfl
@[simp] theorem Chip.setXbar_bridge (c : Chip) (r : Region) (x : XbarS) : (c.setXbar r x).bridge = c.bridge := rfl
@[simp] theorem Chip.setXbar_host (c : Chip) (r : Region) (x : XbarS) : (c.setXbar r x).host = c.host := rfl
@[simp] theorem Chip.setXbar_awl (c : Chip) (r : Region) (x : XbarS) : (c.setXbar r x).awl = c.awl := rfl
@[simp] theorem Chip.setXbar_mems (c : Chip) (r : Region) (x : XbarS) : (c.setXbar r x).mems = c.mems := rfl
@[simp] theorem Chip.setXbar_fabs (c : Chip) (r : Region) (x : XbarS) : (c.setXbar r x).fabs = c.fabs := rfl
@[simp] theorem Chip.setXbar_repoint (c : Chip) (r : Region) (x : XbarS) : (c.setXbar r x).repoint = c.repoint := rfl
@[simp] theorem Chip.setXbar_blocks (c : Chip) (r : Region) (x : XbarS) : (c.setXbar r x).blocks = c.blocks := rfl
@[simp] theorem Chip.setXbar_cobs (c : Chip) (r : Region) (x : XbarS) : (c.setXbar r x).cobs = c.cobs := rfl
@[simp] theorem Chip.setXbar_morts (c : Chip) (r : Region) (x : XbarS) : (c.setXbar r x).morts = c.morts := rfl
@[simp] theorem Chip.setXbar_plumb (c : Chip) (r : Region) (x : XbarS) : (c.setXbar r x).plumb = c.plumb := rfl
@[simp] theorem Chip.setXbar_pwr (c : Chip) (r : Region) (x : XbarS) : (c.setXbar r x).pwr = c.pwr := rfl
@[simp] theorem Chip.setSess_now (c : Chip) (k : Nat) (x : SessS) : (c.setSess k x).now = c.now := rfl
@[simp] theorem Chip.setSess_free (c : Chip) (k : Nat) (x : SessS) : (c.setSess k x).free = c.free := rfl
@[simp] theorem Chip.setSess_fuses (c : Chip) (k : Nat) (x : SessS) : (c.setSess k x).fuses = c.fuses := rfl
@[simp] theorem Chip.setSess_straps (c : Chip) (k : Nat) (x : SessS) : (c.setSess k x).straps = c.straps := rfl
@[simp] theorem Chip.setSess_tap (c : Chip) (k : Nat) (x : SessS) : (c.setSess k x).tap = c.tap := rfl
@[simp] theorem Chip.setSess_boot (c : Chip) (k : Nat) (x : SessS) : (c.setSess k x).boot = c.boot := rfl
@[simp] theorem Chip.setSess_flash (c : Chip) (k : Nat) (x : SessS) : (c.setSess k x).flash = c.flash := rfl
@[simp] theorem Chip.setSess_flashOps (c : Chip) (k : Nat) (x : SessS) : (c.setSess k x).flashOps = c.flashOps := rfl
@[simp] theorem Chip.setSess_flashReply (c : Chip) (k : Nat) (x : SessS) : (c.setSess k x).flashReply = c.flashReply := rfl
@[simp] theorem Chip.setSess_xfer (c : Chip) (k : Nat) (x : SessS) : (c.setSess k x).xfer = c.xfer := rfl
@[simp] theorem Chip.setSess_sec (c : Chip) (k : Nat) (x : SessS) : (c.setSess k x).sec = c.sec := rfl
@[simp] theorem Chip.setSess_regs (c : Chip) (k : Nat) (x : SessS) : (c.setSess k x).regs = c.regs := rfl
@[simp] theorem Chip.setSess_mem (c : Chip) (k : Nat) (x : SessS) : (c.setSess k x).mem = c.mem := rfl
@[simp] theorem Chip.setSess_bad (c : Chip) (k : Nat) (x : SessS) : (c.setSess k x).bad = c.bad := rfl
@[simp] theorem Chip.setSess_access (c : Chip) (k : Nat) (x : SessS) : (c.setSess k x).access = c.access := rfl
@[simp] theorem Chip.setSess_course (c : Chip) (k : Nat) (x : SessS) : (c.setSess k x).course = c.course := rfl
@[simp] theorem Chip.setSess_ports (c : Chip) (k : Nat) (x : SessS) : (c.setSess k x).ports = c.ports := rfl
@[simp] theorem Chip.setSess_xbars (c : Chip) (k : Nat) (x : SessS) : (c.setSess k x).xbars = c.xbars := rfl
@[simp] theorem Chip.setSess_host (c : Chip) (k : Nat) (x : SessS) : (c.setSess k x).host = c.host := rfl
@[simp] theorem Chip.setSess_awl (c : Chip) (k : Nat) (x : SessS) : (c.setSess k x).awl = c.awl := rfl
@[simp] theorem Chip.setSess_mems (c : Chip) (k : Nat) (x : SessS) : (c.setSess k x).mems = c.mems := rfl
@[simp] theorem Chip.setSess_fabs (c : Chip) (k : Nat) (x : SessS) : (c.setSess k x).fabs = c.fabs := rfl
@[simp] theorem Chip.setSess_repoint (c : Chip) (k : Nat) (x : SessS) : (c.setSess k x).repoint = c.repoint := rfl
@[simp] theorem Chip.setSess_blocks (c : Chip) (k : Nat) (x : SessS) : (c.setSess k x).blocks = c.blocks := rfl
@[simp] theorem Chip.setSess_cobs (c : Chip) (k : Nat) (x : SessS) : (c.setSess k x).cobs = c.cobs := rfl
@[simp] theorem Chip.setSess_morts (c : Chip) (k : Nat) (x : SessS) : (c.setSess k x).morts = c.morts := rfl
@[simp] theorem Chip.setSess_plumb (c : Chip) (k : Nat) (x : SessS) : (c.setSess k x).plumb = c.plumb := rfl
@[simp] theorem Chip.setSess_pwr (c : Chip) (k : Nat) (x : SessS) : (c.setSess k x).pwr = c.pwr := rfl
@[simp] theorem Chip.modPort_now (c : Chip) (p : Port) (f : PortS → PortS) : (c.modPort p f).now = c.now := rfl
@[simp] theorem Chip.modPort_free (c : Chip) (p : Port) (f : PortS → PortS) : (c.modPort p f).free = c.free := rfl
@[simp] theorem Chip.modPort_fuses (c : Chip) (p : Port) (f : PortS → PortS) : (c.modPort p f).fuses = c.fuses := rfl
@[simp] theorem Chip.modPort_straps (c : Chip) (p : Port) (f : PortS → PortS) : (c.modPort p f).straps = c.straps := rfl
@[simp] theorem Chip.modPort_tap (c : Chip) (p : Port) (f : PortS → PortS) : (c.modPort p f).tap = c.tap := rfl
@[simp] theorem Chip.modPort_boot (c : Chip) (p : Port) (f : PortS → PortS) : (c.modPort p f).boot = c.boot := rfl
@[simp] theorem Chip.modPort_flash (c : Chip) (p : Port) (f : PortS → PortS) : (c.modPort p f).flash = c.flash := rfl
@[simp] theorem Chip.modPort_flashOps (c : Chip) (p : Port) (f : PortS → PortS) : (c.modPort p f).flashOps = c.flashOps := rfl
@[simp] theorem Chip.modPort_flashReply (c : Chip) (p : Port) (f : PortS → PortS) : (c.modPort p f).flashReply = c.flashReply := rfl
@[simp] theorem Chip.modPort_xfer (c : Chip) (p : Port) (f : PortS → PortS) : (c.modPort p f).xfer = c.xfer := rfl
@[simp] theorem Chip.modPort_sec (c : Chip) (p : Port) (f : PortS → PortS) : (c.modPort p f).sec = c.sec := rfl
@[simp] theorem Chip.modPort_regs (c : Chip) (p : Port) (f : PortS → PortS) : (c.modPort p f).regs = c.regs := rfl
@[simp] theorem Chip.modPort_mem (c : Chip) (p : Port) (f : PortS → PortS) : (c.modPort p f).mem = c.mem := rfl
@[simp] theorem Chip.modPort_bad (c : Chip) (p : Port) (f : PortS → PortS) : (c.modPort p f).bad = c.bad := rfl
@[simp] theorem Chip.modPort_access (c : Chip) (p : Port) (f : PortS → PortS) : (c.modPort p f).access = c.access := rfl
@[simp] theorem Chip.modPort_course (c : Chip) (p : Port) (f : PortS → PortS) : (c.modPort p f).course = c.course := rfl
@[simp] theorem Chip.modPort_xbars (c : Chip) (p : Port) (f : PortS → PortS) : (c.modPort p f).xbars = c.xbars := rfl
@[simp] theorem Chip.modPort_bridge (c : Chip) (p : Port) (f : PortS → PortS) : (c.modPort p f).bridge = c.bridge := rfl
@[simp] theorem Chip.modPort_host (c : Chip) (p : Port) (f : PortS → PortS) : (c.modPort p f).host = c.host := rfl
@[simp] theorem Chip.modPort_awl (c : Chip) (p : Port) (f : PortS → PortS) : (c.modPort p f).awl = c.awl := rfl
@[simp] theorem Chip.modPort_mems (c : Chip) (p : Port) (f : PortS → PortS) : (c.modPort p f).mems = c.mems := rfl
@[simp] theorem Chip.modPort_fabs (c : Chip) (p : Port) (f : PortS → PortS) : (c.modPort p f).fabs = c.fabs := rfl
@[simp] theorem Chip.modPort_repoint (c : Chip) (p : Port) (f : PortS → PortS) : (c.modPort p f).repoint = c.repoint := rfl
@[simp] theorem Chip.modPort_blocks (c : Chip) (p : Port) (f : PortS → PortS) : (c.modPort p f).blocks = c.blocks := rfl
@[simp] theorem Chip.modPort_cobs (c : Chip) (p : Port) (f : PortS → PortS) : (c.modPort p f).cobs = c.cobs := rfl
@[simp] theorem Chip.modPort_morts (c : Chip) (p : Port) (f : PortS → PortS) : (c.modPort p f).morts = c.morts := rfl
@[simp] theorem Chip.modPort_plumb (c : Chip) (p : Port) (f : PortS → PortS) : (c.modPort p f).plumb = c.plumb := rfl
@[simp] theorem Chip.modPort_pwr (c : Chip) (p : Port) (f : PortS → PortS) : (c.modPort p f).pwr = c.pwr := rfl
@[simp] theorem Chip.modXbar_now (c : Chip) (r : Region) (f : XbarS → XbarS) : (c.modXbar r f).now = c.now := rfl
@[simp] theorem Chip.modXbar_free (c : Chip) (r : Region) (f : XbarS → XbarS) : (c.modXbar r f).free = c.free := rfl
@[simp] theorem Chip.modXbar_fuses (c : Chip) (r : Region) (f : XbarS → XbarS) : (c.modXbar r f).fuses = c.fuses := rfl
@[simp] theorem Chip.modXbar_straps (c : Chip) (r : Region) (f : XbarS → XbarS) : (c.modXbar r f).straps = c.straps := rfl
@[simp] theorem Chip.modXbar_tap (c : Chip) (r : Region) (f : XbarS → XbarS) : (c.modXbar r f).tap = c.tap := rfl
@[simp] theorem Chip.modXbar_boot (c : Chip) (r : Region) (f : XbarS → XbarS) : (c.modXbar r f).boot = c.boot := rfl
@[simp] theorem Chip.modXbar_flash (c : Chip) (r : Region) (f : XbarS → XbarS) : (c.modXbar r f).flash = c.flash := rfl
@[simp] theorem Chip.modXbar_flashOps (c : Chip) (r : Region) (f : XbarS → XbarS) : (c.modXbar r f).flashOps = c.flashOps := rfl
@[simp] theorem Chip.modXbar_flashReply (c : Chip) (r : Region) (f : XbarS → XbarS) : (c.modXbar r f).flashReply = c.flashReply := rfl
@[simp] theorem Chip.modXbar_xfer (c : Chip) (r : Region) (f : XbarS → XbarS) : (c.modXbar r f).xfer = c.xfer := rfl
@[simp] theorem Chip.modXbar_sec (c : Chip) (r : Region) (f : XbarS → XbarS) : (c.modXbar r f).sec = c.sec := rfl
@[simp] theorem Chip.modXbar_regs (c : Chip) (r : Region) (f : XbarS → XbarS) : (c.modXbar r f).regs = c.regs := rfl
@[simp] theorem Chip.modXbar_mem (c : Chip) (r : Region) (f : XbarS → XbarS) : (c.modXbar r f).mem = c.mem := rfl
@[simp] theorem Chip.modXbar_bad (c : Chip) (r : Region) (f : XbarS → XbarS) : (c.modXbar r f).bad = c.bad := rfl
@[simp] theorem Chip.modXbar_access (c : Chip) (r : Region) (f : XbarS → XbarS) : (c.modXbar r f).access = c.access := rfl
@[simp] theorem Chip.modXbar_course (c : Chip) (r : Region) (f : XbarS → XbarS) : (c.modXbar r f).course = c.course := rfl
@[simp] theorem Chip.modXbar_ports (c : Chip) (r : Region) (f : XbarS → XbarS) : (c.modXbar r f).ports = c.ports := rfl
@[simp] theorem Chip.modXbar_bridge (c : Chip) (r : Region) (f : XbarS → XbarS) : (c.modXbar r f).bridge = c.bridge := rfl
@[simp] theorem Chip.modXbar_host (c : Chip) (r : Region) (f : XbarS → XbarS) : (c.modXbar r f).host = c.host := rfl
@[simp] theorem Chip.modXbar_awl (c : Chip) (r : Region) (f : XbarS → XbarS) : (c.modXbar r f).awl = c.awl := rfl
@[simp] theorem Chip.modXbar_mems (c : Chip) (r : Region) (f : XbarS → XbarS) : (c.modXbar r f).mems = c.mems := rfl
@[simp] theorem Chip.modXbar_fabs (c : Chip) (r : Region) (f : XbarS → XbarS) : (c.modXbar r f).fabs = c.fabs := rfl
@[simp] theorem Chip.modXbar_repoint (c : Chip) (r : Region) (f : XbarS → XbarS) : (c.modXbar r f).repoint = c.repoint := rfl
@[simp] theorem Chip.modXbar_blocks (c : Chip) (r : Region) (f : XbarS → XbarS) : (c.modXbar r f).blocks = c.blocks := rfl
@[simp] theorem Chip.modXbar_cobs (c : Chip) (r : Region) (f : XbarS → XbarS) : (c.modXbar r f).cobs = c.cobs := rfl
@[simp] theorem Chip.modXbar_morts (c : Chip) (r : Region) (f : XbarS → XbarS) : (c.modXbar r f).morts = c.morts := rfl
@[simp] theorem Chip.modXbar_plumb (c : Chip) (r : Region) (f : XbarS → XbarS) : (c.modXbar r f).plumb = c.plumb := rfl
@[simp] theorem Chip.modXbar_pwr (c : Chip) (r : Region) (f : XbarS → XbarS) : (c.modXbar r f).pwr = c.pwr := rfl
@[simp] theorem Chip.modCourse_now (c : Chip) (f : CourseS → CourseS) : (c.modCourse f).now = c.now := rfl
@[simp] theorem Chip.modCourse_free (c : Chip) (f : CourseS → CourseS) : (c.modCourse f).free = c.free := rfl
@[simp] theorem Chip.modCourse_fuses (c : Chip) (f : CourseS → CourseS) : (c.modCourse f).fuses = c.fuses := rfl
@[simp] theorem Chip.modCourse_straps (c : Chip) (f : CourseS → CourseS) : (c.modCourse f).straps = c.straps := rfl
@[simp] theorem Chip.modCourse_tap (c : Chip) (f : CourseS → CourseS) : (c.modCourse f).tap = c.tap := rfl
@[simp] theorem Chip.modCourse_boot (c : Chip) (f : CourseS → CourseS) : (c.modCourse f).boot = c.boot := rfl
@[simp] theorem Chip.modCourse_flash (c : Chip) (f : CourseS → CourseS) : (c.modCourse f).flash = c.flash := rfl
@[simp] theorem Chip.modCourse_flashOps (c : Chip) (f : CourseS → CourseS) : (c.modCourse f).flashOps = c.flashOps := rfl
@[simp] theorem Chip.modCourse_flashReply (c : Chip) (f : CourseS → CourseS) : (c.modCourse f).flashReply = c.flashReply := rfl
@[simp] theorem Chip.modCourse_xfer (c : Chip) (f : CourseS → CourseS) : (c.modCourse f).xfer = c.xfer := rfl
@[simp] theorem Chip.modCourse_sec (c : Chip) (f : CourseS → CourseS) : (c.modCourse f).sec = c.sec := rfl
@[simp] theorem Chip.modCourse_regs (c : Chip) (f : CourseS → CourseS) : (c.modCourse f).regs = c.regs := rfl
@[simp] theorem Chip.modCourse_mem (c : Chip) (f : CourseS → CourseS) : (c.modCourse f).mem = c.mem := rfl
@[simp] theorem Chip.modCourse_bad (c : Chip) (f : CourseS → CourseS) : (c.modCourse f).bad = c.bad := rfl
@[simp] theorem Chip.modCourse_access (c : Chip) (f : CourseS → CourseS) : (c.modCourse f).access = c.access := rfl
@[simp] theorem Chip.modCourse_ports (c : Chip) (f : CourseS → CourseS) : (c.modCourse f).ports = c.ports := rfl
@[simp] theorem Chip.modCourse_xbars (c : Chip) (f : CourseS → CourseS) : (c.modCourse f).xbars = c.xbars := rfl
@[simp] theorem Chip.modCourse_bridge (c : Chip) (f : CourseS → CourseS) : (c.modCourse f).bridge = c.bridge := rfl
@[simp] theorem Chip.modCourse_host (c : Chip) (f : CourseS → CourseS) : (c.modCourse f).host = c.host := rfl
@[simp] theorem Chip.modCourse_awl (c : Chip) (f : CourseS → CourseS) : (c.modCourse f).awl = c.awl := rfl
@[simp] theorem Chip.modCourse_mems (c : Chip) (f : CourseS → CourseS) : (c.modCourse f).mems = c.mems := rfl
@[simp] theorem Chip.modCourse_fabs (c : Chip) (f : CourseS → CourseS) : (c.modCourse f).fabs = c.fabs := rfl
@[simp] theorem Chip.modCourse_repoint (c : Chip) (f : CourseS → CourseS) : (c.modCourse f).repoint = c.repoint := rfl
@[simp] theorem Chip.modCourse_blocks (c : Chip) (f : CourseS → CourseS) : (c.modCourse f).blocks = c.blocks := rfl
@[simp] theorem Chip.modCourse_cobs (c : Chip) (f : CourseS → CourseS) : (c.modCourse f).cobs = c.cobs := rfl
@[simp] theorem Chip.modCourse_morts (c : Chip) (f : CourseS → CourseS) : (c.modCourse f).morts = c.morts := rfl
@[simp] theorem Chip.modCourse_plumb (c : Chip) (f : CourseS → CourseS) : (c.modCourse f).plumb = c.plumb := rfl
@[simp] theorem Chip.modCourse_pwr (c : Chip) (f : CourseS → CourseS) : (c.modCourse f).pwr = c.pwr := rfl
@[simp] theorem Chip.modAwl_now (c : Chip) (f : AwlS → AwlS) : (c.modAwl f).now = c.now := rfl
@[simp] theorem Chip.modAwl_free (c : Chip) (f : AwlS → AwlS) : (c.modAwl f).free = c.free := rfl
@[simp] theorem Chip.modAwl_fuses (c : Chip) (f : AwlS → AwlS) : (c.modAwl f).fuses = c.fuses := rfl
@[simp] theorem Chip.modAwl_straps (c : Chip) (f : AwlS → AwlS) : (c.modAwl f).straps = c.straps := rfl
@[simp] theorem Chip.modAwl_tap (c : Chip) (f : AwlS → AwlS) : (c.modAwl f).tap = c.tap := rfl
@[simp] theorem Chip.modAwl_boot (c : Chip) (f : AwlS → AwlS) : (c.modAwl f).boot = c.boot := rfl
@[simp] theorem Chip.modAwl_flash (c : Chip) (f : AwlS → AwlS) : (c.modAwl f).flash = c.flash := rfl
@[simp] theorem Chip.modAwl_flashOps (c : Chip) (f : AwlS → AwlS) : (c.modAwl f).flashOps = c.flashOps := rfl
@[simp] theorem Chip.modAwl_flashReply (c : Chip) (f : AwlS → AwlS) : (c.modAwl f).flashReply = c.flashReply := rfl
@[simp] theorem Chip.modAwl_xfer (c : Chip) (f : AwlS → AwlS) : (c.modAwl f).xfer = c.xfer := rfl
@[simp] theorem Chip.modAwl_sec (c : Chip) (f : AwlS → AwlS) : (c.modAwl f).sec = c.sec := rfl
@[simp] theorem Chip.modAwl_regs (c : Chip) (f : AwlS → AwlS) : (c.modAwl f).regs = c.regs := rfl
@[simp] theorem Chip.modAwl_mem (c : Chip) (f : AwlS → AwlS) : (c.modAwl f).mem = c.mem := rfl
@[simp] theorem Chip.modAwl_bad (c : Chip) (f : AwlS → AwlS) : (c.modAwl f).bad = c.bad := rfl
@[simp] theorem Chip.modAwl_access (c : Chip) (f : AwlS → AwlS) : (c.modAwl f).access = c.access := rfl
@[simp] theorem Chip.modAwl_course (c : Chip) (f : AwlS → AwlS) : (c.modAwl f).course = c.course := rfl
@[simp] theorem Chip.modAwl_ports (c : Chip) (f : AwlS → AwlS) : (c.modAwl f).ports = c.ports := rfl
@[simp] theorem Chip.modAwl_xbars (c : Chip) (f : AwlS → AwlS) : (c.modAwl f).xbars = c.xbars := rfl
@[simp] theorem Chip.modAwl_bridge (c : Chip) (f : AwlS → AwlS) : (c.modAwl f).bridge = c.bridge := rfl
@[simp] theorem Chip.modAwl_host (c : Chip) (f : AwlS → AwlS) : (c.modAwl f).host = c.host := rfl
@[simp] theorem Chip.modAwl_mems (c : Chip) (f : AwlS → AwlS) : (c.modAwl f).mems = c.mems := rfl
@[simp] theorem Chip.modAwl_fabs (c : Chip) (f : AwlS → AwlS) : (c.modAwl f).fabs = c.fabs := rfl
@[simp] theorem Chip.modAwl_repoint (c : Chip) (f : AwlS → AwlS) : (c.modAwl f).repoint = c.repoint := rfl
@[simp] theorem Chip.modAwl_blocks (c : Chip) (f : AwlS → AwlS) : (c.modAwl f).blocks = c.blocks := rfl
@[simp] theorem Chip.modAwl_cobs (c : Chip) (f : AwlS → AwlS) : (c.modAwl f).cobs = c.cobs := rfl
@[simp] theorem Chip.modAwl_morts (c : Chip) (f : AwlS → AwlS) : (c.modAwl f).morts = c.morts := rfl
@[simp] theorem Chip.modAwl_plumb (c : Chip) (f : AwlS → AwlS) : (c.modAwl f).plumb = c.plumb := rfl
@[simp] theorem Chip.modAwl_pwr (c : Chip) (f : AwlS → AwlS) : (c.modAwl f).pwr = c.pwr := rfl
@[simp] theorem Chip.modRepoint_now (c : Chip) (f : RepointS → RepointS) : (c.modRepoint f).now = c.now := rfl
@[simp] theorem Chip.modRepoint_free (c : Chip) (f : RepointS → RepointS) : (c.modRepoint f).free = c.free := rfl
@[simp] theorem Chip.modRepoint_fuses (c : Chip) (f : RepointS → RepointS) : (c.modRepoint f).fuses = c.fuses := rfl
@[simp] theorem Chip.modRepoint_straps (c : Chip) (f : RepointS → RepointS) : (c.modRepoint f).straps = c.straps := rfl
@[simp] theorem Chip.modRepoint_tap (c : Chip) (f : RepointS → RepointS) : (c.modRepoint f).tap = c.tap := rfl
@[simp] theorem Chip.modRepoint_boot (c : Chip) (f : RepointS → RepointS) : (c.modRepoint f).boot = c.boot := rfl
@[simp] theorem Chip.modRepoint_flash (c : Chip) (f : RepointS → RepointS) : (c.modRepoint f).flash = c.flash := rfl
@[simp] theorem Chip.modRepoint_flashOps (c : Chip) (f : RepointS → RepointS) : (c.modRepoint f).flashOps = c.flashOps := rfl
@[simp] theorem Chip.modRepoint_flashReply (c : Chip) (f : RepointS → RepointS) : (c.modRepoint f).flashReply = c.flashReply := rfl
@[simp] theorem Chip.modRepoint_xfer (c : Chip) (f : RepointS → RepointS) : (c.modRepoint f).xfer = c.xfer := rfl
@[simp] theorem Chip.modRepoint_sec (c : Chip) (f : RepointS → RepointS) : (c.modRepoint f).sec = c.sec := rfl
@[simp] theorem Chip.modRepoint_regs (c : Chip) (f : RepointS → RepointS) : (c.modRepoint f).regs = c.regs := rfl
@[simp] theorem Chip.modRepoint_mem (c : Chip) (f : RepointS → RepointS) : (c.modRepoint f).mem = c.mem := rfl
@[simp] theorem Chip.modRepoint_bad (c : Chip) (f : RepointS → RepointS) : (c.modRepoint f).bad = c.bad := rfl
@[simp] theorem Chip.modRepoint_access (c : Chip) (f : RepointS → RepointS) : (c.modRepoint f).access = c.access := rfl
@[simp] theorem Chip.modRepoint_course (c : Chip) (f : RepointS → RepointS) : (c.modRepoint f).course = c.course := rfl
@[simp] theorem Chip.modRepoint_ports (c : Chip) (f : RepointS → RepointS) : (c.modRepoint f).ports = c.ports := rfl
@[simp] theorem Chip.modRepoint_xbars (c : Chip) (f : RepointS → RepointS) : (c.modRepoint f).xbars = c.xbars := rfl
@[simp] theorem Chip.modRepoint_bridge (c : Chip) (f : RepointS → RepointS) : (c.modRepoint f).bridge = c.bridge := rfl
@[simp] theorem Chip.modRepoint_host (c : Chip) (f : RepointS → RepointS) : (c.modRepoint f).host = c.host := rfl
@[simp] theorem Chip.modRepoint_awl (c : Chip) (f : RepointS → RepointS) : (c.modRepoint f).awl = c.awl := rfl
@[simp] theorem Chip.modRepoint_mems (c : Chip) (f : RepointS → RepointS) : (c.modRepoint f).mems = c.mems := rfl
@[simp] theorem Chip.modRepoint_fabs (c : Chip) (f : RepointS → RepointS) : (c.modRepoint f).fabs = c.fabs := rfl
@[simp] theorem Chip.modRepoint_blocks (c : Chip) (f : RepointS → RepointS) : (c.modRepoint f).blocks = c.blocks := rfl
@[simp] theorem Chip.modRepoint_cobs (c : Chip) (f : RepointS → RepointS) : (c.modRepoint f).cobs = c.cobs := rfl
@[simp] theorem Chip.modRepoint_morts (c : Chip) (f : RepointS → RepointS) : (c.modRepoint f).morts = c.morts := rfl
@[simp] theorem Chip.modRepoint_plumb (c : Chip) (f : RepointS → RepointS) : (c.modRepoint f).plumb = c.plumb := rfl
@[simp] theorem Chip.modRepoint_pwr (c : Chip) (f : RepointS → RepointS) : (c.modRepoint f).pwr = c.pwr := rfl
@[simp] theorem Chip.modMem_now (c : Chip) (s : Stack) (f : MemS → MemS) : (c.modMem s f).now = c.now := rfl
@[simp] theorem Chip.modMem_free (c : Chip) (s : Stack) (f : MemS → MemS) : (c.modMem s f).free = c.free := rfl
@[simp] theorem Chip.modMem_fuses (c : Chip) (s : Stack) (f : MemS → MemS) : (c.modMem s f).fuses = c.fuses := rfl
@[simp] theorem Chip.modMem_straps (c : Chip) (s : Stack) (f : MemS → MemS) : (c.modMem s f).straps = c.straps := rfl
@[simp] theorem Chip.modMem_tap (c : Chip) (s : Stack) (f : MemS → MemS) : (c.modMem s f).tap = c.tap := rfl
@[simp] theorem Chip.modMem_boot (c : Chip) (s : Stack) (f : MemS → MemS) : (c.modMem s f).boot = c.boot := rfl
@[simp] theorem Chip.modMem_flash (c : Chip) (s : Stack) (f : MemS → MemS) : (c.modMem s f).flash = c.flash := rfl
@[simp] theorem Chip.modMem_flashOps (c : Chip) (s : Stack) (f : MemS → MemS) : (c.modMem s f).flashOps = c.flashOps := rfl
@[simp] theorem Chip.modMem_flashReply (c : Chip) (s : Stack) (f : MemS → MemS) : (c.modMem s f).flashReply = c.flashReply := rfl
@[simp] theorem Chip.modMem_xfer (c : Chip) (s : Stack) (f : MemS → MemS) : (c.modMem s f).xfer = c.xfer := rfl
@[simp] theorem Chip.modMem_sec (c : Chip) (s : Stack) (f : MemS → MemS) : (c.modMem s f).sec = c.sec := rfl
@[simp] theorem Chip.modMem_regs (c : Chip) (s : Stack) (f : MemS → MemS) : (c.modMem s f).regs = c.regs := rfl
@[simp] theorem Chip.modMem_mem (c : Chip) (s : Stack) (f : MemS → MemS) : (c.modMem s f).mem = c.mem := rfl
@[simp] theorem Chip.modMem_bad (c : Chip) (s : Stack) (f : MemS → MemS) : (c.modMem s f).bad = c.bad := rfl
@[simp] theorem Chip.modMem_access (c : Chip) (s : Stack) (f : MemS → MemS) : (c.modMem s f).access = c.access := rfl
@[simp] theorem Chip.modMem_course (c : Chip) (s : Stack) (f : MemS → MemS) : (c.modMem s f).course = c.course := rfl
@[simp] theorem Chip.modMem_ports (c : Chip) (s : Stack) (f : MemS → MemS) : (c.modMem s f).ports = c.ports := rfl
@[simp] theorem Chip.modMem_xbars (c : Chip) (s : Stack) (f : MemS → MemS) : (c.modMem s f).xbars = c.xbars := rfl
@[simp] theorem Chip.modMem_bridge (c : Chip) (s : Stack) (f : MemS → MemS) : (c.modMem s f).bridge = c.bridge := rfl
@[simp] theorem Chip.modMem_host (c : Chip) (s : Stack) (f : MemS → MemS) : (c.modMem s f).host = c.host := rfl
@[simp] theorem Chip.modMem_awl (c : Chip) (s : Stack) (f : MemS → MemS) : (c.modMem s f).awl = c.awl := rfl
@[simp] theorem Chip.modMem_fabs (c : Chip) (s : Stack) (f : MemS → MemS) : (c.modMem s f).fabs = c.fabs := rfl
@[simp] theorem Chip.modMem_repoint (c : Chip) (s : Stack) (f : MemS → MemS) : (c.modMem s f).repoint = c.repoint := rfl
@[simp] theorem Chip.modMem_blocks (c : Chip) (s : Stack) (f : MemS → MemS) : (c.modMem s f).blocks = c.blocks := rfl
@[simp] theorem Chip.modMem_cobs (c : Chip) (s : Stack) (f : MemS → MemS) : (c.modMem s f).cobs = c.cobs := rfl
@[simp] theorem Chip.modMem_morts (c : Chip) (s : Stack) (f : MemS → MemS) : (c.modMem s f).morts = c.morts := rfl
@[simp] theorem Chip.modMem_plumb (c : Chip) (s : Stack) (f : MemS → MemS) : (c.modMem s f).plumb = c.plumb := rfl
@[simp] theorem Chip.modMem_pwr (c : Chip) (s : Stack) (f : MemS → MemS) : (c.modMem s f).pwr = c.pwr := rfl
@[simp] theorem Chip.modBlk_now (c : Chip) (r : Region) (b : BlockIx) (f : BlockS → BlockS) : (c.modBlk r b f).now = c.now := rfl
@[simp] theorem Chip.modBlk_free (c : Chip) (r : Region) (b : BlockIx) (f : BlockS → BlockS) : (c.modBlk r b f).free = c.free := rfl
@[simp] theorem Chip.modBlk_fuses (c : Chip) (r : Region) (b : BlockIx) (f : BlockS → BlockS) : (c.modBlk r b f).fuses = c.fuses := rfl
@[simp] theorem Chip.modBlk_straps (c : Chip) (r : Region) (b : BlockIx) (f : BlockS → BlockS) : (c.modBlk r b f).straps = c.straps := rfl
@[simp] theorem Chip.modBlk_tap (c : Chip) (r : Region) (b : BlockIx) (f : BlockS → BlockS) : (c.modBlk r b f).tap = c.tap := rfl
@[simp] theorem Chip.modBlk_boot (c : Chip) (r : Region) (b : BlockIx) (f : BlockS → BlockS) : (c.modBlk r b f).boot = c.boot := rfl
@[simp] theorem Chip.modBlk_flash (c : Chip) (r : Region) (b : BlockIx) (f : BlockS → BlockS) : (c.modBlk r b f).flash = c.flash := rfl
@[simp] theorem Chip.modBlk_flashOps (c : Chip) (r : Region) (b : BlockIx) (f : BlockS → BlockS) : (c.modBlk r b f).flashOps = c.flashOps := rfl
@[simp] theorem Chip.modBlk_flashReply (c : Chip) (r : Region) (b : BlockIx) (f : BlockS → BlockS) : (c.modBlk r b f).flashReply = c.flashReply := rfl
@[simp] theorem Chip.modBlk_xfer (c : Chip) (r : Region) (b : BlockIx) (f : BlockS → BlockS) : (c.modBlk r b f).xfer = c.xfer := rfl
@[simp] theorem Chip.modBlk_sec (c : Chip) (r : Region) (b : BlockIx) (f : BlockS → BlockS) : (c.modBlk r b f).sec = c.sec := rfl
@[simp] theorem Chip.modBlk_regs (c : Chip) (r : Region) (b : BlockIx) (f : BlockS → BlockS) : (c.modBlk r b f).regs = c.regs := rfl
@[simp] theorem Chip.modBlk_mem (c : Chip) (r : Region) (b : BlockIx) (f : BlockS → BlockS) : (c.modBlk r b f).mem = c.mem := rfl
@[simp] theorem Chip.modBlk_bad (c : Chip) (r : Region) (b : BlockIx) (f : BlockS → BlockS) : (c.modBlk r b f).bad = c.bad := rfl
@[simp] theorem Chip.modBlk_access (c : Chip) (r : Region) (b : BlockIx) (f : BlockS → BlockS) : (c.modBlk r b f).access = c.access := rfl
@[simp] theorem Chip.modBlk_course (c : Chip) (r : Region) (b : BlockIx) (f : BlockS → BlockS) : (c.modBlk r b f).course = c.course := rfl
@[simp] theorem Chip.modBlk_ports (c : Chip) (r : Region) (b : BlockIx) (f : BlockS → BlockS) : (c.modBlk r b f).ports = c.ports := rfl
@[simp] theorem Chip.modBlk_xbars (c : Chip) (r : Region) (b : BlockIx) (f : BlockS → BlockS) : (c.modBlk r b f).xbars = c.xbars := rfl
@[simp] theorem Chip.modBlk_bridge (c : Chip) (r : Region) (b : BlockIx) (f : BlockS → BlockS) : (c.modBlk r b f).bridge = c.bridge := rfl
@[simp] theorem Chip.modBlk_host (c : Chip) (r : Region) (b : BlockIx) (f : BlockS → BlockS) : (c.modBlk r b f).host = c.host := rfl
@[simp] theorem Chip.modBlk_awl (c : Chip) (r : Region) (b : BlockIx) (f : BlockS → BlockS) : (c.modBlk r b f).awl = c.awl := rfl
@[simp] theorem Chip.modBlk_mems (c : Chip) (r : Region) (b : BlockIx) (f : BlockS → BlockS) : (c.modBlk r b f).mems = c.mems := rfl
@[simp] theorem Chip.modBlk_fabs (c : Chip) (r : Region) (b : BlockIx) (f : BlockS → BlockS) : (c.modBlk r b f).fabs = c.fabs := rfl
@[simp] theorem Chip.modBlk_repoint (c : Chip) (r : Region) (b : BlockIx) (f : BlockS → BlockS) : (c.modBlk r b f).repoint = c.repoint := rfl
@[simp] theorem Chip.modBlk_cobs (c : Chip) (r : Region) (b : BlockIx) (f : BlockS → BlockS) : (c.modBlk r b f).cobs = c.cobs := rfl
@[simp] theorem Chip.modBlk_morts (c : Chip) (r : Region) (b : BlockIx) (f : BlockS → BlockS) : (c.modBlk r b f).morts = c.morts := rfl
@[simp] theorem Chip.modBlk_plumb (c : Chip) (r : Region) (b : BlockIx) (f : BlockS → BlockS) : (c.modBlk r b f).plumb = c.plumb := rfl
@[simp] theorem Chip.modBlk_pwr (c : Chip) (r : Region) (b : BlockIx) (f : BlockS → BlockS) : (c.modBlk r b f).pwr = c.pwr := rfl
@[simp] theorem Chip.modFab_now (c : Chip) (r : Region) (f : FabS → FabS) : (c.modFab r f).now = c.now := rfl
@[simp] theorem Chip.modFab_free (c : Chip) (r : Region) (f : FabS → FabS) : (c.modFab r f).free = c.free := rfl
@[simp] theorem Chip.modFab_fuses (c : Chip) (r : Region) (f : FabS → FabS) : (c.modFab r f).fuses = c.fuses := rfl
@[simp] theorem Chip.modFab_straps (c : Chip) (r : Region) (f : FabS → FabS) : (c.modFab r f).straps = c.straps := rfl
@[simp] theorem Chip.modFab_tap (c : Chip) (r : Region) (f : FabS → FabS) : (c.modFab r f).tap = c.tap := rfl
@[simp] theorem Chip.modFab_boot (c : Chip) (r : Region) (f : FabS → FabS) : (c.modFab r f).boot = c.boot := rfl
@[simp] theorem Chip.modFab_flash (c : Chip) (r : Region) (f : FabS → FabS) : (c.modFab r f).flash = c.flash := rfl
@[simp] theorem Chip.modFab_flashOps (c : Chip) (r : Region) (f : FabS → FabS) : (c.modFab r f).flashOps = c.flashOps := rfl
@[simp] theorem Chip.modFab_flashReply (c : Chip) (r : Region) (f : FabS → FabS) : (c.modFab r f).flashReply = c.flashReply := rfl
@[simp] theorem Chip.modFab_xfer (c : Chip) (r : Region) (f : FabS → FabS) : (c.modFab r f).xfer = c.xfer := rfl
@[simp] theorem Chip.modFab_sec (c : Chip) (r : Region) (f : FabS → FabS) : (c.modFab r f).sec = c.sec := rfl
@[simp] theorem Chip.modFab_regs (c : Chip) (r : Region) (f : FabS → FabS) : (c.modFab r f).regs = c.regs := rfl
@[simp] theorem Chip.modFab_mem (c : Chip) (r : Region) (f : FabS → FabS) : (c.modFab r f).mem = c.mem := rfl
@[simp] theorem Chip.modFab_bad (c : Chip) (r : Region) (f : FabS → FabS) : (c.modFab r f).bad = c.bad := rfl
@[simp] theorem Chip.modFab_access (c : Chip) (r : Region) (f : FabS → FabS) : (c.modFab r f).access = c.access := rfl
@[simp] theorem Chip.modFab_course (c : Chip) (r : Region) (f : FabS → FabS) : (c.modFab r f).course = c.course := rfl
@[simp] theorem Chip.modFab_ports (c : Chip) (r : Region) (f : FabS → FabS) : (c.modFab r f).ports = c.ports := rfl
@[simp] theorem Chip.modFab_xbars (c : Chip) (r : Region) (f : FabS → FabS) : (c.modFab r f).xbars = c.xbars := rfl
@[simp] theorem Chip.modFab_bridge (c : Chip) (r : Region) (f : FabS → FabS) : (c.modFab r f).bridge = c.bridge := rfl
@[simp] theorem Chip.modFab_host (c : Chip) (r : Region) (f : FabS → FabS) : (c.modFab r f).host = c.host := rfl
@[simp] theorem Chip.modFab_awl (c : Chip) (r : Region) (f : FabS → FabS) : (c.modFab r f).awl = c.awl := rfl
@[simp] theorem Chip.modFab_mems (c : Chip) (r : Region) (f : FabS → FabS) : (c.modFab r f).mems = c.mems := rfl
@[simp] theorem Chip.modFab_repoint (c : Chip) (r : Region) (f : FabS → FabS) : (c.modFab r f).repoint = c.repoint := rfl
@[simp] theorem Chip.modFab_blocks (c : Chip) (r : Region) (f : FabS → FabS) : (c.modFab r f).blocks = c.blocks := rfl
@[simp] theorem Chip.modFab_cobs (c : Chip) (r : Region) (f : FabS → FabS) : (c.modFab r f).cobs = c.cobs := rfl
@[simp] theorem Chip.modFab_morts (c : Chip) (r : Region) (f : FabS → FabS) : (c.modFab r f).morts = c.morts := rfl
@[simp] theorem Chip.modFab_plumb (c : Chip) (r : Region) (f : FabS → FabS) : (c.modFab r f).plumb = c.plumb := rfl
@[simp] theorem Chip.modFab_pwr (c : Chip) (r : Region) (f : FabS → FabS) : (c.modFab r f).pwr = c.pwr := rfl
@[simp] theorem Chip.modCob_now (c : Chip) (r : Region) (f : CobS → CobS) : (c.modCob r f).now = c.now := rfl
@[simp] theorem Chip.modCob_free (c : Chip) (r : Region) (f : CobS → CobS) : (c.modCob r f).free = c.free := rfl
@[simp] theorem Chip.modCob_fuses (c : Chip) (r : Region) (f : CobS → CobS) : (c.modCob r f).fuses = c.fuses := rfl
@[simp] theorem Chip.modCob_straps (c : Chip) (r : Region) (f : CobS → CobS) : (c.modCob r f).straps = c.straps := rfl
@[simp] theorem Chip.modCob_tap (c : Chip) (r : Region) (f : CobS → CobS) : (c.modCob r f).tap = c.tap := rfl
@[simp] theorem Chip.modCob_boot (c : Chip) (r : Region) (f : CobS → CobS) : (c.modCob r f).boot = c.boot := rfl
@[simp] theorem Chip.modCob_flash (c : Chip) (r : Region) (f : CobS → CobS) : (c.modCob r f).flash = c.flash := rfl
@[simp] theorem Chip.modCob_flashOps (c : Chip) (r : Region) (f : CobS → CobS) : (c.modCob r f).flashOps = c.flashOps := rfl
@[simp] theorem Chip.modCob_flashReply (c : Chip) (r : Region) (f : CobS → CobS) : (c.modCob r f).flashReply = c.flashReply := rfl
@[simp] theorem Chip.modCob_xfer (c : Chip) (r : Region) (f : CobS → CobS) : (c.modCob r f).xfer = c.xfer := rfl
@[simp] theorem Chip.modCob_sec (c : Chip) (r : Region) (f : CobS → CobS) : (c.modCob r f).sec = c.sec := rfl
@[simp] theorem Chip.modCob_regs (c : Chip) (r : Region) (f : CobS → CobS) : (c.modCob r f).regs = c.regs := rfl
@[simp] theorem Chip.modCob_mem (c : Chip) (r : Region) (f : CobS → CobS) : (c.modCob r f).mem = c.mem := rfl
@[simp] theorem Chip.modCob_bad (c : Chip) (r : Region) (f : CobS → CobS) : (c.modCob r f).bad = c.bad := rfl
@[simp] theorem Chip.modCob_access (c : Chip) (r : Region) (f : CobS → CobS) : (c.modCob r f).access = c.access := rfl
@[simp] theorem Chip.modCob_course (c : Chip) (r : Region) (f : CobS → CobS) : (c.modCob r f).course = c.course := rfl
@[simp] theorem Chip.modCob_ports (c : Chip) (r : Region) (f : CobS → CobS) : (c.modCob r f).ports = c.ports := rfl
@[simp] theorem Chip.modCob_xbars (c : Chip) (r : Region) (f : CobS → CobS) : (c.modCob r f).xbars = c.xbars := rfl
@[simp] theorem Chip.modCob_bridge (c : Chip) (r : Region) (f : CobS → CobS) : (c.modCob r f).bridge = c.bridge := rfl
@[simp] theorem Chip.modCob_host (c : Chip) (r : Region) (f : CobS → CobS) : (c.modCob r f).host = c.host := rfl
@[simp] theorem Chip.modCob_awl (c : Chip) (r : Region) (f : CobS → CobS) : (c.modCob r f).awl = c.awl := rfl
@[simp] theorem Chip.modCob_mems (c : Chip) (r : Region) (f : CobS → CobS) : (c.modCob r f).mems = c.mems := rfl
@[simp] theorem Chip.modCob_fabs (c : Chip) (r : Region) (f : CobS → CobS) : (c.modCob r f).fabs = c.fabs := rfl
@[simp] theorem Chip.modCob_repoint (c : Chip) (r : Region) (f : CobS → CobS) : (c.modCob r f).repoint = c.repoint := rfl
@[simp] theorem Chip.modCob_blocks (c : Chip) (r : Region) (f : CobS → CobS) : (c.modCob r f).blocks = c.blocks := rfl
@[simp] theorem Chip.modCob_morts (c : Chip) (r : Region) (f : CobS → CobS) : (c.modCob r f).morts = c.morts := rfl
@[simp] theorem Chip.modCob_plumb (c : Chip) (r : Region) (f : CobS → CobS) : (c.modCob r f).plumb = c.plumb := rfl
@[simp] theorem Chip.modCob_pwr (c : Chip) (r : Region) (f : CobS → CobS) : (c.modCob r f).pwr = c.pwr := rfl
@[simp] theorem Chip.modMort_now (c : Chip) (r : Region) (f : MortS → MortS) : (c.modMort r f).now = c.now := rfl
@[simp] theorem Chip.modMort_free (c : Chip) (r : Region) (f : MortS → MortS) : (c.modMort r f).free = c.free := rfl
@[simp] theorem Chip.modMort_fuses (c : Chip) (r : Region) (f : MortS → MortS) : (c.modMort r f).fuses = c.fuses := rfl
@[simp] theorem Chip.modMort_straps (c : Chip) (r : Region) (f : MortS → MortS) : (c.modMort r f).straps = c.straps := rfl
@[simp] theorem Chip.modMort_tap (c : Chip) (r : Region) (f : MortS → MortS) : (c.modMort r f).tap = c.tap := rfl
@[simp] theorem Chip.modMort_boot (c : Chip) (r : Region) (f : MortS → MortS) : (c.modMort r f).boot = c.boot := rfl
@[simp] theorem Chip.modMort_flash (c : Chip) (r : Region) (f : MortS → MortS) : (c.modMort r f).flash = c.flash := rfl
@[simp] theorem Chip.modMort_flashOps (c : Chip) (r : Region) (f : MortS → MortS) : (c.modMort r f).flashOps = c.flashOps := rfl
@[simp] theorem Chip.modMort_flashReply (c : Chip) (r : Region) (f : MortS → MortS) : (c.modMort r f).flashReply = c.flashReply := rfl
@[simp] theorem Chip.modMort_xfer (c : Chip) (r : Region) (f : MortS → MortS) : (c.modMort r f).xfer = c.xfer := rfl
@[simp] theorem Chip.modMort_sec (c : Chip) (r : Region) (f : MortS → MortS) : (c.modMort r f).sec = c.sec := rfl
@[simp] theorem Chip.modMort_regs (c : Chip) (r : Region) (f : MortS → MortS) : (c.modMort r f).regs = c.regs := rfl
@[simp] theorem Chip.modMort_mem (c : Chip) (r : Region) (f : MortS → MortS) : (c.modMort r f).mem = c.mem := rfl
@[simp] theorem Chip.modMort_bad (c : Chip) (r : Region) (f : MortS → MortS) : (c.modMort r f).bad = c.bad := rfl
@[simp] theorem Chip.modMort_access (c : Chip) (r : Region) (f : MortS → MortS) : (c.modMort r f).access = c.access := rfl
@[simp] theorem Chip.modMort_course (c : Chip) (r : Region) (f : MortS → MortS) : (c.modMort r f).course = c.course := rfl
@[simp] theorem Chip.modMort_ports (c : Chip) (r : Region) (f : MortS → MortS) : (c.modMort r f).ports = c.ports := rfl
@[simp] theorem Chip.modMort_xbars (c : Chip) (r : Region) (f : MortS → MortS) : (c.modMort r f).xbars = c.xbars := rfl
@[simp] theorem Chip.modMort_bridge (c : Chip) (r : Region) (f : MortS → MortS) : (c.modMort r f).bridge = c.bridge := rfl
@[simp] theorem Chip.modMort_host (c : Chip) (r : Region) (f : MortS → MortS) : (c.modMort r f).host = c.host := rfl
@[simp] theorem Chip.modMort_awl (c : Chip) (r : Region) (f : MortS → MortS) : (c.modMort r f).awl = c.awl := rfl
@[simp] theorem Chip.modMort_mems (c : Chip) (r : Region) (f : MortS → MortS) : (c.modMort r f).mems = c.mems := rfl
@[simp] theorem Chip.modMort_fabs (c : Chip) (r : Region) (f : MortS → MortS) : (c.modMort r f).fabs = c.fabs := rfl
@[simp] theorem Chip.modMort_repoint (c : Chip) (r : Region) (f : MortS → MortS) : (c.modMort r f).repoint = c.repoint := rfl
@[simp] theorem Chip.modMort_blocks (c : Chip) (r : Region) (f : MortS → MortS) : (c.modMort r f).blocks = c.blocks := rfl
@[simp] theorem Chip.modMort_cobs (c : Chip) (r : Region) (f : MortS → MortS) : (c.modMort r f).cobs = c.cobs := rfl
@[simp] theorem Chip.modMort_plumb (c : Chip) (r : Region) (f : MortS → MortS) : (c.modMort r f).plumb = c.plumb := rfl
@[simp] theorem Chip.modMort_pwr (c : Chip) (r : Region) (f : MortS → MortS) : (c.modMort r f).pwr = c.pwr := rfl
@[simp] theorem Chip.modPlumb_now (c : Chip) (f : PlumbS → PlumbS) : (c.modPlumb f).now = c.now := rfl
@[simp] theorem Chip.modPlumb_free (c : Chip) (f : PlumbS → PlumbS) : (c.modPlumb f).free = c.free := rfl
@[simp] theorem Chip.modPlumb_fuses (c : Chip) (f : PlumbS → PlumbS) : (c.modPlumb f).fuses = c.fuses := rfl
@[simp] theorem Chip.modPlumb_straps (c : Chip) (f : PlumbS → PlumbS) : (c.modPlumb f).straps = c.straps := rfl
@[simp] theorem Chip.modPlumb_tap (c : Chip) (f : PlumbS → PlumbS) : (c.modPlumb f).tap = c.tap := rfl
@[simp] theorem Chip.modPlumb_boot (c : Chip) (f : PlumbS → PlumbS) : (c.modPlumb f).boot = c.boot := rfl
@[simp] theorem Chip.modPlumb_flash (c : Chip) (f : PlumbS → PlumbS) : (c.modPlumb f).flash = c.flash := rfl
@[simp] theorem Chip.modPlumb_flashOps (c : Chip) (f : PlumbS → PlumbS) : (c.modPlumb f).flashOps = c.flashOps := rfl
@[simp] theorem Chip.modPlumb_flashReply (c : Chip) (f : PlumbS → PlumbS) : (c.modPlumb f).flashReply = c.flashReply := rfl
@[simp] theorem Chip.modPlumb_xfer (c : Chip) (f : PlumbS → PlumbS) : (c.modPlumb f).xfer = c.xfer := rfl
@[simp] theorem Chip.modPlumb_sec (c : Chip) (f : PlumbS → PlumbS) : (c.modPlumb f).sec = c.sec := rfl
@[simp] theorem Chip.modPlumb_regs (c : Chip) (f : PlumbS → PlumbS) : (c.modPlumb f).regs = c.regs := rfl
@[simp] theorem Chip.modPlumb_mem (c : Chip) (f : PlumbS → PlumbS) : (c.modPlumb f).mem = c.mem := rfl
@[simp] theorem Chip.modPlumb_bad (c : Chip) (f : PlumbS → PlumbS) : (c.modPlumb f).bad = c.bad := rfl
@[simp] theorem Chip.modPlumb_access (c : Chip) (f : PlumbS → PlumbS) : (c.modPlumb f).access = c.access := rfl
@[simp] theorem Chip.modPlumb_course (c : Chip) (f : PlumbS → PlumbS) : (c.modPlumb f).course = c.course := rfl
@[simp] theorem Chip.modPlumb_ports (c : Chip) (f : PlumbS → PlumbS) : (c.modPlumb f).ports = c.ports := rfl
@[simp] theorem Chip.modPlumb_xbars (c : Chip) (f : PlumbS → PlumbS) : (c.modPlumb f).xbars = c.xbars := rfl
@[simp] theorem Chip.modPlumb_bridge (c : Chip) (f : PlumbS → PlumbS) : (c.modPlumb f).bridge = c.bridge := rfl
@[simp] theorem Chip.modPlumb_host (c : Chip) (f : PlumbS → PlumbS) : (c.modPlumb f).host = c.host := rfl
@[simp] theorem Chip.modPlumb_awl (c : Chip) (f : PlumbS → PlumbS) : (c.modPlumb f).awl = c.awl := rfl
@[simp] theorem Chip.modPlumb_mems (c : Chip) (f : PlumbS → PlumbS) : (c.modPlumb f).mems = c.mems := rfl
@[simp] theorem Chip.modPlumb_fabs (c : Chip) (f : PlumbS → PlumbS) : (c.modPlumb f).fabs = c.fabs := rfl
@[simp] theorem Chip.modPlumb_repoint (c : Chip) (f : PlumbS → PlumbS) : (c.modPlumb f).repoint = c.repoint := rfl
@[simp] theorem Chip.modPlumb_blocks (c : Chip) (f : PlumbS → PlumbS) : (c.modPlumb f).blocks = c.blocks := rfl
@[simp] theorem Chip.modPlumb_cobs (c : Chip) (f : PlumbS → PlumbS) : (c.modPlumb f).cobs = c.cobs := rfl
@[simp] theorem Chip.modPlumb_morts (c : Chip) (f : PlumbS → PlumbS) : (c.modPlumb f).morts = c.morts := rfl
@[simp] theorem Chip.modPlumb_pwr (c : Chip) (f : PlumbS → PlumbS) : (c.modPlumb f).pwr = c.pwr := rfl
@[simp] theorem Chip.modPwr_now (c : Chip) (f : PowerS → PowerS) : (c.modPwr f).now = c.now := rfl
@[simp] theorem Chip.modPwr_free (c : Chip) (f : PowerS → PowerS) : (c.modPwr f).free = c.free := rfl
@[simp] theorem Chip.modPwr_fuses (c : Chip) (f : PowerS → PowerS) : (c.modPwr f).fuses = c.fuses := rfl
@[simp] theorem Chip.modPwr_straps (c : Chip) (f : PowerS → PowerS) : (c.modPwr f).straps = c.straps := rfl
@[simp] theorem Chip.modPwr_tap (c : Chip) (f : PowerS → PowerS) : (c.modPwr f).tap = c.tap := rfl
@[simp] theorem Chip.modPwr_boot (c : Chip) (f : PowerS → PowerS) : (c.modPwr f).boot = c.boot := rfl
@[simp] theorem Chip.modPwr_flash (c : Chip) (f : PowerS → PowerS) : (c.modPwr f).flash = c.flash := rfl
@[simp] theorem Chip.modPwr_flashOps (c : Chip) (f : PowerS → PowerS) : (c.modPwr f).flashOps = c.flashOps := rfl
@[simp] theorem Chip.modPwr_flashReply (c : Chip) (f : PowerS → PowerS) : (c.modPwr f).flashReply = c.flashReply := rfl
@[simp] theorem Chip.modPwr_xfer (c : Chip) (f : PowerS → PowerS) : (c.modPwr f).xfer = c.xfer := rfl
@[simp] theorem Chip.modPwr_sec (c : Chip) (f : PowerS → PowerS) : (c.modPwr f).sec = c.sec := rfl
@[simp] theorem Chip.modPwr_regs (c : Chip) (f : PowerS → PowerS) : (c.modPwr f).regs = c.regs := rfl
@[simp] theorem Chip.modPwr_mem (c : Chip) (f : PowerS → PowerS) : (c.modPwr f).mem = c.mem := rfl
@[simp] theorem Chip.modPwr_bad (c : Chip) (f : PowerS → PowerS) : (c.modPwr f).bad = c.bad := rfl
@[simp] theorem Chip.modPwr_access (c : Chip) (f : PowerS → PowerS) : (c.modPwr f).access = c.access := rfl
@[simp] theorem Chip.modPwr_course (c : Chip) (f : PowerS → PowerS) : (c.modPwr f).course = c.course := rfl
@[simp] theorem Chip.modPwr_ports (c : Chip) (f : PowerS → PowerS) : (c.modPwr f).ports = c.ports := rfl
@[simp] theorem Chip.modPwr_xbars (c : Chip) (f : PowerS → PowerS) : (c.modPwr f).xbars = c.xbars := rfl
@[simp] theorem Chip.modPwr_bridge (c : Chip) (f : PowerS → PowerS) : (c.modPwr f).bridge = c.bridge := rfl
@[simp] theorem Chip.modPwr_host (c : Chip) (f : PowerS → PowerS) : (c.modPwr f).host = c.host := rfl
@[simp] theorem Chip.modPwr_awl (c : Chip) (f : PowerS → PowerS) : (c.modPwr f).awl = c.awl := rfl
@[simp] theorem Chip.modPwr_mems (c : Chip) (f : PowerS → PowerS) : (c.modPwr f).mems = c.mems := rfl
@[simp] theorem Chip.modPwr_fabs (c : Chip) (f : PowerS → PowerS) : (c.modPwr f).fabs = c.fabs := rfl
@[simp] theorem Chip.modPwr_repoint (c : Chip) (f : PowerS → PowerS) : (c.modPwr f).repoint = c.repoint := rfl
@[simp] theorem Chip.modPwr_blocks (c : Chip) (f : PowerS → PowerS) : (c.modPwr f).blocks = c.blocks := rfl
@[simp] theorem Chip.modPwr_cobs (c : Chip) (f : PowerS → PowerS) : (c.modPwr f).cobs = c.cobs := rfl
@[simp] theorem Chip.modPwr_morts (c : Chip) (f : PowerS → PowerS) : (c.modPwr f).morts = c.morts := rfl
@[simp] theorem Chip.modPwr_plumb (c : Chip) (f : PowerS → PowerS) : (c.modPwr f).plumb = c.plumb := rfl
@[simp] theorem Chip.modBoot_now (c : Chip) (f : BootS → BootS) : (c.modBoot f).now = c.now := rfl
@[simp] theorem Chip.modBoot_free (c : Chip) (f : BootS → BootS) : (c.modBoot f).free = c.free := rfl
@[simp] theorem Chip.modBoot_fuses (c : Chip) (f : BootS → BootS) : (c.modBoot f).fuses = c.fuses := rfl
@[simp] theorem Chip.modBoot_straps (c : Chip) (f : BootS → BootS) : (c.modBoot f).straps = c.straps := rfl
@[simp] theorem Chip.modBoot_tap (c : Chip) (f : BootS → BootS) : (c.modBoot f).tap = c.tap := rfl
@[simp] theorem Chip.modBoot_flash (c : Chip) (f : BootS → BootS) : (c.modBoot f).flash = c.flash := rfl
@[simp] theorem Chip.modBoot_flashOps (c : Chip) (f : BootS → BootS) : (c.modBoot f).flashOps = c.flashOps := rfl
@[simp] theorem Chip.modBoot_flashReply (c : Chip) (f : BootS → BootS) : (c.modBoot f).flashReply = c.flashReply := rfl
@[simp] theorem Chip.modBoot_xfer (c : Chip) (f : BootS → BootS) : (c.modBoot f).xfer = c.xfer := rfl
@[simp] theorem Chip.modBoot_sec (c : Chip) (f : BootS → BootS) : (c.modBoot f).sec = c.sec := rfl
@[simp] theorem Chip.modBoot_regs (c : Chip) (f : BootS → BootS) : (c.modBoot f).regs = c.regs := rfl
@[simp] theorem Chip.modBoot_mem (c : Chip) (f : BootS → BootS) : (c.modBoot f).mem = c.mem := rfl
@[simp] theorem Chip.modBoot_bad (c : Chip) (f : BootS → BootS) : (c.modBoot f).bad = c.bad := rfl
@[simp] theorem Chip.modBoot_access (c : Chip) (f : BootS → BootS) : (c.modBoot f).access = c.access := rfl
@[simp] theorem Chip.modBoot_course (c : Chip) (f : BootS → BootS) : (c.modBoot f).course = c.course := rfl
@[simp] theorem Chip.modBoot_ports (c : Chip) (f : BootS → BootS) : (c.modBoot f).ports = c.ports := rfl
@[simp] theorem Chip.modBoot_xbars (c : Chip) (f : BootS → BootS) : (c.modBoot f).xbars = c.xbars := rfl
@[simp] theorem Chip.modBoot_bridge (c : Chip) (f : BootS → BootS) : (c.modBoot f).bridge = c.bridge := rfl
@[simp] theorem Chip.modBoot_host (c : Chip) (f : BootS → BootS) : (c.modBoot f).host = c.host := rfl
@[simp] theorem Chip.modBoot_awl (c : Chip) (f : BootS → BootS) : (c.modBoot f).awl = c.awl := rfl
@[simp] theorem Chip.modBoot_mems (c : Chip) (f : BootS → BootS) : (c.modBoot f).mems = c.mems := rfl
@[simp] theorem Chip.modBoot_fabs (c : Chip) (f : BootS → BootS) : (c.modBoot f).fabs = c.fabs := rfl
@[simp] theorem Chip.modBoot_repoint (c : Chip) (f : BootS → BootS) : (c.modBoot f).repoint = c.repoint := rfl
@[simp] theorem Chip.modBoot_blocks (c : Chip) (f : BootS → BootS) : (c.modBoot f).blocks = c.blocks := rfl
@[simp] theorem Chip.modBoot_cobs (c : Chip) (f : BootS → BootS) : (c.modBoot f).cobs = c.cobs := rfl
@[simp] theorem Chip.modBoot_morts (c : Chip) (f : BootS → BootS) : (c.modBoot f).morts = c.morts := rfl
@[simp] theorem Chip.modBoot_plumb (c : Chip) (f : BootS → BootS) : (c.modBoot f).plumb = c.plumb := rfl
@[simp] theorem Chip.modBoot_pwr (c : Chip) (f : BootS → BootS) : (c.modBoot f).pwr = c.pwr := rfl
@[simp] theorem Chip.freeNext_now (c : Chip) : (c.freeNext).now = c.now := rfl
@[simp] theorem Chip.freeNext_fuses (c : Chip) : (c.freeNext).fuses = c.fuses := rfl
@[simp] theorem Chip.freeNext_straps (c : Chip) : (c.freeNext).straps = c.straps := rfl
@[simp] theorem Chip.freeNext_tap (c : Chip) : (c.freeNext).tap = c.tap := rfl
@[simp] theorem Chip.freeNext_boot (c : Chip) : (c.freeNext).boot = c.boot := rfl
@[simp] theorem Chip.freeNext_flash (c : Chip) : (c.freeNext).flash = c.flash := rfl
@[simp] theorem Chip.freeNext_flashOps (c : Chip) : (c.freeNext).flashOps = c.flashOps := rfl
@[simp] theorem Chip.freeNext_flashReply (c : Chip) : (c.freeNext).flashReply = c.flashReply := rfl
@[simp] theorem Chip.freeNext_xfer (c : Chip) : (c.freeNext).xfer = c.xfer := rfl
@[simp] theorem Chip.freeNext_sec (c : Chip) : (c.freeNext).sec = c.sec := rfl
@[simp] theorem Chip.freeNext_regs (c : Chip) : (c.freeNext).regs = c.regs := rfl
@[simp] theorem Chip.freeNext_mem (c : Chip) : (c.freeNext).mem = c.mem := rfl
@[simp] theorem Chip.freeNext_bad (c : Chip) : (c.freeNext).bad = c.bad := rfl
@[simp] theorem Chip.freeNext_access (c : Chip) : (c.freeNext).access = c.access := rfl
@[simp] theorem Chip.freeNext_course (c : Chip) : (c.freeNext).course = c.course := rfl
@[simp] theorem Chip.freeNext_ports (c : Chip) : (c.freeNext).ports = c.ports := rfl
@[simp] theorem Chip.freeNext_xbars (c : Chip) : (c.freeNext).xbars = c.xbars := rfl
@[simp] theorem Chip.freeNext_bridge (c : Chip) : (c.freeNext).bridge = c.bridge := rfl
@[simp] theorem Chip.freeNext_host (c : Chip) : (c.freeNext).host = c.host := rfl
@[simp] theorem Chip.freeNext_awl (c : Chip) : (c.freeNext).awl = c.awl := rfl
@[simp] theorem Chip.freeNext_mems (c : Chip) : (c.freeNext).mems = c.mems := rfl
@[simp] theorem Chip.freeNext_fabs (c : Chip) : (c.freeNext).fabs = c.fabs := rfl
@[simp] theorem Chip.freeNext_repoint (c : Chip) : (c.freeNext).repoint = c.repoint := rfl
@[simp] theorem Chip.freeNext_blocks (c : Chip) : (c.freeNext).blocks = c.blocks := rfl
@[simp] theorem Chip.freeNext_cobs (c : Chip) : (c.freeNext).cobs = c.cobs := rfl
@[simp] theorem Chip.freeNext_morts (c : Chip) : (c.freeNext).morts = c.morts := rfl
@[simp] theorem Chip.freeNext_plumb (c : Chip) : (c.freeNext).plumb = c.plumb := rfl
@[simp] theorem Chip.freeNext_pwr (c : Chip) : (c.freeNext).pwr = c.pwr := rfl
@[simp] theorem Chip.raise_now (c : Chip) (u : UnitId) (b : Nat) : (c.raise u b).now = c.now := rfl
@[simp] theorem Chip.raise_free (c : Chip) (u : UnitId) (b : Nat) : (c.raise u b).free = c.free := rfl
@[simp] theorem Chip.raise_fuses (c : Chip) (u : UnitId) (b : Nat) : (c.raise u b).fuses = c.fuses := rfl
@[simp] theorem Chip.raise_straps (c : Chip) (u : UnitId) (b : Nat) : (c.raise u b).straps = c.straps := rfl
@[simp] theorem Chip.raise_tap (c : Chip) (u : UnitId) (b : Nat) : (c.raise u b).tap = c.tap := rfl
@[simp] theorem Chip.raise_boot (c : Chip) (u : UnitId) (b : Nat) : (c.raise u b).boot = c.boot := rfl
@[simp] theorem Chip.raise_flash (c : Chip) (u : UnitId) (b : Nat) : (c.raise u b).flash = c.flash := rfl
@[simp] theorem Chip.raise_flashOps (c : Chip) (u : UnitId) (b : Nat) : (c.raise u b).flashOps = c.flashOps := rfl
@[simp] theorem Chip.raise_flashReply (c : Chip) (u : UnitId) (b : Nat) : (c.raise u b).flashReply = c.flashReply := rfl
@[simp] theorem Chip.raise_xfer (c : Chip) (u : UnitId) (b : Nat) : (c.raise u b).xfer = c.xfer := rfl
@[simp] theorem Chip.raise_sec (c : Chip) (u : UnitId) (b : Nat) : (c.raise u b).sec = c.sec := rfl
@[simp] theorem Chip.raise_mem (c : Chip) (u : UnitId) (b : Nat) : (c.raise u b).mem = c.mem := rfl
@[simp] theorem Chip.raise_bad (c : Chip) (u : UnitId) (b : Nat) : (c.raise u b).bad = c.bad := rfl
@[simp] theorem Chip.raise_access (c : Chip) (u : UnitId) (b : Nat) : (c.raise u b).access = c.access := rfl
@[simp] theorem Chip.raise_course (c : Chip) (u : UnitId) (b : Nat) : (c.raise u b).course = c.course := rfl
@[simp] theorem Chip.raise_ports (c : Chip) (u : UnitId) (b : Nat) : (c.raise u b).ports = c.ports := rfl
@[simp] theorem Chip.raise_xbars (c : Chip) (u : UnitId) (b : Nat) : (c.raise u b).xbars = c.xbars := rfl
@[simp] theorem Chip.raise_host (c : Chip) (u : UnitId) (b : Nat) : (c.raise u b).host = c.host := rfl
@[simp] theorem Chip.raise_awl (c : Chip) (u : UnitId) (b : Nat) : (c.raise u b).awl = c.awl := rfl
@[simp] theorem Chip.raise_mems (c : Chip) (u : UnitId) (b : Nat) : (c.raise u b).mems = c.mems := rfl
@[simp] theorem Chip.raise_fabs (c : Chip) (u : UnitId) (b : Nat) : (c.raise u b).fabs = c.fabs := rfl
@[simp] theorem Chip.raise_repoint (c : Chip) (u : UnitId) (b : Nat) : (c.raise u b).repoint = c.repoint := rfl
@[simp] theorem Chip.raise_blocks (c : Chip) (u : UnitId) (b : Nat) : (c.raise u b).blocks = c.blocks := rfl
@[simp] theorem Chip.raise_cobs (c : Chip) (u : UnitId) (b : Nat) : (c.raise u b).cobs = c.cobs := rfl
@[simp] theorem Chip.raise_morts (c : Chip) (u : UnitId) (b : Nat) : (c.raise u b).morts = c.morts := rfl
@[simp] theorem Chip.raise_plumb (c : Chip) (u : UnitId) (b : Nat) : (c.raise u b).plumb = c.plumb := rfl
@[simp] theorem Chip.raise_pwr (c : Chip) (u : UnitId) (b : Nat) : (c.raise u b).pwr = c.pwr := rfl
@[simp] theorem Chip.accessed_now (c : Chip) (st : Nat) (w : Word) (no : Bool) : (c.accessed st w no).now = c.now := rfl
@[simp] theorem Chip.accessed_free (c : Chip) (st : Nat) (w : Word) (no : Bool) : (c.accessed st w no).free = c.free := rfl
@[simp] theorem Chip.accessed_fuses (c : Chip) (st : Nat) (w : Word) (no : Bool) : (c.accessed st w no).fuses = c.fuses := rfl
@[simp] theorem Chip.accessed_straps (c : Chip) (st : Nat) (w : Word) (no : Bool) : (c.accessed st w no).straps = c.straps := rfl
@[simp] theorem Chip.accessed_tap (c : Chip) (st : Nat) (w : Word) (no : Bool) : (c.accessed st w no).tap = c.tap := rfl
@[simp] theorem Chip.accessed_boot (c : Chip) (st : Nat) (w : Word) (no : Bool) : (c.accessed st w no).boot = c.boot := rfl
@[simp] theorem Chip.accessed_flash (c : Chip) (st : Nat) (w : Word) (no : Bool) : (c.accessed st w no).flash = c.flash := rfl
@[simp] theorem Chip.accessed_flashOps (c : Chip) (st : Nat) (w : Word) (no : Bool) : (c.accessed st w no).flashOps = c.flashOps := rfl
@[simp] theorem Chip.accessed_flashReply (c : Chip) (st : Nat) (w : Word) (no : Bool) : (c.accessed st w no).flashReply = c.flashReply := rfl
@[simp] theorem Chip.accessed_xfer (c : Chip) (st : Nat) (w : Word) (no : Bool) : (c.accessed st w no).xfer = c.xfer := rfl
@[simp] theorem Chip.accessed_sec (c : Chip) (st : Nat) (w : Word) (no : Bool) : (c.accessed st w no).sec = c.sec := rfl
@[simp] theorem Chip.accessed_regs (c : Chip) (st : Nat) (w : Word) (no : Bool) : (c.accessed st w no).regs = c.regs := rfl
@[simp] theorem Chip.accessed_mem (c : Chip) (st : Nat) (w : Word) (no : Bool) : (c.accessed st w no).mem = c.mem := rfl
@[simp] theorem Chip.accessed_bad (c : Chip) (st : Nat) (w : Word) (no : Bool) : (c.accessed st w no).bad = c.bad := rfl
@[simp] theorem Chip.accessed_course (c : Chip) (st : Nat) (w : Word) (no : Bool) : (c.accessed st w no).course = c.course := rfl
@[simp] theorem Chip.accessed_ports (c : Chip) (st : Nat) (w : Word) (no : Bool) : (c.accessed st w no).ports = c.ports := rfl
@[simp] theorem Chip.accessed_xbars (c : Chip) (st : Nat) (w : Word) (no : Bool) : (c.accessed st w no).xbars = c.xbars := rfl
@[simp] theorem Chip.accessed_bridge (c : Chip) (st : Nat) (w : Word) (no : Bool) : (c.accessed st w no).bridge = c.bridge := rfl
@[simp] theorem Chip.accessed_host (c : Chip) (st : Nat) (w : Word) (no : Bool) : (c.accessed st w no).host = c.host := rfl
@[simp] theorem Chip.accessed_awl (c : Chip) (st : Nat) (w : Word) (no : Bool) : (c.accessed st w no).awl = c.awl := rfl
@[simp] theorem Chip.accessed_mems (c : Chip) (st : Nat) (w : Word) (no : Bool) : (c.accessed st w no).mems = c.mems := rfl
@[simp] theorem Chip.accessed_fabs (c : Chip) (st : Nat) (w : Word) (no : Bool) : (c.accessed st w no).fabs = c.fabs := rfl
@[simp] theorem Chip.accessed_repoint (c : Chip) (st : Nat) (w : Word) (no : Bool) : (c.accessed st w no).repoint = c.repoint := rfl
@[simp] theorem Chip.accessed_blocks (c : Chip) (st : Nat) (w : Word) (no : Bool) : (c.accessed st w no).blocks = c.blocks := rfl
@[simp] theorem Chip.accessed_cobs (c : Chip) (st : Nat) (w : Word) (no : Bool) : (c.accessed st w no).cobs = c.cobs := rfl
@[simp] theorem Chip.accessed_morts (c : Chip) (st : Nat) (w : Word) (no : Bool) : (c.accessed st w no).morts = c.morts := rfl
@[simp] theorem Chip.accessed_plumb (c : Chip) (st : Nat) (w : Word) (no : Bool) : (c.accessed st w no).plumb = c.plumb := rfl
@[simp] theorem Chip.accessed_pwr (c : Chip) (st : Nat) (w : Word) (no : Bool) : (c.accessed st w no).pwr = c.pwr := rfl

/-! ### What the updated part holds -/

@[simp] theorem Chip.setPort_same (c : Chip) (p : Port) (x : PortS) : (c.setPort p x).port p = x := by
  simp [Chip.setPort, Chip.port]
@[simp] theorem Chip.setXbar_same (c : Chip) (r : Region) (x : XbarS) : (c.setXbar r x).xbar r = x := by
  simp [Chip.setXbar, Chip.xbar]
@[simp] theorem Chip.setSess_same (c : Chip) (k : Nat) (x : SessS) : (c.setSess k x).sess k = x := by
  simp [Chip.setSess, Chip.sess]
@[simp] theorem Chip.modPort_same (c : Chip) (p : Port) (f : PortS → PortS) : (c.modPort p f).port p = f (c.port p) := by
  simp [Chip.modPort, Chip.port, Chip.setPort]
@[simp] theorem Chip.modXbar_same (c : Chip) (r : Region) (f : XbarS → XbarS) : (c.modXbar r f).xbar r = f (c.xbar r) := by
  simp [Chip.modXbar, Chip.xbar, Chip.setXbar]
@[simp] theorem Chip.modMem_same (c : Chip) (s : Stack) (f : MemS → MemS) : (c.modMem s f).memS s = f (c.memS s) := by
  simp [Chip.modMem, Chip.memS]
@[simp] theorem Chip.modFab_same (c : Chip) (r : Region) (f : FabS → FabS) : (c.modFab r f).fab r = f (c.fab r) := by
  simp [Chip.modFab, Chip.fab]
@[simp] theorem Chip.modCob_same (c : Chip) (r : Region) (f : CobS → CobS) : (c.modCob r f).cob r = f (c.cob r) := by
  simp [Chip.modCob, Chip.cob]
@[simp] theorem Chip.modMort_same (c : Chip) (r : Region) (f : MortS → MortS) : (c.modMort r f).mort r = f (c.mort r) := by
  simp [Chip.modMort, Chip.mort]
@[simp] theorem Chip.modBlk_same (c : Chip) (r : Region) (b : BlockIx) (f : BlockS → BlockS) : (c.modBlk r b f).blk r b = f (c.blk r b) := by
  simp [Chip.modBlk, Chip.blk, Chip.modBlock, Chip.block]
@[simp] theorem Chip.modCourse_course (c : Chip) (f : CourseS → CourseS) : (c.modCourse f).course = f c.course := rfl
@[simp] theorem Chip.modAwl_awl (c : Chip) (f : AwlS → AwlS) : (c.modAwl f).awl = f c.awl := rfl
@[simp] theorem Chip.modRepoint_repoint (c : Chip) (f : RepointS → RepointS) : (c.modRepoint f).repoint = f c.repoint := rfl
@[simp] theorem Chip.modPlumb_plumb (c : Chip) (f : PlumbS → PlumbS) : (c.modPlumb f).plumb = f c.plumb := rfl
@[simp] theorem Chip.modPwr_pwr (c : Chip) (f : PowerS → PowerS) : (c.modPwr f).pwr = f c.pwr := rfl
@[simp] theorem Chip.modBoot_boot (c : Chip) (f : BootS → BootS) : (c.modBoot f).boot = f c.boot := rfl

/-! ### Registers through the other updates -/

@[simp] theorem Chip.store_reg (c : Chip) (s : Space) (a : Nat) (l : List Byte) (u : UnitId) (q : Nat) : (c.store s a l).reg u q = c.reg u q := rfl
@[simp] theorem Chip.store_fld (c : Chip) (s : Space) (a : Nat) (l : List Byte) (u : UnitId) (g : Fld) : (c.store s a l).fld u g = c.fld u g := rfl
@[simp] theorem Chip.setPort_reg (c : Chip) (p : Port) (x : PortS) (u : UnitId) (q : Nat) : (c.setPort p x).reg u q = c.reg u q := rfl
@[simp] theorem Chip.setPort_fld (c : Chip) (p : Port) (x : PortS) (u : UnitId) (g : Fld) : (c.setPort p x).fld u g = c.fld u g := rfl
@[simp] theorem Chip.setXbar_reg (c : Chip) (r : Region) (x : XbarS) (u : UnitId) (q : Nat) : (c.setXbar r x).reg u q = c.reg u q := rfl
@[simp] theorem Chip.setXbar_fld (c : Chip) (r : Region) (x : XbarS) (u : UnitId) (g : Fld) : (c.setXbar r x).fld u g = c.fld u g := rfl
@[simp] theorem Chip.setSess_reg (c : Chip) (k : Nat) (x : SessS) (u : UnitId) (q : Nat) : (c.setSess k x).reg u q = c.reg u q := rfl
@[simp] theorem Chip.setSess_fld (c : Chip) (k : Nat) (x : SessS) (u : UnitId) (g : Fld) : (c.setSess k x).fld u g = c.fld u g := rfl
@[simp] theorem Chip.modPort_reg (c : Chip) (p : Port) (f : PortS → PortS) (u : UnitId) (q : Nat) : (c.modPort p f).reg u q = c.reg u q := rfl
@[simp] theorem Chip.modPort_fld (c : Chip) (p : Port) (f : PortS → PortS) (u : UnitId) (g : Fld) : (c.modPort p f).fld u g = c.fld u g := rfl
@[simp] theorem Chip.modXbar_reg (c : Chip) (r : Region) (f : XbarS → XbarS) (u : UnitId) (q : Nat) : (c.modXbar r f).reg u q = c.reg u q := rfl
@[simp] theorem Chip.modXbar_fld (c : Chip) (r : Region) (f : XbarS → XbarS) (u : UnitId) (g : Fld) : (c.modXbar r f).fld u g = c.fld u g := rfl
@[simp] theorem Chip.modCourse_reg (c : Chip) (f : CourseS → CourseS) (u : UnitId) (q : Nat) : (c.modCourse f).reg u q = c.reg u q := rfl
@[simp] theorem Chip.modCourse_fld (c : Chip) (f : CourseS → CourseS) (u : UnitId) (g : Fld) : (c.modCourse f).fld u g = c.fld u g := rfl
@[simp] theorem Chip.modAwl_reg (c : Chip) (f : AwlS → AwlS) (u : UnitId) (q : Nat) : (c.modAwl f).reg u q = c.reg u q := rfl
@[simp] theorem Chip.modAwl_fld (c : Chip) (f : AwlS → AwlS) (u : UnitId) (g : Fld) : (c.modAwl f).fld u g = c.fld u g := rfl
@[simp] theorem Chip.modRepoint_reg (c : Chip) (f : RepointS → RepointS) (u : UnitId) (q : Nat) : (c.modRepoint f).reg u q = c.reg u q := rfl
@[simp] theorem Chip.modRepoint_fld (c : Chip) (f : RepointS → RepointS) (u : UnitId) (g : Fld) : (c.modRepoint f).fld u g = c.fld u g := rfl
@[simp] theorem Chip.modMem_reg (c : Chip) (s : Stack) (f : MemS → MemS) (u : UnitId) (q : Nat) : (c.modMem s f).reg u q = c.reg u q := rfl
@[simp] theorem Chip.modMem_fld (c : Chip) (s : Stack) (f : MemS → MemS) (u : UnitId) (g : Fld) : (c.modMem s f).fld u g = c.fld u g := rfl
@[simp] theorem Chip.modBlk_reg (c : Chip) (r : Region) (b : BlockIx) (f : BlockS → BlockS) (u : UnitId) (q : Nat) : (c.modBlk r b f).reg u q = c.reg u q := rfl
@[simp] theorem Chip.modBlk_fld (c : Chip) (r : Region) (b : BlockIx) (f : BlockS → BlockS) (u : UnitId) (g : Fld) : (c.modBlk r b f).fld u g = c.fld u g := rfl
@[simp] theorem Chip.modBlock_now (c : Chip) (b : Nat) (f : BlockS → BlockS) : (c.modBlock b f).now = c.now := rfl
@[simp] theorem Chip.modBlock_free (c : Chip) (b : Nat) (f : BlockS → BlockS) : (c.modBlock b f).free = c.free := rfl
@[simp] theorem Chip.modBlock_fuses (c : Chip) (b : Nat) (f : BlockS → BlockS) : (c.modBlock b f).fuses = c.fuses := rfl
@[simp] theorem Chip.modBlock_straps (c : Chip) (b : Nat) (f : BlockS → BlockS) : (c.modBlock b f).straps = c.straps := rfl
@[simp] theorem Chip.modBlock_tap (c : Chip) (b : Nat) (f : BlockS → BlockS) : (c.modBlock b f).tap = c.tap := rfl
@[simp] theorem Chip.modBlock_boot (c : Chip) (b : Nat) (f : BlockS → BlockS) : (c.modBlock b f).boot = c.boot := rfl
@[simp] theorem Chip.modBlock_flash (c : Chip) (b : Nat) (f : BlockS → BlockS) : (c.modBlock b f).flash = c.flash := rfl
@[simp] theorem Chip.modBlock_flashOps (c : Chip) (b : Nat) (f : BlockS → BlockS) : (c.modBlock b f).flashOps = c.flashOps := rfl
@[simp] theorem Chip.modBlock_flashReply (c : Chip) (b : Nat) (f : BlockS → BlockS) : (c.modBlock b f).flashReply = c.flashReply := rfl
@[simp] theorem Chip.modBlock_xfer (c : Chip) (b : Nat) (f : BlockS → BlockS) : (c.modBlock b f).xfer = c.xfer := rfl
@[simp] theorem Chip.modBlock_sec (c : Chip) (b : Nat) (f : BlockS → BlockS) : (c.modBlock b f).sec = c.sec := rfl
@[simp] theorem Chip.modBlock_regs (c : Chip) (b : Nat) (f : BlockS → BlockS) : (c.modBlock b f).regs = c.regs := rfl
@[simp] theorem Chip.modBlock_mem (c : Chip) (b : Nat) (f : BlockS → BlockS) : (c.modBlock b f).mem = c.mem := rfl
@[simp] theorem Chip.modBlock_bad (c : Chip) (b : Nat) (f : BlockS → BlockS) : (c.modBlock b f).bad = c.bad := rfl
@[simp] theorem Chip.modBlock_access (c : Chip) (b : Nat) (f : BlockS → BlockS) : (c.modBlock b f).access = c.access := rfl
@[simp] theorem Chip.modBlock_course (c : Chip) (b : Nat) (f : BlockS → BlockS) : (c.modBlock b f).course = c.course := rfl
@[simp] theorem Chip.modBlock_ports (c : Chip) (b : Nat) (f : BlockS → BlockS) : (c.modBlock b f).ports = c.ports := rfl
@[simp] theorem Chip.modBlock_xbars (c : Chip) (b : Nat) (f : BlockS → BlockS) : (c.modBlock b f).xbars = c.xbars := rfl
@[simp] theorem Chip.modBlock_bridge (c : Chip) (b : Nat) (f : BlockS → BlockS) : (c.modBlock b f).bridge = c.bridge := rfl
@[simp] theorem Chip.modBlock_host (c : Chip) (b : Nat) (f : BlockS → BlockS) : (c.modBlock b f).host = c.host := rfl
@[simp] theorem Chip.modBlock_awl (c : Chip) (b : Nat) (f : BlockS → BlockS) : (c.modBlock b f).awl = c.awl := rfl
@[simp] theorem Chip.modBlock_mems (c : Chip) (b : Nat) (f : BlockS → BlockS) : (c.modBlock b f).mems = c.mems := rfl
@[simp] theorem Chip.modBlock_fabs (c : Chip) (b : Nat) (f : BlockS → BlockS) : (c.modBlock b f).fabs = c.fabs := rfl
@[simp] theorem Chip.modBlock_repoint (c : Chip) (b : Nat) (f : BlockS → BlockS) : (c.modBlock b f).repoint = c.repoint := rfl
@[simp] theorem Chip.modBlock_cobs (c : Chip) (b : Nat) (f : BlockS → BlockS) : (c.modBlock b f).cobs = c.cobs := rfl
@[simp] theorem Chip.modBlock_morts (c : Chip) (b : Nat) (f : BlockS → BlockS) : (c.modBlock b f).morts = c.morts := rfl
@[simp] theorem Chip.modBlock_plumb (c : Chip) (b : Nat) (f : BlockS → BlockS) : (c.modBlock b f).plumb = c.plumb := rfl
@[simp] theorem Chip.modBlock_pwr (c : Chip) (b : Nat) (f : BlockS → BlockS) : (c.modBlock b f).pwr = c.pwr := rfl
@[simp] theorem Chip.modBlock_reg (c : Chip) (b : Nat) (f : BlockS → BlockS) (u : UnitId) (q : Nat) : (c.modBlock b f).reg u q = c.reg u q := rfl
@[simp] theorem Chip.modBlock_fld (c : Chip) (b : Nat) (f : BlockS → BlockS) (u : UnitId) (g : Fld) : (c.modBlock b f).fld u g = c.fld u g := rfl
@[simp] theorem Chip.modFab_reg (c : Chip) (r : Region) (f : FabS → FabS) (u : UnitId) (q : Nat) : (c.modFab r f).reg u q = c.reg u q := rfl
@[simp] theorem Chip.modFab_fld (c : Chip) (r : Region) (f : FabS → FabS) (u : UnitId) (g : Fld) : (c.modFab r f).fld u g = c.fld u g := rfl
@[simp] theorem Chip.modCob_reg (c : Chip) (r : Region) (f : CobS → CobS) (u : UnitId) (q : Nat) : (c.modCob r f).reg u q = c.reg u q := rfl
@[simp] theorem Chip.modCob_fld (c : Chip) (r : Region) (f : CobS → CobS) (u : UnitId) (g : Fld) : (c.modCob r f).fld u g = c.fld u g := rfl
@[simp] theorem Chip.modMort_reg (c : Chip) (r : Region) (f : MortS → MortS) (u : UnitId) (q : Nat) : (c.modMort r f).reg u q = c.reg u q := rfl
@[simp] theorem Chip.modMort_fld (c : Chip) (r : Region) (f : MortS → MortS) (u : UnitId) (g : Fld) : (c.modMort r f).fld u g = c.fld u g := rfl
@[simp] theorem Chip.modPlumb_reg (c : Chip) (f : PlumbS → PlumbS) (u : UnitId) (q : Nat) : (c.modPlumb f).reg u q = c.reg u q := rfl
@[simp] theorem Chip.modPlumb_fld (c : Chip) (f : PlumbS → PlumbS) (u : UnitId) (g : Fld) : (c.modPlumb f).fld u g = c.fld u g := rfl
@[simp] theorem Chip.modPwr_reg (c : Chip) (f : PowerS → PowerS) (u : UnitId) (q : Nat) : (c.modPwr f).reg u q = c.reg u q := rfl
@[simp] theorem Chip.modPwr_fld (c : Chip) (f : PowerS → PowerS) (u : UnitId) (g : Fld) : (c.modPwr f).fld u g = c.fld u g := rfl
@[simp] theorem Chip.modBoot_reg (c : Chip) (f : BootS → BootS) (u : UnitId) (q : Nat) : (c.modBoot f).reg u q = c.reg u q := rfl
@[simp] theorem Chip.modBoot_fld (c : Chip) (f : BootS → BootS) (u : UnitId) (g : Fld) : (c.modBoot f).fld u g = c.fld u g := rfl
@[simp] theorem Chip.freeNext_reg (c : Chip) (u : UnitId) (q : Nat) : (c.freeNext).reg u q = c.reg u q := rfl
@[simp] theorem Chip.freeNext_fld (c : Chip) (u : UnitId) (g : Fld) : (c.freeNext).fld u g = c.fld u g := rfl
@[simp] theorem Chip.accessed_reg (c : Chip) (st : Nat) (w : Word) (no : Bool) (u : UnitId) (q : Nat) : (c.accessed st w no).reg u q = c.reg u q := rfl
@[simp] theorem Chip.accessed_fld (c : Chip) (st : Nat) (w : Word) (no : Bool) (u : UnitId) (g : Fld) : (c.accessed st w no).fld u g = c.fld u g := rfl

end Sys2Proof.Machine
end

