-- ==== Sys2Proof/Laws/Flags.lean ====
section
/-! SUPPORT. Events and captures: which registers raising an event (R56), loading, releasing and losing a capture (R58)
write, and that they write no other. -/
namespace Sys2Proof.Machine

theorem Chip.raise_reg (c : Chip) (u v : UnitId) (b q : Nat) :
    (c.raise u b).reg v q
      = (((c.setReg u 0x20 (c.reg u 0x20 ||| BitVec.ofNat 64 (2 ^ b))).setReg u 0x38
          (setBits (setBits 0 63 56 b) 31 0 (min (getBits (c.reg u 0x38) 31 0 + 1) 0xFFFFFFFF)))).reg v q := rfl

/-- R56: raising an event sets its bit and keeps the others. -/
@[simp] theorem Chip.raise_event (c : Chip) (u : UnitId) (b : Nat) :
    (c.raise u b).reg u 0x20 = c.reg u 0x20 ||| BitVec.ofNat 64 (2 ^ b) := by
  rw [Chip.raise_reg, Chip.reg_setReg_pos _ _ _ _ _ (by decide), Chip.reg_setReg_same]

/-- R56: EVT_COUNT holds the bit's number and counts the set. -/
@[simp] theorem Chip.raise_count (c : Chip) (u : UnitId) (b : Nat) :
    (c.raise u b).reg u 0x38 = setBits (setBits 0 63 56 b) 31 0 (min (getBits (c.reg u 0x38) 31 0 + 1) 0xFFFFFFFF) := by
  rw [Chip.raise_reg, Chip.reg_setReg_same]

/-- Raising an event writes no other register of its unit. -/
theorem Chip.raise_pos (c : Chip) (u : UnitId) (b q : Nat) (h1 : q ≠ 0x20) (h2 : q ≠ 0x38) :
    (c.raise u b).reg u q = c.reg u q := by
  rw [Chip.raise_reg, Chip.reg_setReg_pos _ _ _ _ _ h2, Chip.reg_setReg_pos _ _ _ _ _ h1]

/-- Raising an event writes no register of another unit. -/
theorem Chip.raise_unit (c : Chip) (u v : UnitId) (b q : Nat) (hq : q < 2 ^ 22) (h : v ≠ u) :
    (c.raise u b).reg v q = c.reg v q := by
  rw [Chip.raise_reg, Chip.reg_setReg_unit _ _ _ _ _ _ (by decide) hq h, Chip.reg_setReg_unit _ _ _ _ _ _ (by decide) hq h]

theorem Chip.raise_fld_pos (c : Chip) (u : UnitId) (b : Nat) (f : Fld) (h1 : f.pos ≠ 0x20) (h2 : f.pos ≠ 0x38) :
    (c.raise u b).fld u f = c.fld u f := by rw [Chip.fld, Chip.raise_pos _ _ _ _ h1 h2, Chip.fld]

theorem Chip.raise_fld_unit (c : Chip) (u v : UnitId) (b : Nat) (f : Fld) (hq : f.pos < 2 ^ 22) (h : v ≠ u) :
    (c.raise u b).fld v f = c.fld v f := by rw [Chip.fld, Chip.raise_unit _ _ _ _ _ hq h, Chip.fld]

@[simp] theorem Chip.raise_sessions (c : Chip) (u : UnitId) (b : Nat) :
    (c.raise u b).bridge.sessions = c.bridge.sessions := rfl
@[simp] theorem Chip.raise_holds (c : Chip) (u : UnitId) (b : Nat) : (c.raise u b).bridge.holds = c.bridge.holds := rfl
@[simp] theorem Chip.raise_events (c : Chip) (u : UnitId) (b : Nat) : (c.raise u b).bridge.events = c.bridge.events := rfl

/-- A run of raises sets the listed bits of the mask and keeps the others. -/
theorem Chip.raiseAll_bits (l : List Nat) (c : Chip) (u : UnitId) (m : Word) (i : Nat) (hi : i < 64) :
    bitAt ((l.foldl (fun c b => if bitAt m b then c.raise u b else c) c).reg u 0x20) i
      = (bitAt (c.reg u 0x20) i || (decide (i ∈ l) && bitAt m i)) := by
  induction l generalizing c with
  | nil => simp
  | cons b l ih =>
    rw [List.foldl_cons, ih]
    by_cases hb : bitAt m b = true
    · rw [if_pos hb, Chip.raise_event, bitAt_or_pow _ _ _ hi]
      by_cases e : i = b
      · subst e; simp [hb]
      · simp [e]
    · rw [if_neg hb]
      by_cases e : i = b
      · subst e; simp [hb]
      · simp [e]

/-- R57: raising every event of a mask sets those bits and no other. -/
theorem Chip.raiseAll_event (c : Chip) (u : UnitId) (m : Word) : (c.raiseAll u m).reg u 0x20 = c.reg u 0x20 ||| m := by
  apply BitVec.eq_of_getLsbD_eq
  intro i hi
  exact (Chip.raiseAll_bits (List.range 64) c u m i hi).trans (by simp [bitAt, hi])

/-- Raising events writes no other register of the unit. -/
theorem Chip.raiseAll_pos (c : Chip) (u : UnitId) (m : Word) (q : Nat) (h1 : q ≠ 0x20) (h2 : q ≠ 0x38) :
    (c.raiseAll u m).reg u q = c.reg u q := by
  have : ∀ (l : List Nat) (c : Chip), (l.foldl (fun c b => if bitAt m b then c.raise u b else c) c).reg u q = c.reg u q := by
    intro l
    induction l with
    | nil => exact fun _ => rfl
    | cons b l ih =>
      intro c
      rw [List.foldl_cons, ih]
      split
      · exact Chip.raise_pos c u b q h1 h2
      · rfl
  exact this _ c

/-- Raising events writes no register of another unit. -/
theorem Chip.raiseAll_unit (c : Chip) (u v : UnitId) (m : Word) (q : Nat) (hq : q < 2 ^ 22) (hv : v ≠ u) :
    (c.raiseAll u m).reg v q = c.reg v q := by
  have : ∀ (l : List Nat) (c : Chip), (l.foldl (fun c b => if bitAt m b then c.raise u b else c) c).reg v q = c.reg v q := by
    intro l
    induction l with
    | nil => exact fun _ => rfl
    | cons b l ih =>
      intro c
      rw [List.foldl_cons, ih]
      split
      · exact Chip.raise_unit c u v b q hq hv
      · rfl
  exact this _ c

/-- A run of stores to registers of one unit leaves every register that none of them names. -/
theorem Chip.reg_foldl_setReg (l : List Nat) (c : Chip) (u v : UnitId) (q : Nat) (pos : Nat → Nat) (w : Nat → Word)
    (h : ∀ i ∈ l, regAddr v q ≠ regAddr u (pos i)) :
    (l.foldl (fun c i => c.setReg u (pos i) (w i)) c).reg v q = c.reg v q := by
  induction l generalizing c with
  | nil => rfl
  | cons i l ih =>
    rw [List.foldl_cons, ih _ (fun j hj => h j (List.mem_cons_of_mem _ hj)),
      Chip.reg_setReg_other _ _ _ _ _ _ (h i (List.mem_cons_self ..))]

/-- R58: releasing a capture leaves 0 in ERR_CAPTURE0 to 7. -/
theorem Chip.releaseCapture_in (c : Chip) (u : UnitId) (i : Nat) (h : i < 8) :
    (c.releaseCapture u).reg u (0x40 + 8 * i) = 0 := by
  have hz : ∀ (c : Chip) (p : Nat), (c.setReg u p 0).reg u p = 0 := fun c p => c.reg_setReg_same u p 0
  simp only [Chip.releaseCapture, List.range, List.range.loop, List.foldl_cons, List.foldl_nil]
  interval_cases i <;>
    simp [Chip.reg_setReg_pos, Chip.reg_setReg_same]

/-- Releasing a capture writes no other register of the unit. -/
theorem Chip.releaseCapture_pos (c : Chip) (u : UnitId) (q : Nat) (h : q < 0x40 ∨ 0x80 ≤ q) :
    (c.releaseCapture u).reg u q = c.reg u q :=
  Chip.reg_foldl_setReg _ _ _ _ _ (fun i => 0x40 + 8 * i) (fun _ => 0) (fun i hi => by
    have := List.mem_range.mp hi
    simp only [regAddr]
    omega)

/-- Releasing a capture writes no register of another unit. -/
theorem Chip.releaseCapture_unit (c : Chip) (u v : UnitId) (q : Nat) (hq : q < 2 ^ 22) (hv : v ≠ u) :
    (c.releaseCapture u).reg v q = c.reg v q :=
  Chip.reg_foldl_setReg _ _ _ _ _ (fun i => 0x40 + 8 * i) (fun _ => 0) (fun i hi e =>
    hv (regAddr_inj v u q (0x40 + 8 * i) hq (by have := List.mem_range.mp hi; omega) e).1)

/-- R58: loading a capture fills ERR_CAPTURE0. -/
theorem Chip.loadCapture_word0 (c : Chip) (u : UnitId) (b code : Nat) (multiple : Bool) (l : List Word) :
    (c.loadCapture u b code multiple l).reg u 0x40
      = setBits (setBits (setBits (setBits (setBits 0 63 63 1) 62 62 (bit multiple)) 61 56 b) 55 48 code) 47 0
          c.courseNow := by
  simp only [Chip.loadCapture]
  rw [Chip.reg_foldl_setReg _ _ _ _ _ (fun i => 0x50 + 8 * i) (fun i => l.getD i 0)
    (fun i _ => by simp only [regAddr]; omega)]
  rw [Chip.reg_setReg_pos _ _ _ _ _ (by decide), Chip.reg_setReg_same]

/-- Loading a capture writes no register of the unit outside ERR_CAPTURE0 to 7. -/
theorem Chip.loadCapture_pos (c : Chip) (u : UnitId) (b code : Nat) (multiple : Bool) (l : List Word) (q : Nat)
    (h : q < 0x40 ∨ 0x80 ≤ q) : (c.loadCapture u b code multiple l).reg u q = c.reg u q := by
  simp only [Chip.loadCapture]
  rw [Chip.reg_foldl_setReg _ _ _ _ _ (fun i => 0x50 + 8 * i) (fun i => l.getD i 0) (fun i hi => by
    have := List.mem_range.mp hi
    simp only [regAddr]
    omega)]
  rw [Chip.reg_setReg_pos _ _ _ _ _ (by omega), Chip.reg_setReg_pos _ _ _ _ _ (by omega)]

/-- An error loads a free capture (R58). -/
theorem Chip.capture_free (c : Chip) (u : UnitId) (b code : Nat) (l : List Word) (h : bitAt (c.reg u 0x40) 63 = false) :
    c.capture u b code l = c.loadCapture u b code false l := by
  simp [Chip.capture, Chip.takeCapture, Chip.captureKept, Chip.raiseIf, h]

/-- With the capture free, an error raises its event and loads its capture (R58). -/
theorem Chip.error_free (c : Chip) (u : UnitId) (b code : Nat) (l : List Word) (h : bitAt (c.reg u 0x40) 63 = false) :
    c.error u b code l = (c.raise u b).loadCapture u b code false l := by
  have e : bitAt ((c.raise u b).reg u 0x40) 63 = false := by
    rw [Chip.raise_pos _ _ _ _ (by decide) (by decide)]; exact h
  simp [Chip.error, Chip.takeCapture, Chip.captureKept, Chip.raiseIf, h, e]

end Sys2Proof.Machine
end

