-- ==== Sys2Proof/Laws/Operands.lean ====
section
/-! SUPPORT. How a command's answer is made: what each of the shared forms can answer. -/
namespace Sys2Proof.Machine

@[simp] theorem State.put_pending (s : State) (c : Chip) : (s.put c).pending = s.pending := rfl
@[simp] theorem State.put_fuses (s : State) (c : Chip) : (s.put c).chip.fuses = s.chip.fuses := rfl
@[simp] theorem State.put_now (s : State) (c : Chip) : (s.put c).chip.now = s.chip.now := rfl
@[simp] theorem State.put_regs (s : State) (c : Chip) : (s.put c).chip.regs = c.regs := rfl
@[simp] theorem State.put_mem (s : State) (c : Chip) : (s.put c).chip.mem = c.mem := rfl
@[simp] theorem State.put_access (s : State) (c : Chip) : (s.put c).chip.access = c.access := rfl
@[simp] theorem State.put_reg (s : State) (c : Chip) (u : UnitId) (p : Nat) : (s.put c).chip.reg u p = c.reg u p := rfl
@[simp] theorem State.put_fld (s : State) (c : Chip) (u : UnitId) (f : Fld) : (s.put c).chip.fld u f = c.fld u f := rfl
@[simp] theorem State.put_self (s : State) : s.put s.chip = s := rfl

/-- A command that changes the chip by `f` answers a next state, and that one. -/
theorem State.on_eq (s : State) (f : Chip → Chip) : s.on f = .next (s.put (f s.chip)) := rfl

/-- A command of a region's unit whose partition sequence is idle acts. -/
theorem State.onLive_live (s : State) (r : Region) (f : Chip → Chip) (h : s.chip.partStep r = 0) :
    s.onLive r f = .next (s.put (f s.chip)) := by simp [State.onLive, State.on, h]

/-- R416: while the region's partition sequence runs, it changes nothing. -/
theorem State.onLive_held (s : State) (r : Region) (f : Chip → Chip) (h : s.chip.partStep r ≠ 0) :
    s.onLive r f = .next s := by simp [State.onLive, State.on, h]

/-- R50: a register write to a unit that answers OK takes effect. -/
theorem State.onReg_ok (s : State) (u : UnitId) (f : Chip → Chip × Bool) (pos : Nat)
    (h : s.chip.accessStatus (regAddr u pos) = 0) :
    s.onReg u f pos = .next (s.put ((f s.chip).1.accessed 0 0 (f s.chip).2)) := by
  simp [State.onReg, State.on, h]

/-- R50: with another status nothing is written; the host bridge records the failed access and the status goes back. -/
theorem State.onReg_bad (s : State) (u : UnitId) (f : Chip → Chip × Bool) (pos : Nat)
    (h : s.chip.accessStatus (regAddr u pos) ≠ 0) :
    s.onReg u f pos = .next (s.put ((s.chip.accessFault (regAddr u pos) (s.chip.accessStatus (regAddr u pos))).accessed
      (s.chip.accessStatus (regAddr u pos)) 0 false)) := by
  simp [State.onReg, State.on, h]

/-- The one-step equation on a queue that is not empty. -/
theorem step_cons (s : State) (c : Instr) (rest : List Instr) (h : s.pending = c :: rest) :
    step s = exec c { s with pending := rest } := by simp [step, h]

/-- The one-step equation on an empty queue. -/
theorem step_nil (s : State) (h : s.pending = []) : step s = .next (idle s) := by simp [step, h]

end Sys2Proof.Machine
end

