-- ==== Sys2Proof/Laws/Access.lean ====
section
/-! SUPPORT. Accesses by address: what a host-bridge write, a host-bridge read and a plain write of a register do. -/
namespace Sys2Proof.Machine

/-- A write with status OK is the unit's own (R50). -/
theorem Chip.hostWrite_ok (c : Chip) (a : Nat) (u : UnitId) (v : Word) (hs : c.accessStatus a = 0)
    (hu : addrUnit a = some u) :
    c.hostWrite a v = ((c.unitWrite u (a % 2 ^ 22) v).1, 0, (c.unitWrite u (a % 2 ^ 22) v).2) := by
  unfold Chip.hostWrite
  rw [hs, hu]
  rfl

/-- A read with status OK, of no debug page, is the unit's own (R50). -/
theorem Chip.hostRead_ok (c : Chip) (a : Nat) (u : UnitId) (hs : c.accessStatus a = 0) (hd : c.debugPage a = false)
    (hu : addrUnit a = some u) :
    c.hostRead a = ((c.unitRead u (a % 2 ^ 22)).1, 0, (c.unitRead u (a % 2 ^ 22)).2) := by
  unfold Chip.hostRead
  rw [hs, hu, hd]
  rfl

/-- A position below page 512 is no debug page (R474). -/
theorem Chip.debugPage_below (c : Chip) (a pos : Nat) (h : a % 2 ^ 22 = pos) (hp : pos < 0x200000) :
    c.debugPage a = false := by
  unfold Chip.debugPage
  rw [h]
  have : ¬ 512 ≤ pos / 4096 := by omega
  simp [this]

/-- A plain write leaves the word that its access types give (R11, R60). -/
theorem Chip.plainWrite_reg (c : Chip) (u : UnitId) (pos : Nat) (v : Word) (h : pos ≠ 0x20) (h' : pos ≠ 0x38) :
    (c.plainWrite u pos v).1.reg u pos = writeWord (unitType u) pos (c.held u) (c.reg u pos) v := by
  simp only [Chip.plainWrite]
  split
  · rw [Chip.raise_pos _ _ _ _ h h']; simp
  · simp

/-- A plain write refuses exactly what R60 refuses. -/
@[simp] theorem Chip.plainWrite_no (c : Chip) (u : UnitId) (pos : Nat) (v : Word) :
    (c.plainWrite u pos v).2 = writeRefused (unitType u) pos (c.held u) (c.reg u pos) v := rfl

/-- A plain write that refuses nothing stores the one register. -/
theorem Chip.plainWrite_ok (c : Chip) (u : UnitId) (pos : Nat) (v : Word)
    (h : writeRefused (unitType u) pos (c.held u) (c.reg u pos) v = false) :
    (c.plainWrite u pos v).1 = c.setReg u pos (writeWord (unitType u) pos (c.held u) (c.reg u pos) v) := by
  simp only [Chip.plainWrite, h, Bool.false_eq_true, if_false]

/-- A plain write that refuses a field also sets `locked_write`. -/
theorem Chip.plainWrite_refused (c : Chip) (u : UnitId) (pos : Nat) (v : Word)
    (h : writeRefused (unitType u) pos (c.held u) (c.reg u pos) v = true) :
    (c.plainWrite u pos v).1
      = (c.setReg u pos (writeWord (unitType u) pos (c.held u) (c.reg u pos) v)).raise u evLockedWrite := by
  simp only [Chip.plainWrite, h, if_true]

/-- A plain write changes no register but its own, EVENT and EVENT_COUNT. -/
theorem Chip.plainWrite_other (c : Chip) (u w : UnitId) (pos q : Nat) (v : Word) (hp : pos < 2 ^ 22) (hq : q < 2 ^ 22)
    (h : (w, q) ≠ (u, pos)) (h1 : (w, q) ≠ (u, 0x20)) (h2 : (w, q) ≠ (u, 0x38)) :
    (c.plainWrite u pos v).1.reg w q = c.reg w q := by
  have e : regAddr w q ≠ regAddr u pos := fun e => h (by
    obtain ⟨a, b⟩ := regAddr_inj _ _ _ _ hq hp e
    rw [a, b])
  simp only [Chip.plainWrite]
  split
  · by_cases hw : w = u
    · subst hw
      rw [Chip.raise_pos _ _ _ _ (by rintro rfl; exact h1 rfl) (by rintro rfl; exact h2 rfl),
        Chip.reg_setReg_other _ _ _ _ _ _ e]
    · rw [Chip.raise_unit _ _ _ _ _ hq hw, Chip.reg_setReg_other _ _ _ _ _ _ e]
  · exact Chip.reg_setReg_other _ _ _ _ _ _ e

@[simp] theorem Chip.plainWrite_mem (c : Chip) (u : UnitId) (pos : Nat) (v : Word) :
    (c.plainWrite u pos v).1.mem = c.mem := by
  cases h : writeRefused (unitType u) pos (c.held u) (c.reg u pos) v
  · rw [c.plainWrite_ok u pos v h, Chip.setReg_mem]
  · rw [c.plainWrite_refused u pos v h, Chip.raise_mem, Chip.setReg_mem]

@[simp] theorem Chip.plainWrite_bad (c : Chip) (u : UnitId) (pos : Nat) (v : Word) :
    (c.plainWrite u pos v).1.bad = c.bad := by
  cases h : writeRefused (unitType u) pos (c.held u) (c.reg u pos) v
  · rw [c.plainWrite_ok u pos v h, Chip.setReg_bad]
  · rw [c.plainWrite_refused u pos v h, Chip.raise_bad, Chip.setReg_bad]

end Sys2Proof.Machine
end

