-- ==== Sys2Proof/Laws/Memory.lean ====
section
/-! SUPPORT. Memory: a byte reads what was stored, a store leaves every other byte, and every operation on memory keeps
its canonical form. -/
namespace Sys2Proof.Machine

@[simp] theorem memRead_memWrite_same (m : List Host.Cell) (k : Nat) (v : Byte) : memRead (memWrite m k v) k = v := by
  simp only [memRead, memWrite]
  split
  · next h => simp [h]
  · simp

theorem memRead_memWrite_other (m : List Host.Cell) (k q : Nat) (v : Byte) (h : q ≠ k) :
    memRead (memWrite m k v) q = memRead m q := by
  simp only [memRead, memWrite]
  split
  · rw [Tab.find_del_other _ _ _ h]
  · rw [Tab.find_put_other _ _ _ _ h]

/-- A store of bytes leaves every byte below it. -/
theorem memRead_memWriteN_below (m : List Host.Cell) (k q : Nat) (l : List Byte) (h : q < k) :
    memRead (memWriteN m k l) q = memRead m q := by
  induction l generalizing m k with
  | nil => rfl
  | cons b t ih =>
    rw [memWriteN, ih _ _ (by omega), memRead_memWrite_other _ _ _ _ (by omega)]

/-- A store of bytes leaves every byte above it. -/
theorem memRead_memWriteN_above (m : List Host.Cell) (k q : Nat) (l : List Byte) (h : k + l.length ≤ q) :
    memRead (memWriteN m k l) q = memRead m q := by
  induction l generalizing m k with
  | nil => rfl
  | cons b t ih =>
    rw [List.length_cons] at h
    rw [memWriteN, ih _ _ (by omega), memRead_memWrite_other _ _ _ _ (by omega)]

/-- Byte i of a store reads back. -/
theorem memRead_memWriteN_in (m : List Host.Cell) (k i : Nat) (l : List Byte) (h : i < l.length) :
    memRead (memWriteN m k l) (k + i) = l.getD i 0 := by
  induction l generalizing m k i with
  | nil => simp at h
  | cons b t ih =>
    rw [List.length_cons] at h
    cases i with
    | zero => rw [memWriteN, memRead_memWriteN_below _ _ _ _ (by omega)]; simp
    | succ i =>
      have := ih (memWrite m k b) (k + 1) i (by omega)
      rw [memWriteN, show k + (i + 1) = k + 1 + i by omega, this]
      simp

theorem Memory.wf_nil : Memory.wf [] = true := rfl

/-- Dropping entries keeps the canonical form: clearing a space, a stack, a block, a region or a range. -/
theorem Memory.wf_filter (m : List Host.Cell) (p : Host.Cell → Bool) (h : Memory.wf m = true) :
    Memory.wf (m.filter p) = true := by
  simp only [Memory.wf, Bool.and_eq_true, List.all_eq_true] at h ⊢
  exact ⟨Tab.rising_filter m p h.1, fun e he => h.2 e (List.mem_filter.mp he).1⟩

theorem Memory.wf_put (m : List Host.Cell) (k : Nat) (v : Byte) (hv : v ≠ memDefault) (h : Memory.wf m = true) :
    Memory.wf (Tab.put m k v) = true := by
  simp only [Memory.wf, Bool.and_eq_true, List.all_eq_true] at h ⊢
  refine ⟨Tab.rising_put m k v h.1, fun e he => ?_⟩
  rcases Tab.mem_put _ _ _ _ he with rfl | he
  · simpa using hv
  · exact h.2 e he

/-- A store of one byte keeps the canonical form. -/
theorem Memory.wf_memWrite (m : List Host.Cell) (k : Nat) (v : Byte) (h : Memory.wf m = true) :
    Memory.wf (memWrite m k v) = true := by
  simp only [memWrite]
  split
  · exact Memory.wf_filter m _ h
  · next hv => exact Memory.wf_put m k v hv h

/-- A store of bytes keeps the canonical form. -/
theorem Memory.wf_memWriteN (m : List Host.Cell) (k : Nat) (l : List Byte) (h : Memory.wf m = true) :
    Memory.wf (memWriteN m k l) = true := by
  induction l generalizing m k with
  | nil => exact h
  | cons b t ih => exact ih _ _ (Memory.wf_memWrite m k b h)

/-- A move of bytes keeps the canonical form. -/
theorem Memory.wf_memMove (m : List Host.Cell) (a b n : Nat) (h : Memory.wf m = true) :
    Memory.wf (memMove m a b n) = true := by
  have hall : ∀ e ∈ m, e.2 ≠ memDefault := by
    simp only [Memory.wf, Bool.and_eq_true, List.all_eq_true, decide_eq_true_eq] at h
    exact h.2
  have key : ∀ (l : List Host.Cell) (t : List Host.Cell), (∀ e ∈ l, e.2 ≠ memDefault) → Memory.wf t = true →
      Memory.wf (l.foldr (fun e t => Tab.put t (e.1 - a + b) e.2) t) = true := by
    intro l t hl ht
    induction l with
    | nil => exact ht
    | cons e l ih =>
      exact Memory.wf_put _ _ _ (hl e (List.mem_cons_self ..)) (ih (fun f hf => hl f (List.mem_cons_of_mem _ hf)))
  exact key _ _ (fun e he => hall e (List.mem_filter.mp he).1) (Memory.wf_filter m _ h)

theorem Chip.store_wf (c : Chip) (s : Space) (a : Nat) (l : List Byte) (h : Memory.wf c.mem = true) :
    Memory.wf (c.store s a l).mem = true := Memory.wf_memWriteN _ _ _ h

theorem Chip.clearSpace_wf (c : Chip) (s : Space) (h : Memory.wf c.mem = true) :
    Memory.wf (c.clearSpace s).mem = true := Memory.wf_filter _ _ h

/-- Memory after reset has the canonical form. -/
theorem State.reset_mem_wf : Memory.wf State.reset.chip.mem = true := rfl

end Sys2Proof.Machine
end

