-- ==== Sys2Proof/Laws/Serve.lean ====
section
/-! SUPPORT. The memory block's choices: what an arbiter or a scheduler picks is a request that waits and may go. -/
namespace Sys2Proof.Machine

/-- R184, R185, R191: the scheduler's pick waits in a scheduler queue, and all its lines can be served. -/
theorem Chip.schedPick_mem {c : Chip} {s : Stack} {q : MemReq} (h : c.schedPick s = some q) :
    q ∈ (c.memS s).sched ∧ q.kind.lines.all c.lineServable = true := by
  have f : ∀ x ∈ (c.memS s).sched.filter (fun q => q.kind.lines.all c.lineServable),
      x ∈ (c.memS s).sched ∧ x.kind.lines.all c.lineServable = true := fun x hx => List.mem_filter.1 hx
  apply f
  unfold Chip.schedPick at h
  dsimp only at h
  split at h
  · next x hx => exact Option.some.inj h ▸ List.mem_of_find?_eq_some hx
  · split at h
    · next x hx => exact Option.some.inj h ▸ List.mem_of_find?_eq_some hx
    · exact List.mem_of_mem_head? h

/-- The oldest of some requests is one of them. -/
theorem oldestReq_mem {l : List MemReq} {q : MemReq} (h : oldestReq l = some q) : q ∈ l := by
  have f : ∀ (l : List MemReq) (a : Option MemReq), (l.foldl (fun a q => some (match a with
      | some (x : MemReq) => if q.at_ < x.at_ then q else x | none => q)) a) = some q → q ∈ l ∨ a = some q := by
    intro l
    induction l with
    | nil => exact fun a h => .inr h
    | cons x t ih =>
      intro a h
      rcases ih _ h with h | h
      · exact .inl (List.mem_cons_of_mem _ h)
      · have := Option.some.inj h
        split at this
        · split at this
          · exact .inl (this ▸ List.mem_cons_self)
          · exact .inr (this ▸ rfl)
        · exact .inl (this ▸ List.mem_cons_self)
  rcases f l none h with h | h
  · exact h
  · exact absurd h (by simp)

/-- R183: the arbiter's pick waits before the directory and may go. -/
theorem Chip.memPick_mem {c : Chip} {s : Stack} {q : MemReq} {a : Arb} (h : c.memPick s = some (q, a)) :
    q ∈ (c.memS s).queue ∧ c.memReady? s q = true := by
  have f : ∀ x ∈ (c.memS s).queue.filter (c.memReady? s), x ∈ (c.memS s).queue ∧ c.memReady? s x = true :=
    fun x hx => List.mem_filter.1 hx
  have g : ∀ (o : Option MemReq) (b : MemReq → Arb), o.map (fun q => (q, b q)) = some (q, a) → o = some q := by
    intro o b h
    cases o with
    | none => simp at h
    | some x => exact congrArg some (Prod.mk.inj (Option.some.inj h)).1
  apply f
  unfold Chip.memPick at h
  dsimp only at h
  generalize (if c.copyRuns s then min 511 ((c.memS s).share + c.copyShare s) else 0) = share at h
  split at h
  · next x hx => exact (Prod.mk.inj (Option.some.inj h)).1 ▸ List.mem_of_find?_eq_some hx
  · split at h
    · exact List.mem_of_find?_eq_some (g _ _ h)
    · split at h
      · next x hx => exact (Prod.mk.inj (Option.some.inj h)).1 ▸ (List.mem_filter.1 (oldestReq_mem hx)).1
      · split at h
        · next x hx => exact (Prod.mk.inj (Option.some.inj h)).1 ▸ List.mem_of_find?_eq_some hx
        · split at h
          · next x hx =>
            obtain ⟨k, -, hk⟩ := List.exists_of_findSome?_eq_some hx
            exact (Prod.mk.inj (Option.some.inj h)).1 ▸ List.mem_of_find?_eq_some hk
          · exact List.mem_of_find?_eq_some (g _ _ h)

end Sys2Proof.Machine
end

