-- ==== Sys2Proof/Tests/Slice0.lean ====
section
/-! SUPPORT. The model's own tests: what WellFormed refuses, checks of the checksums against published check values, and
for each statement of the certificates a state and operands that meet all hypotheses of each of its clauses. -/
set_option maxRecDepth 20000
open Sys2Proof Sys2Proof.Machine
namespace Sys2Proof.Tests
set_option Elab.async false

/-! ### Small states -/

/-- A chip that is out of reset with its region cores and all domains up. -/
def up : Chip :=
  ((({ boot := { coresUp := true, resetLow := false, pwrgd := true } } : Chip).setReg .power 0x150 (-1)).setReg .power 0x158
    (-1)).setReg .power 0x160 (-1)

def st (c : Chip) : State := ⟨[], c⟩

/-- Port 0 in a state and role. -/
def port0 (state role : Nat) : Chip :=
  (up.setFld (.port 0) PORT.PORT_STS_state state).setFld (.port 0) PORT.PORT_STS_role role

/-- A DATA flit of sequence number 0 with a good CRC. -/
def flit0 : List Byte := List.replicate 248 0 ++ leBytes 8 (crc64 (List.replicate 248 0))

/-- A packet of region 0's own, to EPID 5. -/
def pk0 : Packet := mkPacket 0 0 false 5 (up.epid 0) 0 0 0 0 [1, 2, 3, 4]

/-- Region 0 routes EPID 5 to its port 3. -/
def routed : Chip := up.setReg (.xbar 0) (0x1000 + 8 * 5) (setBits (1 <<< 63) 56 50 3)

/-- A SEAL for region 0. -/
def pk7 : Packet := mkPacket 7 0 false 0 0 0 0 0 0 []

/-- Regions 0 and 1 with their die-to-die link up. -/
def d2dOk : Chip := (up.setFld (.d2d 1 0) D2D.D2D_STS_up 1).setFld (.d2d 0 1) D2D.D2D_STS_up 1

/-- Key 0 of region 0 opens the first 4 KiB for reads, writes and atomics. -/
def keyed : Chip := (up.setReg (.fabmem 0) 0x1000 (0xF <<< 60)).setReg (.fabmem 0) 0x1008 1

/-- A request of 8 bytes at offset 0 of region 0, key 0. -/
def req (op seq : Nat) : Packet :=
  ⟨packW0 2 0 false 0 0 0, setBits (setBits 0 47 43 op) 42 42 1, 0, setBits (setBits 0 31 20 7) 19 0 seq, []⟩

/-- A response to it. -/
def rspOf (op seq : Nat) : Packet := ⟨packW0 3 0 false 0 0 0, setBits 0 47 43 op, 0, setBits 0 19 0 seq, []⟩

/-- Stack 0 is ready. -/
def memUp : Chip := up.setFld (.memblk 0) MEMBLK.MEM_STS_ready 1

/-- An INVOKE of program 0 on block 0 of region 0. -/
def inv : Packet := mkPacket 4 0 false 0 0 0 0 0 0 []

/-- Block 0 has program 0 on cell 0, and pool 0 a buffer. -/
def progUp : Chip :=
  { (((((up.setFld (.cblk 0 0) CBLK.PROG_A_valid 1).setFld (.cblk 0 0) CBLK.PROG_A_cell_mask 1).setFld (.cblk 0 0)
      CBLK.BLK_CTL_enable 1).setFld (.cblk 0 0) readyFld 1).setFld (.cobbler 0) COBBLER.POOL_CFG_count 64).setFld (.cobbler 0)
      readyFld 1 with
    cobs := [(0, { pools := [(0, { cache := [0] })] })] }

/-- A queued entry for cell 0. -/
def ent0 : WqE := { n := 0, state := .queued, pkt := inv, mask := 1, entry := 0, pool := 0, buffer := 0, offset := 0 }

/-- Block 0 with this work queue, and its cell 0 like this. -/
def withCell (q : List WqE) (x : CellS) : Chip := { up with blocks := [(0, { wq := q, nextWq := q.length, cells := [(0, x)] })] }
def withWq (q : List WqE) : Chip := { up with blocks := [(0, { wq := q, nextWq := q.length })] }

/-- t1 := t0 + 5 in the scalar slot, and an encoding that no table gives. -/
def addB : Bundle := ⟨(0x20 * 2 ^ 5 + 1) * 2 ^ 51 + 5, 0, 0, 0, 0, 0, 4, false⟩
def badB : Bundle := ⟨0xFF * 2 ^ 56, 0, 0, 0, 0, 0, 4, false⟩

/-- Cell 0 of block 0 runs, its next bundle having this scalar slot. -/
def cellAt (scalar : Nat) : Chip :=
  ({ (withCell [{ ent0 with state := .running }] {}) with mem := memWriteN [] (Space.imem 0 0 0).base (leBytes 64 (scalar * 256)) }).setCellState 0 0 0 1


/-- Group 0 at the Mortars of regions 0 and 1: members 0 (EPID 0) and 1 (EPID 9), `stops` stops, this one at place `own`. -/
def grp (anchor stops own : Nat) : Chip :=
  let f := fun (c : Chip) (r : Region) =>
    (((((((c.setFld (.mortar r) MORTAR.GRP_A_valid 1).setFld (.mortar r) MORTAR.GRP_A_anchor anchor).setFld (.mortar r)
      MORTAR.GRP_A_stop_count stops).setFld (.mortar r) MORTAR.GRP_A_member_count 2).setFld (.mortar r)
      MORTAR.GRP_A_region_mask 3).setFld (.mortar r) MORTAR.GRP_A_own_pos own).setReg (.mortar r) 0x1020
      0x8001000980000000).setReg (.mortar r) 0x1060 0x900000000
  f (f up 0) 1

/-- A sum of `n` 32-bit integers. -/
def sumOf (n : Nat) : Word := setBits (setBits 0 58 53 27) 28 0 n

/-- A PIECE of instance 0, piece 0. -/
def piece (phase src frag : Nat) (d : Word) (payload : List Byte) : Packet :=
  mkPacket 1 0 false 0 src 0 (setBits (setBits 0 47 45 phase) 34 32 frag) d 0 payload

/-- Group 0 of region 0 with an open instance, and this queue. -/
def withInst (c : Chip) (x : InstS) (q : List (Packet × Option Nat)) : Chip :=
  { c with morts := [(0, { groups := [(0, { insts := [(0, x)] })], queue := q })] }

/-- Job 1 holds the Mortar and the sort unit of region 0; slot 0 is an element program that emits its input (U32), of job 1. -/
def streamUp : Chip :=
  let f := fun (c : Chip) (f : Fld) (v : Nat) => c.setFld (.mortar 0) f v
  { ((f (f (f (f (f up MORTAR.SLOT_H0_valid 1) MORTAR.SLOT_H0_job_id 1) MORTAR.SLOT_H0_in_fmt 6) MORTAR.SLOT_H0_out_fmt 6)
      MORTAR.SLOT_H0_n_instr 1).setReg (.mortar 0) 0xA0040 (setBits 0 63 56 0x38)) with
    bridge := { holds := [(regAddr (.mortar 0) 0, 1), (regAddr (.sort 0) 0, 1)] } }

/-- A STREAM packet of stream 1 of EPID 3. -/
def strm (last : Nat) (payload : List Byte) : Packet :=
  mkPacket 6 0 false 0 3 1 (setBits (setBits 0 39 39 last) 31 16 1) 0 0 payload

/-- Its context, of this kind. -/
def ctx0 (kind : Nat) : CtxS := { src := 3, stream := 1, slot := 0, kind := kind, dst := 9, tc := 0, job := 1 }

/-- Key of that context. -/
abbrev key0 : Nat := 3 * 65536 + 1

/-- The chip with these contexts and batches at region 0. -/
def withCtx (c : Chip) (x : CtxS) (q : List (Packet × Option Nat)) (b : Tab BatchS) : Chip :=
  { c with morts := [(0, { ctxs := [(key0, x)], queue := q, batches := b })] }

/-- Slot 0 of the Mortar of region 0 dispatches; expert 0 takes batches of 8. -/
def mixUp : Chip :=
  let f := fun (c : Chip) (f : Fld) (v : Nat) => c.setFld (.mortar 0) f v
  (f (f (f (f (f streamUp MORTAR.SLOT_H0_kind 3) MORTAR.SLOT_H0_n_instr 0) MORTAR.SLOT_H2_row_units 1) MORTAR.SLOT_H2_out_elems 1)
    MORTAR.SLOT_H2_max_choices 1).setReg (.sort 0) 0x1000 (0x8000000000000008)

/-- An open batch of expert 0, at EPID 5. -/
def bat : BatchS := { ctx := key0, expert := 0, number := 0, epid := 5, count := 1 }

/-- A row for expert 0. -/
def row0 : List Byte := List.replicate 4 0 ++ [1, 0, 0, 0] ++ List.replicate 120 0

/-- A RESULT for batch 7 from EPID 5, with `last` or with one element. -/
def res (last : Nat) (payload : List Byte) : Packet := mkPacket 5 0 false 0 5 1 (setBits (setBits 0 32 32 last) 15 0 7) 0 0 payload

/-- The host port is up, the machine RUNNING, and session 0 OPEN for UDP port 7 of 1.2.3.4. -/
def hostUp : Chip :=
  (((((up.setFld .hostport HOSTPORT.HP_STS_link_up 1).setFld .boot BOOT.BOOT_STS_state 8).setReg .hostbr 0x1000
    (setBits (setBits 0 63 63 1) 15 0 7)).setReg .hostbr 0x1018 0x01020304).setFld .hostbr HOSTBR.SESS_SEQ_rx_next 1).setSessState 0 1

/-- Bytes of a message, and of the IPv4 packet that carries it from port 7 to `port`. -/
def msgBytes (m : Welt) : List Byte := wordBytes m.w0 ++ wordBytes m.w1 ++ wordBytes m.w2 ++ wordBytes m.w3 ++ m.payload
def ipBody (port : Nat) (m : Welt) : List Byte :=
  [0x45, 0, 0, 0x3C, 0, 0, 0, 0, 0x40, 0x11, 0x76, 0xAC, 1, 2, 3, 4, 0, 0, 0, 0, 0, 7, BitVec.ofNat 8 (port / 256),
    BitVec.ofNat 8 port, 0, BitVec.ofNat 8 (8 + (msgBytes m).length), 0, 0] ++ msgBytes m

/-- A frame with that message. -/
def frameOf (m : Welt) : Frame :=
  ⟨0, 0, true, none, false, none, 0x0800, ipBody (hostUp.fld .hostbr HOSTBR.HOSTBR_CTL_udp_port) m⟩

/-- A command of session 0. -/
def cmd (type : Nat) (argA : Word) (argB : Nat) (payload : List Byte) : Welt := mkWelt type 0 0 1 0 0 0 argA argB payload

/-- Session 0 is OPEN with this command at its head. -/
def withCmd (c : Chip) (m : Welt) : Chip :=
  { c with bridge := { c.bridge with sessions := [(0, { cmds := [(m, 0, 0)] })] } }

/-- A command at the head of session 0, and its bytes that spell a batch of one write to FUSE 0x100. -/
def oneWrite : List Byte := wordBytes (BitVec.ofNat 64 (regAddr .fuse 0x100 + 2 ^ 40)) ++ wordBytes 7

/-- Both stacks of region 0 are ready. -/
def stacksUp : Chip := (hostUp.setFld (.memblk 0) MEMBLK.MEM_STS_ready 1).setFld (.memblk 1) MEMBLK.MEM_STS_ready 1

/-- A cell image of 16 bytes for cell 0 of block 0 of region 0. -/
def image0 : List Byte := [0, 0, 0, 1, 0, 0, 0, 0, 16, 0, 0, 0] ++ List.replicate 20 0 ++ List.replicate 16 9

/-- Job 1 of this session holds these units. -/
def jobUp (l : List UnitId) (releasing : Option (Nat × Nat × Nat)) : Chip :=
  { hostUp with bridge := { holds := l.map (fun u => (regAddr u 0, 1)), jobs := [{ id := 1, exact := false, policy := 0, seed := 0, releasing := releasing }] } }

/-- A message of job 1. -/
def jobCmd (type : Nat) : Welt := mkWelt type 0 1 1 0 0 0 0 0 []

/-- A full image's header with one empty SCRIPT section. -/
def hdr0 : List Byte :=
  leBytes 4 0x4D485031 ++ [1, 0, 0, 0] ++ leBytes 4 4096 ++ List.replicate 14 0 ++ [1] ++ List.replicate 101 0 ++ [3, 0, 0, 0]
    ++ leBytes 4 4096 ++ List.replicate 3960 0

/-- A transfer of session 0. -/
def xfer0 : Xfer := { session := 0, target := true, delta := false, header := hdr0 }

/-- Plumb runs between Pysums 0 and 1; port 0 is a peer link. -/
def plumbUp : Chip := ((port0 7 2).setFld .course COURSE.TICK_CTL_role 2).setReg .plumb 0x108 3

/-- Partition step of region 0. -/
def inStep (k : Nat) (c : Chip) : Chip := c.setReg .repoint 0x120 (setBits 0 14 12 k)

/-- The boot sequencer is in a state. -/
def boots (k : Nat) : Chip := up.setFld .boot BOOT.BOOT_STS_state k

/-- A proactive request for sub-bank 3 of bank 1 of region 0, by course 0. -/
def subReq : RepointReq := ⟨.subbank 0 1 3, false, 0, 0, false⟩
/-- A DECIDE of epoch 1 with the receiver's own table digest. -/
def decideMsg (c : Chip) : List Byte :=
  [2, 0, 1, 0, 0, 0, 0, 0, 0, 0, 1, 0, 0, 0] ++ leBytes 4 c.tableDigest ++ List.replicate 38 0


/-- The same chip after `n` boundaries; and right at a boundary. -/
def after (n : Nat) (c : Chip) : Chip := { c with course := { c.course with boundaries := n } }
def atB (c : Chip) : Chip := { c with course := { c.course with running := true } }

/-- Port 0 in a state and role, with this of its own. -/
def portIs (state role : Nat) (x : PortS) : Chip := { port0 state role with ports := [(0, x)] }

/-- A codeword with these wrong symbols. -/
def cw (l : List (Fin 544)) : Codeword := ⟨0, l, []⟩

/-- The chip with this slice in region 0. -/
def withX (c : Chip) (x : XbarS) : Chip := { c with xbars := [(0, x)] }

/-- A packet at the head of an output, of one cell and landed; a stored packet of input 16. -/
def staged (p : Packet) : Staged := { pkt := p, tc := 0, cells := 1, landed := 1, storedAt := 0, src := 0, id := 0 }
def stored (p : Packet) : Stored := { pkt := p, inp := 16, tc := 0, cells := 1, copies := 1, storedAt := 0, places := [63] }

/-- Port 0 has role 1 and holds packet 4 at the head of class 0. -/
def metered : Chip :=
  withX (routed.setFld (.port 0) PORT.PORT_STS_role 1) { held := [(0, [{ id := 4 }])], store := [(4, { stored pk0 with inp := 0 })] }

/-- A packet that waits at the head of input 16, class 0 after its meter; the region's ledger has this entry. -/
def waits (p : Packet) : Stored := { stored p with copies := 0 }
def heldAt (c : Chip) (p : Packet) : Chip := withX c { held := [(128, [{ id := 4, checked := true }])], store := [(4, waits p)] }
def led0 : LedgerE :=
  { slot := 3, ord := 5, inp := 16, w0 := (req 0 9).w0, w1 := (req 0 9).w1, w2 := (req 0 9).w2, w3 := (req 0 9).w3, sentAt := 0 }
def ledUp : Chip := { up with fabs := [(0, { ledger := [led0] })] }

/-- A fabric request at stack 0, and the stack with this request in a scheduler queue, or before its directory. -/
def fq (p : Packet) (dup : Bool) : MemReq := ⟨0, .fabric 0 p dup, 0, 0, 0, false, 0⟩
def inSched (q : MemReq) : Chip := { memUp with mems := [(0, { sched := [q] })] }
def inDirQ (q : MemReq) (m : MemS) : Chip := { memUp with mems := [(0, { m with queue := [q] })] }

/-- A fabric request with eight bytes of payload; a fill of line 0 for block 3. -/
def req8 (op : Nat) : Packet := { req op 9 with payload := [1, 2, 3, 4, 5, 6, 7, 8] }
def fill0 : MemReq := ⟨1, .fill 3 0 0 0 true false, 0, 0, 0, false, 0⟩

/-- Region 0 routes EPID 0, its own. -/
def ownWay (c : Chip) : Chip := c.setReg (.xbar 0) 0x1000 (1 <<< 63)

/-- A core with one scalar register of 5; cell 0 with a bad word at the start of its shadow. -/
def badShadow (c : Chip) : Chip := { c with bad := [c.sramKey 0 0 0 ⟨.shadow, 0, true⟩] }

/-- The context of element-program stream 1 after one U32 element 5. -/
def ctx5 : CtxS :=
  let p := strm 0 [5, 0, 0, 0]
  { ctx0 0 with w1 := p.w1, w2 := p.w2, w3 := p.w3, data := true, units := 1, out := [5, 0, 0, 0] }

/-- A whole packet for the host waits on channel 0 of region 0. -/
def toHost0 (c : Chip) : Chip := withX c { staging := [(16, [staged pk0])] }

/-- Course 10^9 s-cycles after reset. -/
def long (c : Chip) : Chip := { c with now := 1000000000 }
def job1 (releasing : Option (Nat × Nat × Nat)) : Job := { id := 1, exact := false, policy := 0, seed := 0, releasing := releasing }
def rec0 : AwlRec := ⟨0, 0, 0, 1, 0, List.replicate 64 1, 0⟩

/-- A round of Plumb is open; and half of its course has passed. -/
def roundOpen : Chip := { plumbUp with plumb := { opened := true } }
def roundHalf : Chip := { roundOpen with course := { roundOpen.course with running := true }, now := 1000000000 }

theorem crc32cBit_lt {c : Nat} (h : c < 2 ^ 32) (b : Bool) : crc32cBit c b < 2 ^ 32 := by
  unfold crc32cBit
  dsimp only
  split
  · exact Nat.xor_lt_two_pow (by omega) (by decide)
  · omega

theorem crc32cByte_lt {c : Nat} (h : c < 2 ^ 32) (b : Byte) : crc32cByte c b < 2 ^ 32 := by
  have h' : ∀ (l : List Nat) (c : Nat), c < 2 ^ 32 → l.foldl (fun c i => crc32cBit c (b.getLsbD i)) c < 2 ^ 32 := by
    intro l
    induction l with
    | nil => exact fun _ h => h
    | cons a t ih => exact fun c h => ih _ (crc32cBit_lt h _)
  exact h' _ _ h

theorem crc32c_lt (l : List Byte) : crc32c l < 2 ^ 32 := by
  have h : ∀ (l : List Byte) (c : Nat), c < 2 ^ 32 → l.foldl crc32cByte c < 2 ^ 32 := by
    intro l
    induction l with
    | nil => exact fun _ h => h
    | cons a t ih => exact fun c h => ih _ (crc32cByte_lt h a)
  exact Nat.xor_lt_two_pow (h l _ (by decide)) (by decide)

theorem decideMsg_digest (c : Chip) : leAt (decideMsg c) 14 4 = c.tableDigest := by
  have h : c.tableDigest < 2 ^ 32 := crc32c_lt _
  unfold decideMsg
  generalize c.tableDigest = n at h ⊢
  simp [leAt, slice, leBytes, leNat]
  omega

/-! ### A witness for each clause: a state and operands that meet all its hypotheses -/

theorem witness_StepRunsTheFrontCommand :
  ∃ (s : State) (c : Instr) (rest : List Instr),
    s.pending = c :: rest :=
    ⟨⟨[.bootReady], up⟩, .bootReady, [], by decide +kernel⟩

theorem witness_NoRunWritesTheFuses :
  ∃ (k : Nat) (s t : State),
    core.run k s = .next t :=
    ⟨1, ⟨[.tapReset], up⟩, st { up with tap := {} }, rfl⟩

theorem witness_EveryStepConsumesItsCommand :
  (∃ (s t : State),
    step s = .next t) ∧
  (∃ (s : State),
    s.pending = []) :=
  ⟨⟨⟨[.tapReset], up⟩, st { up with tap := {} }, rfl⟩,
    ⟨st up, by decide +kernel⟩⟩

theorem witness_RegisterWriteFollowsAccessTypes :
  ∃ (s : State) (addr : BitVec 40) (u : UnitId) (pos : Nat) (_v : Word),
    plainUnit u = true ∧
    0x100 ≤ pos ∧
    reaches s.chip addr u pos :=
    ⟨st up, BitVec.ofNat 40 (regAddr .repoint 0x100), .repoint, 0x100, 5, by decide +kernel⟩

theorem witness_ReadClearsItsFieldsAndLosesNothing :
  ∃ (s : State) (addr : BitVec 40) (u : UnitId) (pos : Nat) (_hw : Word),
    plainUnit u = true ∧
    0x100 ≤ pos ∧
    reaches s.chip addr u pos ∧
    (∀ r, u = .mortar r → pos < 0x1000) :=
    ⟨st up, BitVec.ofNat 40 (regAddr (.memblk 1) 0x108), .memblk 1, 0x108, 0, by decide +kernel⟩

theorem witness_EventCapturePolicyAndMapWrites :
  (∃ (s : State) (u : UnitId) (_v : Word),
    answers s.chip u) ∧
  (∃ (s : State) (u : UnitId),
    answers s.chip u) ∧
  (∃ (s : State) (u : UnitId) (_ceil : Bool) (_v : Word),
    answers s.chip u ∧
    hasPolicy (unitType u) = true) ∧
  (∃ (s : State) (_v : Word),
    answers s.chip .chip ∧
    s.chip.held .chip = false) :=
  ⟨⟨st up, .memblk 1, 1, by decide +kernel⟩,
    ⟨st up, .memblk 1, by decide +kernel⟩,
    ⟨st up, .port 0, true, 0, by decide +kernel⟩,
    ⟨st up, 5, by decide +kernel⟩⟩

theorem witness_OnlyStatusOkWrites :
  ∃ (c : Instr) (s : State) (u : UnitId) (pos : Nat),
    let st := s.chip.accessStatus (regAddr u pos)
    writesAt c = some (u, pos) ∧
    st ≠ 0 :=
    ⟨.enableWrite 0 true, State.reset, .port 0, 0x100, by dsimp only; decide +kernel⟩

theorem witness_BoundaryStepsRunInOrder :
  (∃ (s : State),
    s.chip.course.running = true) ∧
  (∃ (c : Chip),
    c.course.started = true) :=
  ⟨⟨st (atB up), by decide +kernel⟩,
    ⟨{ up with course := { started := true } }, by decide +kernel⟩⟩

theorem witness_CourseLengthNumberAndMaster :
  (∃ (s : State) (len w : Nat),
    s.chip.atBoundary = true ∧
    s.chip.course.newLen = some (len, w) ∧
    s.chip.acting = true ∧
    s.chip.courseNow % 8 = 0 ∧
    16 ≤ s.chip.since w) ∧
  (∃ (s : State) (n w : Nat),
    s.chip.atBoundary = true ∧
    s.chip.course.adopt = some (n, w) ∧
    s.chip.anyHeld = false ∧
    0 < s.chip.since w) ∧
  (∃ (s : State) (m w : Nat),
    s.chip.atBoundary = true ∧
    s.chip.course.chosen = some (m, w) ∧
    0 < s.chip.since w ∧
    m = s.chip.pysum ∧
    s.chip.acting = false) ∧
  (∃ (s : State) (m w : Nat),
    s.chip.atBoundary = true ∧
    s.chip.course.chosen = some (m, w) ∧
    0 < s.chip.since w ∧
    m ≠ s.chip.pysum ∧
    s.chip.acting = true) ∧
  (∃ (s : State) (n : Nat),
    s.chip.course.startup = some n ∧
    s.chip.role = 1 ∧
    s.chip.acting = true ∧
    s.chip.markerTimeout ≤ s.chip.since n) :=
  ⟨⟨st (atB (after 16 ((({ up with course := { newLen := some (2, 0) } }).setFld .course COURSE.TICK_STS_acting_master 1).setFld .course COURSE.COURSE_NOW_course 16))),
      2, 0, by decide +kernel⟩,
    ⟨st (atB (after 1 { up with course := { adopt := some (7, 0) } })), 7, 0, by decide +kernel⟩,
    ⟨st (atB (after 1 (({ up with course := { chosen := some (0, 0) } }).setFld .course COURSE.TICK_CTL_role 2))), 0,
      0, by decide +kernel⟩,
    ⟨st (atB (after 1 (({ up with course := { chosen := some (3, 0) } }).setFld .course COURSE.TICK_STS_acting_master 1))),
      3, 0, by decide +kernel⟩,
    ⟨st (after 500 (({ up with course := { startup := some 0 } }).setFld .course COURSE.TICK_CTL_role 1 |>.setFld .course COURSE.TICK_STS_acting_master 1)),
      0, by decide +kernel⟩⟩

theorem witness_MarkersComeAndAreMissed :
  (∃ (s : State) (p : Port) (_h : Word) (_n : BitVec 48) (_len : BitVec 2) (_m : BitVec 6) (hops : BitVec 8) (_l :
     BitVec 16) (pod : BitVec 5) (_a : BitVec 32),
    s.chip.portState p = 7 ∧
    hears s.chip p ∧
    s.chip.portRole p = 2 ∧
    s.chip.card = false ∧
    pod.toNat = s.chip.fld .chip CHIP.POSITION_pod_id ∧
    hops.toNat ≤ 7) ∧
  (∃ (s : State) (p : Port),
    s.chip.portState p = 7 ∧
    s.chip.portRole p = 2 ∧
    (∀ n, Tab.find s.chip.course.rttAt p.val = some n → 256 ≤ s.chip.since n)) ∧
  (∃ (s : State) (p : Port) (_h _send _arrival : Word) (_hold : BitVec 32),
    (s.chip.portState p = 6 ∨ s.chip.portState p = 7) ∧
    hears s.chip p) ∧
  (∃ (c : Chip) (p : Port) (send arrival : Word) (l : List (Bool × Word × Word)),
    slotOpen c p ∧
    c.plumbOnly p = false ∧
    (c.port p).tickDue = none ∧
    (c.port p).nakDue = false ∧
    (c.port p).probesDue = (true, send, arrival) :: l) ∧
  (∃ (c : Chip) (p : Port) (n : Nat),
    slotOpen c p ∧
    (c.port p).tickDue = some n ∧
    (c.port p).inject ≠ some 2) ∧
  (∃ (s : State),
    s.chip.acting = false ∧
    s.chip.course.tick = .locked ∧
    s.chip.markerTimeout ≤ s.chip.since s.chip.course.lastMarker) ∧
  (∃ (s : State),
    s.chip.course.tick = .holdover ∧
    max 8 (s.chip.fld .course COURSE.TICK_CTL_holdover_limit) ≤ s.chip.since s.chip.course.holdoverFrom) :=
  ⟨⟨st ((port0 7 2).setFld .course COURSE.TICK_CTL_role 2), 0, 0, 5, 1, 3, 7, 0, 0, 0, by decide +kernel⟩,
    ⟨st ((port0 7 2).setFld .course COURSE.TICK_CTL_role 2), 0, by decide +kernel⟩,
    ⟨st ((port0 7 2).setFld .course COURSE.TICK_CTL_role 2), 0, 0, 0, 9, 1, by decide +kernel⟩,
    ⟨portIs 7 2 { probesDue := [(true, 3, 9)] }, 0, 3, 9, [], by decide +kernel⟩,
    ⟨portIs 7 2 { tickDue := some 0 }, 0, 0, by decide +kernel⟩,
    ⟨st (after 500 (({ up with course := { tick := .locked } }).setFld .course COURSE.TICK_CTL_role 2)),
      by decide +kernel⟩,
    ⟨st (after 70000 { up with course := { tick := .holdover } }), by decide +kernel⟩⟩

theorem witness_EventMessagesAreQueued :
  (∃ (s : State) (u : UnitId),
    s.chip.pendingAtChip u = true ∧
    s.chip.bridge.told.contains u = false ∧
    Tab.find s.chip.bridge.toldAt (unitKey u) ≠ some s.chip.courseCount ∧
    s.chip.flag .hostport HOSTPORT.HP_STS_link_up = false) ∧
  (∃ (s : State) (u : UnitId),
    let k := s.chip.eventSession
    s.chip.pendingAtChip u = true ∧
    s.chip.bridge.told.contains u = false ∧
    Tab.find s.chip.bridge.toldAt (unitKey u) ≠ some s.chip.courseCount ∧
    s.chip.bridge.events = [] ∧
    s.chip.bridge.captures = [] ∧
    (s.chip.sess k).waiting = [] ∧
    s.chip.sessSends k 32 = true) ∧
  (∃ (s : State),
    s.chip.bridge.resyncDue = true ∧
    s.chip.bridge.events.length ≤ 512 ∧
    s.chip.flag .hostport HOSTPORT.HP_STS_link_up = false) :=
  ⟨⟨st (up.raise (.memblk 0) 4), .memblk 0, by decide +kernel⟩,
    ⟨st (hostUp.raise (.memblk 0) 4), .memblk 0, by dsimp only; decide +kernel⟩,
    ⟨st { up with bridge := { resyncDue := true } }, by decide +kernel⟩⟩

theorem witness_EnableAndRetrainStartTraining :
  (∃ (s : State) (p : Port),
    answers s.chip (.port p) ∧
    s.chip.held (.port p) = false ∧
    s.chip.linked p = false ∧
    s.chip.flag (.port p) PORT.PORT_CTL_enable = false) ∧
  (∃ (s : State) (p : Port),
    answers s.chip (.port p) ∧
    s.chip.held (.port p) = false ∧
    s.chip.flag (.port p) PORT.PORT_CTL_enable = true) ∧
  (∃ (s : State) (p : Port),
    answers s.chip (.port p) ∧
    s.chip.held (.port p) = false ∧
    s.chip.linked p = false ∧
    s.chip.flag (.port p) PORT.PORT_CTL_enable = true) ∧
  (∃ (s : State) (p : Port),
    answers s.chip (.port p) ∧
    s.chip.held (.port p) = true ∧
    s.chip.flag (.port p) PORT.PORT_CTL_enable = true) :=
  ⟨⟨st (up.setFld (.port 0) PORT.PORT_CTL_enable 0), 0, by decide +kernel⟩,
    ⟨st (up.setFld (.port 0) PORT.PORT_CTL_enable 1), 0, by decide +kernel⟩,
    ⟨st (up.setFld (.port 0) PORT.PORT_CTL_enable 1), 0, by decide +kernel⟩,
    ⟨st { (up.setFld (.port 0) PORT.PORT_CTL_enable 1) with bridge := { holds := [(regAddr (.port 0) 0, 7)] } }, 0,
      by decide +kernel⟩⟩

theorem witness_TrainingRunsThroughItsStates :
  (∃ (s : State) (p : Port),
    s.chip.portState p = 1 ∧
    s.chip.linksRun = true) ∧
  (∃ (s : State) (p : Port),
    s.chip.portState p = 2 ∧
    8 ≤ ones (s.chip.port p).frameLock.toNat ∧
    8 ≤ ones (s.chip.port p).farLocked.toNat) ∧
  (∃ (s : State) (p : Port) (good : BitVec 9),
    s.chip.portState p = 3 ∧
    (∀ i < 8, (good &&& ~~~ (s.chip.port p).mute).getLsbD i = true)) ∧
  (∃ (s : State) (p : Port) (good : BitVec 9) (n : Nat),
    s.chip.portState p = 3 ∧
    n < 8 ∧
    (∀ i < 9, (good &&& ~~~ (s.chip.port p).mute).getLsbD i = decide (i ≠ n))) ∧
  (∃ (s : State) (p : Port) (w : BitVec 184) (k : Nat),
    s.chip.portState p = 4 ∧
    (s.chip.port p).negWord = some w ∧
    selectSide (s.chip.fld (.port p) PORT.PORT_CTL_side) (negBits w 101 100) (negBits w 165 102 =
      s.chip.fuses.serial.toNat && negBits w 165 102 ≠ 0) (s.chip.card || negBits w 99 95 = s.chip.fld .chip
      CHIP.POSITION_pod_id) = .role k) ∧
  (∃ (s : State) (p : Port) (skew : Nat) (order : LaneOrder),
    s.chip.portState p = 5 ∧
    skew ≤ 10000 ∧
    order ≠ .other) ∧
  (∃ (s : State) (p : Port),
    s.chip.portState p = 6 ∧
    (s.chip.port p).goodFlit = true ∧
    (s.chip.port p).probed = true) :=
  ⟨⟨st ((port0 1 0).setFld .boot BOOT.BOOT_STS_state 7), 0, by decide +kernel⟩,
    ⟨st (portIs 2 0 { frameLock := 0xFF, farLocked := 0x1FE }), 0, by decide +kernel⟩,
    ⟨st (port0 3 0), 0, 0xFF, by decide +kernel⟩,
    ⟨st (port0 3 0), 0, 0x1FE, 0, by decide +kernel⟩,
    ⟨st { port0 4 0 with ports := [(0, { slices := List.replicate 23 0 |>.zipIdx |>.map (fun e => (e.2, (0, 2))) })] },
      0, 0, 1, by decide +kernel⟩,
    ⟨st (port0 5 0), 0, 10000, .identity, by decide +kernel⟩,
    ⟨st (portIs 6 0 { goodFlit := true, probed := true }), 0, by decide +kernel⟩⟩

theorem witness_TrainingFramesAndTimeOuts :
  (∃ (s : State) (p : Port) (_lane : Lane) (control status : Word),
    2 ≤ s.chip.portState p ∧
    s.chip.portState p ≤ 4 ∧
    s.chip.fld (.port p) PORT.PORT_CTL_loopback ≠ 1 ∧
    frameCrcOk control status = true) ∧
  (∃ (s : State) (p : Port) (_lane : Lane) (control status : Word),
    2 ≤ s.chip.portState p ∧
    s.chip.portState p ≤ 4 ∧
    s.chip.fld (.port p) PORT.PORT_CTL_loopback ≠ 1 ∧
    (¬ (frameCrcOk control status = true))) ∧
  (∃ (s : State) (p : Port) (st : Nat),
    2 ≤ st ∧
    st ≤ 6 ∧
    s.chip.portState p = st) ∧
  (∃ (s : State) (p : Port) (st : Nat),
    2 ≤ st ∧
    st ≤ 6 ∧
    (¬ (s.chip.portState p = st))) :=
  ⟨⟨st (port0 2 0), 0, 0, setBits 0 63 48 (crc16 (List.replicate 14 0)), 0, by decide +kernel⟩,
    ⟨st (port0 2 0), 0, 0, 0, 0, by decide +kernel⟩,
    ⟨st (port0 4 0), 0, 4, by decide +kernel⟩,
    ⟨st (port0 4 0), 0, 5, by decide +kernel⟩⟩

theorem witness_FlitsAreAcceptedInOrder :
  (∃ (s : State) (p : Port) (flit : List Byte) (cw : Codeword),
    s.chip.portState p = 7 ∧
    hears s.chip p ∧
    cw.errors.dedup.length ≤ 15 ∧
    goodData flit) ∧
  (∃ (s : State) (p : Port) (flit : List Byte) (cw : Codeword),
    s.chip.portState p = 7 ∧
    hears s.chip p ∧
    cw.errors.dedup.length ≤ 15 ∧
    goodData flit ∧
    cw.errors ≠ []) ∧
  (∃ (s : State) (p : Port) (_flit : List Byte) (cw : Codeword),
    s.chip.portState p = 7 ∧
    s.chip.looped p = false ∧
    s.chip.cwLost p cw = true) ∧
  (∃ (s : State) (p : Port) (flit : List Byte) (cw : Codeword),
    s.chip.portState p = 7 ∧
    s.chip.looped p = false ∧
    s.chip.cwLost p cw = false ∧
    (leAt flit 248 8 ≠ crc64 (flit.take 248) ∨ 7 ≤ hdrType (wordAt flit 0))) :=
  ⟨⟨st (port0 7 2), 0, flit0, cw [], by decide +kernel⟩,
    ⟨st (port0 7 2), 0, flit0, cw ((List.range 15).map (fun i => Fin.ofNat 544 (30 * i))), by decide +kernel⟩,
    ⟨st (port0 7 2), 0, flit0, cw ((List.range 16).map (fun i => Fin.ofNat 544 (30 * i))), by decide +kernel⟩,
    ⟨st (port0 7 2), 0, List.replicate 255 0 ++ [1], cw [], by decide +kernel⟩⟩

theorem witness_CreditsAndReplays :
  (∃ (s : State) (p : Port) (h : Word),
    let t := hdrCreditTc h
    let avail := s.chip.credit p t + (BitVec.ofNat 16 (hdrCredit h) - (s.chip.port p).seen.getD t 0).toNat
    s.chip.portState p = 7 ∧
    hears s.chip p ∧
    hdrAckValid h = false ∧
    avail ≤ (s.chip.port p).farGrant t) ∧
  (∃ (s : State) (p : Port) (h : Word),
    let c := heard s.chip p h
    let start := (hdrAck h + 1) % 4096
    s.chip.portState p = 7 ∧
    hears s.chip p ∧
    (c.port p).replay ≠ [] ∧
    (c.port p).replayFrom ≠ some start ∧
    (c.port p).replaysInRow < max 1 (c.fld (.port p) PORT.REPLAY_CTL_replay_limit)) ∧
  (∃ (s : State) (p : Port) (f : Flit) (l : List Flit),
    s.chip.portState p = 7 ∧
    (s.chip.port p).replay = f :: l ∧
    (s.chip.port p).replaysInRow < max 1 (s.chip.fld (.port p) PORT.REPLAY_CTL_replay_limit)) ∧
  (∃ (s : State) (p : Port),
    s.chip.portState p = 7 ∧
    (s.chip.port p).replay ≠ [] ∧
    max 1 (s.chip.fld (.port p) PORT.REPLAY_CTL_replay_limit) ≤ (s.chip.port p).replaysInRow) ∧
  (∃ (s : State) (p : Port),
    s.chip.portState p = 7 ∧
    (s.chip.port p).discarding = true) ∧
  (∃ (c : Chip) (p : Port),
    c.transmits p = true ∧
    c.looped p = false ∧
    1023 ≤ (c.port p).sinceIdle) ∧
  (∃ (c : Chip) (p : Port),
    c.transmits p = true ∧
    c.looped p = false ∧
    (¬ (1023 ≤ (c.port p).sinceIdle)) ∧
    (c.port p).tickDue = none ∧
    (c.port p).nakDue = true) ∧
  (∃ (c : Chip) (p : Port) (f : Flit) (l : List Flit),
    c.transmits p = true ∧
    c.looped p = false ∧
    (¬ (1023 ≤ (c.port p).sinceIdle)) ∧
    (c.port p).tickDue = none ∧
    (¬ ((c.port p).nakDue = true)) ∧
    (c.port p).probesDue = [] ∧
    (c.port p).replayQ = f :: l) ∧
  (∃ (c : Chip) (p : Port) (ty : Nat) (b : List Byte) (l : List (Nat × List Byte)),
    c.transmits p = true ∧
    c.looped p = false ∧
    (¬ (1023 ≤ (c.port p).sinceIdle)) ∧
    (c.port p).tickDue = none ∧
    (¬ ((c.port p).nakDue = true)) ∧
    (c.port p).probesDue = [] ∧
    c.portState p = 7 ∧
    c.plumbOnly p = false ∧
    (c.port p).replayQ = [] ∧
    (c.port p).txWait = [] ∧
    (c.port p).ctlWait = (ty, b) :: l ∧
    ty < 16 ∧
    (c.port p).replay.length < 2048) :=
  ⟨⟨st { port0 7 2 with ports := [(0, { far := 0x10 })] }, 0, setBits 0 31 16 4, by dsimp only; decide +kernel⟩,
    ⟨st (({ port0 7 2 with ports := [(0, { replay := [⟨0, []⟩] })] }).setFld (.port 0) PORT.REPLAY_CTL_replay_limit 3),
      0, setBits 0 47 36 0xFFF, by dsimp only; decide +kernel⟩,
    ⟨st (({ port0 7 2 with ports := [(0, { replay := [⟨0, []⟩] })] }).setFld (.port 0) PORT.REPLAY_CTL_replay_limit 3),
      0, ⟨0, []⟩, [], by decide +kernel⟩,
    ⟨st { port0 7 2 with ports := [(0, { replay := [⟨0, []⟩], replaysInRow := 64 })] }, 0, by decide +kernel⟩,
    ⟨st { port0 7 2 with ports := [(0, { discarding := true })] }, 0, by decide +kernel⟩,
    ⟨portIs 7 2 { sinceIdle := 1023 }, 0, by decide +kernel⟩,
    ⟨portIs 7 2 { nakDue := true, sinceIdle := 1022 }, 0, by decide +kernel⟩,
    ⟨portIs 7 2 { replay := [⟨5, []⟩], replayQ := [⟨5, []⟩] }, 0, ⟨5, []⟩, [], by decide +kernel⟩,
    ⟨portIs 7 2 { ctlWait := [(5, [1])] }, 0, 5, [1], [], by decide +kernel⟩⟩

theorem witness_ElectricalIdleAndWake :
  (∃ (s : State) (p : Port),
    s.chip.idleReady p = true ∧
    (s.chip.port p).idleAsked = false ∧
    (s.chip.port p).idleEntering = false) ∧
  (∃ (s : State) (p : Port) (h : Word),
    s.chip.portState p = 7 ∧
    hears s.chip p ∧
    (s.chip.port p).classify (hdrSeq h) = .accept) ∧
  (∃ (s : State) (p : Port) (h : Word) (_k : Nat),
    s.chip.portState p = 7 ∧
    hears s.chip p ∧
    (s.chip.port p).classify (hdrSeq h) = .duplicate) ∧
  (∃ (s : State) (p : Port),
    s.chip.portState p = 7 ∧
    (s.chip.port p).idleEntering = true) ∧
  (∃ (s : State) (p : Port),
    s.chip.portState p = 8) ∧
  (∃ (s : State) (p : Port),
    s.chip.portState p = 9) ∧
  (∃ (s : State) (p : Port) (h : Word),
    s.chip.portState p = 7 ∧
    hears s.chip p ∧
    (s.chip.port p).classify (hdrSeq h) = .accept) :=
  ⟨⟨st ((port0 7 1).setFld (.port 0) PORT.PORT_CTL_idle_entry 1), 0, by decide +kernel⟩,
    ⟨st (port0 7 0), 0, 0, by decide +kernel⟩,
    ⟨st { port0 7 2 with ports := [(0, { rxLast := 0 })] }, 0, 0, 1, by decide +kernel⟩,
    ⟨st { port0 7 2 with ports := [(0, { idleEntering := true })] }, 0, by decide +kernel⟩,
    ⟨st (port0 8 0), 0, by decide +kernel⟩,
    ⟨st (port0 9 0), 0, by decide +kernel⟩,
    ⟨st { port0 7 2 with ports := [(0, { idleAsked := true })] }, 0, 0, by decide +kernel⟩⟩

theorem witness_FailedLanesAndWiresMoveToSpares :
  (∃ (s : State) (p : Port) (l : Lane) (rx : Bool),
    s.chip.linked p = true ∧
    s.chip.laneCarries p l rx = true ∧
    mayAsk s.chip (.lane p l rx)) ∧
  (∃ (s : State) (p : Port) (l : Lane),
    s.chip.linked p = true ∧
    s.chip.laneCarries p l true = true ∧
    mayAsk s.chip (.lane p l true)) ∧
  (∃ (s : State) (p : Port) (l : Lane) (rx : Bool),
    s.chip.linked p = true ∧
    s.chip.laneCarries p l rx = true ∧
    s.chip.spareFree (.lane p l rx) = false) ∧
  (∃ (s : State) (i j : Region) (w : Nat),
    i ≠ j ∧
    mayAsk s.chip (.wire i j w)) ∧
  (∃ (s : State) (p : Port) (h : Word) (_l : Lane),
    s.chip.portState p = 7 ∧
    hears s.chip p ∧
    (s.chip.port p).classify (hdrSeq h) = .accept) ∧
  (∃ (s : State) (p : Port) (l : Lane) (rx : Bool),
    s.chip.linked p = true ∧
    l.val < 8 ∧
    s.chip.spareOpen p l.val rx = true ∧
    (rx = false → (l.val, false) ∈ (s.chip.port p).laneMove ∧ ∀ n, (s.chip.port p).burstAt = some n → burstCycles ≤
      s.chip.now - n)) :=
  ⟨⟨st (port0 7 0), 0, 3, true, by decide +kernel⟩,
    ⟨st (port0 7 0), 0, 3, by decide +kernel⟩,
    ⟨st ((port0 7 0).setFld (.port 0) PORT.PORT_STS_rx_spare_for 1), 0, 3, true, by decide +kernel⟩,
    ⟨st up, 0, 1, 5, by decide +kernel⟩,
    ⟨st (port0 7 0), 0, 0, 3, by decide +kernel⟩,
    ⟨st { port0 7 2 with ports := [(0, { laneMove := [(3, true)] })] }, 0, 3, true, by decide +kernel⟩⟩

theorem witness_PortCreditsInjectionAndAdaptation :
  (∃ (s : State) (p : Port) (_upper : Bool) (_v : Word),
    answers s.chip (.port p)) ∧
  (∃ (s : State) (p : Port) (v : Word),
    answers s.chip (.port p) ∧
    bitAt v 63 = true) ∧
  (∃ (s : State) (p : Port) (_l : Lane) (v : Word),
    answers s.chip (.port p) ∧
    bitAt v 63 = true) ∧
  (∃ (s : State) (p : Port) (l : Lane),
    s.chip.flag (.port p) (laneFld PORT.INJECT_CTL_continuous l.val) = true ∧
    s.chip.fld (.port p) (laneFld PORT.INJECT_CTL_interval l.val) ≠ 0) :=
  ⟨⟨st up, 0, false, 32, by decide +kernel⟩,
    ⟨st up, 0, 1 <<< 63, by decide +kernel⟩,
    ⟨st up, 0, 8, 1 <<< 63, by decide +kernel⟩,
    ⟨st ((up.setFld (.port 0) (PORT.INJECT_CTL_continuous.plus 0x40) 1).setFld (.port 0) (PORT.INJECT_CTL_interval.plus 0x40) 1),
      0, 1, by decide +kernel⟩⟩

theorem witness_DeadPortsAndRestoredRoutes :
  (∃ (s : State) (p : Port) (n : Nat),
    (s.chip.port p).deadFrom = some n ∧
    s.chip.portRole p ≤ 1 ∧
    s.chip.linked p = false ∧
    max 1 (s.chip.fld (.xbar (portRegion p)) XBAR.XBAR_CTL_dead_hold) ≤ s.chip.since n) ∧
  (∃ (s : State),
    s.chip.atBoundary = true) :=
  ⟨⟨st (after 1000000 (portIs 1 0 { deadFrom := some 0 })), 0, 0, by decide +kernel⟩,
    ⟨st (atB (withX up { moved := [(5, 0)] })), by decide +kernel⟩⟩

theorem witness_SwitchWeightAndMeterWrites :
  (∃ (s : State) (r : Region) (v : Word),
    let new := (s.chip.plainWrite (.xbar r) 0x108 v).1
    answers s.chip (.xbar r) ∧
    overcommits s.chip new r = true) ∧
  (∃ (s : State) (r : Region) (v : Word),
    let new := (s.chip.plainWrite (.xbar r) 0x108 v).1
    answers s.chip (.xbar r) ∧
    (¬ (overcommits s.chip new r = true))) ∧
  (∃ (s : State) (r : Region) (_g : Fin 1024) (_v : Word),
    answers s.chip (.xbar r) ∧
    s.chip.held (.xbar r) = false) ∧
  (∃ (s : State) (r : Region) (g : Fin 1024) (_a b : Word),
    answers s.chip (.xbar r) ∧
    s.chip.held (.xbar r) = false ∧
    Tab.find (s.chip.xbar r).wordB g.val = some b) ∧
  (∃ (s : State) (p : Port) (_v : Word),
    answers s.chip (.port p) ∧
    s.chip.held (.port p) = false) ∧
  (∃ (s : State) (p : Port) (_tc : Tc) (_burst : Bool) (_v : Word),
    answers s.chip (.port p) ∧
    s.chip.held (.port p) = false) :=
  ⟨⟨st up, 0, -1, by dsimp only; decide +kernel⟩,
    ⟨st { up with xbars := [(0, { wordB := [(1023, 7)] })] }, 0, 1, by dsimp only; decide +kernel⟩,
    ⟨st up, 0, 1023, 1, by decide +kernel⟩,
    ⟨st { up with xbars := [(0, { wordB := [(1023, 7)] })] }, 0, 1023, 1, 7, by decide +kernel⟩,
    ⟨st up, 0, 1, by decide +kernel⟩,
    ⟨st up, 0, 7, true, 1, by decide +kernel⟩⟩

theorem witness_GateListsAreWrittenAndAdvance :
  (∃ (s : State) (p : Port) (v : Word),
    answers s.chip (.port p) ∧
    s.chip.lateFor (getBits v 47 0) = false ∧
    getBits v 56 56 ≠ s.chip.fld (.port p) PORT.GATE_STS_active_bank) ∧
  (∃ (s : State) (p : Port) (v : Word),
    answers s.chip (.port p) ∧
    (s.chip.lateFor (getBits v 47 0) = true ∨ getBits v 56 56 = s.chip.fld (.port p) PORT.GATE_STS_active_bank)) ∧
  (∃ (s : State) (v : Word),
    answers s.chip .hostport ∧
    s.chip.lateFor (getBits v 47 0) = false ∧
    getBits v 56 56 ≠ s.chip.fld .hostport HOSTPORT.HP_GATE_STS_active_bank) ∧
  (∃ (s : State) (p : Port) (i : Fin 64) (_v : Word),
    answers s.chip (.port p) ∧
    i.val / 32 = s.chip.fld (.port p) PORT.GATE_STS_active_bank) ∧
  (∃ (s : State) (p : Port) (i : Fin 64) (_v : Word),
    answers s.chip (.port p) ∧
    (¬ (i.val / 32 = s.chip.fld (.port p) PORT.GATE_STS_active_bank))) ∧
  (∃ (s : State) (p : Port) (bank count : Nat),
    bank ≤ 1 ∧
    count ≤ 32 ∧
    (s.chip.port p).takeover = some (bank, count, s.chip.courseNow)) :=
  ⟨⟨st up, 0, setBits 2 56 56 1, by decide +kernel⟩,
    ⟨st up, 0, 1, by decide +kernel⟩,
    ⟨st up, setBits 2 56 56 1, by decide +kernel⟩,
    ⟨st up, 0, 31, 5, by decide +kernel⟩,
    ⟨st up, 0, 32, 5, by decide +kernel⟩,
    ⟨st { port0 7 2 with ports := [(0, { takeover := some (1, 32, 0) })] }, 0, 1, 32, by decide +kernel⟩⟩

theorem witness_PacketsAreCheckedMeteredAndQueued :
  (∃ (s : State) (r : Region) (inp : Fin 20) (a : Arrival) (rest : List Arrival),
    nextArrival s.chip r inp a rest ∧
    a.settled = false ∧
    s.chip.ingressCheck r inp.val a ≠ 0) ∧
  (∃ (s : State) (r : Region) (inp : Fin 20) (a : Arrival) (rest : List Arrival) (w : Way),
    nextArrival s.chip r inp a rest ∧
    (a.settled = true ∨ s.chip.ingressCheck r inp.val a = 0) ∧
    plainPacket s.chip r inp a.pkt ∧
    Tab.get (s.chip.xbar r).held (8 * inp.val + a.pkt.tc) [] = [] ∧
    s.chip.ingressWay r inp.val a.pkt = some w ∧
    w.left = none ∧
    s.chip.deadOut w.out = false) ∧
  (∃ (s : State) (p : Port) (tc : Tc) (h : Held) (st : Stored) (rest : List Held) (w : Way),
    let r := portRegion p
    meterHead s.chip p tc h st rest ∧
    (s.chip.meter p st.pkt h.told).2 = true ∧
    st.pkt.mcast = false ∧
    (st.pkt.kind = 0 ∨ st.pkt.kind = 4 ∨ st.pkt.kind = 5) ∧
    s.chip.ingressWay r st.inp st.pkt = some w ∧
    w.left = none ∧
    s.chip.deadOut w.out = false) ∧
  (∃ (s : State) (p : Port) (tc : Tc) (h : Held) (st : Stored) (rest : List Held),
    meterHead s.chip p tc h st rest ∧
    (s.chip.meter p st.pkt h.told).2 = false) :=
  ⟨⟨st { up with xbars := [(0, { arrivals := [(16, [{ pkt := pk0, badFrame := true }])] })] }, 0, 16,
      { pkt := pk0, badFrame := true }, [], by decide +kernel⟩,
    ⟨st { routed with xbars := [(0, { arrivals := [(16, [{ pkt := pk0 }])] })] }, 0, 16, { pkt := pk0 }, [],
      ⟨3, 64, none, none⟩, by decide +kernel⟩,
    ⟨st metered, 0, 0, { id := 4 }, { stored pk0 with inp := 0 }, [], ⟨3, 64, none, none⟩,
      by dsimp only; decide +kernel⟩,
    ⟨st ((metered.setReg (.port 0) 0x2020 0x02000001).setReg (.port 0) 0x2048 0), 0, 0, { id := 4 },
      { stored pk0 with inp := 0 }, [], by decide +kernel⟩⟩

theorem witness_CellsCross :
  (∃ (s : State) (r : Region) (_fixed : List (Fin 4 × Fin 16)) (p : Pair) (st : Staged),
    s.chip.inReset r = false ∧
    (∀ q, (s.chip.xbar q).queue = []) ∧
    (s.chip.xbar r).pairs = [p] ∧
    p.src = r.val ∧
    2 ≤ p.left ∧
    Tab.get (s.chip.xbar r).staging p.out [] = [st] ∧
    st.src = r.val ∧
    st.id = p.ent.id ∧
    st.started = false) ∧
  (∃ (s : State) (r : Region) (e : QEnt) (st : Stored),
    s.chip.inReset r = false ∧
    (∀ q, (s.chip.xbar q).pairs = []) ∧
    (∀ q, q ≠ r → (s.chip.xbar q).queue = []) ∧
    (s.chip.xbar r).queue = [e] ∧
    Tab.find (s.chip.xbar r).store e.id = some st ∧
    e.out / 16 = r.val ∧
    e.inp < 20 ∧
    e.tc < 8 ∧
    s.chip.linked (portOf e.out) = true ∧
    Tab.get (s.chip.xbar r).staging (e.out % 16) [] = [] ∧
    2 ≤ st.pkt.cells ∧
    st.pkt.cells ≤ 32) ∧
  (∃ (s : State) (i j : Region) (_wire : Nat) (crc resend : Bool) (x : Crossing) (rest : List Crossing),
    i ≠ j ∧
    Tab.get (s.chip.xbar i).cells j.val [] = x :: rest ∧
    x.dst = j.val ∧
    s.chip.d2dUp i j = true ∧
    s.chip.wireHeld i j = false ∧
    (crc || resend) = true ∧
    (∀ y ∈ Tab.get (s.chip.xbar j).staging x.out [], y.started = false)) ∧
  (∃ (s : State) (i j : Region) (wire : Nat) (x : Crossing) (rest : List Crossing),
    i ≠ j ∧
    Tab.get (s.chip.xbar i).cells j.val [] = x :: rest ∧
    x.dst = j.val ∧
    s.chip.d2dUp i j = true ∧
    s.chip.wireHeld i j = false ∧
    s.chip.spareFree (.wire i j wire) = true) :=
  ⟨⟨st (withX up { pairs := [⟨0, 16, 3, ⟨0, 16, 3, 0, 0, false, 64⟩, 2⟩], staging := [(3, [{ staged pk0 with cells := 4 }])] }),
      0, [(1, 5)], ⟨0, 16, 3, ⟨0, 16, 3, 0, 0, false, 64⟩, 2⟩, { staged pk0 with cells := 4 }, by decide +kernel⟩,
    ⟨st (withX (port0 7 2) { queue := [⟨4, 16, 0, 0, pk0.w0, false, 64⟩], store := [(4, { stored (mkPacket 0 0 false 5 0 0 0 0 0 (List.replicate 600 1)) with cells := 2 })] }),
      0, ⟨4, 16, 0, 0, pk0.w0, false, 64⟩,
      { stored (mkPacket 0 0 false 5 0 0 0 0 0 (List.replicate 600 1)) with cells := 2 }, by decide +kernel⟩,
    ⟨st (withX d2dOk { cells := [(1, [⟨1, 3, 0, 0⟩])] }), 0, 1, 5, false, true, ⟨1, 3, 0, 0⟩, [], by decide +kernel⟩,
    ⟨st (withX d2dOk { cells := [(1, [⟨1, 3, 0, 0⟩])] }), 0, 1, 5, ⟨1, 3, 0, 0⟩, [], by decide +kernel⟩⟩

theorem witness_PacketsLeaveTheSwitch :
  (∃ (s : State) (p : Port) (tc : Nat) (st : Staged),
    let r := portRegion p
    s.chip.inReset r = false ∧
    s.chip.canStart p = true ∧
    (s.chip.port p).wfq.choose (fun t => s.chip.ready1 p t && s.chip.gateAdmits p t) = some tc ∧
    s.chip.portHead p tc = some st) ∧
  (∃ (s : State) (p : Port),
    s.chip.inReset (portRegion p) = false ∧
    s.chip.portState p = 8 ∧
    s.chip.portTraffic p = true) ∧
  (∃ (s : State) (r : Region) (k : Fin 4) (st : Staged),
    s.chip.inReset r = false ∧
    s.chip.channelNext r k.val = some st ∧
    st.landed = st.cells ∧
    (st.out.kind = 2 ∨ st.out.kind = 4 ∨ st.out.kind = 7) ∧
    st.out.crc = st.out.crcOf) ∧
  (∃ (s : State) (r : Region) (id : Nat) (st : Stored),
    Tab.find (s.chip.xbar r).store id = some st ∧
    (∀ q, (s.chip.xbar q).pairs.any (fun p => p.src = r.val && p.ent.id = id) = false)) :=
  ⟨⟨st { (port0 7 2).setReg (.port 0) 0x148 64 with xbars := [(0, { staging := [(0, [{ pkt := pk0, tc := 0, cells := 1, landed := 1, storedAt := 0, src := 0, id := 0 }])] })] },
      0, 0, { pkt := pk0, tc := 0, cells := 1, landed := 1, storedAt := 0, src := 0, id := 0 },
      by dsimp only; decide +kernel⟩,
    ⟨st { port0 8 2 with xbars := [(0, { staging := [(0, [{ pkt := pk0, tc := 0, cells := 1, landed := 1, storedAt := 0, src := 0, id := 0 }])] })] },
      0, by decide +kernel⟩,
    ⟨st (withX up { staging := [(16, [staged pk7])] }), 0, 0, staged pk7, by decide +kernel⟩,
    ⟨st (withX up { store := [(4, stored pk0)] }), 0, 4, stored pk0, by decide +kernel⟩⟩

theorem witness_RegionInResetIsStill :
  (∃ (c : Instr) (r : Region) (s : State),
    liveRegion c = some r ∧
    s.chip.partStep r ≠ 0) ∧
  (∃ (c : Chip) (_f : Chip → Region → Chip),
    (∀ r, c.partStep r ≠ 0)) :=
  ⟨⟨.stream 3, 3, st (up.setPart 3 1), by decide +kernel⟩,
    ⟨(((up.setPart 0 1).setPart 1 1).setPart 2 1).setPart 3 1, fun c _ => c.freeNext, by decide +kernel⟩⟩

theorem witness_HomeAppliesRequestsInOrder :
  (∃ (s : State) (r : Region) (p : Packet),
    homeTakes s.chip r p ∧
    s.chip.tearing r p.job = false ∧
    seqAhead s.chip r p = 1 ∧
    s.chip.homeCheck r p = (0, 0) ∧
    (s.chip.fab r).gaps.all (fun g => g.1.stream ≠ p.stream) = true) ∧
  (∃ (s : State) (r : Region) (p : Packet),
    homeTakes s.chip r p ∧
    s.chip.tearing r p.job = false ∧
    seqAhead s.chip r p = 1 ∧
    (s.chip.homeCheck r p).1 ≠ 0 ∧
    (s.chip.fab r).gaps.all (fun g => g.1.stream ≠ p.stream) = true) ∧
  (∃ (s : State) (r : Region) (p : Packet),
    homeTakes s.chip r p ∧
    s.chip.tearing r p.job = false ∧
    2 ≤ seqAhead s.chip r p ∧
    seqAhead s.chip r p ≤ 256 ∧
    (s.chip.fab r).gaps.length < 256) ∧
  (∃ (s : State) (r : Region) (p : Packet),
    homeTakes s.chip r p ∧
    s.chip.tearing r p.job = false ∧
    (seqAhead s.chip r p = 0 ∨ 2 ^ 20 - 255 ≤ seqAhead s.chip r p) ∧
    s.chip.homeCheck r p = (0, 0)) ∧
  (∃ (s : State) (r : Region) (p : Packet),
    homeTakes s.chip r p ∧
    s.chip.tearing r p.job = false ∧
    257 ≤ seqAhead s.chip r p ∧
    seqAhead s.chip r p < 2 ^ 20 - 255) ∧
  (∃ (s : State) (r : Region) (p : Packet),
    homeTakes s.chip r p ∧
    s.chip.tearing r p.job = true) ∧
  (∃ (s : State) (r : Region) (src : BitVec 12) (tc : Tc) (seq : BitVec 20) (g : Packet × Nat),
    s.chip.partStep r = 0 ∧
    (s.chip.fab r).gaps.find? (fun g => g.1.src = src.toNat && g.1.tc = tc.val && g.1.seq = seq.toNat) = some g ∧
    s.chip.ackTimeout r ≤ s.chip.since g.2) :=
  ⟨⟨st { keyed with xbars := [(0, { inbox := [(2, [req 0 1])] })] }, 0, req 0 1, by decide +kernel⟩,
    ⟨st { up with xbars := [(0, { inbox := [(2, [req 0 1])] })] }, 0, req 0 1, by decide +kernel⟩,
    ⟨st { keyed with xbars := [(0, { inbox := [(2, [req 0 256])] })] }, 0, req 0 256, by decide +kernel⟩,
    ⟨st { keyed with xbars := [(0, { inbox := [(2, [req 0 0])] })] }, 0, req 0 0, by decide +kernel⟩,
    ⟨st { keyed with xbars := [(0, { inbox := [(2, [req 0 257])] })] }, 0, req 0 257, by decide +kernel⟩,
    ⟨st (withX { keyed with fabs := [(0, { tearing := some ((req 0 257).job, 0, false) })] } { inbox := [(2, [req 0 257])] }),
      0, req 0 257, by decide +kernel⟩,
    ⟨st (after 1000000 { up with fabs := [(0, { gaps := [(req 0 9, 0)] })] }), 0, 0, 0, 9, (req 0 9, 0),
      by decide +kernel⟩⟩

theorem witness_LedgerEntriesCompleteOrReplay :
  (∃ (s : State) (r q : Region) (k : Nat) (h : Held) (st : Stored) (e : LedgerE),
    noticeTakes s.chip r k h st ∧
    st.pkt.op ≠ 13 ∧
    st.pkt.op ≠ 14 ∧
    s.chip.findEntry st.pkt.dst st.pkt.tc st.pkt.seq = some (q, e)) ∧
  (∃ (s : State) (r q : Region) (k : Nat) (h : Held) (st : Stored) (e : LedgerE),
    noticeTakes s.chip r k h st ∧
    st.pkt.op = 13 ∧
    s.chip.findEntry st.pkt.dst st.pkt.tc st.pkt.seq = some (q, e)) ∧
  (∃ (s : State) (r : Region) (slot : Nat) (e : LedgerE),
    s.chip.partStep r = 0 ∧
    (s.chip.fab r).ledger.find? (fun e => e.slot = slot) = some e ∧
    e.taken = none ∧
    s.chip.ackTimeout r ≤ s.chip.since e.sentAt ∧
    e.replays < s.chip.replayMax r ∧
    (∀ l ∈ linesOf r.val (s.chip.areaBase r + 8192 * e.slot) (32 + getBits e.w0 24 11), s.chip.lineBad l = false)) ∧
  (∃ (s : State) (r : Region) (slot : Nat) (e : LedgerE),
    s.chip.partStep r = 0 ∧
    (s.chip.fab r).ledger.find? (fun e => e.slot = slot) = some e ∧
    e.taken = none ∧
    s.chip.ackTimeout r ≤ s.chip.since e.sentAt ∧
    s.chip.replayMax r ≤ e.replays) :=
  ⟨⟨st (heldAt (ownWay ledUp) (rspOf 0 9)), 0, 0, 128, { id := 4, checked := true }, waits (rspOf 0 9), led0,
      by decide +kernel⟩,
    ⟨st (heldAt (ownWay ledUp) (rspOf 13 9)), 0, 0, 128, { id := 4, checked := true }, waits (rspOf 13 9), led0,
      by decide +kernel⟩,
    ⟨st (after 1000000 (ledUp.setFld (.fabmem 0) FABMEM.FAB_CTL_replay_max 3)), 0, 3, led0, by decide +kernel⟩,
    ⟨st (after 1000000 { up with fabs := [(0, { ledger := [{ led0 with replays := 255 }] })] }), 0, 3,
      { led0 with replays := 255 }, by decide +kernel⟩⟩

theorem witness_CombinedRequestsCloseAndSplit :
  (∃ (s : State) (r : Region) (id : Nat) (e : CombE),
    s.chip.partStep r = 0 ∧
    (s.chip.fab r).combining.find? (fun e => e.id = id && e.window ≤ s.chip.now - e.openedAt) = some e ∧
    2 ≤ e.parts.length) ∧
  (∃ (s : State) (r : Region) (id i : Nat) (e : CombE) (p : Packet) (st : Stored) (w : Way),
    s.chip.partStep r = 0 ∧
    (s.chip.fab r).combining.find? (fun e => e.id = id && e.window ≤ s.chip.now - e.openedAt) = some e ∧
    e.parts = [(i, p)] ∧
    Tab.find (s.chip.xbar r).store i = some st ∧
    s.chip.ingressWay r st.inp p = some w ∧
    w.left = none ∧
    s.chip.deadOut w.out = false) ∧
  (∃ (s : State) (r : Region) (rsp : Packet) (parts : List Packet),
    s.chip.partStep r = 0 ∧
    inboxGives s.chip r 34 (fun _ => true) rsp ∧
    Tab.find (s.chip.fab r).combined (rsp.tc * 2 ^ 20 + rsp.seq) = some parts) ∧
  (∃ (s : State) (r : Region) (_line : Nat),
    s.chip.partStep r = 0) :=
  ⟨⟨st { up with fabs := [(0, { combining := [⟨2, [(4, req 2 1), (5, req 2 2)], 0, 0⟩] })] }, 0, 2,
      ⟨2, [(4, req 2 1), (5, req 2 2)], 0, 0⟩, by decide +kernel⟩,
    ⟨st (withX (ownWay { up with fabs := [(0, { combining := [⟨2, [(4, req 2 1)], 0, 0⟩] })] }) { store := [(4, waits (req 2 1))] }),
      0, 2, 4, ⟨2, [(4, req 2 1)], 0, 0⟩, req 2 1, waits (req 2 1), ⟨0, 64, none, none⟩, by decide +kernel⟩,
    ⟨st { { up with fabs := [(0, { combined := [(9, [req 2 1])] })] } with xbars := [(0, { inbox := [(34, [rspOf 2 9])] })] },
      0, rspOf 2 9, [req 2 1], by decide +kernel⟩,
    ⟨st up, 0, 7, by decide +kernel⟩⟩

theorem witness_SealsFencesAndTeardown :
  (∃ (s : State) (r : Region) (p : Packet) (g : Packet × Nat),
    s.chip.partStep r = 0 ∧
    inboxGives s.chip r 7 (fun _ => true) p ∧
    (s.chip.fab r).gaps = [g]) ∧
  (∃ (s : State) (r : Region) (k : Nat) (h : Held) (st : Stored),
    s.chip.partStep r = 0 ∧
    (s.chip.xbar r).findHead (fun h p => h.checked && !h.settled && p.kind = 2 && p.op = 12) = some (k, h, st) ∧
    s.chip.tearing r st.pkt.job = false ∧
    (s.chip.fab r).fences.length < 1024) ∧
  (∃ (s : State) (r : Region) (k : Nat) (h : Held) (st : Stored),
    s.chip.partStep r = 0 ∧
    (s.chip.xbar r).findHead (fun h p => h.checked && !h.settled && p.kind = 2 && p.op = 12) = some (k, h, st) ∧
    s.chip.tearing r st.pkt.job = true ∧
    st.pkt.isCombined = false) ∧
  (∃ (s : State) (r : Region) (id : Nat) (x : FenceE),
    s.chip.partStep r = 0 ∧
    (s.chip.fab r).fences.find? (fun x => x.id = id) = some x ∧
    x.covers = [] ∧
    x.pkt.isCombined = false) ∧
  (∃ (s : State) (r : Region) (id : Nat) (x : FenceE),
    s.chip.partStep r = 0 ∧
    (s.chip.fab r).fences.find? (fun x => x.id = id) = some x ∧
    max 1 (s.chip.fld (.fabmem r) FABMEM.FAB_CTL_fence_timeout) ≤ s.chip.since x.openedAt) ∧
  (∃ (s : State) (r : Region) (job start : Nat),
    s.chip.partStep r = 0 ∧
    (s.chip.fab r).tearing = some (job, start, false) ∧
    start ≤ s.chip.courseCount ∧
    3 ≤ s.chip.since start) :=
  ⟨⟨st { { up with fabs := [(0, { gaps := [(req 0 9, 0)] })] } with xbars := [(0, { inbox := [(7, [pk7])] })] }, 0,
      pk7, (req 0 9, 0), by decide +kernel⟩,
    ⟨st (heldAt up (req 12 9)), 0, 128, { id := 4, checked := true }, waits (req 12 9), by decide +kernel⟩,
    ⟨st (heldAt { up with fabs := [(0, { tearing := some ((req 12 9).job, 0, false) })] } (req 12 9)), 0, 128,
      { id := 4, checked := true }, waits (req 12 9), by decide +kernel⟩,
    ⟨st { up with fabs := [(0, { fences := [{ id := 1, pkt := req 12 9, inp := 16, covers := [], openedAt := 0 }] })] },
      0, 1, { id := 1, pkt := req 12 9, inp := 16, covers := [], openedAt := 0 }, by decide +kernel⟩,
    ⟨st (after 1000000 { up with fabs := [(0, { fences := [{ id := 1, pkt := req 12 9, inp := 16, covers := [], openedAt := 0 }] })] }),
      0, 1, { id := 1, pkt := req 12 9, inp := 16, covers := [], openedAt := 0 }, by decide +kernel⟩,
    ⟨st (after 5 { up with fabs := [(0, { tearing := some (7, 2, false) })] }), 0, 7, 2, by decide +kernel⟩⟩

theorem witness_FabricRequestsReadAndWriteMemory :
  (∃ (s : State) (k : Stack) (q : MemReq) (r : Region) (p : Packet) (dup : Bool),
    memPerformsFabric s.chip k q r p dup ∧
    p.op = 0) ∧
  (∃ (s : State) (k : Stack) (q : MemReq) (r : Region) (p : Packet),
    memPerformsFabric s.chip k q r p false ∧
    p.op = 1 ∧
    p.payload ≠ [] ∧
    p.bytesAsked = p.payload.length ∧
    (s.chip.fab r).hot = []) ∧
  (∃ (s : State) (k : Stack) (q : MemReq) (r : Region) (p : Packet),
    let n := if p.wide then 8 else 4
    let slot := s.chip.resultSlot r p
    memPerformsFabric s.chip k q r p false ∧
    2 ≤ p.op ∧
    p.op ≤ 11 ∧
    (s.chip.fab r).hot = [] ∧
    s.chip.badWrite r.val slot 16 = none ∧
    (p.offset + n ≤ slot ∨ slot + 16 ≤ p.offset)) ∧
  (∃ (s : State) (k : Stack) (q : MemReq) (r : Region) (p : Packet) (dup : Bool),
    memPerforms s.chip k q ∧
    q.kind = .fabric r.val p dup ∧
    s.chip.tearing r p.job = true ∧
    (s.chip.fab r).hot = []) ∧
  (∃ (s : State) (k : Stack) (q : MemReq) (b cell n key : Nat) (own whole : Bool),
    memPerforms s.chip k q ∧
    q.kind = .fill b cell n key own whole ∧
    key % 64 = 0 ∧
    s.chip.lineBad key = false ∧
    keyStack key = k ∧
    Tab.find (s.chip.memS k).dir key = none ∧
    (s.chip.memS k).dir.length < 2097152 ∧
    (s.chip.block b).lines = []) ∧
  (∃ (s : State) (k : Stack) (_seen : List EccSeen) (q : MemReq) (a : Arb) (l : Nat) (x : Nat × Bool) (more : List
     (Nat × Bool)),
    memQuiet s.chip k ∧
    (s.chip.memS k).sched = [] ∧
    s.chip.memPick k = some (q, a) ∧
    q.client ≠ 3 ∧
    q.kind.lines = [l] ∧
    keyStack l = k ∧
    s.chip.inWay l q.kind.excl q.kind.caches = x :: more) ∧
  (∃ (s : State) (k : Stack) (_seen : List EccSeen) (q : MemReq) (a : Arb),
    memQuiet s.chip k ∧
    (s.chip.memS k).sched = [] ∧
    s.chip.memPick k = some (q, a) ∧
    (∀ l ∈ q.kind.lines, s.chip.inWay l q.kind.excl q.kind.caches = []) ∧
    q.kind.lines.all s.chip.lineServable = false) :=
  ⟨⟨st (inSched (fq (req 0 9) false)), 0, fq (req 0 9) false, 0, req 0 9, false, by decide +kernel⟩,
    ⟨st (inSched (fq (req8 1) false)), 0, fq (req8 1) false, 0, req8 1, by decide +kernel⟩,
    ⟨st (inSched (fq (req8 11) false)), 0, fq (req8 11) false, 0, req8 11, by dsimp only; decide +kernel⟩,
    ⟨st { inSched (fq (req 0 9) false) with fabs := [(0, { tearing := some ((req 0 9).job, 0, false) })] }, 0,
      fq (req 0 9) false, 0, req 0 9, false, by decide +kernel⟩,
    ⟨st (inSched fill0), 0, fill0, 3, 0, 0, 0, true, false, by decide +kernel⟩,
    ⟨st (inDirQ fill0 { dir := [(0, ⟨some 5, [], 0⟩)] }), 0, [], fill0, ⟨1, 1, 0⟩, 0, (5, true), [],
      by decide +kernel⟩,
    ⟨st (inDirQ fill0 { failed := [0] }), 0, [], fill0, ⟨1, 1, 0⟩, by decide +kernel⟩⟩

theorem witness_OwnedLinesGoBackToMemory :
  (∃ (s : State) (k : Stack) (line : Nat) (b : Fin 64) (l : LcLine),
    keyStack (lineName line) = k ∧
    Tab.find (s.chip.block b.val).lines (lineName line) = some l ∧
    l.owned = true ∧
    l.void = false ∧
    l.data.length = 64) ∧
  (∃ (s : State) (r : Region) (b : BlockIx) (line : Nat) (l : LcLine),
    (16 * r.val + b.val, lineName line, true) ∈ (s.chip.memS (keyStack (lineName line))).recalls ∧
    Tab.find (s.chip.block (16 * r.val + b.val)).lines (lineName line) = some l ∧
    l.owned = true ∧
    l.void = false ∧
    l.data.length = 64) :=
  ⟨⟨st { up with blocks := [(3, { lines := [(lineName 0, ⟨true, List.replicate 64 7, false⟩)] })] }, 0, 0, 3,
      ⟨true, List.replicate 64 7, false⟩, by decide +kernel⟩,
    ⟨st { up with blocks := [(3, { lines := [(lineName 0, ⟨true, List.replicate 64 7, false⟩)] })], mems := [(0, { recalls := [(3, lineName 0, true)] })] },
      0, 3, 0, ⟨true, List.replicate 64 7, false⟩, by decide +kernel⟩⟩

theorem witness_MemoryIsRefreshedScrubbedAndSpared :
  (∃ (_s : State) (_k : Stack) (t : BitVec 8),
    85 < t.toNat) ∧
  (∃ (_s : State) (_k : Stack) (t : BitVec 8),
    t.toNat ≤ 85) ∧
  (∃ (s : State) (k : Stack) (seen : List EccSeen),
    let line := s.chip.fld (.memblk k) MEMBLK.SCRUB_STS_scrub_line
    let key := lineKey (k.val / 2) (offsetOf k.val line)
    let wrong := (wrongSymbols seen 0).length
    memQuiet s.chip k ∧
    (s.chip.memS k).queue = [] ∧
    (s.chip.memS k).sched = [] ∧
    (s.chip.memS k).recalls = [] ∧
    (∀ b ∈ s.chip.blocks, ∀ e ∈ b.2.dma, e.wants = [] ∨ e.out = true) ∧
    s.chip.fld (.memblk k) MEMBLK.MEM_CTL_scrub_hours ≠ 0 ∧
    line < 805306368 ∧
    s.chip.lineServable key = true ∧
    s.chip.lineBad key = false ∧
    wrong ≤ 5) ∧
  (∃ (s : State) (k : Stack) (_seen : List EccSeen),
    s.chip.partStep ⟨k.val / 2, by omega⟩ = 0 ∧
    s.chip.memReady k = true ∧
    (s.chip.memS k).room 3 = true ∧
    (s.chip.memS k).sched ≠ [] ∧
    s.chip.fld (.memblk k) MEMBLK.MEM_CTL_scrub_hours ≠ 0) ∧
  (∃ (s : State) (k : Stack) (pc : Fin 64),
    (s.chip.memS k).failed = [] ∧
    (s.chip.memS k).noSpare = [] ∧
    mayAsk s.chip (.pc k pc)) ∧
  (∃ (s : State) (k : Stack) (pc : Fin 64),
    (s.chip.memS k).failed = [] ∧
    (s.chip.memS k).noSpare = [] ∧
    s.chip.spareFree (.pc k pc) = false) ∧
  (∃ (s : State) (k : Stack) (q : RepointReq),
    s.chip.repoint.queue.find? (fun q => !q.hard && !q.copied && (match q.elem with | .pc x _ => x = k | _ => false)) = some q ∧
    pcLines ≤ (s.chip.memS k).copied) ∧
  (∃ (s : State) (k : Stack),
    s.chip.memReady k = false ∧
    s.chip.powered (.memblk k) = true ∧
    s.chip.partStep ⟨k.val / 2, by omega⟩ ≠ 3) :=
  ⟨⟨st up, 0, 86, by decide +kernel⟩,
    ⟨st up, 0, 85, by decide +kernel⟩,
    ⟨st (memUp.setFld (.memblk 0) MEMBLK.MEM_CTL_scrub_hours 1), 0, [], by dsimp only; decide +kernel⟩,
    ⟨st ((inSched fill0).setFld (.memblk 0) MEMBLK.MEM_CTL_scrub_hours 1), 0, [], by decide +kernel⟩,
    ⟨st up, 0, 63, by decide +kernel⟩,
    ⟨st ((up.setFld (.memblk 0) MEMBLK.MEM_STS_s0_for 1).setFld (.memblk 0) MEMBLK.MEM_STS_s1_for 2), 0, 63,
      by decide +kernel⟩,
    ⟨st { up with repoint := { queue := [⟨.pc 0 5, false, 0, 0, false⟩] }, mems := [(0, { copied := pcLines })] }, 0,
      ⟨.pc 0 5, false, 0, 0, false⟩, by decide +kernel⟩,
    ⟨st up, 0, by decide +kernel⟩⟩

theorem witness_PoolsGiveAndTakeBuffers :
  (∃ (s : State) (r : Region) (k : Fin 4) (ring : Bool) (v : Word),
    let pos := (if ring then 0x128 else 0x120) + 0x30 * k.val
    let new := (s.chip.plainWrite (.cobbler r) pos v).1
    answers s.chip (.cobbler r) ∧
    s.chip.held (.cobbler r) = false ∧
    new.poolFits r k.val = true) ∧
  (∃ (s : State) (r : Region) (k : Fin 4) (ring : Bool) (v : Word),
    let pos := (if ring then 0x128 else 0x120) + 0x30 * k.val
    let new := (s.chip.plainWrite (.cobbler r) pos v).1
    answers s.chip (.cobbler r) ∧
    s.chip.held (.cobbler r) = false ∧
    (¬ (new.poolFits r k.val = true))) ∧
  (∃ (s : State) (r : Region) (k : Fin 4) (v : Word),
    let pos := 0x1E0 + 8 * k.val
    let new := (s.chip.plainWrite (.cobbler r) pos v).1
    let need := (if s.chip.fuses.grade = .a then 16 else 12) * new.fld (.cobbler r) (COBBLER.RESERVE_block_min.plus (8
      * k.val)) + new.fld (.cobbler r) (COBBLER.RESERVE_host_min.plus (8 * k.val))
    answers s.chip (.cobbler r) ∧
    s.chip.held (.cobbler r) = false ∧
    need ≤ s.chip.poolCount r k.val) ∧
  (∃ (s : State) (r : Region) (k : Fin 4) (v : Word),
    let pos := 0x1E0 + 8 * k.val
    let new := (s.chip.plainWrite (.cobbler r) pos v).1
    let need := (if s.chip.fuses.grade = .a then 16 else 12) * new.fld (.cobbler r) (COBBLER.RESERVE_block_min.plus (8
      * k.val)) + new.fld (.cobbler r) (COBBLER.RESERVE_host_min.plus (8 * k.val))
    answers s.chip (.cobbler r) ∧
    s.chip.held (.cobbler r) = false ∧
    (¬ (need ≤ s.chip.poolCount r k.val))) ∧
  (∃ (s : State) (r : Region) (k : Fin 4),
    (s.chip.cob r).rebuilding = [k.val] ∧
    (s.chip.pool r k.val).disabled = false ∧
    (∀ i : Fin 2, s.chip.memReady (regionStack r i) = true)) ∧
  (∃ (s : State) (r : Region) (k : Fin 4),
    let w := s.chip.reg (.cobbler r) (0x140 + 0x30 * k.val)
    let i := (getBits w 36 0 - s.chip.poolBase r k.val) / poolSize k.val
    answers s.chip (.cobbler r) ∧
    bitAt w 63 = true ∧
    (s.chip.pool r k.val).cache.contains i = false) ∧
  (∃ (s : State) (r : Region) (v : Word) (k i : Nat),
    answers s.chip (.cobbler r) ∧
    k < 4 ∧
    (List.range 4).find? (fun k => s.chip.poolOn r k && s.chip.poolBase r k ≤ getBits v 36 0 && getBits v 36 0 <
      s.chip.poolBase r k + s.chip.poolCount r k * poolSize k && (getBits v 36 0 - s.chip.poolBase r k) % poolSize k =
      0) = some k ∧
    i = (getBits v 36 0 - s.chip.poolBase r k) / poolSize k ∧
    Tab.find (s.chip.pool r k).owners i = some 16 ∧
    (s.chip.pool r k).queue = [] ∧
    (s.chip.pool r k).cache.length < 63) ∧
  (∃ (s : State) (r : Region) (v : Word) (k i : Nat),
    answers s.chip (.cobbler r) ∧
    (List.range 4).find? (fun k => s.chip.poolOn r k && s.chip.poolBase r k ≤ getBits v 36 0 && getBits v 36 0 <
      s.chip.poolBase r k + s.chip.poolCount r k * poolSize k && (getBits v 36 0 - s.chip.poolBase r k) % poolSize k =
      0) = some k ∧
    i = (getBits v 36 0 - s.chip.poolBase r k) / poolSize k ∧
    Tab.find (s.chip.pool r k).owners i ≠ some 16) ∧
  (∃ (s : State) (r : Region) (k : Fin 4),
    s.chip.poolOn r k.val = true ∧
    (s.chip.pool r k.val).inRing ≠ 0 ∧
    (s.chip.pool r k.val).cache.length < s.chip.fld (.cobbler r) (COBBLER.POOL_STS_low_now.plus (0x30 * k.val))) :=
  ⟨⟨st up, 0, 3, true, 0, by dsimp only; decide +kernel⟩,
    ⟨st up, 0, 3, true, 1, by dsimp only; decide +kernel⟩,
    ⟨st up, 0, 3, 0, by dsimp only; decide +kernel⟩,
    ⟨st up, 0, 3, -1, by dsimp only; decide +kernel⟩,
    ⟨st { (memUp.setFld (.memblk 1) MEMBLK.MEM_STS_ready 1) with cobs := [(0, { rebuilding := [3] })] }, 0, 3,
      by decide +kernel⟩,
    ⟨st (up.setReg (.cobbler 0) 0x140 (1 <<< 63)), 0, 0, by dsimp only; decide +kernel⟩,
    ⟨st { (up.setFld (.cobbler 0) COBBLER.POOL_CFG_count 64) with cobs := [(0, { pools := [(0, { owners := [(3, 16)] })] })] },
      0, 1536, 0, 3, by decide +kernel⟩,
    ⟨st { (up.setFld (.cobbler 0) COBBLER.POOL_CFG_count 64) with cobs := [(0, { pools := [(0, { owners := [(3, 5)] })] })] },
      0, 1536, 0, 3, by decide +kernel⟩,
    ⟨st { ((up.setFld (.cobbler 0) COBBLER.POOL_CFG_count 64).setFld (.cobbler 0) COBBLER.POOL_STS_low_now 4) with cobs := [(0, { pools := [(0, { inRing := 20 })] })] },
      0, 0, by decide +kernel⟩⟩

theorem witness_InvocationsRunThroughTheQueue :
  (∃ (s : State) (r : Region) (p : Packet) (st : Nat),
    s.chip.partStep r = 0 ∧
    inboxGives s.chip r 4 (fun _ => true) p ∧
    s.chip.invokeWay r p = .fails st) ∧
  (∃ (s : State) (r : Region) (p : Packet) (b : BlockIx) (k : Nat),
    s.chip.partStep r = 0 ∧
    inboxGives s.chip r 4 (fun _ => true) p ∧
    s.chip.invokeWay r p = .goes b k) ∧
  (∃ (s : State) (r : Region) (p : Packet) (b : BlockIx) (k : Nat),
    s.chip.partStep r = 0 ∧
    inboxGives s.chip r 4 (fun p => match s.chip.invokeWay r p with | .goes _ _ => true | _ => false) p ∧
    s.chip.invokeWay r p = .goes b k) ∧
  (∃ (s : State) (r : Region) (b : BlockIx) (e : WqE),
    blockRuns s.chip r b ∧
    s.chip.headReady r b = some e) ∧
  (∃ (s : State) (r : Region) (b : BlockIx) (e : WqE),
    blockRuns s.chip r b ∧
    (s.chip.blk r b).wq.find? (fun e => match e.answer with | some p => (Tab.get (s.chip.xbar r).arrivals 16 []).all (fun a => a.pkt ≠ p) | none => false) = some e) :=
  ⟨⟨st { up with xbars := [(0, { inbox := [(4, [inv])] })] }, 0, inv, 3, by decide +kernel⟩,
    ⟨st { progUp with xbars := [(0, { inbox := [(4, [inv])] })] }, 0, inv, 0, 0, by decide +kernel⟩,
    ⟨st { progUp with xbars := [(0, { inbox := [(4, [inv])] })] }, 0, inv, 0, 0, by decide +kernel⟩,
    ⟨st ((withWq [ent0]).setCellState 0 0 0 0), 0, 0, ent0, by decide +kernel⟩,
    ⟨st (withWq [{ ent0 with answer := some pk0 }]), 0, 0, { ent0 with answer := some pk0 }, by decide +kernel⟩⟩

theorem witness_CellFaultsCopiesAndAborts :
  (∃ (s : State) (r : Region) (b : BlockIx) (l : CellIx) (e : WqE),
    blockRuns s.chip r b ∧
    cellBusy (s.chip.cellState r b l.val) = true ∧
    s.chip.entryOf r b l.val = some e ∧
    e.state = .running ∧
    Tab.find (s.chip.blk r b).faults (s.chip.physCell r b l.val) = none ∧
    s.chip.flag (.cblk r b) CBLK.BLK_CTL_replay_en = true) ∧
  (∃ (s : State) (r : Region) (b : BlockIx) (l : CellIx) (e : WqE),
    blockRuns s.chip r b ∧
    cellBusy (s.chip.cellState r b l.val) = true ∧
    s.chip.entryOf r b l.val = some e ∧
    ((s.chip.blk r b).wq.map (·.n)).Nodup ∧
    Tab.find (s.chip.blk r b).faults (s.chip.physCell r b l.val) = none ∧
    s.chip.flag (.cblk r b) CBLK.BLK_CTL_replay_en = false) ∧
  (∃ (s : State) (r : Region) (b : BlockIx) (l : CellIx),
    blockRuns s.chip r b ∧
    s.chip.repoint.queue.any (fun q => q.elem = .cell r b l && !q.hard && !q.copied) = true ∧
    (s.chip.cellState r b l.val = 0 ∨ s.chip.cellState r b l.val = 6) ∧
    (s.chip.blk r b).copying = none) ∧
  (∃ (s : State) (r : Region) (b : BlockIx) (l : CellIx) (sp : Nat),
    blockRuns s.chip r b ∧
    (s.chip.blk r b).copying = some l.val ∧
    s.chip.spareCell r b = some sp) ∧
  (∃ (s : State) (r : Region) (b : BlockIx),
    answers s.chip (.cblk r b) ∧
    ((s.chip.blk r b).wq.map (·.n)).Nodup) ∧
  (∃ (s : State) (r : Region) (b : BlockIx) (v : Word),
    answers s.chip (.cblk r b) ∧
    bitAt v 8 = false) :=
  ⟨⟨st (((withWq [{ ent0 with state := .running }]).setCellState 0 0 0 1).setFld (.cblk 0 0) CBLK.BLK_CTL_replay_en 1),
      0, 0, 0, { ent0 with state := .running }, by decide +kernel⟩,
    ⟨st (((withWq [{ ent0 with state := .running }]).setCellState 0 0 0 1).setFld (.cblk 0 0) CBLK.BLK_CTL_replay_en 0),
      0, 0, 0, { ent0 with state := .running }, by decide +kernel⟩,
    ⟨st (Chip.setCellState { up with repoint := { queue := [⟨.cell 0 0 7, false, 0, 0, false⟩] } } 0 0 7 0), 0, 0, 7,
      by decide +kernel⟩,
    ⟨st { up with blocks := [(0, { copying := some 7 })] }, 0, 0, 7, 8, by decide +kernel⟩,
    ⟨st (withWq [{ ent0 with state := .running }, { ent0 with n := 1 }]), 0, 0, by decide +kernel⟩,
    ⟨st up, 0, 0, 3, by decide +kernel⟩⟩

theorem witness_BundlesIssueAndCommit :
  (∃ (s : State) (r : Region) (b : BlockIx) (l : CellIx) (e : WqE) (w : Bundle) (ok : Bool) (v : Word),
    cellIssues s.chip r b l e ∧
    s.chip.fetch r b l.val = (w, ok) ∧
    s.chip.decodeCheck r b l.val e w ok = none ∧
    w.vector = 0 ∧
    w.matrix = 0 ∧
    w.load = 0 ∧
    w.store = 0 ∧
    w.sync = 0 ∧
    (1 ≤ scOp w.scalar ∧ scOp w.scalar ≤ 0x12 ∨ 0x20 ≤ scOp w.scalar ∧ scOp w.scalar ≤ 0x25) ∧
    (∀ i < 4, ((s.chip.cell r b l.val).core.loops.getD i {}).active = false) ∧
    (s.chip.cell r b l.val).core.tackResult w.scalar (s.chip.cellPc r b l.val + w.units) = some v) ∧
  (∃ (s : State) (r : Region) (b : BlockIx) (l : CellIx) (e : WqE) (w : Bundle) (ok : Bool) (cause : Nat),
    cellIssues s.chip r b l e ∧
    s.chip.fetch r b l.val = (w, ok) ∧
    s.chip.decodeCheck r b l.val e w ok = some cause ∧
    ((s.chip.blk r b).wq.map (·.n)).Nodup) ∧
  (∃ (s : State) (r : Region) (b : BlockIx) (l : CellIx) (e : WqE) (word : Nat),
    cellIssues s.chip r b l e ∧
    2 * s.chip.cellPc r b l.val ≤ word ∧
    word < 2 * (s.chip.cellPc r b l.val + (s.chip.fetch r b l.val).1.units) ∧
    s.chip.bad.contains (s.chip.sramKey r b l.val ⟨.shadow, word, true⟩) = true) ∧
  (∃ (k : Core) (i : Nat) (_v : Word),
    i ≠ 0 ∧
    i < k.tack.length) ∧
  (∃ (_k : Core) (i : Nat) (_v : Word) (j : Nat),
    j ≠ i) ∧
  (∃ (s : State) (r : Region) (b : BlockIx) (l : CellIx) (f : Flight) (e : WqE) (a : Nat) (data : List Byte) (sp :
     Space) (o : Nat),
    blockRuns s.chip r b ∧
    (s.chip.cell r b l.val).flight = some f ∧
    (s.chip.cell r b l.val).ue = none ∧
    plainFlight f ∧
    f.ended = false ∧
    f.stores = [(a, data)] ∧
    s.chip.mapAddr r b (.tack l.val) a data.length = some (.loc sp o) ∧
    (s.chip.blk r b).lines = [] ∧
    s.chip.wqOf r b (s.chip.cell r b l.val).entry = some e ∧
    inMask e.mask l.val = true ∧
    e.state = .running ∧
    (s.chip.cell r b l.val).ended = false) ∧
  (∃ (s : State) (r : Region) (b : BlockIx) (l : CellIx) (f : Flight) (e : WqE),
    blockRuns s.chip r b ∧
    (s.chip.cell r b l.val).flight = some f ∧
    (s.chip.cell r b l.val).ue = none ∧
    plainFlight f ∧
    f.ended = true ∧
    f.stores = [] ∧
    (s.chip.blk r b).lines = [] ∧
    s.chip.wqOf r b (s.chip.cell r b l.val).entry = some e ∧
    maskCells e.mask = [l.val] ∧
    e.state = .running ∧
    ((s.chip.blk r b).wq.map (·.n)).Nodup) :=
  ⟨⟨st (cellAt addB.scalar), 0, 0, 0, { ent0 with state := .running }, addB, true, 5, by decide +kernel⟩,
    ⟨st (cellAt badB.scalar), 0, 0, 0, { ent0 with state := .running }, badB, true, 5, by decide +kernel⟩,
    ⟨st (badShadow (cellAt addB.scalar)), 0, 0, 0, { ent0 with state := .running }, 0, by decide +kernel⟩,
    ⟨{}, 1, 7, by decide +kernel⟩,
    ⟨{}, 1, 7, 2, by decide +kernel⟩,
    ⟨st (withCell [{ ent0 with state := .running }] { flight := some { core := {}, next := 4, stores := [(0x2000000, [1, 2, 3])] } }),
      0, 0, 0, { core := {}, next := 4, stores := [(0x2000000, [1, 2, 3])] }, { ent0 with state := .running },
      0x2000000, [1, 2, 3], .bmem 0 0, 0, by decide +kernel⟩,
    ⟨st (withCell [{ ent0 with state := .running }] { flight := some { core := {}, next := 4, ended := true } }), 0,
      0, 0, { core := {}, next := 4, ended := true }, { ent0 with state := .running }, by decide +kernel⟩⟩

theorem witness_DescriptorsAndSparseWindows :
  (∃ (s : State) (r : Region) (b : BlockIx) (e : DmaE),
    blockRuns s.chip r b ∧
    (s.chip.blk r b).dma.find? (fun e => !e.started) = some e ∧
    e.fence = false ∧
    (∀ x ∈ (s.chip.blk r b).dma, x.ix = e.ix → x.snapshot = none) ∧
    e.badDesc (s.chip.entryOf r b e.cell).isSome = true) ∧
  (∃ (s : State) (r : Region) (b : BlockIx) (e : DmaE) (ss ds : Space) (so do_ : Nat),
    blockRuns s.chip r b ∧
    (s.chip.blk r b).dma.find? (fun e => !e.started) = some e ∧
    e.fence = false ∧
    e.op = 0 ∧
    (∀ x ∈ (s.chip.blk r b).dma, x.ix = e.ix → x.snapshot = none) ∧
    e.badDesc (s.chip.entryOf r b e.cell).isSome = false ∧
    (∀ i < 8, (s.chip.win r b i).kind = 0) ∧
    s.chip.bad = [] ∧
    s.chip.mapAddr r b .dma e.src e.length = some (.loc ss so) ∧
    s.chip.mapAddr r b .dma e.dst e.length = some (.loc ds do_)) ∧
  (∃ (s : State) (r : Region) (b : BlockIx) (ix : Nat) (e : DmaE) (n : Nat),
    blockRuns s.chip r b ∧
    s.chip.dmaOf (blkNo r b) ix = some e ∧
    e.ix = ix ∧
    e.report = some (0, n) ∧
    e.snapshot = none ∧
    e.cell < 8) ∧
  (∃ (s : State) (r : Region) (b : BlockIx) (_i : Fin 8) (_wordB : Bool) (_v : Word),
    answers s.chip (.cblk r b) ∧
    s.chip.held (.cblk r b) = false) ∧
  (∃ (s : State) (r : Region) (b : BlockIx) (_v : Word),
    answers s.chip (.cblk r b)) :=
  ⟨⟨st { up with blocks := [(0, { dma := [{ ix := 0, cell := 0, words := [1] }] })] }, 0, 0,
      { ix := 0, cell := 0, words := [1] }, by decide +kernel⟩,
    ⟨st { up with blocks := [(0, { dma := [{ ix := 0, cell := 0, words := [0, 0x2000000, 0x2000040, 64, 64] }] })] },
      0, 0, { ix := 0, cell := 0, words := [0, 0x2000000, 0x2000040, 64, 64] }, .bmem 0 0, .bmem 0 0, 0, 64,
      by decide +kernel⟩,
    ⟨st { up with blocks := [(0, { dma := [{ ix := 7, cell := 0, words := [8], started := true, result := some (0, 3) }] })] },
      0, 0, 7, { ix := 7, cell := 0, words := [8], started := true, result := some (0, 3) }, 3, by decide +kernel⟩,
    ⟨st up, 0, 0, 7, true, 1, by decide +kernel⟩,
    ⟨st up, 0, 0, 1, by decide +kernel⟩⟩

theorem witness_PiecesTakeTheirStages :
  (∃ (s : State) (r : Region) (p : Packet) (id : Option Nat) (x : InstS) (m : Nat × Nat),
    frontPiece s.chip r p id ∧
    contribFits s.chip r p x m ∧
    othersMissing s.chip r p x m) ∧
  (∃ (s : State) (r : Region) (p : Packet) (id : Option Nat) (told : Bool) (rest : List (Packet × Option Nat × Bool))
     (x : InstS) (m : Nat × Nat),
    (s.chip.mort r).waiting = (p, id, told) :: rest ∧
    contribFits s.chip r p x m ∧
    othersMissing s.chip r p x m) ∧
  (∃ (s : State) (r : Region) (p : Packet) (id : Option Nat) (x : InstS) (m : Nat × Nat) (part : Part) (body : List
     Byte),
    let all := Tab.put (x.frag p.piece p.frag).contribs m.1 p.payload
    let l := (s.chip.effMembers r p.group).map (fun k => Part.widen x.d (dFragE x.d p.piece p.frag) (Tab.get all k.1
      []))
    frontPiece s.chip r p id ∧
    contribFits s.chip r p x m ∧
    s.chip.isAnchor r p.group = false ∧
    (x.frag p.piece p.frag).regionDone = false ∧
    (∀ k ∈ s.chip.effMembers r p.group, (Tab.find all k.1).isSome = true) ∧
    treeParts x.d l.length l = some part ∧
    part.encode = (body, [])) ∧
  (∃ (s : State) (r k k' : Region) (p : Packet) (id : Option Nat) (x : InstS),
    frontPiece s.chip r p id ∧
    pieceFits s.chip r p x ∧
    p.phase = 1 ∧
    s.chip.isAnchor r p.group = true ∧
    dExact x.d = false ∧
    s.chip.regionOfEpid p.src = some k ∧
    k ∈ s.chip.maskRegions r p.group ∧
    Tab.find (x.frag p.piece p.frag).parts k.val = none ∧
    k' ∈ s.chip.maskRegions r p.group ∧
    k' ≠ k ∧
    s.chip.effMembers k' p.group ≠ [] ∧
    Tab.find (x.frag p.piece p.frag).parts k'.val = none) ∧
  (∃ (s : State) (r : Region) (p : Packet) (id : Option Nat) (x : InstS) (own : Part) (body : List Byte),
    let q := Part.words ((List.range (dFragE x.d p.piece p.frag)).map (fun i => leAt p.payload (4 * i) 4))
    frontPiece s.chip r p id ∧
    pieceFits s.chip r p x ∧
    p.phase = 2 ∧
    s.chip.isAnchor r p.group = true ∧
    dExact x.d = false ∧
    s.chip.isHead r p.group p.piece = false ∧
    (x.frag p.piece p.frag).passed = false ∧
    (x.frag p.piece p.frag).mine = some own ∧
    (Part.join x.d q own).encode = (body, [])) ∧
  (∃ (s : State) (r : Region) (p : Packet) (id : Option Nat) (x : InstS) (f : Nat),
    frontPiece s.chip r p id ∧
    pieceFits s.chip r p x ∧
    p.phase = 3 ∧
    s.chip.isAnchor r p.group = true ∧
    (s.chip.grpS r p.group).censusOk = true ∧
    s.chip.isHead r p.group p.piece = false ∧
    (x.frag p.piece p.frag).delivered = false ∧
    f < dFrags x.d p.piece ∧
    f ≠ p.frag ∧
    (x.frag p.piece f).passed = false) ∧
  (∃ (s : State) (r : Region) (p : Packet) (id : Option Nat),
    frontPiece s.chip r p id ∧
    s.chip.partStep r = 0 ∧
    p.kind = 1 ∧
    p.mcast = false ∧
    p.phase = 5 ∧
    p.len = 16 ∧
    s.chip.grpOk r p.group = true ∧
    p.job = s.chip.grp r p.group MORTAR.GRP_A_job_id ∧
    s.chip.isAnchor r p.group = false ∧
    s.chip.windowOf r p.group p.inst = .inside) ∧
  (∃ (s : State) (r : Region) (p : Packet) (id : Option Nat) (t : RoundS),
    frontPiece s.chip r p id ∧
    s.chip.partStep r = 0 ∧
    p.kind = 1 ∧
    p.mcast = false ∧
    p.phase = 6 ∧
    p.len = 512 ∧
    s.chip.grpOk r p.group = true ∧
    p.job = s.chip.grp r p.group MORTAR.GRP_A_job_id ∧
    s.chip.isAnchor r p.group = true ∧
    p.inst = s.chip.fld .plumb PLUMB.PLUMB_STS_epoch % 32768 ∧
    (s.chip.grpS r p.group).round = some t ∧
    t.lap = 1 ∧
    (s.chip.grpS r p.group).insts = []) :=
  ⟨⟨st (withInst (grp 0 1 0) { d := sumOf 1, digest := 0, openedAt := 0 } [(piece 0 0 0 (sumOf 1) [1, 0, 0, 0], none)]),
      0, piece 0 0 0 (sumOf 1) [1, 0, 0, 0], none, { d := sumOf 1, digest := 0, openedAt := 0 }, (0, 0),
      by decide +kernel⟩,
    ⟨st { grp 0 1 0 with morts := [(0, { groups := [(0, { insts := [(0, { d := sumOf 1, digest := 0, openedAt := 0 })] })], waiting := [(piece 0 0 0 (sumOf 1) [1, 0, 0, 0], none, false)] })] },
      0, piece 0 0 0 (sumOf 1) [1, 0, 0, 0], none, false, [], { d := sumOf 1, digest := 0, openedAt := 0 }, (0, 0),
      by decide +kernel⟩,
    ⟨st (withInst (grp 0 1 0) { d := sumOf 1, digest := 0, openedAt := 0, frags := [(0, { contribs := [(1, [2, 0, 0, 0])] })] } [(piece 0 0 0 (sumOf 1) [1, 0, 0, 0], none)]),
      0, piece 0 0 0 (sumOf 1) [1, 0, 0, 0], none,
      { d := sumOf 1, digest := 0, openedAt := 0, frags := [(0, { contribs := [(1, [2, 0, 0, 0])] })] }, (0, 0),
      .words [3], [3, 0, 0, 0], by dsimp only; decide +kernel⟩,
    ⟨st (withInst (grp 1 1 0) { d := sumOf 1, digest := 0, openedAt := 0 } [(piece 1 0 0 (sumOf 1) [1, 0, 0, 0], none)]),
      0, 0, 1, piece 1 0 0 (sumOf 1) [1, 0, 0, 0], none, { d := sumOf 1, digest := 0, openedAt := 0 },
      by decide +kernel⟩,
    ⟨st (withInst (grp 1 2 1) { d := sumOf 1, digest := 0, openedAt := 0, frags := [(0, { mine := some (.words [2]) })] } [(piece 2 0 0 (sumOf 1) [1, 0, 0, 0], none)]),
      0, piece 2 0 0 (sumOf 1) [1, 0, 0, 0], none,
      { d := sumOf 1, digest := 0, openedAt := 0, frags := [(0, { mine := some (.words [2]) })] }, .words [2],
      [3, 0, 0, 0], by dsimp only; decide +kernel⟩,
    ⟨st { grp 1 2 1 with morts := [(0, { groups := [(0, { insts := [(0, { d := sumOf 2049, digest := 0, openedAt := 0 })], censusOk := true })], queue := [(piece 3 0 1 (sumOf 2049) [1, 0, 0, 0], none)] })] },
      0, piece 3 0 1 (sumOf 2049) [1, 0, 0, 0], none, { d := sumOf 2049, digest := 0, openedAt := 0 }, 0,
      by decide +kernel⟩,
    ⟨st (withInst (grp 0 1 0) { d := sumOf 1, digest := 0, openedAt := 0 } [(piece 5 0 0 0 (List.replicate 16 0), none)]),
      0, piece 5 0 0 0 (List.replicate 16 0), none, by decide +kernel⟩,
    ⟨st { grp 1 1 0 with morts := [(0, { groups := [(0, { started := true, round := some ⟨1, 0, 0, 0⟩ })], queue := [(piece 6 0 0 0 (List.replicate 512 0), none)] })] },
      0, piece 6 0 0 0 (List.replicate 512 0), none, ⟨1, 0, 0, 0⟩, by decide +kernel⟩⟩

theorem witness_LapsAndCensusRoundsAreTimed :
  (∃ (s : State) (r : Region) (g : Fin 1024),
    s.chip.partStep r = 0 ∧
    s.chip.censusDue r g.val = true) ∧
  (∃ (s : State) (r : Region) (g : Fin 1024) (t : RoundS),
    s.chip.partStep r = 0 ∧
    (s.chip.grpS r g.val).round = some t ∧
    s.chip.lapTimeout r ≤ s.chip.since t.sentAt ∧
    t.relaunches < s.chip.lapReplays r) ∧
  (∃ (s : State) (r : Region) (g : Fin 1024) (i : BitVec 15) (p : BitVec 16) (f : Fin 8) (x : InstS) (res : List
     Byte),
    s.chip.partStep r = 0 ∧
    s.chip.instS r g.val i.toNat = some x ∧
    (x.frag p.toNat f.val).lap = 2 ∧
    (x.frag p.toNat f.val).result = some res ∧
    s.chip.lapTimeout r ≤ s.chip.since (x.frag p.toNat f.val).sentAt ∧
    (x.frag p.toNat f.val).relaunches < s.chip.lapReplays r) ∧
  (∃ (s : State) (r : Region) (g : Fin 1024) (i : BitVec 15) (x : InstS),
    s.chip.partStep r = 0 ∧
    s.chip.instS r g.val i.toNat = some x ∧
    s.chip.instTimeout r ≤ s.chip.since x.openedAt ∧
    s.chip.windowOf r g.val i.toNat = .inside) ∧
  (∃ (s : State) (r : Region) (g : Fin 1024) (i : BitVec 15) (p : BitVec 16) (f : Fin 8) (x : InstS),
    s.chip.partStep r = 0 ∧
    s.chip.instS r g.val i.toNat = some x ∧
    (x.frag p.toNat f.val).cross ≠ 0 ∧
    s.chip.xpodTimeout r ≤ s.chip.since (x.frag p.toNat f.val).crossAt ∧
    (x.frag p.toNat f.val).crossTries < s.chip.lapReplays r) ∧
  (∃ (s : State) (n : Fin 256) (m : Welt) (ep pr : Nat) (rest : List (Welt × Nat × Nat)) (r : Region) (x : InstS),
    let p := Packet.ofBytes m.payload
    (s.chip.peer n.val).cmds = (m, ep, pr) :: rest ∧
    s.chip.groupAnchor p.group = some r ∧
    p.kind = 1 ∧
    p.mcast = false ∧
    p.payload.length = p.len ∧
    p.phase = 2 ∧
    p.job = s.chip.grp r p.group MORTAR.GRP_A_job_id ∧
    s.chip.pods r p.group ≠ 1 ∧
    s.chip.windowOf r p.group p.inst = .inside ∧
    dValid p.w2 (s.chip.grp r p.group MORTAR.GRP_A_member_count) = true ∧
    s.chip.instS r p.group p.inst = some x ∧
    x.d = p.w2 ∧
    x.digest = p.digest ∧
    s.chip.isHead r p.group p.piece = true ∧
    (x.frag p.piece p.frag).shapeOk x.d (dFragE x.d p.piece p.frag) p false = true ∧
    p.piece ∉ x.released ∧
    s.chip.journalUsed r + p.cells ≤ s.chip.fld (.xbar r) XBAR.BUF_ALLOT_journal ∧
    s.chip.isGlobalHead r p.group p.piece = false ∧
    dExact x.d = false ∧
    (x.frag p.piece p.frag).back = none) :=
  ⟨⟨st (after 5 (grp 1 1 0)), 0, 0, by decide +kernel⟩,
    ⟨st (after 2000000 { grp 1 1 0 with morts := [(0, { groups := [(0, { started := true, round := some ⟨1, 0, 0, 0⟩ })], queue := [] })] }),
      0, 0, ⟨1, 0, 0, 0⟩, by decide +kernel⟩,
    ⟨st (after 2000000 (withInst (grp 1 1 0) { d := sumOf 1, digest := 0, openedAt := 0, frags := [(0, { result := some [3, 0, 0, 0], lap := 2 })] } [])),
      0, 0, 0, 0, 0,
      { d := sumOf 1, digest := 0, openedAt := 0, frags := [(0, { result := some [3, 0, 0, 0], lap := 2 })] },
      [3, 0, 0, 0], by decide +kernel⟩,
    ⟨st (after 2000000000 (withInst (grp 1 1 0) { d := sumOf 1, digest := 0, openedAt := 0, frags := [(0, { result := some [3, 0, 0, 0], lap := 2 })] } [])),
      0, 0, 0,
      { d := sumOf 1, digest := 0, openedAt := 0, frags := [(0, { result := some [3, 0, 0, 0], lap := 2 })] },
      by decide +kernel⟩,
    ⟨st (after 2000000000 (withInst (grp 1 1 0) { d := sumOf 1, digest := 0, openedAt := 0, frags := [(0, { cross := 1 })] } [])),
      0, 0, 0, 0, 0, { d := sumOf 1, digest := 0, openedAt := 0, frags := [(0, { cross := 1 })] }, by decide +kernel⟩,
    ⟨st { withInst (((grp 1 1 0).setFld (.mortar 0) MORTAR.GRP_B_xpod_count 2).setFld (.mortar 0) MORTAR.GRP_B_xpod_pos 1) { d := sumOf 1, digest := 0, openedAt := 0 } [] with bridge := { peers := [(5, { cmds := [(cmd 0x70 0 0 (piece 2 0 0 (sumOf 1) [1, 0, 0, 0]).bytes, 0, 0)] })] } },
      5, cmd 0x70 0 0 (piece 2 0 0 (sumOf 1) [1, 0, 0, 0]).bytes, 0, 0, [], 0,
      { d := sumOf 1, digest := 0, openedAt := 0 }, by dsimp only; decide +kernel⟩⟩

theorem witness_StreamsRunAndEnd :
  (∃ (s : State) (r : Region) (p : Packet) (id : Option Nat) (x y : CtxS),
    let h := s.chip.slotH r p.slot
    let cst := fun (i : Nat) => if i < 48 then s.chip.slotConst r x.slot i else if i = 48 then getBits p.w2 31 0 else
      getBits p.w2 63 32
    frontStream s.chip r p id ∧
    streamFits s.chip r p x ∧
    p.streamLast = false ∧
    p.isFlush = false ∧
    elemRun h (s.chip.slotProg r x.slot h.nInstr) cst (s.chip.reg (.mortar r) 0x158) (rawElems h.inFmt p.payload)
      (metPacket x s.chip p) = (y, false) ∧
    y.out.length < h.fullBytes) ∧
  (∃ (s : State) (r : Region) (p : Packet) (id : Option Nat) (x : CtxS),
    frontStream s.chip r p id ∧
    streamFits s.chip r p x ∧
    p.streamLast = true ∧
    p.payload = [] ∧
    x.out = []) ∧
  (∃ (s : State) (r : Region) (k : Nat) (x : CtxS),
    let h := s.chip.slotH r x.slot
    let out := x.out ++ tokBytes h (sortBy (orderLe h) x.recs)
    s.chip.partStep r = 0 ∧
    s.chip.ctx r k = some x ∧
    x.kind = 1 ∧
    x.ended = true ∧
    x.failed = false ∧
    out ≠ [] ∧
    out.length ≤ h.fullBytes) ∧
  (∃ (s : State) (r : Region) (src : BitVec 12) (strm : BitVec 16) (x : CtxS),
    s.chip.partStep r = 0 ∧
    s.chip.ctx r (src.toNat * 65536 + strm.toNat) = some x ∧
    s.chip.streamTimeout r ≤ s.chip.since x.at_ ∧
    x.ended = false ∧
    x.segs.any (·.last) = false) :=
  ⟨⟨st (withCtx streamUp (ctx0 0) [(strm 0 [5, 0, 0, 0], none)] []), 0, strm 0 [5, 0, 0, 0], none, ctx0 0, ctx5,
      by dsimp only; decide +kernel⟩,
    ⟨st (withCtx streamUp (ctx0 0) [(strm 1 [], none)] []), 0, strm 1 [], none, ctx0 0, by decide +kernel⟩,
    ⟨st (withCtx streamUp { ctx0 1 with ended := true, recs := [(3, 0), (1, 1)] } [] []), 0, key0,
      { ctx0 1 with ended := true, recs := [(3, 0), (1, 1)] }, by dsimp only; decide +kernel⟩,
    ⟨st (after 200000 (withCtx streamUp (ctx0 0) [] [])), 0, 3, 1, ctx0 0, by decide +kernel⟩⟩

theorem witness_TokensGoToTheirExperts :
  (∃ (s : State) (r : Region) (k expert gate key : Nat) (x : CtxS) (sg : SegS) (b : BatchS),
    let h := s.chip.slotH r x.slot
    s.chip.partStep r = 0 ∧
    (s.chip.mort r).ctxs.find? (dispatchable s.chip r) = some (k, x) ∧
    s.chip.ctx r k = some x ∧
    x.ended = false ∧
    x.tokens = [] ∧
    x.segs = [sg] ∧
    sg.flush = false ∧
    sg.last = false ∧
    sg.upto = 64 + 64 * h.rowUnits ∧
    x.bytes.length = 64 + 64 * h.rowUnits ∧
    s.chip.routeOf r h x.bytes = some [(expert, gate)] ∧
    (s.chip.mort r).openBatch expert = some (key, b) ∧
    Tab.find (s.chip.mort r).batches key = some b ∧
    b.count + 1 ≠ getBits (s.chip.expertA r expert) 12 0) ∧
  (∃ (s : State) (r : Region) (key : Nat) (b : BatchS) (x : CtxS),
    s.chip.partStep r = 0 ∧
    nextBatch s.chip r = some (key, b) ∧
    b.bad = none ∧
    s.chip.ctx r b.ctx = some x) ∧
  (∃ (s : State) (r : Region) (key st : Nat) (b : BatchS),
    s.chip.partStep r = 0 ∧
    nextBatch s.chip r = some (key, b) ∧
    b.bad = some st) ∧
  (∃ (s : State) (r : Region) (p : Packet) (b : BatchS),
    s.chip.partStep r = 0 ∧
    inboxGives s.chip r 5 (fun _ => true) p ∧
    Tab.find (s.chip.mort r).batches p.memTag = some b ∧
    b.invokedAt.isSome = true ∧
    p.src = b.epid ∧
    p.isLast = true) ∧
  (∃ (s : State) (r : Region) (p : Packet) (b : BatchS) (x : CtxS),
    let h := s.chip.slotH r x.slot
    let mine := fun (e : ChoiceS) => decide (e.batch = p.memTag ∧ e.pos = getBits p.w3 19 0)
    s.chip.partStep r = 0 ∧
    inboxGives s.chip r 5 (fun _ => true) p ∧
    Tab.find (s.chip.mort r).batches p.memTag = some b ∧
    b.invokedAt.isSome = true ∧
    p.src = b.epid ∧
    p.isLast = false ∧
    s.chip.ctx r b.ctx = some x ∧
    x.tokens.any (fun t => t.choices.any (fun e => mine e && (e.data.isSome || e.badForm))) = false ∧
    p.len = h.outElems * strSize h.resFmt) ∧
  (∃ (s : State) (r : Region) (p : Packet),
    s.chip.partStep r = 0 ∧
    inboxGives s.chip r 5 (fun _ => true) p ∧
    Tab.find (s.chip.mort r).batches p.memTag = none) ∧
  (∃ (s : State) (r : Region) (hd : Fin 1024) (key n : Nat) (b : BatchS),
    s.chip.partStep r = 0 ∧
    (s.chip.mort r).batches.find? (fun b => b.1 % 1024 = hd.val) = some (key, b) ∧
    b.invokedAt = some n ∧
    s.chip.batchTimeout r ≤ s.chip.since n) :=
  ⟨⟨st (withCtx mixUp { ctx0 3 with bytes := row0, segs := [⟨none, 128, false, false⟩] } [] [(7, bat)]), 0, key0, 0,
      0, 7, { ctx0 3 with bytes := row0, segs := [⟨none, 128, false, false⟩] }, ⟨none, 128, false, false⟩, bat,
      by dsimp only; decide +kernel⟩,
    ⟨st (withCtx mixUp (ctx0 3) [] [(7, { bat with closed := some 0 })]), 0, 7, { bat with closed := some 0 },
      ctx0 3, by decide +kernel⟩,
    ⟨st (withCtx mixUp (ctx0 3) [] [(7, { bat with closed := some 0, bad := some 3 })]), 0, 7, 3,
      { bat with closed := some 0, bad := some 3 }, by decide +kernel⟩,
    ⟨st { withCtx mixUp (ctx0 3) [] [(7, { bat with closed := some 0, invokedAt := some 1 })] with xbars := [(0, { inbox := [(5, [res 1 []])] })] },
      0, res 1 [], { bat with closed := some 0, invokedAt := some 1 }, by decide +kernel⟩,
    ⟨st { withCtx mixUp (ctx0 3) [] [(7, { bat with closed := some 0, invokedAt := some 1 })] with xbars := [(0, { inbox := [(5, [res 0 [1, 0, 0, 0]])] })] },
      0, res 0 [1, 0, 0, 0], { bat with closed := some 0, invokedAt := some 1 }, ctx0 3,
      by dsimp only; decide +kernel⟩,
    ⟨st { mixUp with xbars := [(0, { inbox := [(5, [res 1 []])] })] }, 0, res 1 [], by decide +kernel⟩,
    ⟨st (after 200000 (withCtx mixUp (ctx0 3) [] [(7, { bat with closed := some 0, invokedAt := some 1 })])), 0, 7,
      7, 1, { bat with closed := some 0, invokedAt := some 1 }, by decide +kernel⟩⟩

theorem witness_AwlRecordsInStampOrder :
  (∃ (s : State) (v : Word),
    answers s.chip .awl ∧
    s.chip.lateFor (getBits v 47 0) = false ∧
    s.chip.awlReady = true) ∧
  (∃ (s : State) (v : Word),
    answers s.chip .awl ∧
    s.chip.lateFor (getBits v 47 0) = true) ∧
  (∃ (s : State) (n : Nat),
    s.chip.awl.armed = some n ∧
    courseBefore s.chip.courseNow n = false) ∧
  (∃ (s : State) (v : Word),
    answers s.chip .awl ∧
    s.chip.awlRuns = true ∧
    (getBits v 1 0 = 0 ∨ getBits v 1 0 = 3)) ∧
  (∃ (s : State) (v : Word),
    answers s.chip .awl ∧
    s.chip.awlRuns = true ∧
    (¬ (getBits v 1 0 = 0 ∨ getBits v 1 0 = 3))) ∧
  (∃ (s : State) (e : AwlRec),
    s.chip.awlHead = some e ∧
    e.made + 64 ≤ s.chip.now ∧
    s.chip.awlFull = false ∧
    s.chip.awl.comparing = false ∧
    e.bytes.length = 64) ∧
  (∃ (s : State) (e : AwlRec),
    s.chip.awlHead = some e ∧
    e.made + 64 ≤ s.chip.now ∧
    s.chip.awlFull = true ∧
    e.type ≠ 9) ∧
  (∃ (s : State) (r : Region) (n course off : Nat),
    Tab.find s.chip.awl.lost r.val = some (n, course, off) ∧
    (Tab.get s.chip.awl.queues r.val []).length < 4096) ∧
  (∃ (s : State),
    s.chip.awlStopped = true ∧
    s.chip.awlRuns = true) :=
  ⟨⟨st (up.setFld .awl AWL.AWL_CTL_mode 1), 5, by decide +kernel⟩,
    ⟨st (up.setFld .awl AWL.AWL_CTL_mode 1), 0, by decide +kernel⟩,
    ⟨st { up with awl := { armed := some 0 } }, 0, by decide +kernel⟩,
    ⟨st { up with awl := { recording := true } }, 0, by decide +kernel⟩,
    ⟨st { up with awl := { recording := true } }, 1, by decide +kernel⟩,
    ⟨st (long { up with awl := { recording := true, queues := [(0, [rec0])] } }), rec0, by decide +kernel⟩,
    ⟨st (long { up.setFld .awl AWL.AWL_WPTR_written 1024 with awl := { recording := true, queues := [(0, [rec0])] } }),
      rec0, by decide +kernel⟩,
    ⟨st { up with awl := { lost := [(0, 3, 0, 7)] } }, 0, 3, 0, 7, by decide +kernel⟩,
    ⟨st { (up.setFld .course COURSE.COURSE_NOW_course 9).setFld .awl AWL.AWL_STOP_stop_course 5 with awl := { recording := true } },
      by decide +kernel⟩⟩

theorem witness_FramesArriveAndPause :
  (∃ (s : State) (f : Frame) (u : Datagram) (m : Welt),
    frameCarries s.chip f u ∧
    weltGood s.chip f u m ∧
    m.known = true ∧
    s.chip.sessState m.session = 1 ∧
    m.seq = s.chip.rxNext m.session ∧
    (s.chip.sess m.session).rxRoom m.payload.length = true) ∧
  (∃ (s : State) (f : Frame) (u : Datagram) (m : Welt),
    frameCarries s.chip f u ∧
    weltGood s.chip f u m ∧
    m.type = 1) ∧
  (∃ (s : State) (f : Frame),
    s.chip.flag .hostport HOSTPORT.HP_STS_link_up = true ∧
    s.chip.serves = true ∧
    f.fcsOk = false) ∧
  (∃ (s : State) (_enable : BitVec 8) (_quanta : List (BitVec 16)),
    s.chip.flag .hostport HOSTPORT.HP_CTL_pfc_en = true) ∧
  (∃ (s : State) (p : Fin 8),
    s.chip.pausedNow p.val = false) ∧
  (∃ (s : State) (p : Fin 8),
    s.chip.host.xoffSent.contains p.val = true ∧
    s.chip.rxHeld (some p.val) < 1024 * s.chip.fld .hostport HOSTPORT.PFC_CTL_pfc_xon) ∧
  (∃ (s : State),
    s.chip.domOn 156 = true ∧
    s.chip.flag .hostport HOSTPORT.HP_CTL_enable = true ∧
    s.chip.flag .hostport HOSTPORT.HP_STS_link_up = false ∧
    s.chip.linksRun = true) ∧
  (∃ (s : State),
    s.chip.flag .hostport HOSTPORT.HP_STS_link_up = true) :=
  ⟨⟨st hostUp, frameOf (cmd 0x21 0 8 []), ⟨false, 0x01020304, 7, msgBytes (cmd 0x21 0 8 [])⟩, cmd 0x21 0 8 [],
      by refine ⟨?_, ?_, ?_, ?_, ?_, ?_, ?_, ?_, ?_, ?_, ?_, ?_⟩ <;> first | rfl | decide +kernel, by decide +kernel⟩,
    ⟨st hostUp, frameOf (cmd 0x01 0 0 []), ⟨false, 0x01020304, 7, msgBytes (cmd 0x01 0 0 [])⟩, cmd 0x01 0 0 [],
      by refine ⟨?_, ?_, ?_, ?_, ?_, ?_, ?_, ?_, ?_, ?_, ?_, ?_⟩ <;> first | rfl | decide +kernel, by decide +kernel⟩,
    ⟨st hostUp, { frameOf (cmd 0x21 0 8 []) with fcsOk := false }, by decide +kernel⟩,
    ⟨st (up.setFld .hostport HOSTPORT.HP_CTL_pfc_en 1), 0xFF, [], by decide +kernel⟩,
    ⟨st { up with host := { paused := [(3, 0)] } }, 3, by decide +kernel⟩,
    ⟨st { up.setFld .hostport HOSTPORT.PFC_CTL_pfc_xon 8 with host := { xoffSent := [3] } }, 3, by decide +kernel⟩,
    ⟨st ((up.setFld .hostport HOSTPORT.HP_CTL_enable 1).setFld .boot BOOT.BOOT_STS_state 8), by decide +kernel⟩,
    ⟨st hostUp, by decide +kernel⟩⟩

theorem witness_SessionsOpenCloseAndResend :
  (∃ (s : State) (k : Sess) (m : Welt) (rest : List Welt),
    (s.chip.sess k.val).opens = m :: rest) ∧
  (∃ (s : State) (k : Sess) (m : Welt) (rest : List Welt),
    let n := (BitVec.ofNat 32 m.ack - (s.chip.sess k.val).acked).toNat
    (s.chip.sess k.val).acks = m :: rest ∧
    0 < n ∧
    n ≤ (s.chip.sess k.val).unacked.length) ∧
  (∃ (s : State) (k : Sess),
    let sc := s.chip.reg .hostbr (0x1000 + 0x40 * k.val)
    (s.chip.sess k.val).unsaid ≠ 0 ∧
    s.chip.canSend (getBits sc 61 59) (s.chip.frameBytes (bitAt sc 62) 0) = true) ∧
  (∃ (s : State) (ix : Fin 256),
    let st := s.chip.sess (ix.val % 16)
    st.unacked ≠ [] ∧
    st.lost = false ∧
    s.chip.rtoPast st = true ∧
    st.retries < s.chip.retryMax) ∧
  (∃ (s : State) (ix : Fin 256),
    let st := s.chip.sess (ix.val % 16)
    st.unacked ≠ [] ∧
    st.lost = false ∧
    s.chip.rtoPast st = true ∧
    s.chip.retryMax ≤ st.retries) ∧
  (∃ (s : State) (ix : Fin 256),
    let st := s.chip.peer ix.val
    st.unacked ≠ [] ∧
    st.lost = false ∧
    s.chip.rtoPast st = true ∧
    st.retries < s.chip.retryMax) ∧
  (∃ (s : State) (ix : Fin 256),
    let st := s.chip.peer ix.val
    st.unacked ≠ [] ∧
    st.lost = false ∧
    s.chip.rtoPast st = true ∧
    s.chip.retryMax ≤ st.retries) ∧
  (∃ (s : State) (_k : Sess) (v : Word),
    answers s.chip .hostbr ∧
    bitAt v 63 = false) ∧
  (∃ (s : State) (n : Fin 256) (word : Fin 4) (v : Word),
    answers s.chip .hostbr ∧
    (s.chip.plainWrite .hostbr (0x2000 + 0x20 * n.val + 8 * word.val) v).2 = false) :=
  ⟨⟨st { hostUp with bridge := { sessions := [(0, { opens := [cmd 1 0 0 []] })] } }, 0, cmd 1 0 0 [], [],
      by decide +kernel⟩,
    ⟨st { hostUp with bridge := { sessions := [(0, { acks := [mkWelt 2 0 0 0 1 0 0 0 0 []], unacked := [cmd 1 0 0 []] })] } },
      0, mkWelt 2 0 0 0 1 0 0 0 0 [], [], by dsimp only; decide +kernel⟩,
    ⟨st { hostUp with bridge := { sessions := [(0, { unsaid := 1 })] } }, 0, by dsimp only; decide +kernel⟩,
    ⟨st (long { hostUp with bridge := { sessions := [(0, { unacked := [cmd 1 0 0 []] })] } }), 0,
      by dsimp only; decide +kernel⟩,
    ⟨st (long { hostUp with bridge := { sessions := [(0, { unacked := [cmd 1 0 0 []], retries := 20 })] } }), 0,
      by dsimp only; decide +kernel⟩,
    ⟨st (long { hostUp with bridge := { peers := [(0, { unacked := [cmd 1 0 0 []] })] } }), 0,
      by dsimp only; decide +kernel⟩,
    ⟨st (long { hostUp with bridge := { peers := [(0, { unacked := [cmd 1 0 0 []], retries := 20 })] } }), 0,
      by dsimp only; decide +kernel⟩,
    ⟨st hostUp, 0, 0, by decide +kernel⟩,
    ⟨st hostUp, 0, 1, 0, by decide +kernel⟩⟩

theorem witness_BatchesBulkMemoryAndLoads :
  (∃ (s : State) (k : Sess) (m : Welt) (rest : List (Welt × Nat × Nat)) (u : UnitId) (pos : Nat) (v : Word),
    atHead s.chip k m rest ∧
    m.type = 0x10 ∧
    m.at = false ∧
    writesOne s.chip m.payload u pos v) ∧
  (∃ (s : State) (k : Sess) (m : Welt) (rest : List (Welt × Nat × Nat)),
    atHead s.chip k m rest ∧
    m.type = 0x10 ∧
    m.at = true ∧
    batchFormed m.payload = true ∧
    s.chip.lateFor (getBits m.argA 47 0) = true) ∧
  (∃ (s : State) (k : Sess) (m : Welt) (rest : List (Welt × Nat × Nat)),
    atHead s.chip k m rest ∧
    m.type = 0x10 ∧
    m.at = true ∧
    batchFormed m.payload = true ∧
    s.chip.lateFor (getBits m.argA 47 0) = false ∧
    s.chip.bridge.scheds.length < 16) ∧
  (∃ (s : State) (e : Sched) (u : UnitId) (pos : Nat) (v : Word),
    let due := s.chip.bridge.scheds.filter s.chip.schedDue
    due.find? (fun e => due.all (fun x => !courseBefore x.course e.course)) = some e ∧
    (s.chip.sess e.session).epoch = e.epoch ∧
    s.chip.sessState e.session = 1 ∧
    writesOne s.chip e.msg.payload u pos v) ∧
  (∃ (s : State) (k : Sess) (m : Welt) (rest : List (Welt × Nat × Nat)) (t : MemTarget) (sp : Space) (o : Nat),
    atHead s.chip k m rest ∧
    m.type = 0x20 ∧
    m.argB = m.payload.length ∧
    m.payload.length ≤ 8192 ∧
    (s.chip.memTarget m).toOption = some t ∧
    t.place = .loc sp o) ∧
  (∃ (s : State) (k : Sess) (m : Welt) (rest : List (Welt × Nat × Nat)) (t : MemTarget) (r : Region) (o : Nat),
    atHead s.chip k m rest ∧
    m.type = 0x20 ∧
    m.argB = m.payload.length ∧
    m.payload.length ≤ 8192 ∧
    (s.chip.memTarget m).toOption = some t ∧
    t.place = .far r o ∧
    t.waits s.chip = false ∧
    s.chip.dirKeys r = [] ∧
    s.chip.writableBytes t.place m.payload.length = m.payload.length) ∧
  (∃ (s : State) (k : Sess) (m : Welt) (rest : List (Welt × Nat × Nat)) (t : MemTarget) (sp : Space) (o : Nat) (r :
     Region) (b : BlockIx),
    atHead s.chip k m rest ∧
    m.type = 0x21 ∧
    m.argB ≤ 8192 ∧
    (s.chip.memTarget m).toOption = some t ∧
    t.place = .loc sp o ∧
    t.block = some (r, b) ∧
    s.chip.powered (.cblk r b) = true ∧
    s.chip.goodBytes t.place m.argB = m.argB) ∧
  (∃ (s : State) (k : Sess) (m : Welt) (rest : List (Welt × Nat × Nat)) (x : Sheas),
    atHead s.chip k m rest ∧
    m.type = 0x30 ∧
    sheasSections (m.payload.length / 32 + 1) m.payload = [x] ∧
    s.chip.sheasStatus [x] x = 0 ∧
    x.kind = 0) ∧
  (∃ (s : State) (k : Sess) (m : Welt) (rest : List (Welt × Nat × Nat)) (x : Sheas),
    atHead s.chip k m rest ∧
    m.type = 0x30 ∧
    sheasSections (m.payload.length / 32 + 1) m.payload = [x] ∧
    s.chip.sheasStatus [x] x ≠ 0) :=
  ⟨⟨st (withCmd hostUp (cmd 0x10 0 0 oneWrite)), 0, cmd 0x10 0 0 oneWrite, [], .fuse, 0x100, 7, by decide +kernel⟩,
    ⟨st (withCmd hostUp (mkWelt 0x10 0 0 1 0 0x20 0 1 0 oneWrite)), 0, mkWelt 0x10 0 0 1 0 0x20 0 1 0 oneWrite, [],
      by decide +kernel⟩,
    ⟨st (withCmd hostUp (mkWelt 0x10 0 0 1 0 0x20 0 5 0 oneWrite)), 0, mkWelt 0x10 0 0 1 0 0x20 0 5 0 oneWrite, [],
      by decide +kernel⟩,
    ⟨st { (hostUp.setFld .course COURSE.COURSE_NOW_course 3) with bridge := { scheds := [⟨0, 0, 2, cmd 0x10 0 0 oneWrite⟩] } },
      ⟨0, 0, 2, cmd 0x10 0 0 oneWrite⟩, .fuse, 0x100, 7, by dsimp only; decide +kernel⟩,
    ⟨st (withCmd hostUp (cmd 0x20 (1 <<< 61) 8 (List.replicate 8 5))), 0, cmd 0x20 (1 <<< 61) 8 (List.replicate 8 5),
      [], ⟨.loc (.bmem 0 0) 0, some (0, 0)⟩, .bmem 0 0, 0, by decide +kernel⟩,
    ⟨st (withCmd stacksUp (cmd 0x20 (1 <<< 28) 8 (List.replicate 8 5))), 0,
      cmd 0x20 (1 <<< 28) 8 (List.replicate 8 5), [], ⟨.far 0 (2 ^ 28), none⟩, 0, 2 ^ 28, by decide +kernel⟩,
    ⟨st (withCmd hostUp (cmd 0x21 (1 <<< 61) 8 [])), 0, cmd 0x21 (1 <<< 61) 8 [], [],
      ⟨.loc (.bmem 0 0) 0, some (0, 0)⟩, .bmem 0 0, 0, 0, 0, by decide +kernel⟩,
    ⟨st (withCmd hostUp (cmd 0x30 0 0 image0)), 0, cmd 0x30 0 0 image0, [],
      ⟨0, 0, 0, 1, 0, List.replicate 16 9, true⟩, by decide +kernel⟩,
    ⟨st (withCmd hostUp (cmd 0x30 0 0 (5 :: image0.drop 1))), 0, cmd 0x30 0 0 (5 :: image0.drop 1), [],
      ⟨5, 0, 0, 1, 0, List.replicate 16 9, true⟩, by decide +kernel⟩⟩

theorem witness_JobsHoldTheirUnits :
  (∃ (s : State) (k : Sess) (m : Welt) (rest : List (Welt × Nat × Nat)),
    let p := m.payload
    let addrs := (List.range ((p.length - 16) / 8)).map (fun i => leAt p (16 + 8 * i) 8)
    atHead s.chip k m rest ∧
    m.type = 0x40 ∧
    16 ≤ p.length ∧
    p.length % 8 = 0 ∧
    addrs ≠ [] ∧
    s.chip.fld .boot BOOT.BOOT_STS_state = 8 ∧
    s.chip.course.tick ≠ .acquire ∧
    s.chip.assignStatus m addrs (bitAt (wordAt p 0) 0) (getBits (wordAt p 0) 9 8) (wordAt p 8) = 0) ∧
  (∃ (s : State) (k : Sess) (m : Welt) (rest : List (Welt × Nat × Nat)) (j : Job),
    atHead s.chip k m rest ∧
    m.type = 0x41 ∧
    s.chip.jobOf m.job = some j ∧
    s.chip.jobBusy m.job = false ∧
    s.chip.jobUnits m.job ≠ []) ∧
  (∃ (s : State) (job : BitVec 16) (j : Job) (k : Sess) (seq : Nat),
    s.chip.jobOf job.toNat = some j ∧
    j.releasing = some (k.val, seq, (s.chip.sess k.val).epoch) ∧
    s.chip.sessState k.val = 1 ∧
    (∀ r b, UnitId.cblk r b ∈ s.chip.jobUnits job.toNat → (s.chip.blk r b).wq = []) ∧
    (∀ r, UnitId.fabmem r ∈ s.chip.jobUnits job.toNat → ∀ t, (s.chip.fab r).tearing = some t → t.2.2 = true) ∧
    (∀ r, UnitId.cobbler r ∈ s.chip.jobUnits job.toNat → j.rebuilt = true ∧ (s.chip.cob r).rebuilding = [])) ∧
  (∃ (s : State) (k : Sess) (m : Welt) (rest : List (Welt × Nat × Nat)) (j : Job) (r0 : Region),
    atHead s.chip k m rest ∧
    m.type = 0x42 ∧
    s.chip.jobOf m.job = some j ∧
    s.chip.jobBusy m.job = false ∧
    UnitId.fabmem r0 ∈ s.chip.jobUnits m.job) :=
  ⟨⟨st (withCmd { hostUp with course := { hostUp.course with tick := .free } } (mkWelt 0x40 0 1 1 0 0 0 0 0 (List.replicate 16 0 ++ leBytes 8 (regAddr (.cblk 0 0) 0)))),
      0, mkWelt 0x40 0 1 1 0 0 0 0 0 (List.replicate 16 0 ++ leBytes 8 (regAddr (.cblk 0 0) 0)), [],
      by dsimp only; decide +kernel⟩,
    ⟨st (withCmd (jobUp [.cblk 0 0] none) (jobCmd 0x41)), 0, jobCmd 0x41, [], job1 none, by decide +kernel⟩,
    ⟨st (jobUp [.cblk 0 0] (some (0, 4, 0))), 1, job1 (some (0, 4, 0)), 0, 4, by decide +kernel⟩,
    ⟨st (withCmd (jobUp [.fabmem 0] none) (jobCmd 0x42)), 0, jobCmd 0x42, [], job1 none, 0, by decide +kernel⟩⟩

theorem witness_FabricTrafficToAndFromTheHost :
  (∃ (s : State) (k : Sess) (m : Welt) (rest : List (Welt × Nat × Nat)),
    let r := regionOf (getBits m.argA 1 0)
    let p := Packet.ofBytes m.payload
    atHead s.chip k m rest ∧
    m.type = 0x50 ∧
    32 ≤ m.payload.length ∧
    m.payload.length ≤ 8224 ∧
    (p.kind = 0 ∨ p.kind = 4 ∨ p.kind = 6) ∧
    s.chip.inReset r = false) ∧
  (∃ (s : State) (r : Region) (result : Bool) (q : Nat) (st : Staged),
    let k := s.chip.eventSession
    let p := st.out
    s.chip.partStep r = 0 ∧
    s.chip.hostHead r (fun p => if result then decide (p.kind = 5) else decide (p.kind ≠ 5)) = some (q, st) ∧
    p.crc = p.crcOf ∧
    s.chip.sessState k = 1) ∧
  (∃ (s : State) (r : Region) (result : Bool) (q : Nat) (st : Staged),
    let k := s.chip.eventSession
    let p := st.out
    s.chip.partStep r = 0 ∧
    s.chip.hostHead r (fun p => if result then decide (p.kind = 5) else decide (p.kind ≠ 5)) = some (q, st) ∧
    p.crc = p.crcOf ∧
    s.chip.sessState k = 0) :=
  ⟨⟨st (withCmd hostUp (cmd 0x50 0 0 pk0.bytes)), 0, cmd 0x50 0 0 pk0.bytes, [], by dsimp only; decide +kernel⟩,
    ⟨st (toHost0 hostUp), 0, false, 0, staged pk0, by dsimp only; decide +kernel⟩,
    ⟨st (toHost0 up), 0, false, 0, staged pk0, by dsimp only; decide +kernel⟩⟩

theorem witness_ImagesAreTransferred :
  (∃ (s : State) (k : Sess) (m : Welt) (rest : List (Welt × Nat × Nat)),
    atHead s.chip k m rest ∧
    imageOp 1 m = true ∧
    s.chip.flashReply = none ∧
    s.chip.xfer = none ∧
    s.chip.flag .boot BOOT.BOOT_STS_trial = false ∧
    m.payload.length = 4096 ∧
    leAt m.payload 6 1 ≠ 1 ∧
    (if s.chip.card then hdrFormed m.payload = true else s.chip.hdrStatus m.payload = 0)) ∧
  (∃ (s : State) (k : Sess) (m : Welt) (rest : List (Welt × Nat × Nat)) (x : Xfer),
    atHead s.chip k m rest ∧
    imageOp 2 m = true ∧
    s.chip.flashReply = none ∧
    s.chip.xfer = some x ∧
    x.session = k.val ∧
    x.delta = false ∧
    m.payload.length ≤ 8192 ∧
    4096 + x.received + m.payload.length ≤ leAt x.header 8 4 ∧
    getBits m.argA 63 32 = x.received ∧
    (s.chip.card = true ∨ endedSections x.header x.received (x.received + m.payload.length) = [])) ∧
  (∃ (s : State) (k : Sess) (m : Welt) (rest : List (Welt × Nat × Nat)) (x : Xfer),
    atHead s.chip k m rest ∧
    imageOp 3 m = true ∧
    s.chip.flashReply = none ∧
    s.chip.xfer = some x ∧
    x.session = k.val ∧
    x.delta = false ∧
    4096 + x.received = leAt x.header 8 4) ∧
  (∃ (s : State) (k : Sess) (m : Welt) (rest : List (Welt × Nat × Nat)) (x : Xfer),
    atHead s.chip k m rest ∧
    imageOp 4 m = true ∧
    s.chip.flashReply = none ∧
    s.chip.xfer = some x ∧
    x.session = k.val) ∧
  (∃ (s : State) (k : Sess) (m : Welt) (rest : List (Welt × Nat × Nat)),
    atHead s.chip k m rest ∧
    imageOp 5 m = true ∧
    s.chip.flashReply = none ∧
    s.chip.flag .boot BOOT.BOOT_STS_trial = true) ∧
  (∃ (s : State) (k : Sess) (m : Welt) (rest : List (Welt × Nat × Nat)),
    atHead s.chip k m rest ∧
    imageOp 6 m = true) ∧
  (∃ (s : State),
    s.chip.xfer.isSome = true ∧
    s.chip.flashReply = none) ∧
  (∃ (s : State) (k : Sess) (m : Welt) (op : FlashOp),
    s.chip.flashOps = [op] ∧
    s.chip.flashReply = some (k.val, (s.chip.sess k.val).epoch, m) ∧
    s.chip.sessState k.val = 1) ∧
  (∃ (s : State) (k : Sess) (m : Welt),
    s.chip.flashOps ≠ [] ∧
    s.chip.flashReply = some (k.val, (s.chip.sess k.val).epoch, m) ∧
    s.chip.sessState k.val = 1) :=
  ⟨⟨st (withCmd hostUp (cmd 0x60 1 0 hdr0)), 0, cmd 0x60 1 0 hdr0, [],
      ⟨rfl, rfl, by decide +kernel, by decide +kernel⟩, by decide, rfl, rfl, by decide +kernel, rfl, by decide +kernel⟩,
    ⟨st (withCmd { hostUp with xfer := some xfer0 } (cmd 0x60 2 0 [])), 0, cmd 0x60 2 0 [], [], xfer0,
      by decide +kernel⟩,
    ⟨st (withCmd { hostUp with xfer := some xfer0 } (cmd 0x60 3 0 [])), 0, cmd 0x60 3 0 [], [], xfer0,
      by decide +kernel⟩,
    ⟨st (withCmd { hostUp with xfer := some xfer0 } (cmd 0x60 4 0 [])), 0, cmd 0x60 4 0 [], [], xfer0,
      by decide +kernel⟩,
    ⟨st (withCmd (hostUp.setFld .boot BOOT.BOOT_STS_trial 1) (cmd 0x60 5 0 [])), 0, cmd 0x60 5 0 [], [],
      by decide +kernel⟩,
    ⟨st (withCmd hostUp (cmd 0x60 6 0 [])), 0, cmd 0x60 6 0 [], [], by decide +kernel⟩,
    ⟨st { hostUp with xfer := some xfer0 }, by decide +kernel⟩,
    ⟨st { hostUp with flashOps := [.erase 0 64], flashReply := some (0, 0, cmd 0x60 5 0 []) }, 0, cmd 0x60 5 0 [],
      .erase 0 64, by decide +kernel⟩,
    ⟨st { hostUp with flashOps := [.erase 0 64], flashReply := some (0, 0, cmd 0x60 5 0 []) }, 0, cmd 0x60 5 0 [],
      by decide +kernel⟩⟩

theorem witness_ChallengesTokensAndAttestation :
  (∃ (s : State) (k : Sess) (m : Welt) (rest : List (Welt × Nat × Nat)),
    atHead s.chip k m rest ∧
    m.type = 0x61 ∧
    m.payload.length = 48) ∧
  (∃ (s : State) (k : Sess) (m : Welt) (rest : List (Welt × Nat × Nat)),
    atHead s.chip k m rest ∧
    m.type = 0x62 ∧
    getBits m.argA 7 0 = 1) ∧
  (∃ (s : State) (k : Sess) (m : Welt) (rest : List (Welt × Nat × Nat)),
    atHead s.chip k m rest ∧
    m.type = 0x62 ∧
    getBits m.argA 7 0 = 2) ∧
  (∃ (s : State) (k : Sess) (m : Welt) (rest : List (Welt × Nat × Nat)),
    atHead s.chip k m rest ∧
    m.type = 0x62 ∧
    getBits m.argA 7 0 = 3) :=
  ⟨⟨st (withCmd hostUp (cmd 0x61 0 0 (List.replicate 48 0))), 0, cmd 0x61 0 0 (List.replicate 48 0), [],
      by decide +kernel⟩,
    ⟨st (withCmd hostUp (cmd 0x62 1 0 [])), 0, cmd 0x62 1 0 [], [], by decide +kernel⟩,
    ⟨st (withCmd hostUp (cmd 0x62 2 0 [])), 0, cmd 0x62 2 0 [], [], by decide +kernel⟩,
    ⟨st (withCmd hostUp (cmd 0x62 3 0 [])), 0, cmd 0x62 3 0 [], [], by decide +kernel⟩⟩

theorem witness_FaultsResetARegion :
  (∃ (s : State) (u : UnitId) (r : Region),
    unitRegion u = some r ∧
    s.chip.partStep r = 0) ∧
  (∃ (s : State),
    s.chip.boot.failSilent = false) ∧
  (∃ (s : State) (u : UnitId) (last n : Nat),
    hasProgress (unitType u) = true ∧
    s.chip.present u = true ∧
    bitAt (s.chip.reg u 0x88) 63 = true ∧
    bitAt (s.chip.reg u 0x80) 63 = true ∧
    Tab.find s.chip.repoint.watch (unitKey u) = some (last, n, false) ∧
    s.chip.watchWindow u ≤ n ∧
    (∀ r, unitRegion u = some r → s.chip.partStep r = 0)) ∧
  (∃ (s : State) (r : Region),
    answers s.chip (.region r) ∧
    s.chip.partStep r = 0) ∧
  (∃ (s : State) (r : Region),
    s.chip.partStep r = 2 ∧
    s.chip.streaming r = true) ∧
  (∃ (s : State) (r : Region),
    s.chip.partStep r = 1 ∧
    (s.chip.part r).capture = false) ∧
  (∃ (s : State) (r : Region),
    s.chip.partStep r = 2 ∧
    s.chip.streaming r = false ∧
    (s.chip.part r).full = false) ∧
  (∃ (s : State) (r : Region),
    s.chip.partStep r = 3) ∧
  (∃ (s : State) (r : Region),
    s.chip.partStep r = 5) :=
  ⟨⟨st up, .cblk 0 0, 0, by decide +kernel⟩,
    ⟨st up, by decide +kernel⟩,
    ⟨st { ((up.setReg (.cblk 0 0) 0x88 (-1)).setReg (.cblk 0 0) 0x80 (-1)) with repoint := { watch := [(unitKey (.cblk 0 0), (3, 1000000, false))] } },
      .cblk 0 0, 3, 1000000, by decide +kernel⟩,
    ⟨st up, 0, by decide +kernel⟩,
    ⟨st (inStep 2 { up with bridge := { captures := [(0, 0, 8, [1])] } }), 0, by decide +kernel⟩,
    ⟨st (inStep 1 { up with repoint := { parts := [(0, { capture := false })] } }), 0, by decide +kernel⟩,
    ⟨st (inStep 2 { up with repoint := { parts := [(0, { full := false })] } }), 0, by decide +kernel⟩,
    ⟨st (inStep 3 up), 0, by decide +kernel⟩,
    ⟨st (inStep 5 up), 0, by decide +kernel⟩⟩

theorem witness_RequestsAreQueuedAndCommit :
  (∃ (s : State) (e : Element),
    mayAsk s.chip e) ∧
  (∃ (s : State) (e : Element),
    mayAsk s.chip e ∧
    s.chip.flag .repoint REPOINT.RP_CTL_proactive_en = true ∧
    s.chip.repoint.queue.any (fun q => q.elem = e) = false ∧
    s.chip.logFull = false) ∧
  (∃ (s : State) (r : Region) (i : Fin 4) (n : Fin 16) (q : RepointReq),
    subbankAlone s.chip r i n q) ∧
  (∃ (s : State) (_rings : List (Fin 64 × Fin 9 × Nat)),
    4096 ≤ s.chip.since s.chip.repoint.windowAt) ∧
  (∃ (s : State) (r : Region) (i : Fin 4) (n : Fin 16) (q : RepointReq),
    q ∈ s.chip.repoint.queue ∧
    q.hard = false ∧
    q.elem = .subbank r i n ∧
    256 ≤ s.chip.since q.course) :=
  ⟨⟨st up, .subbank 0 1 3, by decide +kernel⟩,
    ⟨st (up.setFld .repoint REPOINT.RP_CTL_proactive_en 1), .subbank 0 1 3, by decide +kernel⟩,
    ⟨st (atB { up with repoint := { queue := [subReq] } }), 0, 1, 3, subReq, by decide +kernel⟩,
    ⟨st (after 5000 up), [], by decide +kernel⟩,
    ⟨st (after 5000 { up with repoint := { queue := [subReq] } }), 0, 1, 3, subReq, by decide +kernel⟩⟩

theorem witness_PlumbAgreesOnWhatIsLost :
  (∃ (s : State) (k : Fin 64) (n : Nat),
    s.chip.domValid k.val = true ∧
    bitAt (s.chip.domReg k.val 0x008) s.chip.pysum = false ∧
    s.chip.flag .plumb PLUMB.PLUMB_CTL_enable = true ∧
    (∀ l ∈ s.chip.domLinks k.val, s.chip.linkLive l = false) ∧
    (∃ l ∈ s.chip.domLinks k.val, l ∈ Tab.get s.chip.plumb.seen k.val []) ∧
    Tab.find s.chip.plumb.downFrom k.val = some n) ∧
  (∃ (s : State) (p : Port) (h : Word) (l : List Byte),
    plumbFlit s.chip p h l 1 ∧
    s.chip.coordinator = s.chip.pysum ∧
    2 * s.chip.phase ≤ s.chip.courseCycles) ∧
  (∃ (s : State),
    s.chip.coordinator = s.chip.pysum ∧
    s.chip.plumb.decided = false ∧
    s.chip.plumb.opened = true ∧
    s.chip.halfPast = true) ∧
  (∃ (s : State) (p : Port) (h : Word) (l : List Byte),
    plumbFlit s.chip p h l 2 ∧
    leAt l 2 1 ≠ 0 ∧
    leAt l 1 1 % 64 ≤ s.chip.coordinator ∧
    s.chip.fld .plumb PLUMB.PLUMB_STS_epoch < leAt l 10 4 ∧
    leAt l 14 4 = s.chip.tableDigest) ∧
  (∃ (s : State),
    max 1 (s.chip.fld .plumb PLUMB.PLUMB_CTL_decide_miss) ≤ s.chip.plumb.misses) ∧
  (∃ (s : State) (epoch at_ : Nat) (mask : Word),
    s.chip.plumb.next = some (epoch, mask, at_) ∧
    at_ < s.chip.courseCount ∧
    s.chip.atBoundary = true) ∧
  (∃ (s : State) (_v : Word),
    answers s.chip .plumb) :=
  ⟨⟨st { ((up.setReg .plumb 0x1400 (1 <<< 63)).setReg .plumb 0x1410 1).setFld .plumb PLUMB.PLUMB_CTL_enable 1 with plumb := { seen := [(1, [64])], downFrom := [(1, 0)] } },
      1, 0, by decide +kernel⟩,
    ⟨st roundOpen, 0, 0, 1 :: List.replicate 63 0, by decide +kernel⟩,
    ⟨st roundHalf, by decide +kernel⟩,
    ⟨st roundOpen, 0, 0, decideMsg roundOpen,
      by decide +kernel, by decide, by decide, by decide +kernel, decideMsg_digest _⟩,
    ⟨st { up with plumb := { misses := 20 } }, by decide +kernel⟩,
    ⟨st (atB (after 5 { up with plumb := { next := some (3, 1, 2) } })), 3, 2, 1, by decide +kernel⟩,
    ⟨st up, 0, by decide +kernel⟩⟩

theorem witness_PowerIsMeasuredAndLimited :
  (∃ (_s : State) (mv _dA _w : BitVec 16),
    10800 ≤ mv.toNat) ∧
  (∃ (s : State) (mv _dA _w : BitVec 16),
    mv.toNat < 10800 ∧
    s.chip.pwr.vinLow = true ∧
    s.chip.boot.shut = false) ∧
  (∃ (s : State) (compute base : List (BitVec 8)),
    compute.length = 32 ∧
    base.length = 16 ∧
    s.chip.boot.shut = false ∧
    (∀ t ∈ compute ++ base, t.toNat < 120)) ∧
  (∃ (s : State) (compute base : List (BitVec 8)) (t : BitVec 8),
    t ∈ compute.take 32 ++ base.take 16 ∧
    120 ≤ t.toNat ∧
    s.chip.boot.shut = false) ∧
  (∃ (s : State) (r : Region),
    r.val ∈ s.chip.pwr.trips ∧
    s.chip.tempOf r.val + 10 < s.chip.tripHeld r.val) ∧
  (∃ (s : State) (a : Rail),
    s.chip.pwr.ocps.contains (railNo a) = false ∧
    s.chip.boot.shut = false) ∧
  (∃ (s : State) (a : Rail),
    s.chip.pwr.ocps.contains (railNo a) = true) ∧
  (∃ (s : State) (r : Region),
    s.chip.overridden r.val = false ∧
    s.chip.boot.shut = false ∧
    s.chip.boot.coresUp = true) ∧
  (∃ (s : State) (_r : Region) (_margin : BitVec 16),
    s.chip.boot.shut = false ∧
    s.chip.boot.coresUp = true) ∧
  (∃ (s : State) (n : Fin 157),
    s.chip.domOn n.val = true) :=
  ⟨⟨st up, 12000, 0, 0, by decide +kernel⟩,
    ⟨st { up with pwr := { vinLow := true } }, 9000, 0, 0, by decide +kernel⟩,
    ⟨st up, List.replicate 32 50, List.replicate 16 50, by decide +kernel⟩,
    ⟨st up, List.replicate 32 120, List.replicate 16 50, 120, by decide +kernel⟩,
    ⟨st { up with pwr := { trips := [2] } }, 2, by decide +kernel⟩,
    ⟨st up, .input, by decide +kernel⟩,
    ⟨st { up with pwr := { ocps := [4] } }, .input, by decide +kernel⟩,
    ⟨st up, 0, by decide +kernel⟩,
    ⟨st up, 0, 5, by decide +kernel⟩,
    ⟨st up, 3, by decide +kernel⟩⟩

theorem witness_DomainsRiseAndFall :
  (∃ (s : State) (which : Fin 3) (v : Word) (i : Nat),
    answers s.chip .power ∧
    i < (if which = 2 then 28 else 64) ∧
    s.chip.domExists (domOfBit which i) = true ∧
    bitAt v i = true) ∧
  (∃ (s : State) (which : Fin 3) (v : Word) (i : Nat),
    answers s.chip .power ∧
    i < (if which = 2 then 28 else 64) ∧
    s.chip.domExists (domOfBit which i) = true ∧
    bitAt v i = false ∧
    s.chip.domAsked (domOfBit which i) = true ∧
    s.chip.held (domUnit (domOfBit which i)) = true) ∧
  (∃ (s : State) (n : Fin 157),
    s.chip.pwr.ramping.contains n.val = true) ∧
  (∃ (s : State) (n : Fin 157),
    s.chip.mayFall n.val = true) ∧
  (∃ (s : State) (r : Region) (i : Fin 4),
    s.chip.pwr.falling.contains (136 + 4 * r.val + i.val) = true ∧
    (s.chip.xbar r).bankUsed i.val = 0) :=
  ⟨⟨st up, 0, 1, 0, by decide +kernel⟩,
    ⟨st { up.setReg .power 0x138 (-1) with bridge := { holds := [(regAddr (.cblk 0 0) 0, 1)] } }, 0, 0, 0,
      by decide +kernel⟩,
    ⟨st { up with pwr := { ramping := [3] } }, 3, by decide +kernel⟩,
    ⟨st { up with pwr := { falling := [3] } }, 3, by decide +kernel⟩,
    ⟨st { up with pwr := { falling := [137] } }, 0, 1, by decide +kernel⟩⟩

theorem witness_ResetBootAndTap :
  (∃ (s : State),
    s.chip.boot.pwrgd = true) ∧
  (∃ (s : State),
    s.chip.boot.pwrgd = false) ∧
  (∃ (s : State) (_a _b _c : BitVec 9),
    s.chip.boot.resetLow = true ∧
    s.chip.boot.pwrgd = true) ∧
  (∃ (s : State) (a b c : BitVec 9),
    s.chip.sequencing = true ∧
    s.chip.bootCode = 0 ∧
    s.chip.straps.samples = [a, b, c] ∧
    a = b ∧ b = c ∧ a.toNat / 64 ≤ 2) ∧
  (∃ (s : State) (a b c : BitVec 9),
    s.chip.sequencing = true ∧
    s.chip.bootCode = 0 ∧
    s.chip.straps.samples = [a, b, c] ∧
    (¬ (a = b ∧ b = c ∧ a.toNat / 64 ≤ 2))) ∧
  (∃ (s : State) (x : Bool) (rest : List Bool),
    s.chip.sequencing = true ∧
    s.chip.bootCode = 2 ∧
    s.chip.boot.candidates = x :: rest ∧
    s.chip.record = none ∧
    (¬ (s.chip.hdrStatus (s.chip.flashRead (slotBase x) 4096) = 0))) ∧
  (∃ (s : State),
    s.chip.sequencing = true ∧
    s.chip.bootCode = 3) ∧
  (∃ (s : State),
    s.chip.sequencing = true ∧
    s.chip.bootCode = 3) ∧
  (∃ (s : State) (aon : Bool),
    s.chip.sequencing = true ∧
    (s.chip.bootCode ≠ 3 ∨ aon = true)) ∧
  (∃ (s : State),
    s.chip.sequencing = true ∧
    s.chip.bootCode = 7 ∧
    (∀ p, s.chip.flag (.port p) PORT.PORT_CTL_enable = true → s.chip.powered (.port p) = true → s.chip.linked p = true
      ∨ s.chip.portState p = 10)) ∧
  (∃ (s : State) (_ir : BitVec 8) (_dr : List Bool),
    (s.chip.boot.resetLow = true ∨ s.chip.flag .security SECURITY.SEC_STS_jtag_open = true)) :=
  ⟨⟨st up, by decide +kernel⟩,
    ⟨State.reset, by decide +kernel⟩,
    ⟨st { boot := { resetLow := true, pwrgd := true } }, 1, 1, 1, by decide +kernel⟩,
    ⟨st { boots 0 with straps := { samples := [1, 1, 1] } }, 1, 1, 1, by decide +kernel⟩,
    ⟨st { boots 0 with straps := { samples := [1, 2, 1] } }, 1, 2, 1, by decide +kernel⟩,
    ⟨st { boots 2 with boot := { (boots 2).boot with candidates := [false] } }, false, [], by decide +kernel⟩,
    ⟨st (boots 3), by decide +kernel⟩,
    ⟨st (boots 3), by decide +kernel⟩,
    ⟨st (boots 7), true, by decide +kernel⟩,
    ⟨st ((List.finRange 64).foldl (fun (c : Chip) p => c.setFld (.port p) PORT.PORT_CTL_enable 0) (boots 7)),
      by decide +kernel⟩,
    ⟨State.reset, 0, [true], by decide +kernel⟩⟩

theorem witness_StepKeepsMemoryCanonical :
  ∃ (s t : State),
    Memory.wf s.chip.mem = true ∧
    step s = .next t :=
    ⟨⟨[.tapReset], up⟩, st { up with tap := {} }, by decide +kernel, rfl⟩

theorem witness_StepKeepsWorkQueueEntriesDistinct :
    ∃ s t : State, queuesDistinct s.chip ∧ (s.chip.block 0).wq ≠ [] ∧ step s = .next t := by
  refine ⟨⟨[.tapReset], withWq [ent0, { ent0 with n := 1 }]⟩, _, fun b => ?_, by decide, rfl⟩
  by_cases h : b = 0
  · subst h; decide
  · have : (withWq [ent0, { ent0 with n := 1 }]).block b = {} := by simp [Chip.block, withWq, Tab.get, Tab.find, h]
    rw [this]; decide

/-- An unlocked debug page exists (R474), so the one stop of the model can be met. -/
theorem witness_OnlyDebugPagesStop :
    let c := up.setFld .security SECURITY.SEC_STS_debug_open 1
    let a := BitVec.ofNat 40 (regAddr (.cblk 0 0) 0x200000)
    c.accessStatus a.toNat = 0 ∧ 512 ≤ a.toNat % 2 ^ 22 / 4096 := by decide

/-! ### WellFormed refuses -/

theorem test_wf_unit : (Instr.captureRelease (.d2d 1 1)).wf = false := by decide
theorem test_wf_flit : (Instr.data 0 [] (cw [])).wf = false := by decide
theorem test_wf_report : (Instr.report 0 0 []).wf = false := by decide
theorem test_wf_decide : (Instr.decide 0 0 []).wf = false := by decide
theorem test_wf_cell : (Instr.d2dCell 2 2 true true 0).wf = false := by decide
theorem test_wf_wire : (Instr.d2dWireFault 2 2 0).wf = false := by decide
theorem test_wf_elastic : (Instr.elasticBufferError (.wire 2 2 0)).wf = false := by decide
theorem test_wf_request : (Instr.repointRequest (.wire 2 2 0) true).wf = false := by decide
theorem test_wf_frame : (Instr.frameReceived { frameOf (cmd 2 0 0 []) with body := List.replicate 9217 0 }).wf = false := by
  decide +kernel
theorem test_wf_pfc : (Instr.pfcFrame 0 []).wf = false := by decide
theorem test_wf_sample : (Instr.sensorSample [] []).wf = false := by decide
theorem test_wf_accepts : (Instr.data 0 flit0 (cw [])).wf = true := by decide +kernel

/-! ### Published check values: the CRCs of the nine digits 1 to 9, SHA-384 of "abc" (FIPS 180-4), the order of the curve -/

def digits : List Byte := [0x31, 0x32, 0x33, 0x34, 0x35, 0x36, 0x37, 0x38, 0x39]

theorem test_crc32c : crc32c digits = 0xE3069283 := by decide
theorem test_crc64 : crc64 digits = 0x62EC59E3F1A4F00A := by decide
theorem test_crc16 : crc16 digits = 0x29B1 := by decide
theorem test_sha384 : sha384 [0x61, 0x62, 0x63] =
    0xcb00753f45a35e8bb5a03d699ac65007272c32ab0eded1631a8b605a43ff5bed8086072ba1e7cc2358baeca134c825a7 := by decide +kernel
theorem test_curve : onCurve baseX baseY = true ∧ ptX (ptMul curveQ (baseX, baseY, 1)) = none := by decide +kernel

end Sys2Proof.Tests
end

section
/-! PROOFS. Register pages (spec/03): what a write of EVENT_FORCE (R57), the release of a capture (R58), a policy window (R61)
and EPID_MAP (R68) change and leave as they are. -/
namespace Sys2Proof.Machine

/-! ### Which registers and which memory an operation leaves -/

theorem regsBut_setReg (c : Chip) (u : UnitId) (pos : Nat) (w : Word) (hp : pos < 2 ^ 22) :
    regsBut [(u, pos)] c (c.setReg u pos w) := by
  intro v q hq hout
  refine c.reg_setReg_other u v pos q w (fun e => hout ?_)
  obtain ⟨rfl, rfl⟩ := regAddr_inj v u q pos hq hp e
  exact List.mem_singleton_self _

/-- A change of one unit alone is judged at that unit's registers. -/
theorem regsBut_of_onlyUnit {l : List (UnitId × Nat)} {u : UnitId} {c d : Chip} (hunit : onlyUnit u c d)
    (hpos : ∀ q, (u, q) ∉ l → d.reg u q = c.reg u q) : regsBut l c d := by
  intro v q hq hout
  by_cases hv : v = u
  · subst hv
    exact hpos q hout
  · exact hunit v q hq hv

/-- Raising events of a unit writes its EVENT and EVENT_COUNT alone (R56). -/
theorem regsBut_raiseAll (c : Chip) (u : UnitId) (m : Word) : regsBut [(u, 0x20), (u, 0x38)] c (c.raiseAll u m) :=
  regsBut_of_onlyUnit (fun v q => c.raiseAll_unit u v m q) (fun q hout =>
    c.raiseAll_pos u m q (by rintro rfl; simp at hout) (by rintro rfl; simp at hout))

theorem regsBut_raise (c : Chip) (u : UnitId) (b : Nat) : regsBut [(u, 0x20), (u, 0x38)] c (c.raise u b) :=
  regsBut_of_onlyUnit (fun v q => c.raise_unit u v b q) (fun q hout =>
    c.raise_pos u b q (by rintro rfl; simp at hout) (by rintro rfl; simp at hout))

/-- A longer list of exceptions claims less. -/
theorem regsBut_mono {l l' : List (UnitId × Nat)} {c d : Chip} (hl : l ⊆ l') (h : regsBut l c d) : regsBut l' c d :=
  fun u q hq hout => h u q hq (fun hin => hout (hl hin))

theorem memKept_of_eq {c d : Chip} (hm : d.mem = c.mem) (hb : d.bad = c.bad) : memKept c d :=
  ⟨fun k => by rw [hm], hb⟩

/-- A run of operations that each keep the memory keeps it. -/
theorem memKept_foldl {α : Type} (f : Chip → α → Chip) (hf : ∀ c a, memKept c (f c a)) (l : List α) (c : Chip) :
    memKept c (l.foldl f c) := by
  induction l generalizing c with
  | nil => exact memKept_of_eq rfl rfl
  | cons a l ih =>
    obtain ⟨hm, hb⟩ := hf c a
    obtain ⟨hm', hb'⟩ := ih (f c a)
    exact ⟨fun k => (hm' k).trans (hm k), hb'.trans hb⟩

theorem memKept_raiseAll (c : Chip) (u : UnitId) (m : Word) : memKept c (c.raiseAll u m) :=
  memKept_foldl _ (fun c b => by split <;> exact memKept_of_eq rfl rfl) _ c

theorem memKept_releaseCapture (c : Chip) (u : UnitId) : memKept c (c.releaseCapture u) :=
  memKept_foldl (fun c i => c.setReg u (0x40 + 8 * i) 0) (fun _ _ => memKept_of_eq rfl rfl) _ c

/-! ### A row named after a register of a unit's first page -/

theorem lastPage_lt (t : UnitType) : lastPage t < 512 := by cases t <;> decide

/-- Table REG-2: an address that names no unit is ABSENT. -/
theorem Chip.accessStatus_none (c : Chip) {a : Nat} (h : addrUnit a = none) : c.accessStatus a = 1 := by
  simp only [Chip.accessStatus, h]

/-- Table REG-3 has no die-to-die link of a region to itself. -/
theorem addrUnit_d2d_self : ∀ r : Region, addrUnit (regAddr (.d2d r r) 0) = none := by decide

/-- R50: a unit that answers exists. -/
theorem exists_of_answers {c : Chip} {u : UnitId} (h : answers c u) : u.exists = true := by
  cases u with
  | d2d r i =>
    by_contra hne
    obtain rfl : r = i := by simpa [UnitId.exists] using hne
    exact absurd h (by rw [answers, c.accessStatus_none (addrUnit_d2d_self r)]; decide)
  | _ => rfl

/-- R50: such a row takes its effect on a unit that answers. What holds of the chip after the effect is what the row
gives, where it does not speak of the record of the access (`hblind`). -/
theorem gives_of_onReg {i : Instr} {s : State} {u : UnitId} {f : Chip → Chip × Bool} {pos : Nat} {P : Chip → Prop}
    (hexec : exec i s = s.onReg u f pos) (hu : answers s.chip u) (h8 : pos % 8 = 0) (hpage : pos < 4096)
    (hblind : ∀ d no, P d → P (s.put (d.accessed 0 0 no)).chip) (hP : P (f s.chip).1) : gives i s P := by
  have hst : s.chip.accessStatus (regAddr u pos) = 0 :=
    (s.chip.accessStatus_regAddr u pos (exists_of_answers hu) h8 (by omega) (lastPage_lt _)).trans hu
  exact ⟨_, hexec.trans (s.onReg_ok u f pos hst), rfl, rfl, rfl, hblind _ _ hP⟩

/-! ### A write that is ignored as a whole -/

/-- The chip after a write that stores `new`, or that is ignored as a whole and raises event `ev` (R61, R68). -/
def Chip.storeUnless (c : Chip) (bad : Bool) (u : UnitId) (pos : Nat) (new : Word) (ev : Nat) : Chip :=
  if bad then c.raise u ev else c.setReg u pos new

/-- The answer of such a write refuses no field (R60). -/
theorem Chip.storeUnless_answer (c : Chip) (bad : Bool) (u : UnitId) (pos : Nat) (new : Word) (ev : Nat) :
    (if bad then (c.raise u ev, false) else (c.setReg u pos new, false)) = (c.storeUnless bad u pos new ev, false) := by
  cases bad <;> rfl

theorem Chip.storeUnless_reg (c : Chip) (bad : Bool) (u : UnitId) (pos : Nat) (new : Word) (ev : Nat)
    (h1 : pos ≠ 0x20) (h2 : pos ≠ 0x38) :
    (c.storeUnless bad u pos new ev).reg u pos = if bad then c.reg u pos else new := by
  cases bad with
  | true => exact c.raise_pos u ev pos h1 h2
  | false => exact c.reg_setReg_same u pos new

theorem Chip.storeUnless_event (c : Chip) (bad : Bool) (u : UnitId) (pos : Nat) (new : Word) (ev : Nat) (hev : ev < 64)
    (h : bad = true) : bitAt ((c.storeUnless bad u pos new ev).reg u 0x20) ev = true := by
  rw [Chip.storeUnless, if_pos h, Chip.raise_event, bitAt_or_pow _ _ _ hev]
  simp

theorem regsBut_storeUnless (c : Chip) (bad : Bool) (u : UnitId) (pos : Nat) (new : Word) (ev : Nat)
    (hp : pos < 2 ^ 22) : regsBut [(u, pos), (u, 0x20), (u, 0x38)] c (c.storeUnless bad u pos new ev) := by
  cases bad with
  | true => exact regsBut_mono (List.subset_cons_self _ _) (regsBut_raise c u ev)
  | false => exact regsBut_mono (by simp) (regsBut_setReg c u pos new hp)

theorem memKept_storeUnless (c : Chip) (bad : Bool) (u : UnitId) (pos : Nat) (new : Word) (ev : Nat) :
    memKept c (c.storeUnless bad u pos new ev) := by
  cases bad <;> exact memKept_of_eq rfl rfl

/-! ### Plain writes of registers with fields of one access type -/

theorem and_not_zero (a : Word) : a &&& ~~~0 = a := BitVec.and_allOnes

/-- A word written where no bit is write-1-to-clear clears nothing. -/
theorem and_not_and_zero (a v : Word) : a &&& ~~~(v &&& 0) = a :=
  (congrArg (fun m => a &&& ~~~m) BitVec.and_zero).trans (and_not_zero a)

theorem mux_zero (a b : Word) : mux 0 a b = a :=
  (congrArg₂ (· ||| ·) (and_not_zero a) BitVec.and_zero).trans BitVec.or_zero

theorem Chip.plainWrite_eq_setReg (c : Chip) (u : UnitId) (pos : Nat) (v w : Word)
    (hno : writeRefused (unitType u) pos (c.held u) (c.reg u pos) v = false)
    (hw : writeWord (unitType u) pos (c.held u) (c.reg u pos) v = w) :
    c.plainWrite u pos v = (c.setReg u pos w, false) :=
  Prod.ext (hw ▸ c.plainWrite_ok u pos v hno) hno

/-- A plain write where software can write nothing but RW fields (R11). -/
theorem Chip.plainWrite_rw (c : Chip) (u : UnitId) (pos : Nat) (v : Word) (hl : accMask (unitType u) pos .rwl = 0)
    (hc : accMask (unitType u) pos .w1c = 0) (hu : unitType u ≠ .hostport) :
    c.plainWrite u pos v = (c.setReg u pos (mux (accMask (unitType u) pos .rw) (c.reg u pos) v), false) := by
  refine c.plainWrite_eq_setReg u pos v _ (by simp [writeRefused, hl]) ?_
  simp only [writeWord, hl, hc, mux_zero, ite_self, if_neg hu, and_not_and_zero]

/-- A plain write of an unheld unit where software can write nothing but RWL fields (R11, R60). -/
theorem Chip.plainWrite_rwl (c : Chip) (u : UnitId) (pos : Nat) (v : Word) (hh : c.held u = false)
    (hw : accMask (unitType u) pos .rw = 0) (hc : accMask (unitType u) pos .w1c = 0) (hu : unitType u ≠ .hostport) :
    c.plainWrite u pos v = (c.setReg u pos (mux (accMask (unitType u) pos .rwl) (c.reg u pos) v), false) := by
  refine c.plainWrite_eq_setReg u pos v _ (by simp [writeRefused, hh]) ?_
  simp only [writeWord, hh, hw, hc, mux_zero, Bool.false_eq_true, if_false, if_neg hu, and_not_and_zero]

/-! ### Policy windows (R61) -/

/-- The position of POLICY_CEIL or POLICY_FLOOR. -/
abbrev policyPos (ceil : Bool) : Nat := if ceil then 0x98 else 0x90

/-- Does a ceiling field stand below its floor field? -/
def policyCrossed (t : UnitType) (lo hi : Word) : Bool :=
  (policyFields t).any (fun f => decide (getBits hi f.1 f.2 < getBits lo f.1 f.2))

/-- Policy windows have no field that a hold locks and none that a 1 clears (Tables LINK-10, COB-3, PWR-3). -/
theorem accMask_policyPos (t : UnitType) (h : hasPolicy t = true) (ceil : Bool) :
    accMask t (policyPos ceil) .rwl = 0 ∧ accMask t (policyPos ceil) .w1c = 0 := by
  cases t with
  | port | cobbler | power => cases ceil <;> decide +kernel
  | _ => exact absurd h (by decide)

/-- R61: the window is judged with the new bound beside the other one as it stands. -/
theorem Chip.opPolicy_eq (c : Chip) (u : UnitId) (ceil : Bool) (v new : Word) (h : hasPolicy (unitType u) = true)
    (hnew : mux (accMask (unitType u) (policyPos ceil) .rw) (c.reg u (policyPos ceil)) v = new) :
    c.opPolicy u ceil v = (c.storeUnless (policyCrossed (unitType u) (if ceil then c.reg u 0x90 else new)
      (if ceil then new else c.reg u 0x98)) u (policyPos ceil) new evPolicyReject, false) := by
  obtain ⟨hl, hc⟩ := accMask_policyPos (unitType u) h ceil
  have hu : unitType u ≠ .hostport := fun e => by simp [e, hasPolicy] at h
  have hlo : (c.setReg u (policyPos ceil) new).reg u 0x90 = if ceil then c.reg u 0x90 else new := by
    cases ceil with
    | true => exact c.reg_setReg_pos u 0x98 0x90 new (by decide)
    | false => exact c.reg_setReg_same u 0x90 new
  have hhi : (c.setReg u (policyPos ceil) new).reg u 0x98 = if ceil then new else c.reg u 0x98 := by
    cases ceil with
    | true => exact c.reg_setReg_same u 0x98 new
    | false => exact c.reg_setReg_pos u 0x90 0x98 new (by decide)
  simp only [Chip.opPolicy, c.plainWrite_rw u _ v hl hc hu, hnew, hlo, hhi]
  exact c.storeUnless_answer _ u (policyPos ceil) new evPolicyReject

/-! ### EPID_MAP (R68) -/

/-- Does a map give two regions one EPID? -/
def epidClash (w : Word) : Bool :=
  (List.range 4).any (fun i => (List.range 4).any (fun j =>
    decide (i < j ∧ getBits w (12 * i + 11) (12 * i) = getBits w (12 * j + 11) (12 * j))))

/-- The model's own test of the map, over the regions, is the one over their numbers. -/
theorem Chip.epids_any_eq (c : Chip) :
    (List.finRange 4).any (fun i => (List.finRange 4).any (fun j => decide (i < j) && decide (c.epid i = c.epid j)))
      = epidClash (c.reg .chip 0x120) := by
  rw [epidClash, ← List.map_coe_finRange_eq_range]
  simp only [List.any_map, Function.comp_def, Bool.decide_and]
  rfl

/-- R68: an unheld chip takes a map without a clash, and ignores the others. -/
theorem Chip.opEpidMap_eq (c : Chip) (v new : Word) (hh : c.held .chip = false)
    (hnew : mux (accMask .chip 0x120 .rwl) (c.reg .chip 0x120) v = new) :
    c.opEpidMap v = (c.storeUnless (epidClash new) .chip 0x120 new CHIP.ev_epid_conflict, false) := by
  have hw : accMask .chip 0x120 .rw = 0 := by decide +kernel
  have hc : accMask .chip 0x120 .w1c = 0 := by decide +kernel
  simp only [Chip.opEpidMap, c.plainWrite_rwl .chip 0x120 v hh hw hc (by decide), unitType, hnew,
    Chip.epids_any_eq, Chip.reg_setReg_same]
  exact c.storeUnless_answer (epidClash new) .chip 0x120 new CHIP.ev_epid_conflict

/-! ### The four rows -/

theorem exec_eventForceWrite (u : UnitId) (v : Word) (s : State) :
    exec (.eventForceWrite u v) s = s.onReg u (fun c => (c.opForce u v, false)) 0x30 := rfl

theorem exec_captureRelease (u : UnitId) (s : State) :
    exec (.captureRelease u) s = s.onReg u (fun c => (c.releaseCapture u, false)) 0x40 := rfl

/-- A unit without an adaptive loop has no policy window to write (R52). -/
theorem exec_policyWrite (u : UnitId) (ceil : Bool) (v : Word) (s : State) (h : hasPolicy (unitType u) = true) :
    exec (.policyWrite u ceil v) s = s.onReg u (fun c => c.opPolicy u ceil v) (policyPos ceil) := by
  have hexec : exec (.policyWrite u ceil v) s = s.onReg u
      (fun c => if hasPolicy (unitType u) then c.opPolicy u ceil v else (c, false)) (policyPos ceil) := rfl
  simpa only [h, if_true] using hexec

theorem exec_epidMapWrite (v : Word) (s : State) :
    exec (.epidMapWrite v) s = s.onReg .chip (fun c => c.opEpidMap v) 0x120 := rfl

/-- R57: EVENT_FORCE_WRITE sets the existing bits written as 1, and no capture register is among those that change. -/
theorem eventForceWrite_gives (s : State) (u : UnitId) (v : Word) (hu : answers s.chip u) :
    gives (.eventForceWrite u v) s (fun d =>
      d.reg u 0x20 = s.chip.reg u 0x20 ||| (v &&& BitVec.ofNat 64 (eventBits (unitType u)))
      ∧ regsBut [(u, 0x20), (u, 0x38)] s.chip d ∧ memKept s.chip d) :=
  gives_of_onReg (exec_eventForceWrite u v s) hu (by decide) (by decide) (fun _ _ h => h)
    ⟨s.chip.raiseAll_event u _, regsBut_raiseAll s.chip u _, memKept_raiseAll s.chip u _⟩

/-- R58: CAPTURE_RELEASE clears ERR_CAPTURE0 to 7 and writes nothing else. -/
theorem captureRelease_gives (s : State) (u : UnitId) (hu : answers s.chip u) :
    gives (.captureRelease u) s (fun d =>
      (∀ i < 8, d.reg u (0x40 + 8 * i) = 0)
      ∧ (∀ v q, q < 2 ^ 22 → v ≠ u ∨ q < 0x40 ∨ 0x80 ≤ q → d.reg v q = s.chip.reg v q) ∧ memKept s.chip d) := by
  refine gives_of_onReg (exec_captureRelease u s) hu (by decide) (by decide) (fun _ _ h => h)
    ⟨s.chip.releaseCapture_in u, fun v q hq hout => ?_, memKept_releaseCapture s.chip u⟩
  by_cases hv : v = u
  · subst hv
    exact s.chip.releaseCapture_pos v q (hout.resolve_left (fun hne => hne rfl))
  · exact s.chip.releaseCapture_unit u v q hq hv

/-- A row that stores a word, or ignores it as a whole and raises an event, gives what both rules say of it. -/
theorem storeUnless_gives {i : Instr} {s : State} {u : UnitId} {f : Chip → Chip × Bool} {pos ev : Nat} {bad : Bool}
    {new : Word} (hexec : exec i s = s.onReg u f pos) (hu : answers s.chip u) (h8 : pos % 8 = 0) (hlow : 0x40 ≤ pos)
    (hpage : pos < 4096) (hev : ev < 64) (hf : f s.chip = (s.chip.storeUnless bad u pos new ev, false)) :
    gives i s (fun d => d.reg u pos = (if bad then s.chip.reg u pos else new)
      ∧ (bad = true → bitAt (d.reg u 0x20) ev = true)
      ∧ regsBut [(u, pos), (u, 0x20), (u, 0x38)] s.chip d ∧ memKept s.chip d) := by
  refine gives_of_onReg hexec hu h8 hpage (fun _ _ h => h) ?_
  rw [hf]
  exact ⟨s.chip.storeUnless_reg bad u pos new ev (by omega) (by omega), s.chip.storeUnless_event bad u pos new ev hev,
    regsBut_storeUnless s.chip bad u pos new ev (by omega), memKept_storeUnless s.chip bad u pos new ev⟩

/-- Settles O8: EVENT_FORCE and the capture release write what R57 and R58 name; POLICY_WRITE and EPID_MAP_WRITE store
the word unless R61 or R68 has it ignored. -/
theorem eventCapturePolicyAndMapWrites : Obligations.EventCapturePolicyAndMapWrites := by
  refine ⟨eventForceWrite_gives, captureRelease_gives, fun s u ceil v hu hpol => ?_, fun s v hu hheld => ?_⟩
  · exact storeUnless_gives (exec_policyWrite u ceil v s hpol) hu (by cases ceil <;> decide) (by cases ceil <;> decide)
      (by cases ceil <;> decide) (by decide) (s.chip.opPolicy_eq u ceil v _ hpol rfl)
  · exact storeUnless_gives (exec_epidMapWrite v s) hu (by decide) (by decide) (by decide) (by decide)
      (s.chip.opEpidMap_eq v _ hheld rfl)

end Sys2Proof.Machine
end

section
/-! PROOFS. Traffic classes (spec/06): what a write of GATE_TAKEOVER (R141), of a gate entry (R142) and of the host port's
takeover (R388) changes, and how a gate list moves on (R139, R141). -/
namespace Sys2Proof.Machine

/-! ### Frames of operations made of others -/

theorem regsBut_trans {l : List (UnitId × Nat)} {a b c : Chip} (hab : regsBut l a b) (hbc : regsBut l b c) :
    regsBut l a c :=
  fun u q hq hout => (hbc u q hq hout).trans (hab u q hq hout)

theorem onlyUnit_trans {u : UnitId} {a b c : Chip} (hab : onlyUnit u a b) (hbc : onlyUnit u b c) : onlyUnit u a c :=
  fun v q hq hv => (hbc v q hq hv).trans (hab v q hq hv)

/-- Where every register excepted is the unit's, the change is the unit's. -/
theorem onlyUnit_of_regsBut {l : List (UnitId × Nat)} {u : UnitId} {c d : Chip} (h : regsBut l c d)
    (hl : ∀ e ∈ l, e.1 = u) : onlyUnit u c d :=
  fun v q hq hv => h v q hq (fun hin => hv (hl _ hin))

theorem onlyUnit_setFld (c : Chip) (u : UnitId) (f : Fld) (v : Nat) (hp : f.pos < 2 ^ 22) :
    onlyUnit u c (c.setFld u f v) :=
  onlyUnit_of_regsBut (regsBut_setReg c u f.pos _ hp) (by simp)

/-- A plain write changes its register, and EVENT and EVENT_COUNT where R60 refuses a field. -/
theorem regsBut_plainWrite (c : Chip) (u : UnitId) (pos : Nat) (v : Word) (hp : pos < 2 ^ 22) :
    regsBut [(u, pos), (u, 0x20), (u, 0x38)] c (c.plainWrite u pos v).1 := by
  intro w q hq hout
  simp only [List.mem_cons, List.not_mem_nil, or_false, not_or] at hout
  obtain ⟨hpos, hev, hcount⟩ := hout
  exact c.plainWrite_other u w pos q v hp hq hpos hev hcount

theorem onlyUnit_plainWrite (c : Chip) (u : UnitId) (pos : Nat) (v : Word) (hp : pos < 2 ^ 22) :
    onlyUnit u c (c.plainWrite u pos v).1 :=
  onlyUnit_of_regsBut (regsBut_plainWrite c u pos v hp) (by simp)

theorem memKept_trans {a b c : Chip} (hab : memKept a b) (hbc : memKept b c) : memKept a c :=
  ⟨fun k => (hbc.1 k).trans (hab.1 k), hbc.2.trans hab.2⟩

theorem memKept_plainWrite (c : Chip) (u : UnitId) (pos : Nat) (v : Word) : memKept c (c.plainWrite u pos v).1 :=
  memKept_of_eq (c.plainWrite_mem u pos v) (c.plainWrite_bad u pos v)

/-! ### Raising an event -/

theorem raised_raise (c : Chip) (u : UnitId) (b : Nat) (hb : b < 64) : raised (c.raise u b) u b := by
  rw [raised, Chip.raise_event, bitAt_or_pow _ _ _ hb]
  simp

/-- An event stays raised while another is. -/
theorem raised_raise_unit {c : Chip} {u v : UnitId} {a : Nat} (b : Nat) (h : raised c u a) (huv : u ≠ v) :
    raised (c.raise v b) u a := by
  rw [raised, c.raise_unit v u b 0x20 (by decide) huv]
  exact h

theorem memKept_raise (c : Chip) (u : UnitId) (b : Nat) : memKept c (c.raise u b) := memKept_of_eq rfl rfl

/-! ### What the two kinds of row give -/

/-- A row that changes the chip by `f` gives what holds of the changed chip, where `P` does not speak of the fuses or of the
clock (`hblind`). -/
theorem gives_of_on {i : Instr} {s : State} {f : Chip → Chip} {P : Chip → Prop} (hexec : exec i s = s.on f)
    (hblind : ∀ d, P d → P (s.put d).chip) (hP : P (f s.chip)) : gives i s P :=
  ⟨_, hexec.trans (s.on_eq f), rfl, rfl, rfl, hblind _ hP⟩

/-- `gives_of_onReg` for a register on any page of the unit. -/
theorem gives_of_onReg_page {i : Instr} {s : State} {u : UnitId} {f : Chip → Chip × Bool} {pos : Nat} {P : Chip → Prop}
    (hexec : exec i s = s.onReg u f pos) (hu : answers s.chip u) (h8 : pos % 8 = 0)
    (hpage : pos / 4096 ≤ lastPage (unitType u)) (hblind : ∀ d no, P d → P (s.put (d.accessed 0 0 no)).chip)
    (hP : P (f s.chip).1) : gives i s P := by
  have hst : s.chip.accessStatus (regAddr u pos) = 0 :=
    (s.chip.accessStatus_regAddr u pos (exists_of_answers hu) h8 hpage (lastPage_lt _)).trans hu
  exact ⟨_, hexec.trans (s.onReg_ok u f pos hst), rfl, rfl, rfl, hblind _ _ hP⟩

theorem exec_gateTakeover (p : Port) (v : Word) (s : State) :
    exec (.gateTakeover p v) s = s.onReg (.port p) (fun c => (c.opGateTakeover p v, false)) 0x2010 := rfl

theorem exec_hostGateTakeover (v : Word) (s : State) :
    exec (.hostGateTakeover v) s = s.onReg .hostport (fun c => (c.opHostTakeover v, false)) 0x148 := rfl

theorem exec_gateEntryWrite (p : Port) (i : Fin 64) (v : Word) (s : State) :
    exec (.gateEntryWrite p i v) s
      = s.onReg (.port p) (fun c => (c.opGateEntry p i v, false)) (0x3000 + 8 * i.val) := rfl

theorem exec_gateTakeoverApply (p : Port) (s : State) :
    exec (.gateTakeoverApply p) s = s.on (fun c => c.gateApply p) := rfl

theorem exec_gateEntryExpiry (p : Port) (s : State) :
    exec (.gateEntryExpiry p) s = s.on (fun c => c.gateNext p) := rfl

/-! ### A port's GATE_TAKEOVER (R141, R142) -/

theorem Chip.opGateTakeover_accepted (c : Chip) (p : Port) (v : Word) (hlate : c.lateFor (getBits v 47 0) = false)
    (hbank : getBits v 56 56 ≠ c.fld (.port p) PORT.GATE_STS_active_bank) :
    c.opGateTakeover p v = ((c.plainWrite (.port p) 0x2010 v).1.setFld (.port p) PORT.GATE_STS_pending 1).modPort p
      (fun s => { s with takeover := some (getBits v 56 56, min 32 (getBits v 53 48), getBits v 47 0) }) := by
  simp only [Chip.opGateTakeover, hlate, hbank, Bool.false_eq_true, if_false]

/-- R141: a late course raises the port's event and the course unit's. -/
theorem Chip.opGateTakeover_late (c : Chip) (p : Port) (v : Word) (hlate : c.lateFor (getBits v 47 0) = true) :
    c.opGateTakeover p v
      = (c.raise (.port p) PORT.ev_gate_refused).raise .course COURSE.ev_late_schedule := by
  simp only [Chip.opGateTakeover, hlate, if_true]

/-- R142: the active bank raises the port's event alone. -/
theorem Chip.opGateTakeover_active (c : Chip) (p : Port) (v : Word) (hlate : c.lateFor (getBits v 47 0) = false)
    (hbank : getBits v 56 56 = c.fld (.port p) PORT.GATE_STS_active_bank) :
    c.opGateTakeover p v = c.raise (.port p) PORT.ev_gate_refused := by
  simp only [Chip.opGateTakeover, hlate, hbank, Bool.false_eq_true, if_false, if_true]

theorem gateTakeover_accepted_gives (s : State) (p : Port) (v : Word) (hu : answers s.chip (.port p))
    (hlate : s.chip.lateFor (getBits v 47 0) = false)
    (hbank : getBits v 56 56 ≠ s.chip.fld (.port p) PORT.GATE_STS_active_bank) :
    gives (.gateTakeover p v) s (fun d =>
      (d.port p).takeover = some (getBits v 56 56, min 32 (getBits v 53 48), getBits v 47 0)
      ∧ d.fld (.port p) PORT.GATE_STS_pending = 1 ∧ onlyUnit (.port p) s.chip d ∧ memKept s.chip d) := by
  refine gives_of_onReg_page (exec_gateTakeover p v s) hu (by decide) (show 2 ≤ 3 by decide) (fun _ _ h => h) ?_
  rw [s.chip.opGateTakeover_accepted p v hlate hbank]
  refine ⟨?_, ?_, ?_, memKept_plainWrite s.chip (.port p) 0x2010 v⟩
  · rw [Chip.modPort_same]
  · exact Chip.fld_setFld_same _ (.port p) PORT.GATE_STS_pending 1 (by decide)
  · exact onlyUnit_trans (onlyUnit_plainWrite s.chip (.port p) 0x2010 v (by decide))
      (onlyUnit_setFld _ (.port p) PORT.GATE_STS_pending 1 (by decide))

theorem gateTakeover_refused_gives (s : State) (p : Port) (v : Word) (hu : answers s.chip (.port p))
    (href : s.chip.lateFor (getBits v 47 0) = true
      ∨ getBits v 56 56 = s.chip.fld (.port p) PORT.GATE_STS_active_bank) :
    gives (.gateTakeover p v) s (fun d => d.ports = s.chip.ports ∧ raised d (.port p) PORT.ev_gate_refused
      ∧ (s.chip.lateFor (getBits v 47 0) = true → raised d .course COURSE.ev_late_schedule)
      ∧ regsBut [(.port p, 0x20), (.port p, 0x38), (.course, 0x20), (.course, 0x38)] s.chip d ∧ memKept s.chip d) := by
  refine gives_of_onReg_page (exec_gateTakeover p v s) hu (by decide) (show 2 ≤ 3 by decide) (fun _ _ h => h) ?_
  have hport : raised (s.chip.raise (.port p) PORT.ev_gate_refused) (.port p) PORT.ev_gate_refused :=
    raised_raise s.chip _ _ (by decide)
  have hregs : regsBut [(.port p, 0x20), (.port p, 0x38), (.course, 0x20), (.course, 0x38)] s.chip
      (s.chip.raise (.port p) PORT.ev_gate_refused) :=
    regsBut_mono (List.subset_append_left [_, _] [_, _]) (regsBut_raise s.chip _ _)
  cases hlate : s.chip.lateFor (getBits v 47 0) with
  | true =>
    rw [s.chip.opGateTakeover_late p v hlate]
    exact ⟨Chip.raise_ports .., raised_raise_unit _ hport (by simp), fun _ => raised_raise _ _ _ (by decide),
      regsBut_trans hregs (regsBut_mono (List.subset_append_right [_, _] [_, _]) (regsBut_raise _ _ _)),
      memKept_trans (memKept_raise s.chip _ _) (memKept_raise _ _ _)⟩
  | false =>
    have hbank := href.resolve_left (by simp [hlate])
    rw [s.chip.opGateTakeover_active p v hlate hbank]
    exact ⟨rfl, hport, fun h => absurd h (by decide), hregs, memKept_raise s.chip _ _⟩

/-! ### The host port's GATE_TAKEOVER (R388) -/

theorem Chip.opHostTakeover_accepted (c : Chip) (v : Word) (hlate : c.lateFor (getBits v 47 0) = false)
    (hbank : getBits v 56 56 ≠ c.fld .hostport HOSTPORT.HP_GATE_STS_active_bank) :
    c.opHostTakeover v = (let d := (c.plainWrite .hostport 0x148 v).1.setFld .hostport HOSTPORT.HP_GATE_STS_pending 1
      { d with host := { d.host with
          takeover := some (getBits v 56 56, min 16 (getBits v 53 48), getBits v 47 0) } }) := by
  simp only [Chip.opHostTakeover, hlate, hbank, Bool.false_eq_true, if_false]

theorem hostGateTakeover_accepted_gives (s : State) (v : Word) (hu : answers s.chip .hostport)
    (hlate : s.chip.lateFor (getBits v 47 0) = false)
    (hbank : getBits v 56 56 ≠ s.chip.fld .hostport HOSTPORT.HP_GATE_STS_active_bank) :
    gives (.hostGateTakeover v) s (fun d =>
      d.host.takeover = some (getBits v 56 56, min 16 (getBits v 53 48), getBits v 47 0)
      ∧ d.fld .hostport HOSTPORT.HP_GATE_STS_pending = 1 ∧ onlyUnit .hostport s.chip d ∧ memKept s.chip d) := by
  refine gives_of_onReg (exec_hostGateTakeover v s) hu (by decide) (by decide) (fun _ _ h => h) ?_
  rw [s.chip.opHostTakeover_accepted v hlate hbank]
  refine ⟨rfl, ?_, ?_, memKept_plainWrite s.chip .hostport 0x148 v⟩
  · exact Chip.fld_setFld_same _ .hostport HOSTPORT.HP_GATE_STS_pending 1 (by decide)
  · exact onlyUnit_trans (onlyUnit_plainWrite s.chip .hostport 0x148 v (by decide))
      (onlyUnit_setFld _ .hostport HOSTPORT.HP_GATE_STS_pending 1 (by decide))

/-! ### Gate entries (R142) -/

/-- The 64 entries of the two banks stand on the port's last page, one word each. -/
theorem gateEntry_pos (i : Fin 64) : (0x3000 + 8 * i.val) % 8 = 0 ∧ (0x3000 + 8 * i.val) / 4096 = 3 := by omega

theorem gateEntryWrite_active_gives (s : State) (p : Port) (i : Fin 64) (v : Word) (hu : answers s.chip (.port p))
    (hbank : i.val / 32 = s.chip.fld (.port p) PORT.GATE_STS_active_bank) :
    gives (.gateEntryWrite p i v) s (fun d => raised d (.port p) PORT.ev_gate_refused
      ∧ regsBut [(.port p, 0x20), (.port p, 0x38)] s.chip d ∧ memKept s.chip d) := by
  obtain ⟨h8, hpage⟩ := gateEntry_pos i
  refine gives_of_onReg_page (exec_gateEntryWrite p i v s) hu h8 hpage.le (fun _ _ h => h) ?_
  simp only [Chip.opGateEntry, if_pos hbank]
  exact ⟨raised_raise s.chip _ _ (by decide), regsBut_raise s.chip _ _, memKept_raise s.chip _ _⟩

theorem gateEntryWrite_idle_gives (s : State) (p : Port) (i : Fin 64) (v : Word) (hu : answers s.chip (.port p))
    (hbank : i.val / 32 ≠ s.chip.fld (.port p) PORT.GATE_STS_active_bank) :
    gives (.gateEntryWrite p i v) s (fun d =>
      d.reg (.port p) (0x3000 + 8 * i.val) = writeWord .port (0x3000 + 8 * i.val) (s.chip.held (.port p))
        (s.chip.reg (.port p) (0x3000 + 8 * i.val)) v
      ∧ regsBut [(.port p, 0x3000 + 8 * i.val), (.port p, 0x20), (.port p, 0x38)] s.chip d ∧ memKept s.chip d) := by
  obtain ⟨h8, hpage⟩ := gateEntry_pos i
  refine gives_of_onReg_page (exec_gateEntryWrite p i v s) hu h8 hpage.le (fun _ _ h => h) ?_
  simp only [Chip.opGateEntry, if_neg hbank]
  exact ⟨s.chip.plainWrite_reg (.port p) _ v (by omega) (by omega),
    regsBut_plainWrite s.chip (.port p) _ v (by omega), memKept_plainWrite s.chip (.port p) _ v⟩

/-! ### A takeover at its boundary (R139, R141) -/

/-- GATE_STS once a takeover of course `n` has made `count` entries of `bank` active (Table TC-5). -/
def Chip.gateStsTaken (c : Chip) (p : Port) (bank count n : Nat) : Chip :=
  (((c.setFld (.port p) PORT.GATE_STS_pending 0).setFld (.port p) PORT.GATE_STS_active_bank bank).setFld (.port p)
    PORT.GATE_STS_active_count count).setFld (.port p) PORT.GATE_STS_since_course n

/-- The fields of GATE_STS do not overlap: each reads what it was set to. -/
theorem Chip.gateStsTaken_fields (c : Chip) (p : Port) (bank count n : Nat) (hbank : bank ≤ 1) (hcount : count ≤ 32) :
    (c.gateStsTaken p bank count n).fld (.port p) PORT.GATE_STS_active_bank = bank
      ∧ (c.gateStsTaken p bank count n).fld (.port p) PORT.GATE_STS_active_count = count
      ∧ (c.gateStsTaken p bank count n).fld (.port p) PORT.GATE_STS_pending = 0 := by
  simp (disch := decide) only [gateStsTaken, Chip.fld_setFld_beside, Chip.fld_setFld_same]
  exact ⟨Nat.mod_eq_of_lt (by omega), Nat.mod_eq_of_lt (by omega), Nat.zero_mod _⟩

theorem onlyUnit_gateStsTaken (c : Chip) (p : Port) (bank count n : Nat) :
    onlyUnit (.port p) c (c.gateStsTaken p bank count n) :=
  onlyUnit_trans (onlyUnit_trans (onlyUnit_trans (onlyUnit_setFld c _ _ _ (by decide))
    (onlyUnit_setFld _ _ _ _ (by decide))) (onlyUnit_setFld _ _ _ _ (by decide))) (onlyUnit_setFld _ _ _ _ (by decide))

theorem memKept_gateStsTaken (c : Chip) (p : Port) (bank count n : Nat) :
    memKept c (c.gateStsTaken p bank count n) :=
  memKept_of_eq (by simp only [Chip.gateStsTaken, Chip.setFld_mem]) (by simp only [Chip.gateStsTaken, Chip.setFld_bad])

/-- R141: at the boundary of its course the scheduled takeover is done. -/
theorem Chip.gateApply_due (c : Chip) (p : Port) (bank count : Nat)
    (h : (c.port p).takeover = some (bank, count, c.courseNow)) :
    c.gateApply p = (c.gateStsTaken p bank count c.courseNow).modPort p
      (fun s => { s with takeover := none, gateIx := 0, gateAt := c.course.boundaryAt + 2 }) := by
  simp only [Chip.gateApply, h, ne_eq, not_true_eq_false, if_false]
  rfl

theorem gateTakeoverApply_gives (s : State) (p : Port) (bank count : Nat) (hbank : bank ≤ 1) (hcount : count ≤ 32)
    (htake : (s.chip.port p).takeover = some (bank, count, s.chip.courseNow)) :
    gives (.gateTakeoverApply p) s (fun d => d.fld (.port p) PORT.GATE_STS_active_bank = bank
      ∧ d.fld (.port p) PORT.GATE_STS_active_count = count ∧ d.fld (.port p) PORT.GATE_STS_pending = 0
      ∧ (d.port p).takeover = none ∧ (d.port p).gateIx = 0 ∧ (d.port p).gateAt = s.chip.course.boundaryAt + 2
      ∧ onlyUnit (.port p) s.chip d ∧ memKept s.chip d) := by
  refine gives_of_on (exec_gateTakeoverApply p s) (fun _ h => h) ?_
  obtain ⟨hb, hc, hp⟩ := s.chip.gateStsTaken_fields p bank count s.chip.courseNow hbank hcount
  rw [s.chip.gateApply_due p bank count htake, Chip.modPort_same]
  exact ⟨hb, hc, hp, rfl, rfl, rfl, onlyUnit_gateStsTaken s.chip p bank count s.chip.courseNow,
    memKept_gateStsTaken s.chip p bank count s.chip.courseNow⟩

/-! ### The next entry of a list (R139) -/

/-- R139: the entry in force has run its slots, and a further one stands in the list. -/
def GateView.due (g : GateView) : Bool :=
  decide (g.ix + 1 < g.count) && decide (((g.entries.getD g.ix (0, 0)).1 : Int) ≤ g.elapsed)

theorem Chip.gateNext_eq (c : Chip) (p : Port) :
    c.gateNext p = if (c.gateView p).due then c.modPort p (fun s => { s with
      gateIx := s.gateIx + 1
      gateAt := s.gateAt + ((c.gateView p).entries.getD (c.gateView p).ix (0, 0)).1 }) else c := rfl

theorem gateEntryExpiry_gives (s : State) (p : Port) :
    gives (.gateEntryExpiry p) s (fun d =>
      (d.port p).gateIx = (s.chip.port p).gateIx + (if (s.chip.gateView p).due then 1 else 0)
      ∧ (d.port p).gateAt = (s.chip.port p).gateAt
        + (if (s.chip.gateView p).due then ((s.chip.gateView p).entries.getD (s.chip.gateView p).ix (0, 0)).1 else 0)
      ∧ regsBut [] s.chip d ∧ memKept s.chip d) := by
  refine gives_of_on (exec_gateEntryExpiry p s) (fun _ h => h) ?_
  rw [s.chip.gateNext_eq p]
  cases (s.chip.gateView p).due with
  | true =>
    simp only [if_true, Chip.modPort_same]
    exact ⟨trivial, trivial, fun _ _ _ _ => rfl, memKept_of_eq rfl rfl⟩
  | false => exact ⟨rfl, rfl, fun _ _ _ _ => rfl, memKept_of_eq rfl rfl⟩

/-- Settles O24: GATE_TAKEOVER is scheduled or refused as R141, R142 and R388 say, an entry can be written in the bank that
is not active, and the list moves on at its boundary and within its course as R139 and R141 say. -/
theorem gateListsAreWrittenAndAdvance : Obligations.GateListsAreWrittenAndAdvance := by
  refine ⟨gateTakeover_accepted_gives, gateTakeover_refused_gives, hostGateTakeover_accepted_gives,
    fun s p i v hu => ?_, gateTakeoverApply_gives, gateEntryExpiry_gives⟩
  split
  · next hbank => exact gateEntryWrite_active_gives s p i v hu hbank
  · next hbank => exact gateEntryWrite_idle_gives s p i v hu hbank

end Sys2Proof.Machine
end

section
/-! PROOFS. The key store (spec/20): no run of commands writes the fuses (R470). A command that does not stop answers with
`State.put`, which takes the chip that the command leaves but for its fuses and its clock. -/
namespace Sys2Proof.Machine

/-! ### What a command answers -/

/-- Every next state in the answer `o` is a `put` of some chip into `s`. -/
def putsInto (s : State) (o : Host.Outcome State Fault Refusal) : Prop :=
  ∀ t, o = .next t → ∃ c, t = s.put c

theorem putsInto_next (s : State) (c : Chip) : putsInto s (.next (s.put c)) := by
  rintro t ⟨⟩
  exact ⟨c, rfl⟩

/-- The form of the commands that the debug pages can stop (R474). -/
theorem putsInto_faultIf (s : State) (stuck : Prop) [Decidable stuck] (r : Fault) (c : Chip) :
    putsInto s (if stuck then .fault r else .next (s.put c)) := by
  split
  · intro t ht
    cases ht
  · exact putsInto_next s c

/-- Only the commands that write a register at an address of their own can stop; every other one answers a next state. -/
theorem exec_eq_put (i : Instr) (s : State) (hi : addressesARegister i = false) :
    ∃ c, exec i s = .next (s.put c) := by
  cases i with
  | registerWrite | regBatch | scheduledBatch | bundleCommit => cases hi
  | _ => exact ⟨_, rfl⟩

/-- Whatever the command, a next state that it answers is a `put`. -/
theorem exec_putsInto (i : Instr) (s : State) : putsInto s (exec i s) := by
  cases hi : addressesARegister i with
  | false =>
    obtain ⟨c, hc⟩ := exec_eq_put i s hi
    rw [hc]
    exact putsInto_next s c
  | true =>
    cases i with
    | registerWrite | regBatch | scheduledBatch | bundleCommit => exact putsInto_faultIf s _ _ _
    | _ => cases hi

/-! ### From one step to a run -/

/-- What every step keeps, every run keeps. -/
theorem core_run_keeps {P : State → Prop} (hstep : ∀ s t, step s = .next t → P s → P t) (k : Nat) :
    ∀ s t : State, core.run k s = .next t → P s → P t := by
  induction k with
  | zero =>
    rintro s t ⟨⟩ hs
    exact hs
  | succ k ih =>
    intro s t hrun hs
    simp only [Host.Core.run] at hrun
    split at hrun
    · next u hu => exact ih u t hrun (hstep s u hu hs)
    · cases hrun
    · cases hrun

/-- R470 for one step: an s-cycle without a command writes no fuse, and a command's `put` keeps them. -/
theorem step_fuses (s t : State) (h : step s = .next t) : t.chip.fuses = s.chip.fuses := by
  cases hq : s.pending with
  | nil =>
    rw [step_nil s hq] at h
    cases h
    rfl
  | cons i rest =>
    rw [step_cons s i rest hq] at h
    obtain ⟨c, rfl⟩ := exec_putsInto i _ t h
    exact State.put_fuses _ c

/-- Settles O3: every step keeps the fuses (R470), so every run does. -/
theorem noRunWritesTheFuses : Obligations.NoRunWritesTheFuses := by
  intro k s t hrun
  exact core_run_keeps (P := fun u => u.chip.fuses = s.chip.fuses)
    (fun u v huv hu => (step_fuses u v huv).trans hu) k s t hrun rfl

end Sys2Proof.Machine
end
